-- ==== Sys2Proof/Word.lean ====
section
/-! DEFINITION. The word types of the RB816: the byte of the render ports and the 16-bit raster word (00 section 6). -/

namespace Sys2Proof

/-- A byte of a frame (R185). -/
abbrev Byte := BitVec 8

/-- A raster word: the unit of band RAM, staging RAM and tiles (R1, 00 section 5). -/
abbrev Word := BitVec 16

end Sys2Proof
end

