-- ==== Sys2Proof/Config.lean ====
section
/-! DEFINITION. What one RB816 fixes (the sizes of its summary table, 00 section 1.1) and the values its manual leaves free. -/

namespace Sys2Proof.Config

/-- Band slots (R1). -/
def slotCount : Nat := 8
/-- Words of one slot (R1). -/
def slotWords : Nat := 32768
/-- Words of staging RAM per port (R113). -/
def stagingWords : Nat := 1024
/-- Entries of one command queue (R113). -/
def queueEntries : Nat := 8
/-- Page records of the page queue (R26). -/
def queuePages : Nat := 4
/-- Records of an event queue that are not OVERFLOW (R175). -/
def eventRecords : Nat := 15
/-- Tiles of the tile store (R79). -/
def tileCount : Nat := 8
/-- Rows, and words, of one tile (R79). -/
def tileRows : Nat := 16
/-- Payload words the frame assembler can hold (R186). -/
def payloadWords : Nat := 512
/-- Periods of the 96 MHz internal clock in one millisecond (R88, R136). -/
def clockPerMs : Nat := 96000

/-- The memories whose contents the manual leaves undefined after device reset (R23, R79). -/
inductive RamRegion
  | band
  | tile
  | stagingA
  | stagingB
deriving DecidableEq, Repr

/-- Free value (log 4): what a word of a memory holds after device reset number `epoch`, before anything has written it. -/
opaque undefinedWord (region : RamRegion) (epoch address : Nat) : Word

/-- Free value (log 32): the level that a port whose select is low drives on ASDO while no frame is in progress. -/
opaque strayLevel (k : Nat) : Bool

/-- Free value (log 7): which of the events that come due together the part takes first. -/
opaque raceOrder (k : Nat) : Nat

end Sys2Proof.Config
end

