-- ==== Sys2Proof/Syntax.lean ====
section
/-! DEFINITION. The commands the RB816 takes: one constructor per row of spec/opcode_table.json, with the row's operands. -/

namespace Sys2Proof

/-- A render port (R185). -/
inductive Port
  | a
  | b
deriving DecidableEq, Repr

/-- The part of a frame that a frame command stands for (R186; log 1): the command byte completes; whole bytes of the body are
shifted; or `body` and then `bits` bits of an unfinished byte are shifted and select rises. -/
inductive FrameStage
  | commandByte
  | bytes (body : List Byte)
  | selectHigh (body : List Byte) (bits : Nat)
deriving DecidableEq, Repr

/-- The two moments of HOLD high that R147 speaks of (log 27). -/
inductive HoldMoment
  | rises
  | wordEnd (word : Nat)
deriving DecidableEq, Repr

/-- The commands: a frame of a render port, an engine input, a reset, or an event of the part's own clock. -/
inductive Instr
  | deviceReset
  | frameResultByte (p : Port)
  | badFrame (p : Port) (bits : Nat)
  | unknownCommand (p : Port) (code : Byte) (st : FrameStage)
  | nop (p : Port) (st : FrameStage)
  | readStatus (p : Port) (st : FrameStage)
  | readEvents (p : Port) (st : FrameStage)
  | eventRecordRemoval (p : Port)
  | readPages (p : Port) (st : FrameStage)
  | readBands (p : Port) (st : FrameStage)
  | openPage (p : Port) (st : FrameStage)
  | abortPage (p : Port) (st : FrameStage)
  | setEngine (p : Port) (st : FrameStage)
  | setPort (p : Port) (st : FrameStage)
  | portReset (p : Port) (st : FrameStage)
  | fill (p : Port) (st : FrameStage)
  | putBits (p : Port) (st : FrameStage)
  | copy (p : Port) (st : FrameStage)
  | loadTile (p : Port) (st : FrameStage)
  | closeBand (p : Port) (st : FrameStage)
  | leavePage (p : Port) (st : FrameStage)
  | mark (p : Port) (st : FrameStage)
  | sumBand (p : Port) (st : FrameStage)
  | consideration
  | commandEnd
  | clearCompletion
  | prdyReassert
  | top (level : Bool)
  | lreq (level : Bool)
  | held (moment : HoldMoment)
  | holdLow
  | lastBitSent
  | lack (level : Bool)
  | earlyLackWordEnd
  | acknowledgeWindowExpiry
  | starvationTimerExpiry
  | resetnRises
  | wordInFlightSent
deriving DecidableEq, Repr

end Sys2Proof
end

