-- ==== Sys2Proof/WellFormed.lean ====
section
/-! DEFINITION. Which commands can reach the part. The machine is total on the others too (log 3); these checks say what a sender may send. -/

namespace Sys2Proof

/-- The command bytes of R200's table. -/
def knownCodes : List Byte :=
  [0x00, 0x21, 0x22, 0x23, 0x24, 0x30, 0x31, 0x32, 0x33, 0x3C, 0x81, 0x82, 0x83, 0x84, 0x88, 0x89, 0x8A, 0x8B]

/-- An unfinished byte has fewer than eight bits (R185). -/
def FrameStage.wellFormed : FrameStage → Bool
  | .commandByte => true
  | .bytes _ => true
  | .selectHigh _ bits => bits < 8

/-- HOLD pauses a line after a word that is not its last, and a line has at most 640 words (R147, R71). -/
def HoldMoment.wellFormed : HoldMoment → Bool
  | .rises => true
  | .wordEnd word => word < 639

/-- The commands a sender may send. -/
def Instr.wellFormed : Instr → Bool
  | .deviceReset => true
  | .frameResultByte _ => true
  | .badFrame _ bits => bits < 8
  | .unknownCommand _ code st => !knownCodes.contains code && st.wellFormed
  | .nop _ st => st.wellFormed
  | .readStatus _ st => st.wellFormed
  | .readEvents _ st => st.wellFormed
  | .eventRecordRemoval _ => true
  | .readPages _ st => st.wellFormed
  | .readBands _ st => st.wellFormed
  | .openPage _ st => st.wellFormed
  | .abortPage _ st => st.wellFormed
  | .setEngine _ st => st.wellFormed
  | .setPort _ st => st.wellFormed
  | .portReset _ st => st.wellFormed
  | .fill _ st => st.wellFormed
  | .putBits _ st => st.wellFormed
  | .copy _ st => st.wellFormed
  | .loadTile _ st => st.wellFormed
  | .closeBand _ st => st.wellFormed
  | .leavePage _ st => st.wellFormed
  | .mark _ st => st.wellFormed
  | .sumBand _ st => st.wellFormed
  | .consideration => true
  | .commandEnd => true
  | .clearCompletion => true
  | .prdyReassert => true
  | .top _ => true
  | .lreq _ => true
  | .held moment => moment.wellFormed
  | .holdLow => true
  | .lastBitSent => true
  | .lack _ => true
  | .earlyLackWordEnd => true
  | .acknowledgeWindowExpiry => true
  | .starvationTimerExpiry => true
  | .resetnRises => true
  | .wordInFlightSent => true

end Sys2Proof
end

