-- ==== Sys2Proof/Decode.lean ====
section
/-! DEFINITION. Reading commands: the table's words (none of its rows gives bits), and the bytes of a whole frame by R200's command table. -/

namespace Sys2Proof

/-- The command a word spells by the table's bits: no row of spec/opcode_table.json gives any bit, so no word spells one. -/
def decodeTableWord (_nbits _w : Nat) : Option Instr := none

/-- The row that a command byte names, with the frame stage to give it (R200). -/
def commandOfCode (p : Port) (code : Byte) (st : FrameStage) : Instr :=
  if code = 0x00 then .nop p st
  else if code = 0x21 then .readStatus p st
  else if code = 0x22 then .readEvents p st
  else if code = 0x23 then .readPages p st
  else if code = 0x24 then .readBands p st
  else if code = 0x30 then .openPage p st
  else if code = 0x31 then .abortPage p st
  else if code = 0x32 then .setEngine p st
  else if code = 0x33 then .setPort p st
  else if code = 0x3C then .portReset p st
  else if code = 0x81 then .fill p st
  else if code = 0x82 then .putBits p st
  else if code = 0x83 then .copy p st
  else if code = 0x84 then .loadTile p st
  else if code = 0x88 then .closeBand p st
  else if code = 0x89 then .leavePage p st
  else if code = 0x8A then .mark p st
  else if code = 0x8B then .sumBand p st
  else .unknownCommand p code st

/-- The command that a whole frame of port `p` is: its bytes, command byte first, and `bits` bits of an unfinished byte before
select rises (R186, R188, R200). A frame without a whole command byte is BAD FRAME. -/
def commandOfFrame (p : Port) (bytes : List Byte) (bits : Nat) : Instr :=
  match bytes with
  | [] => .badFrame p bits
  | code :: body => commandOfCode p code (.selectHigh body bits)

end Sys2Proof
end

