-- ==== Sys2Proof/Machine/State.lean ====
section
/-! DEFINITION. The state of the RB816 as plain data, its reset value, and the reasons a step can stop. -/

namespace Sys2Proof.Machine

/-- Why a step stops with a fault. -/
inductive Fault
  /-- A band, or the rectangle being drawn, reaches a word its slot does not have (R1). Raised by CLEAR_COMPLETION, COMMAND_END and the
  clock. Safe: OPEN PAGE and clipping keep every run from reset away from it (log 11). -/
  | bandRamAddress
deriving DecidableEq, Repr

/-- Why a command has no meaning. -/
inductive Refusal
  /-- Raised by an arm of exec whose command has no meaning yet; no arm of this model does. Safe. -/
  | notModelled (mnemonic : String)
deriving DecidableEq, Repr

/-- One thing for each render port. -/
structure Both (α : Type) where
  a : α
  b : α
deriving DecidableEq, Repr

/-- A set of ports: {}, {A}, {B} or {A, B} (00 section 6). -/
structure PortSet where
  a : Bool
  b : Bool
deriving DecidableEq, Repr

/-- A memory of words: (address, word) pairs, addresses strictly rising; an unlisted word has not been written since device reset (log 5). -/
abbrev WordRam := List (Nat × Word)

/-- The name of a page record: tag and instance together (R27). -/
structure PageRef where
  tag : Byte
  inst : BitVec 16
deriving DecidableEq, Repr

/-- The states of a slot that holds a band (R2). -/
inductive HeldState
  | clearing
  | opened
  | ready
  | streaming
deriving DecidableEq, Repr

/-- The fields of a slot record that are absent while the slot is FREE (R2). -/
structure BandRecord where
  page : PageRef
  band : Nat
  lines : Nat
  width : Nat
  background : Bool
  closedBy : PortSet
  forced : Bool
  forcePending : Bool
deriving DecidableEq, Repr

/-- What a clear completion claim names: the slot, the page and the band (R5, R12). -/
structure ClearClaim where
  slot : Nat
  page : PageRef
  band : Nat
deriving DecidableEq, Repr

/-- A slot record (R2): a FREE slot has no page, band, lines, width or background (R3). -/
inductive Slot
  | free
  | held (state : HeldState) (band : BandRecord)
deriving DecidableEq, Repr

/-- Page states (R25). -/
inductive PageState
  | pending
  | offered
  | printing
  | blanking
deriving DecidableEq, Repr

/-- Spoil causes (R25, R165). -/
inductive SpoilCause
  | underrun
  | starved
  | slip
  | aborted
deriving DecidableEq, Repr

/-- A page record (R25). -/
structure PageRecord where
  ref : PageRef
  opener : Port
  participants : PortSet
  bandCount : Nat
  bandHeight : Nat
  lastBandHeight : Nat
  width : Nat
  background : Bool
  lead : Nat
  copies : Nat
  resident : Bool
  state : PageState
  nextToAllocate : Nat
  nextToStream : Nat
  copiesRemaining : Nat
  linesServed : Nat
  spoilCause : Option SpoilCause
deriving DecidableEq, Repr

/-- Event kinds that a queue can hold (R173). -/
inductive EventKind
  | bandAvailable
  | bandForced
  | pageStarted
  | pageDone
  | pageSpoiled
  | pageAborted
  | participantLeft
  | cmdDone
  | cmdWarn
  | cmdError
  | mark
  | sum
  | engineFault
  | overflow
deriving DecidableEq, Repr

/-- An event record (R172). -/
structure Event where
  kind : EventKind
  pageTag : Option Byte
  band : Option Nat
  commandTag : Option Byte
  detail : Word
deriving DecidableEq, Repr

/-- Outcome codes of a frame (R191). -/
inductive FrameOutcome
  | ok
  | badFrame
  | unknownCommand
  | badParam
  | queueFull
  | stagingFull
  | noPage
  | notParticipant
  | tagInUse
  | pageQueueFull
  | engineBusy
  | lastParticipant
deriving DecidableEq, Repr

/-- Execution error codes (R191). -/
inductive ExecError
  | pageGone
  | notParticipant
  | bandClosed
  | bandForced
  | bandPassed
  | pageAborted
  | tileEmpty
  | lastParticipant
deriving DecidableEq, Repr

/-- Sources of a FILL (R78). -/
inductive FillSource
  | solid (value : Bool)
  | tile (t : Nat)
deriving DecidableEq, Repr

/-- The kind of a queued command with the rest of its operands (R114). -/
inductive Operation
  | fill (x y w h : Nat) (fn : BitVec 4) (source : FillSource)
  | putBits (x y w rows : Nat) (fn : BitVec 4)
  | copy (sx sy dx dy w h : Nat) (fn : BitVec 4)
  | loadTile (t : Nat)
  | closeBand
  | leavePage
  | mark (value : Word)
  | sumBand
deriving DecidableEq, Repr

/-- Life states of an entry (R115). -/
inductive LifeState
  | queued
  | waiting
  | executing
deriving DecidableEq, Repr

/-- An entry of a command queue (R114). -/
structure Entry where
  op : Operation
  commandTag : Byte
  notify : Bool
  page : Option PageRef
  band : Option Nat
  payloadLength : Nat
  stagingPosition : Option Nat
  life : LifeState
deriving DecidableEq, Repr

/-- A rectangle in band coordinates (R73). -/
structure Rect where
  x : Nat
  y : Nat
  w : Nat
  h : Nat
deriving DecidableEq, Repr

/-- An effective rectangle and whether clipping made it smaller than the requested one (R74, R86). -/
structure Clip where
  rect : Rect
  clipped : Bool
deriving DecidableEq, Repr

/-- The execution record (R86), with what the Raster Unit keeps about the command's rows and payload (R84, R88, R97, R112). -/
structure ExecRecord where
  port : Port
  op : Operation
  commandTag : Byte
  notify : Bool
  page : Option PageRef
  band : Option Nat
  slot : Option Nat
  clip : Option Clip
  row : Nat
  runningSum : Option Word
  stopRequested : Bool
  silent : Bool
  /-- First staging word and length of the payload (R112). -/
  stagingPosition : Nat
  payloadLength : Nat
  /-- Rows to process, and words of each (R75, R85, R102). -/
  rows : Nat
  rowWords : Nat
  /-- The word of the row being processed, and the clock periods spent on it (R88). -/
  rowWord : Nat
  period : Nat
  /-- The last row, or the row a stop let finish, has ended (R89). -/
  finished : Bool
  /-- The row buffer of a COPY (R84). -/
  rowBuffer : List Word
  /-- The page line of the band's line 0 (R72). -/
  firstPageLine : Nat
deriving DecidableEq, Repr

/-- The states of a frame assembler (R186). -/
inductive FrameState
  | betweenFrames
  | command
  | body
  | ignoring
deriving DecidableEq, Repr

/-- The event record that READ EVENTS is shifting out: bytes already sent, and whether it stands in the queue or is a NONE (R177, R179). -/
structure RecordOut where
  sent : Nat
  real : Bool
deriving DecidableEq, Repr

/-- A frame assembler (R186): its state, the bytes held, the bytes counted, and the bytes still to be driven on ASDO. -/
structure FrameAssembler where
  state : FrameState
  commandByte : Option Byte
  stored : List Byte
  count : Nat
  outData : List Byte
  record : Option RecordOut
deriving DecidableEq, Repr

/-- One render port with its command queue and event queue. -/
structure PortState where
  /-- The level of ASELn: true is high (R185). -/
  selectHigh : Bool
  assembler : FrameAssembler
  outcome : FrameOutcome
  interruptEnable : Bool
  events : List Event
  queue : List Entry
  staging : WordRam
  /-- The whole bytes driven on ASDO in the frame under way, or in the last one (log 15). -/
  asdo : List Byte
  /-- The bits driven on ASDO, after those, of the unfinished byte with which the last frame ended (R185; log 15). -/
  asdoBits : List Bool
deriving DecidableEq, Repr

/-- Where the line in flight comes from (R138). -/
inductive LineSource
  | slot (i : Nat)
  | background
deriving DecidableEq, Repr

/-- A line being sent: its source, the word now sent, the bits of it already driven, whether its last bit's period has ended, and
whether an early LACK waits for that end (R138, R146, R148). -/
structure LineInFlight where
  source : LineSource
  word : Nat
  bits : Nat
  wordDone : Bool
  early : Bool
deriving DecidableEq, Repr

/-- The Streamer's state with the fields each state has (R138, R159). -/
inductive StreamerState
  | idle
  | offered (page : PageRef)
  | betweenLines (page : PageRef)
  | sending (page : PageRef) (line : LineInFlight)
  | held (page : PageRef) (source : LineSource) (word : Nat)
  | ackWait (page : PageRef) (source : LineSource) (windowCount : Nat)
  | starved (page : PageRef) (band : Nat) (timer : Nat) (expired : Bool)
deriving DecidableEq, Repr

/-- Engine kinds (R136). -/
inductive EngineKind
  | nostall
  | stall
deriving DecidableEq, Repr

/-- The engine configuration (R136). -/
structure EngineConfig where
  kind : EngineKind
  starvationLimit : Nat
  acknowledgeWindow : Nat
  videoDivisor : Nat
deriving DecidableEq, Repr

/-- The word in flight of a line whose page was removed (R169), and whether it is the line's first word, whose first bit LSTB marks (R135). -/
structure TailWord where
  word : Word
  first : Bool
  bits : Nat
  done : Bool
deriving DecidableEq, Repr

/-- Levels of the engine's inputs (R134). -/
structure Pins where
  top : Bool
  lreq : Bool
  lack : Bool
  hold : Bool
deriving DecidableEq, Repr

/-- The whole part. -/
structure State where
  /-- The commands that wait, first in, first out. -/
  pending : List Instr
  /-- RESETn is low (R198). -/
  resetHeld : Bool
  pins : Pins
  /-- The band table (R2), the in-flight mark (R15), and the Clear Unit's order and progress (R10, R11). -/
  slots : List Slot
  inFlight : Option Nat
  clearOrder : List Nat
  clearPos : Nat
  /-- What the CLEAR_COMPLETIONs that wait name, in the queue's order, as far as it is settled (R5; log 33). -/
  clearClaims : List ClearClaim
  bandRam : WordRam
  /-- The page queue (R26) and the instance counter (R27). -/
  pages : List PageRecord
  nextInstance : BitVec 16
  /-- The Raster Unit (R79, R86, R128). -/
  tileRam : WordRam
  tileLoaded : List Bool
  execution : Option ExecRecord
  pointer : Port
  ports : Both PortState
  /-- The Streamer and the engine interface (R135 to R139, R169). -/
  streamer : StreamerState
  engine : EngineConfig
  prdyLow : Option Nat
  tail : Option TailWord
  videoPhase : Nat
  vdat : Bool
  lineOut : List Word
  /-- The model's own counters: device resets taken (log 4), free choices made (log 7). -/
  ramEpoch : Nat
  freeCount : Nat
deriving DecidableEq, Repr

/-- The assembler with nothing held (R186). -/
def FrameAssembler.empty : FrameAssembler :=
  { state := .betweenFrames, commandByte := none, stored := [], count := 0, outData := [], record := none }

/-- A port after device reset (R133, R183, R186, R187). -/
def PortState.reset : PortState :=
  { selectHigh := true, assembler := .empty, outcome := .ok, interruptEnable := false, events := [], queue := [], staging := [],
    asdo := [], asdoBits := [] }

/-- The engine configuration after device reset (R136). -/
def EngineConfig.reset : EngineConfig :=
  { kind := .nostall, starvationLimit := 50, acknowledgeWindow := 4, videoDivisor := 8 }

/-- The machine right after device reset, RESETn having risen (R23, R51, R110, R133, R156, R183, R198; log 16, 17). -/
def State.reset : State :=
  { pending := [], resetHeld := false, pins := { top := false, lreq := false, lack := false, hold := false },
    slots := List.replicate Config.slotCount .free, inFlight := none, clearOrder := [], clearPos := 0,
    clearClaims := [], bandRam := [],
    pages := [], nextInstance := 0, tileRam := [], tileLoaded := List.replicate Config.tileCount false, execution := none,
    pointer := .b, ports := { a := .reset, b := .reset }, streamer := .idle, engine := .reset, prdyLow := none, tail := none,
    videoPhase := 0, vdat := false, lineOut := [], ramEpoch := 0, freeCount := 0 }

end Sys2Proof.Machine
end

