-- ==== Sys2Proof/Machine/Ops.lean ====
section
/-! DEFINITION. The named operations of the part over its state: ports, memories, events, slots, pages, allocation, release, the offer,
readiness, the line, and the ends of bands, lines, copies and pages. Each follows the rule its docstring cites. -/

namespace Sys2Proof

/-- The port that is not this one (00 section 6). -/
def Port.other : Port → Port
  | .a => .b
  | .b => .a

end Sys2Proof

namespace Sys2Proof.Machine

/-! ## Ports and port sets -/

def Both.get {α : Type} (x : Both α) : Port → α
  | .a => x.a
  | .b => x.b

def Both.set {α : Type} (x : Both α) (p : Port) (v : α) : Both α :=
  match p with
  | .a => { x with a := v }
  | .b => { x with b := v }

def PortSet.has (ps : PortSet) : Port → Bool
  | .a => ps.a
  | .b => ps.b

def PortSet.add (ps : PortSet) : Port → PortSet
  | .a => { ps with a := true }
  | .b => { ps with b := true }

def PortSet.remove (ps : PortSet) : Port → PortSet
  | .a => { ps with a := false }
  | .b => { ps with b := false }

def PortSet.isEmpty (ps : PortSet) : Bool := !ps.a && !ps.b

/-- Every port of `ps` is in `qs`. -/
def PortSet.within (ps qs : PortSet) : Bool := (!ps.a || qs.a) && (!ps.b || qs.b)

/-- The ports of `ps` that are not in `qs`. -/
def PortSet.minus (ps qs : PortSet) : PortSet := { a := ps.a && !qs.a, b := ps.b && !qs.b }

def PortSet.empty : PortSet := { a := false, b := false }

def PortSet.both : PortSet := { a := true, b := true }

/-- A port and what stands behind it. -/
def State.port (s : State) (p : Port) : PortState := s.ports.get p

/-- Change what stands behind one port, and nothing else. -/
def State.updPort (s : State) (p : Port) (f : PortState → PortState) : State :=
  { s with ports := s.ports.set p (f (s.ports.get p)) }

/-! ## Memories of words -/

/-- The canonical form of a memory: addresses strictly rising (log 5). -/
abbrev WordRam.wf (m : WordRam) : Prop := (m.map Prod.fst).Pairwise (· < ·)

/-- What is listed at an address. -/
def ramLookup : WordRam → Nat → Option Word
  | [], _ => none
  | (k, w) :: m, a => if k = a then some w else ramLookup m a

/-- A word of a memory; one that nothing has written since device reset is a free value (R23, R79; log 4). -/
def ramRead (region : Config.RamRegion) (epoch : Nat) (m : WordRam) (a : Nat) : Word :=
  match ramLookup m a with
  | some w => w
  | none => Config.undefinedWord region epoch a

/-- Write one word, keeping the canonical form. -/
def ramWrite : WordRam → Nat → Word → WordRam
  | [], a, v => [(a, v)]
  | (k, w) :: m, a, v =>
    if a < k then (a, v) :: (k, w) :: m
    else if a = k then (a, v) :: m
    else (k, w) :: ramWrite m a v

/-- The band RAM word `w` of slot `i` (R1). -/
def slotAddress (i w : Nat) : Nat := i * Config.slotWords + w

def State.readBand (s : State) (address : Nat) : Word := ramRead .band s.ramEpoch s.bandRam address

def State.writeBand (s : State) (address : Nat) (v : Word) : State := { s with bandRam := ramWrite s.bandRam address v }

/-- Row `r` of tile `t` (R79). -/
def State.tileRow (s : State) (t r : Nat) : Word := ramRead .tile s.ramEpoch s.tileRam (t * Config.tileRows + r)

/-- The region a port's staging RAM is (R113). -/
def stagingRegion : Port → Config.RamRegion
  | .a => .stagingA
  | .b => .stagingB

/-- The staging word `k` of the ring of port `p` (R116). -/
def State.stagingWord (s : State) (p : Port) (k : Nat) : Word :=
  ramRead (stagingRegion p) s.ramEpoch (s.port p).staging (k % Config.stagingWords)

/-- Place a payload in a staging ring from word `at` on (R116). -/
def stagingPlace : WordRam → Nat → List Word → WordRam
  | m, _, [] => m
  | m, pos, w :: ws => stagingPlace (ramWrite m (pos % Config.stagingWords) w) (pos + 1) ws

/-! ## Events -/

/-- The code of an event kind (R173). -/
def EventKind.code : EventKind → Nat
  | .bandAvailable => 1
  | .bandForced => 2
  | .pageStarted => 3
  | .pageDone => 4
  | .pageSpoiled => 5
  | .pageAborted => 6
  | .participantLeft => 7
  | .cmdDone => 8
  | .cmdWarn => 9
  | .cmdError => 10
  | .mark => 11
  | .sum => 12
  | .engineFault => 13
  | .overflow => 14

/-- The code of a spoil cause (R165). -/
def SpoilCause.code : SpoilCause → Nat
  | .underrun => 1
  | .starved => 2
  | .slip => 3
  | .aborted => 4

/-- The code of an execution error (R191). -/
def ExecError.code : ExecError → Nat
  | .pageGone => 1
  | .notParticipant => 2
  | .bandClosed => 3
  | .bandForced => 4
  | .bandPassed => 5
  | .pageAborted => 6
  | .tileEmpty => 7
  | .lastParticipant => 8

/-- A page event (R173). -/
def Event.ofPage (kind : EventKind) (tag : Byte) (detail : Nat) : Event :=
  { kind := kind, pageTag := some tag, band := none, commandTag := none, detail := BitVec.ofNat 16 detail }

/-- A band event (R173). -/
def Event.ofBand (kind : EventKind) (tag : Byte) (band : Nat) : Event :=
  { kind := kind, pageTag := some tag, band := some band, commandTag := none, detail := 0 }

/-- A command event (R173). -/
def Event.ofCommand (kind : EventKind) (tag : Byte) (detail : Word) : Event :=
  { kind := kind, pageTag := none, band := none, commandTag := some tag, detail := detail }

/-- An ENGINE FAULT (R155, R173): 1 UNEXPECTED TOP, 2 UNEXPECTED LREQ, 3 UNEXPECTED LACK, 4 SLIP WHILE BLANKING. -/
def Event.engineFault (detail : Nat) : Event :=
  { kind := .engineFault, pageTag := none, band := none, commandTag := none, detail := BitVec.ofNat 16 detail }

/-- The OVERFLOW record that names the first dropped kind (R175). -/
def Event.overflowOf (dropped : EventKind) : Event :=
  { kind := .overflow, pageTag := none, band := none, commandTag := none, detail := BitVec.ofNat 16 dropped.code }

/-- The queue holds an OVERFLOW record (R175). -/
def hasOverflow (q : List Event) : Bool := q.any fun e => decide (e.kind = .overflow)

/-- One posting to one event queue (R175). -/
def enqueueEvent (q : List Event) (e : Event) : List Event :=
  if hasOverflow q then q
  else if q.length < Config.eventRecords then q ++ [e]
  else q ++ [Event.overflowOf e.kind]

/-- Post an event to one port (R174). -/
def State.postTo (s : State) (p : Port) (e : Event) : State :=
  s.updPort p fun ps => { ps with events := enqueueEvent ps.events e }

/-- Post an event to each port of a set (R174). -/
def State.postAll (s : State) (ps : PortSet) (e : Event) : State :=
  let s1 := if ps.a then s.postTo .a e else s
  if ps.b then s1.postTo .b e else s1

/-- Post an ENGINE FAULT to both ports (R155). -/
def State.postFault (s : State) (detail : Nat) : State := s.postAll .both (Event.engineFault detail)

/-! ## Pages -/

/-- The page record with this tag and instance. -/
def State.findPage (s : State) (r : PageRef) : Option PageRecord := s.pages.find? fun p => decide (p.ref = r)

/-- The page record with this tag (R26: there is at most one). -/
def State.pageOfTag (s : State) (tag : Byte) : Option PageRecord := s.pages.find? fun p => decide (p.ref.tag = tag)

/-- Change one page record. -/
def State.mapPage (s : State) (r : PageRef) (f : PageRecord → PageRecord) : State :=
  { s with pages := s.pages.map fun p => if p.ref = r then f p else p }

/-- The page is the head page (R26). -/
def State.isHead (s : State) (r : PageRef) : Bool :=
  match s.pages with
  | [] => false
  | p :: _ => decide (p.ref = r)

/-- The number of lines the engine receives in one copy (R25). -/
def PageRecord.pageLines (p : PageRecord) : Nat := (p.bandCount - 1) * p.bandHeight + p.lastBandHeight

/-- The page wants a band (R6). -/
def PageRecord.wantsBand (p : PageRecord) : Bool := decide (p.nextToAllocate < p.bandCount) && decide (p.state ≠ .blanking)

/-- The slot record an allocation writes for the page's next band (R8). -/
def PageRecord.nextBand (p : PageRecord) : BandRecord :=
  { page := p.ref, band := p.nextToAllocate,
    lines := if p.nextToAllocate + 1 = p.bandCount then p.lastBandHeight else p.bandHeight,
    width := p.width, background := p.background, closedBy := .empty, forced := false, forcePending := false }

/-! ## Slots -/

/-- The record of slot `i`. -/
def State.slot (s : State) (i : Nat) : Slot := s.slots.getD i .free

def State.setSlot (s : State) (i : Nat) (x : Slot) : State := { s with slots := s.slots.set i x }

/-- The slot numbers, rising. -/
def State.slotNumbers (s : State) : List Nat := List.range s.slots.length

/-- The slot holds band `b` of page `r`. -/
def Slot.holds (x : Slot) (r : PageRef) (b : Nat) : Bool :=
  match x with
  | .free => false
  | .held _ k => decide (k.page = r) && decide (k.band = b)

/-- The slot holds band `b` of page `r` and is READY. -/
def Slot.isReady (x : Slot) (r : PageRef) (b : Nat) : Bool :=
  match x with
  | .held .ready k => decide (k.page = r) && decide (k.band = b)
  | _ => false

/-- The slot belongs to page `r`. -/
def Slot.ofPage (x : Slot) (r : PageRef) : Bool :=
  match x with
  | .free => false
  | .held _ k => decide (k.page = r)

/-- The number of the slot that holds band `b` of page `r`. -/
def State.slotOfBand (s : State) (r : PageRef) (b : Nat) : Option Nat :=
  s.slotNumbers.find? fun i => (s.slot i).holds r b

/-- The claim of the clear under way: the slot at the front of the clear order, with its page and band (R5, R10, R12). -/
def State.clearUnderWay (s : State) : Option ClearClaim :=
  match s.clearOrder with
  | [] => none
  | i :: _ =>
    match s.slot i with
    | .held .clearing k => some { slot := i, page := k.page, band := k.band }
    | _ => none

/-- The first CLEAR_COMPLETION in the queue that does not yet name a clear comes to name the one under way (R5; log 33). -/
def State.settleClaim (s : State) : State :=
  if s.clearClaims.length < s.pending.count .clearCompletion then
    { s with clearClaims := s.clearClaims ++ s.clearUnderWay.toList }
  else s

/-- A clear leaves the clear order, and if it was the one under way the next begins (R10, R13). -/
def State.leaveClearOrder (s : State) (i : Nat) : State :=
  { s with clearOrder := s.clearOrder.filter fun j => decide (j ≠ i),
           clearPos := if s.clearOrder.head? = some i then 0 else s.clearPos }

/-! ## Allocation -/

/-- The lowest-numbered FREE slot that does not carry the in-flight mark (R7). -/
def State.freeSlot (s : State) : Option Nat :=
  s.slotNumbers.find? fun i => decide (s.slot i = .free) && decide (s.inFlight ≠ some i)

/-- One allocation (R7, R8), if there is a slot and a page for it. -/
def State.allocateOne (s : State) : Option State :=
  match s.pages.find? PageRecord.wantsBand, s.freeSlot with
  | some p, some i =>
    some { (s.mapPage p.ref fun q => { q with nextToAllocate := q.nextToAllocate + 1 }) with
      slots := s.slots.set i (.held .clearing p.nextBand),
      clearOrder := s.clearOrder ++ [i],
      clearPos := if s.clearOrder.isEmpty then 0 else s.clearPos }
  | _, _ => none

/-- Up to `n` allocations. -/
def State.allocateUpTo : Nat → State → State
  | 0, s => s
  | n + 1, s =>
    match s.allocateOne with
    | none => s
    | some s' => State.allocateUpTo n s'

/-- An evaluation of allocation (R6): each allocation takes a FREE slot, so the number of slots bounds them. -/
def State.evaluateAllocation (s : State) : State := State.allocateUpTo s.slots.length s

/-! ## The line -/

/-- The slot the line in flight is read from (R20). -/
def State.lineSlot (s : State) : Option Nat :=
  match s.streamer with
  | .sending _ line =>
    match line.source with
    | .slot i => some i
    | .background => none
  | .held _ (.slot i) _ => some i
  | .ackWait _ (.slot i) _ => some i
  | _ => none

/-- A line begins: SENDING with word 0 (R146). Its first bit waits for the word of a removed page that is still leaving (R169; log 13). -/
def State.beginLine (s : State) (r : PageRef) (source : LineSource) : State :=
  { s with streamer := .sending r { source := source, word := 0, bits := 0, wordDone := false, early := false },
           lineOut := [] }

/-- The start claim of R16 for band `b` of page `r`, if its slot is READY, and the line that follows it (R143, R146). -/
def State.startBand (s : State) (r : PageRef) (b : Nat) : Option State :=
  match s.slotOfBand r b with
  | none => none
  | some i =>
    match s.slot i with
    | .held .ready k => some ((s.setSlot i (.held .streaming k)).beginLine r (.slot i))
    | _ => none

/-- The ready notice of R160: it ends a starvation wait on that band. -/
def State.readyNotice (s : State) (r : PageRef) (b : Nat) : State :=
  match s.streamer with
  | .starved r' b' _ _ => if r' = r ∧ b' = b then (s.startBand r b).getD s else s
  | _ => s

/-! ## Offer -/

/-- The offer condition of R33. -/
def State.offerHolds (s : State) : Bool :=
  match s.pages with
  | [] => false
  | p :: _ =>
    decide (p.state = .pending) &&
      (List.range p.lead).all fun b => s.slots.any fun x => x.isReady p.ref b

/-- The offer condition is evaluated; if it holds the head page goes OFFERED and the Streamer is handed the offer (R33, R140). With
`withdrawn`, an offer was withdrawn in the same claim and PRDY stays low for one video clock period (R139). -/
def State.evaluateOffer (s : State) (withdrawn : Bool) : State :=
  match s.pages with
  | [] => s
  | p :: rest =>
    if s.offerHolds then
      { s with pages := { p with state := .offered } :: rest, streamer := .offered p.ref,
               prdyLow := if withdrawn then some 0 else none }
    else s

/-- The offer condition of page `r` is evaluated if it is the head page (R55, R58). -/
def State.offerIfHead (s : State) (r : PageRef) : State := if s.isHead r then s.evaluateOffer false else s

/-! ## Readiness -/

/-- Slot `i` is OPEN and every current participant of its page has closed it (R54). -/
def State.closedByAll (s : State) (i : Nat) : Bool :=
  match s.slot i with
  | .held .opened k =>
    match s.findPage k.page with
    | none => false
    | some p => p.participants.within k.closedBy
  | _ => false

/-- An OPEN slot goes READY, forced or not, and hands the Streamer its ready notice (R54, R61, R62, R160). -/
def State.openToReady (s : State) (i : Nat) (force : Bool) : State :=
  match s.slot i with
  | .held .opened k =>
    (s.setSlot i (.held .ready { k with forced := k.forced || force, forcePending := false })).readyNotice k.page k.band
  | _ => s

/-- The slots a participant change of page `r` makes READY (R58). -/
def State.readyOnChange (s : State) (r : PageRef) : List Nat :=
  s.slotNumbers.filter fun i => (s.slot i).ofPage r && s.closedByAll i && decide (s.inFlight ≠ some i)

/-- A participant-change claim for page `r` (R58). -/
def State.participantChange (s : State) (r : PageRef) : State :=
  if s.readyOnChange r = [] then s
  else ((s.readyOnChange r).foldl (fun t i => t.openToReady i false) s).offerIfHead r

/-! ## The execution check -/

/-- Outcomes of the execution check (R66). -/
inductive CheckOutcome
  | run (slot : Nat)
  | wait
  | error (e : ExecError)
deriving DecidableEq, Repr

/-- The band has been passed (R67). -/
def PageRecord.passed (p : PageRecord) (b : Nat) : Bool :=
  decide (b < p.nextToStream) && (!p.resident || decide (p.copiesRemaining = 1))

/-- Cases 5 to 9 of R66, by the slot that holds the band. -/
def checkSlot (x : Slot) (i : Nat) (port : Port) : CheckOutcome :=
  match x with
  | .free => .wait
  | .held .clearing _ => .wait
  | .held .opened k =>
    if k.closedBy.has port then .error .bandClosed
    else if k.forcePending then .error .bandForced
    else .run i
  | .held _ k => if k.closedBy.has port then .error .bandClosed else .error .bandForced

/-- The execution check of R66 for a command of `port` on band `b` of page `r`. -/
def State.executionCheck (s : State) (port : Port) (r : PageRef) (b : Nat) : CheckOutcome :=
  match s.findPage r with
  | none => .error .pageGone
  | some p =>
    if p.state = .blanking then .error .pageAborted
    else if !p.participants.has port then .error .notParticipant
    else if p.passed b then .error .bandPassed
    else if p.nextToAllocate ≤ b then .wait
    else
      match s.slotOfBand r b with
      | none => .wait
      | some i => checkSlot (s.slot i) i port

/-! ## Command queues -/

/-- The head entry of a port's command queue (00 section 5). -/
def State.headEntry (s : State) (p : Port) : Option Entry := (s.port p).queue.head?

/-- The head entry leaves its queue, and its payload is returned with it (R111, R112). -/
def State.popEntry (s : State) (p : Port) : State := s.updPort p fun ps => { ps with queue := ps.queue.tail }

/-- The head entry's life state changes (R115). -/
def State.setHeadLife (s : State) (p : Port) (life : LifeState) : State :=
  s.updPort p fun ps =>
    { ps with queue := match ps.queue with
        | [] => []
        | e :: es => { e with life := life } :: es }

/-- The payload that the execution record holds for a port after that port was reset (R112, R117). -/
def State.detachedPayload (s : State) (p : Port) : Nat :=
  match s.execution with
  | none => 0
  | some x => if x.port = p ∧ x.silent = true then x.payloadLength else 0

/-- The payload words a port holds (R116, R131). -/
def State.payloadHeld (s : State) (p : Port) : Nat :=
  ((s.port p).queue.map Entry.payloadLength).sum + s.detachedPayload p

/-- The repeated check of a WAITING head that names page `r` (R68, R125). -/
def State.recheckPort (s : State) (r : PageRef) (p : Port) : State :=
  match s.headEntry p with
  | none => s
  | some e =>
    if e.life = .waiting ∧ e.page = some r then
      if s.executionCheck p r (e.band.getD 0) = .wait then s else s.setHeadLife p .queued
    else s

/-- The repeated check at both ports (R125). -/
def State.recheck (s : State) (r : PageRef) : State := (s.recheckPort r .a).recheckPort r .b

/-- A WAITING head that names an aborted or spoiled page completes with PAGE ABORTED (R68, R125). -/
def State.abortWaitingPort (s : State) (r : PageRef) (p : Port) : State :=
  match s.headEntry p with
  | none => s
  | some e =>
    if e.life = .waiting ∧ e.page = some r then
      (s.popEntry p).postTo p (Event.ofCommand .cmdError e.commandTag (BitVec.ofNat 16 ExecError.pageAborted.code))
    else s

/-- Both ports' WAITING heads that name an aborted or spoiled page complete (R125). -/
def State.abortWaiting (s : State) (r : PageRef) : State := (s.abortWaitingPort r .a).abortWaitingPort r .b

/-! ## Release -/

/-- A clear that is cancelled while its completion claim waits is the one that claim names (R5, R13; log 33). -/
def State.cancelClear (s : State) (i : Nat) : State :=
  if s.clearOrder.head? = some i then s.settleClaim else s

/-- Slot `i` is freed if it belongs to page `r` and is not `keep` (R19, R20); a clear of it is cancelled (R13). -/
def State.releaseSlot (r : PageRef) (keep : Option Nat) (s : State) (i : Nat) : State :=
  if (s.slot i).ofPage r ∧ keep ≠ some i then ((s.cancelClear i).setSlot i .free).leaveClearOrder i else s

/-- The executing command of a released page has stop requested set (R104). -/
def State.requestStop (s : State) (r : PageRef) : State :=
  { s with execution := s.execution.map fun x => if x.page = some r then { x with stopRequested := true } else x }

/-- The slots of page `r` are freed in rising number, but for `keep` (R19, R20, R21), and its executing command is stopped (R104).
Allocation is evaluated by the claim that releases, when the page has left its state. -/
def State.releaseSlots (s : State) (r : PageRef) (keep : Option Nat) : State :=
  (s.slotNumbers.foldl (State.releaseSlot r keep) s).requestStop r

/-! ## Words of the line in flight -/

/-- The band line of the line in flight (R143). -/
def PageRecord.bandLine (p : PageRecord) : Nat := p.linesServed - p.nextToStream * p.bandHeight

/-- A word of background (R10, R166). -/
def backgroundWord (background : Bool) : Word := if background then 0xFFFF else 0

/-- Word `k` of the line of page `r` from `source` (R146, R166). -/
def State.lineWord (s : State) (r : PageRef) (source : LineSource) (k : Nat) : Word :=
  match s.findPage r with
  | none => 0
  | some p =>
    match source with
    | .background => backgroundWord p.background
    | .slot i => s.readBand (slotAddress i (p.bandLine * p.width + k))

/-- The width of the line of page `r` in words (R135). -/
def State.lineWidth (s : State) (r : PageRef) : Nat :=
  match s.findPage r with
  | none => 0
  | some p => p.width

/-- The words `first` to `last` of the line leave, the last one to its last bit (R146, R147); a removed page's word has left before them (R169). -/
def State.sendWords (s : State) (r : PageRef) (source : LineSource) (first last : Nat) : State :=
  { s with lineOut := s.lineOut ++ (List.range (last + 1 - first)).map (fun k => s.lineWord r source (first + k)),
           vdat := (s.lineWord r source last).getLsbD 0, tail := none }

/-! ## Pages leaving the queue -/

/-- The word in flight, as it still leaves once its page is removed (R169); a word that is already leaving so is the one in flight, for the line
behind it has sent no bit (log 13). -/
def State.cutWord (s : State) (r : PageRef) (line : LineInFlight) : TailWord :=
  s.tail.getD
    { word := s.lineWord r line.source line.word, first := decide (line.word = 0), bits := line.bits, done := line.wordDone }

/-- The Streamer stops serving its page (R169): of a line being SENT the word in flight still leaves. -/
def State.stopServing (s : State) : State :=
  match s.streamer with
  | .sending r line => { s with streamer := .idle, prdyLow := none, tail := some (s.cutWord r line) }
  | _ => { s with streamer := .idle, prdyLow := none }

/-- The record of page `r` leaves the queue (R26). If it is the head page the Streamer leaves it (R34). -/
def State.removePage (s : State) (r : PageRef) : State :=
  let t := if s.isHead r then s.stopServing else s
  { t with pages := s.pages.filter fun p => decide (p.ref ≠ r) }

/-- An abort of a PENDING or OFFERED page (R46): its event, the release, the removal, allocation, the next head's offer, and the waiting
heads. -/
def State.removeUnprinted (s : State) (p : PageRecord) : State :=
  let s1 := s.postAll p.participants (Event.ofPage .pageAborted p.ref.tag SpoilCause.aborted.code)
  let s2 := (s1.releaseSlots p.ref none).removePage p.ref
  let s3 := s2.evaluateAllocation
  let s4 := if s.isHead p.ref then s3.evaluateOffer (decide (p.state = .offered)) else s3
  s4.abortWaiting p.ref

/-- A PRINTING page goes BLANKING with a cause, having posted `event` to its participants (R43, R47): the release leaves the slot of the
line in flight; waiting heads complete; a starvation wait ends with a background line (R164). -/
def State.blankPage (s : State) (p : PageRecord) (cause : SpoilCause) (event : Event) : State :=
  let s1 := s.postAll p.participants event
  let s2 := s1.mapPage p.ref fun q => { q with spoilCause := some cause, copiesRemaining := 1, state := .blanking }
  let s3 := (s2.releaseSlots p.ref s.lineSlot).evaluateAllocation
  let s4 := s3.abortWaiting p.ref
  match s4.streamer with
  | .starved r _ _ _ => if r = p.ref then s4.beginLine r .background else s4
  | _ => s4

/-- An abort of a BLANKING page (R48, R21, R169): no event; every slot it holds is freed; the next head is evaluated. -/
def State.removeBlanking (s : State) (p : PageRecord) : State :=
  let s1 := (s.removePage p.ref).releaseSlots p.ref none
  let s2 := s1.evaluateAllocation
  let s3 := if s.isHead p.ref then s2.evaluateOffer false else s2
  s3.abortWaiting p.ref

/-- An abort of page `p`, by its state (R46, R47, R48). -/
def State.abortRecord (s : State) (p : PageRecord) : State :=
  match p.state with
  | .pending => s.removeUnprinted p
  | .offered => s.removeUnprinted p
  | .printing => s.blankPage p .aborted (Event.ofPage .pageAborted p.ref.tag SpoilCause.aborted.code)
  | .blanking => s.removeBlanking p

/-- A page removed at its completion or at the end of its blanking (R38, R44): the next head's offer, and the repeated check of R125. -/
def State.finishPage (s : State) (r : PageRef) : State :=
  (({ s with streamer := .idle, prdyLow := none,
             pages := s.pages.filter fun p => decide (p.ref ≠ r) } : State).evaluateOffer false).recheck r

/-! ## Spoil -/

/-- A spoil claim (R43, R165): a PRINTING page goes BLANKING; on a BLANKING page it is SLIP WHILE BLANKING. -/
def State.spoil (s : State) (r : PageRef) (cause : SpoilCause) : State :=
  match s.findPage r with
  | none => s
  | some p =>
    match p.state with
    | .printing => s.blankPage p cause (Event.ofPage .pageSpoiled p.ref.tag cause.code)
    | .blanking => s.postFault 4
    | _ => s

/-! ## Ends of bands, copies and lines -/

/-- The band-end claim for slot `i` of page `p` (R17, R18, R20). -/
def State.bandEnd (s : State) (p : PageRecord) (i : Nat) : State :=
  match s.slot i with
  | .held .streaming k =>
    if k.page = p.ref then
      if p.state = .blanking then (s.setSlot i .free).evaluateAllocation
      else if p.resident = true ∧ p.copiesRemaining ≠ 1 then
        (s.setSlot i (.held .ready k)).mapPage p.ref fun q => { q with nextToStream := q.nextToStream + 1 }
      else
        ((s.setSlot i .free).mapPage p.ref fun q => { q with nextToStream := q.nextToStream + 1 }).evaluateAllocation
    else s
  | _ => s

/-- The copy-end claim (R37, R38, R153). -/
def State.copyEnd (s : State) (p : PageRecord) : State :=
  if 2 ≤ p.copiesRemaining then
    { (s.mapPage p.ref fun q =>
        { q with copiesRemaining := q.copiesRemaining - 1, state := .offered, linesServed := 0, nextToStream := 0 }) with
      streamer := .offered p.ref, prdyLow := none }
  else (s.postAll p.participants (Event.ofPage .pageDone p.ref.tag 0)).finishPage p.ref

/-- The line of page `p` from slot `i` was the last of its band (R17). -/
def State.lastOfBand (s : State) (p : PageRecord) (i : Nat) : Bool :=
  match s.slot i with
  | .held _ k => decide (p.bandLine + 1 = k.lines)
  | .free => false

/-- The end of a line of page `r` (R151): lines served counts, the band-end claim is handed if due, then the copy-end claim (R37) or the
blanking-end claim (R168) if the page's lines are served; otherwise the Streamer waits for the next LREQ. -/
def State.endLine (s : State) (r : PageRef) (source : LineSource) : State :=
  match s.findPage r with
  | none => s
  | some p =>
    let s1 := s.mapPage r fun q => { q with linesServed := q.linesServed + 1 }
    let s2 := match source with
      | .background => s1
      | .slot i => if s.lastOfBand p i || decide (p.state = PageState.blanking) then s1.bandEnd p i else s1
    if p.linesServed + 1 = p.pageLines then
      if p.state = .blanking then s2.finishPage r else s2.copyEnd p
    else { s2 with streamer := .betweenLines r }

/-! ## Resets -/

/-- Port `p` leaves page record `q`: PARTICIPANT LEFT to those that remain, and the participant-change claim (R42, R49, R58). -/
def State.leaveRecord (s : State) (q : PageRecord) (p : Port) : State :=
  let detail := match p with
    | .a => 1
    | .b => 2
  let s1 := s.mapPage q.ref fun x => { x with participants := x.participants.remove p }
  let s2 := s1.postAll (q.participants.remove p) (Event.ofPage .participantLeft q.ref.tag detail)
  (s2.participantChange q.ref).recheck q.ref

/-- What PORT RESET of port `p` does to one page record (R49, R50). -/
def State.resetRecord (p : Port) (s : State) (r : PageRef) : State :=
  match s.findPage r with
  | none => s
  | some q =>
    if q.participants.has p then
      if (q.participants.remove p).isEmpty then
        (s.mapPage r fun x => { x with participants := .empty }).abortRecord { q with participants := .empty }
      else s.leaveRecord q p
    else s

/-- From `s` to `t` an offer has been withdrawn: the Streamer offers the page of `s` no more (R140). -/
def State.withdraws (s t : State) : Bool :=
  match s.streamer with
  | .offered r => decide (t.streamer ≠ .offered r)
  | _ => false

/-- PORT RESET's work on one record, and whether the claim has withdrawn an offer by then. -/
def State.resetNext (p : Port) (x : State × Bool) (r : PageRef) : State × Bool :=
  (State.resetRecord p x.1 r, x.2 || x.1.withdraws (State.resetRecord p x.1 r))

/-- An offer that stands at the end of a claim that withdrew one: PRDY is held low for one video clock period (R139). -/
def State.afterWithdrawal (s : State) : State :=
  match s.streamer with
  | .offered _ => { s with prdyLow := some 0 }
  | _ => s

/-- The claim of PORT RESET of port `p` (R196): its queues, events, enable and outcome, its executing command (R107, R132), then the pages in
queue order (R49; log 12), and PRDY's low period if one offer was withdrawn and another stands at the claim's end (R139, R156). -/
def State.resetPort (s : State) (p : Port) : State :=
  let s1 : State := { s with execution := s.execution.map fun x => if x.port = p then { x with silent := true } else x }
  let s2 := s1.updPort p fun ps => { ps with queue := [], events := [], interruptEnable := false, outcome := .ok }
  let x := (s2.pages.map PageRecord.ref).foldl (State.resetNext p) (s2, false)
  if x.2 then x.1.afterWithdrawal else x.1

/-- Device reset (R198): every block takes its reset values; the queue of waiting commands and the levels the outside drives stay
(log 16); the memories' contents are undefined anew (log 4). -/
def State.deviceReset (s : State) : State :=
  { State.reset with
    pending := s.pending, resetHeld := true, pins := s.pins,
    ports := { a := { PortState.reset with selectHigh := (s.port .a).selectHigh },
               b := { PortState.reset with selectHigh := (s.port .b).selectHigh } },
    ramEpoch := s.ramEpoch + 1, freeCount := s.freeCount }

end Sys2Proof.Machine
end

