-- ==== Sys2Proof/Machine/Operands.lean ====
section
/-! DEFINITION. The operands of frames: lengths, fields and ranges of R200's command table, and the rectangles of drawing commands. -/

namespace Sys2Proof.Machine

/-! ## Fields -/

/-- Byte `i` of a frame's body. -/
def byteAt (body : List Byte) (i : Nat) : Byte := body.getD i 0

/-- The two-byte field at `i`, most significant byte first (R185). -/
def wordAt (body : List Byte) (i : Nat) : Nat := (byteAt body i).toNat * 256 + (byteAt body (i + 1)).toNat

/-- The two-byte fields of a payload, in order (R200). -/
def wordsOf : List Byte → List Word
  | hi :: lo :: rest => (hi ++ lo) :: wordsOf rest
  | _ => []

/-- Words that a row of `w` pixels takes (R81). -/
def rowWordsOf (w : Nat) : Nat := (w + 15) / 16

/-! ## Lengths -/

/-- The length of a whole frame in bytes, command byte included, by its command byte and the bytes stored (R200). None: the length is free
(a read command) or the command is unknown. A PUT BITS computes it from w and rows as received (R188); before they are received it is at least 12
(log 24). -/
def frameLength (code : Byte) (stored : List Byte) : Option Nat :=
  if code = 0x00 then some 1
  else if code = 0x30 then some 12
  else if code = 0x31 then some 2
  else if code = 0x32 then some 5
  else if code = 0x33 then some 2
  else if code = 0x3C then some 1
  else if code = 0x81 then some 13
  else if code = 0x82 then
    if stored.length < 11 then some 12
    else some (12 + 2 * ((byteAt stored 9).toNat * rowWordsOf (wordAt stored 7)))
  else if code = 0x83 then some 15
  else if code = 0x84 then some 36
  else if code = 0x88 then some 5
  else if code = 0x89 then some 4
  else if code = 0x8A then some 5
  else if code = 0x8B then some 5
  else none

/-- The assembler stores the next byte: the command's length is not reached, and there is room for 512 payload words (R186). -/
def storesByte (code : Byte) (stored : List Byte) : Bool :=
  match frameLength code stored with
  | none => false
  | some n => decide (stored.length + 1 < n) && decide (stored.length < 11 + 2 * Config.payloadWords)

/-! ## Queued commands -/

/-- A queued command as its frame spells it (R200). -/
structure QueuedFrame where
  op : Operation
  commandTag : Byte
  notify : Bool
  pageTag : Option Byte
  band : Option Nat
  payload : List Word
deriving DecidableEq, Repr

/-- The control byte of a queued command: bit 0 is NOTIFY and the others must be 0 (R199, R200). -/
def controlOk (body : List Byte) : Bool := decide ((byteAt body 1).toNat ≤ 1)

def notifyOf (body : List Byte) : Bool := (byteAt body 1).getLsbD 0

/-- A queued command that names a page and a band. The band has no range of its own in check 2 of R119: 255 is left to the page checks, which no page's band
count lets pass (R114, R199; DESIGN CHOICE, log 30). -/
def bandFrame (op : Operation) (body : List Byte) (payload : List Word) : QueuedFrame :=
  { op := op, commandTag := byteAt body 0, notify := notifyOf body, pageTag := some (byteAt body 2),
    band := some (byteAt body 3).toNat, payload := payload }

/-- A FILL source byte (R200): 00H solid 0, 01H solid 1, 08H to 0FH tile 0 to 7. -/
def fillSourceOf (b : Byte) : Option FillSource :=
  if b.toNat = 0 then some (.solid false)
  else if b.toNat = 1 then some (.solid true)
  else if 8 ≤ b.toNat ∧ b.toNat ≤ 15 then some (.tile (b.toNat - 8))
  else none

/-- The ranges of R73 for a position. -/
def positionOk (x y : Nat) : Bool := decide (x ≤ 10239) && decide (y ≤ 63)

/-- The ranges of R73 for the size of a FILL or a COPY. -/
def sizeOk (w h : Nat) : Bool := decide (1 ≤ w) && decide (w ≤ 10240) && decide (1 ≤ h) && decide (h ≤ 64)

/-- The ranges of R73 and R81 for the size of a PUT BITS. -/
def putSizeOk (w rows : Nat) : Bool :=
  decide (1 ≤ w) && decide (w ≤ 2048) && decide (1 ≤ rows) && decide (rows ≤ 64) && decide (rows * rowWordsOf w ≤ Config.payloadWords)

/-- A function byte (R76). -/
def functionOk (b : Byte) : Bool := decide (b.toNat ≤ 15)

def functionOf (b : Byte) : BitVec 4 := BitVec.ofNat 4 b.toNat

/-- FILL (R92). None: an operand is out of its range, BAD PARAM. -/
def parseFill (body : List Byte) : Option QueuedFrame :=
  match fillSourceOf (byteAt body 11) with
  | none => none
  | some source =>
    if controlOk body && positionOk (wordAt body 4) (byteAt body 6).toNat && sizeOk (wordAt body 7) (byteAt body 9).toNat &&
        functionOk (byteAt body 10) then
      some (bandFrame (.fill (wordAt body 4) (byteAt body 6).toNat (wordAt body 7) (byteAt body 9).toNat
        (functionOf (byteAt body 10)) source) body [])
    else none

/-- PUT BITS (R95). -/
def parsePutBits (body : List Byte) : Option QueuedFrame :=
  if controlOk body && positionOk (wordAt body 4) (byteAt body 6).toNat && putSizeOk (wordAt body 7) (byteAt body 9).toNat &&
      functionOk (byteAt body 10) then
    some (bandFrame (.putBits (wordAt body 4) (byteAt body 6).toNat (wordAt body 7) (byteAt body 9).toNat
      (functionOf (byteAt body 10))) body (wordsOf (body.drop 11)))
  else none

/-- COPY (R97). -/
def parseCopy (body : List Byte) : Option QueuedFrame :=
  if controlOk body && positionOk (wordAt body 4) (byteAt body 6).toNat && positionOk (wordAt body 7) (byteAt body 9).toNat &&
      sizeOk (wordAt body 10) (byteAt body 12).toNat && functionOk (byteAt body 13) then
    some (bandFrame (.copy (wordAt body 4) (byteAt body 6).toNat (wordAt body 7) (byteAt body 9).toNat (wordAt body 10)
      (byteAt body 12).toNat (functionOf (byteAt body 13))) body [])
  else none

/-- LOAD TILE (R98). -/
def parseLoadTile (body : List Byte) : Option QueuedFrame :=
  if controlOk body && decide ((byteAt body 2).toNat < Config.tileCount) then
    some { op := .loadTile (byteAt body 2).toNat, commandTag := byteAt body 0, notify := notifyOf body, pageTag := none, band := none,
           payload := wordsOf (body.drop 3) }
  else none

/-- CLOSE BAND (R56). -/
def parseCloseBand (body : List Byte) : Option QueuedFrame := if controlOk body then some (bandFrame .closeBand body []) else none

/-- SUM BAND (R102). -/
def parseSumBand (body : List Byte) : Option QueuedFrame := if controlOk body then some (bandFrame .sumBand body []) else none

/-- LEAVE PAGE (R40). -/
def parseLeavePage (body : List Byte) : Option QueuedFrame :=
  if controlOk body then
    some { op := .leavePage, commandTag := byteAt body 0, notify := notifyOf body, pageTag := some (byteAt body 2), band := none,
           payload := [] }
  else none

/-- MARK (R100). -/
def parseMark (body : List Byte) : Option QueuedFrame :=
  if controlOk body then
    some { op := .mark (byteAt body 2 ++ byteAt body 3), commandTag := byteAt body 0, notify := notifyOf body, pageTag := none,
           band := none, payload := [] }
  else none

/-! ## Immediate commands -/

/-- The operands of OPEN PAGE as its frame spells them (R200). -/
structure PageOperands where
  tag : Byte
  participants : PortSet
  bandCount : Nat
  bandHeight : Nat
  lastBandHeight : Nat
  width : Nat
  background : Bool
  lead : Nat
  copies : Nat
  resident : Bool
deriving DecidableEq, Repr

/-- The bytes that R199 requires to be codes hold codes: participants, background, resident. -/
def pageCodesOk (body : List Byte) : Bool :=
  decide ((byteAt body 1).toNat ≤ 3) && decide ((byteAt body 7).toNat ≤ 1) && decide ((byteAt body 10).toNat ≤ 1)

def pageOperandsOf (body : List Byte) : PageOperands :=
  { tag := byteAt body 0, participants := { a := (byteAt body 1).getLsbD 0, b := (byteAt body 1).getLsbD 1 },
    bandCount := (byteAt body 2).toNat, bandHeight := (byteAt body 3).toNat, lastBandHeight := (byteAt body 4).toNat,
    width := wordAt body 5, background := (byteAt body 7).getLsbD 0, lead := (byteAt body 8).toNat, copies := (byteAt body 9).toNat,
    resident := (byteAt body 10).getLsbD 0 }

/-- The first step of R28's checks for a page opened by port `p`. -/
def PageOperands.ok (o : PageOperands) (p : Port) : Bool :=
  decide (1 ≤ o.bandCount) && decide (1 ≤ o.bandHeight) && decide (o.bandHeight ≤ 64) && decide (1 ≤ o.lastBandHeight) &&
  decide (o.lastBandHeight ≤ 64) && decide (1 ≤ o.width) && decide (o.width ≤ 640) &&
  decide (o.bandHeight * o.width ≤ Config.slotWords) && decide (o.lastBandHeight * o.width ≤ Config.slotWords) &&
  decide (1 ≤ o.lead) && decide (o.lead ≤ 8) && decide (1 ≤ o.copies) && decide (o.copies ≤ 16) && o.participants.has p &&
  (decide (o.copies ≤ 1) || o.resident) && (!o.resident || decide (o.bandCount ≤ 8))

/-- The record OPEN PAGE appends (R29), the lead no greater than the band count (R28). -/
def PageOperands.record (o : PageOperands) (p : Port) (inst : BitVec 16) : PageRecord :=
  { ref := { tag := o.tag, inst := inst }, opener := p, participants := o.participants, bandCount := o.bandCount,
    bandHeight := o.bandHeight, lastBandHeight := o.lastBandHeight, width := o.width, background := o.background,
    lead := min o.lead o.bandCount, copies := o.copies, resident := o.resident, state := .pending, nextToAllocate := 0,
    nextToStream := 0, copiesRemaining := o.copies, linesServed := 0, spoilCause := none }

/-- The configuration a SET ENGINE carries, if its operands are in range (R137, R200). -/
def parseEngine (body : List Byte) : Option EngineConfig :=
  if decide ((byteAt body 0).toNat ≤ 1) && decide (1 ≤ (byteAt body 1).toNat) && decide ((byteAt body 1).toNat ≤ 250) &&
      decide (1 ≤ (byteAt body 2).toNat) && decide ((byteAt body 2).toNat ≤ 15) && decide (2 ≤ (byteAt body 3).toNat) &&
      decide ((byteAt body 3).toNat ≤ 64) then
    some { kind := if (byteAt body 0).toNat = 1 then .stall else .nostall, starvationLimit := (byteAt body 1).toNat,
           acknowledgeWindow := (byteAt body 2).toNat, videoDivisor := (byteAt body 3).toNat }
  else none

/-! ## Rectangles -/

/-- The effective rectangle of a FILL or a PUT BITS in a band of `width` words and `lines` lines (R74). -/
def clipRect (x y w h width lines : Nat) : Clip :=
  let ew := min (x + w) (width * 16) - x
  let eh := min (y + h) lines - y
  { rect := { x := x, y := y, w := ew, h := eh }, clipped := decide (ew < w) || decide (eh < h) }

/-- The effective destination rectangle of a COPY (R83). -/
def clipCopy (sx sy dx dy w h width lines : Nat) : Clip :=
  let ew := min w (min (width * 16 - sx) (width * 16 - dx))
  let eh := min h (min (lines - sy) (lines - dy))
  { rect := { x := dx, y := dy, w := ew, h := eh }, clipped := decide (ew < w) || decide (eh < h) }

/-- The effective rectangle of a drawing command; SUM BAND and the others have none (R86). -/
def clipOf (op : Operation) (width lines : Nat) : Option Clip :=
  match op with
  | .fill x y w h _ _ => some (clipRect x y w h width lines)
  | .putBits x y w rows _ => some (clipRect x y w rows width lines)
  | .copy sx sy dx dy w h _ => some (clipCopy sx sy dx dy w h width lines)
  | _ => none

/-- Nothing remains of the rectangle (R74, R83). -/
def Rect.isEmpty (r : Rect) : Bool := decide (r.w = 0) || decide (r.h = 0)

/-- Words covered in one row of an effective rectangle (R75). -/
def Rect.rowWords (r : Rect) : Nat := if r.w = 0 then 0 else (r.x + r.w - 1) / 16 - r.x / 16 + 1

end Sys2Proof.Machine
end

