-- ==== Sys2Proof/Machine/Flags.lean ====
section
/-! DEFINITION. The status the part shows: the frame result byte, the interrupt and engine output levels, and the records of the read
commands in the layouts of R199 to R204. -/

namespace Sys2Proof.Machine

/-! ## Levels -/

/-- The Streamer serves a page that is PRINTING or BLANKING (R155). -/
def State.streamerPrinting (s : State) : Bool :=
  match s.streamer with
  | .idle => false
  | .offered _ => false
  | .betweenLines _ => true
  | .sending _ _ => true
  | .held _ _ _ => true
  | .ackWait _ _ _ => true
  | .starved _ _ _ _ => true

/-- The interrupt output of a port is asserted (R180): its pin is low. -/
def State.interruptAsserted (s : State) (p : Port) : Bool := (s.port p).interruptEnable && !(s.port p).events.isEmpty

/-- ASDO of port `p`: none is high impedance, while select is high or reset is held; else the level driven, which in a frame is the first bit of the next
byte to be shifted out (R185, R190, R198). A record that READ EVENTS has not taken yet begins with a 0 bit, as a NONE record does (R173, R179). With select
low and no frame in progress the level is a free value (log 32). -/
def State.asdoPin (s : State) (p : Port) : Option Bool :=
  if (s.port p).selectHigh || s.resetHeld then none
  else if (s.port p).assembler.state = .betweenFrames then some (Config.strayLevel s.freeCount)
  else some (((s.port p).assembler.outData.headD 0).getMsbD 0)

/-- The level of PRDY (R139). -/
def State.prdy (s : State) : Bool :=
  match s.streamer with
  | .offered _ => s.prdyLow.isNone
  | _ => false

/-- The level of LSTB: the period of the line's first bit (R135), also where that bit is of a removed page's word (R169). -/
def State.lstb (s : State) : Bool :=
  match s.tail with
  | some t => t.first && decide (t.bits = 1) && !t.done
  | none =>
    match s.streamer with
    | .sending _ line => decide (line.word = 0) && decide (line.bits = 1) && !line.wordDone
    | _ => false

/-- VCLK shows the video clock: a bit of a line is being sent (R135, R169). -/
def State.vclkRunning (s : State) : Bool :=
  match s.tail with
  | some t => decide (1 ≤ t.bits) && !t.done
  | none =>
    match s.streamer with
    | .sending _ line => decide (1 ≤ line.bits) && !line.wordDone
    | _ => false

/-! ## Codes and fields -/

/-- Outcome codes (R191). -/
def FrameOutcome.code : FrameOutcome → Nat
  | .ok => 0
  | .badFrame => 1
  | .unknownCommand => 2
  | .badParam => 3
  | .queueFull => 4
  | .stagingFull => 5
  | .noPage => 6
  | .notParticipant => 7
  | .tagInUse => 8
  | .pageQueueFull => 9
  | .engineBusy => 10
  | .lastParticipant => 11

/-- Streamer state codes (R202). -/
def StreamerState.code : StreamerState → Nat
  | .idle => 0
  | .offered _ => 1
  | .betweenLines _ => 2
  | .sending _ _ => 3
  | .held _ _ _ => 4
  | .ackWait _ _ _ => 5
  | .starved _ _ _ _ => 6

/-- Page state codes (R203). -/
def PageState.code : PageState → Nat
  | .pending => 0
  | .offered => 1
  | .printing => 2
  | .blanking => 3

/-- Slot state codes of a slot that holds a band (R204). -/
def HeldState.code : HeldState → Nat
  | .clearing => 1
  | .opened => 2
  | .ready => 3
  | .streaming => 4

def portBit : Port → Nat
  | .a => 0
  | .b => 1

/-- A one-byte field. -/
def oneByte (n : Nat) : Byte := BitVec.ofNat 8 n

/-- A two-byte field, most significant byte first (R199). -/
def twoBytes (n : Nat) : List Byte := [BitVec.ofNat 8 (n / 256), BitVec.ofNat 8 n]

/-! ## The frame result byte -/

/-- The frame result byte of port `p` (R190, R201). -/
def State.frameResultByte (s : State) (p : Port) : Byte :=
  oneByte ((s.port p).outcome.code * 16 + (!(s.port p).events.isEmpty).toNat * 8 +
    (decide (Config.queueEntries ≤ (s.port p).queue.length)).toNat * 4 + (decide (Config.queuePages ≤ s.pages.length)).toNat * 2 +
    s.streamerPrinting.toNat)

/-! ## Records of the read commands -/

/-- Staging words free of a port (R116, R131). -/
def State.stagingFree (s : State) (p : Port) : Nat := Config.stagingWords - s.payloadHeld p

/-- The tags of the pages in which a port participates, in queue order (R193). -/
def State.participatingTags (s : State) (p : Port) : List Byte := (s.pages.filter fun q => q.participants.has p).map fun q => q.ref.tag

/-- The status record of port `p` (R193, R202). -/
def State.statusRecord (s : State) (p : Port) : List Byte :=
  let tags := s.participatingTags p
  [oneByte (Config.queueEntries - (s.port p).queue.length)] ++ twoBytes (s.stagingFree p) ++
  [oneByte (s.port p).events.length,
   oneByte ((hasOverflow (s.port p).events).toNat + (s.port p).interruptEnable.toNat * 2),
   oneByte s.streamer.code, oneByte tags.length] ++
  (List.range 4).map fun i => tags.getD i 0

/-- An event record's eight bytes (R201). -/
def Event.bytes (e : Event) : List Byte :=
  [oneByte e.kind.code,
   oneByte (e.pageTag.isSome.toNat * 4 + e.band.isSome.toNat * 2 + e.commandTag.isSome.toNat),
   e.pageTag.getD 0, oneByte (e.band.getD 0), e.commandTag.getD 0, 0] ++ twoBytes e.detail.toNat

/-- A NONE record's eight bytes (R179, R201). -/
def noneRecord : List Byte := List.replicate 8 0

/-- A page record's nineteen bytes (R194, R203). -/
def PageRecord.bytes (p : PageRecord) : List Byte :=
  [p.ref.tag] ++ twoBytes p.ref.inst.toNat ++
  [oneByte p.state.code, oneByte (portBit p.opener * 128 + p.participants.b.toNat * 2 + p.participants.a.toNat), oneByte p.bandCount,
   oneByte p.bandHeight, oneByte p.lastBandHeight] ++ twoBytes p.width ++
  [oneByte (p.resident.toNat * 2 + p.background.toNat), oneByte p.lead, oneByte p.copies, oneByte p.copiesRemaining,
   oneByte p.nextToAllocate, oneByte p.nextToStream] ++ twoBytes p.linesServed ++
  [oneByte ((p.spoilCause.map SpoilCause.code).getD 0)]

/-- What READ PAGES shifts out (R194). -/
def State.pagesView (s : State) : List Byte := oneByte s.pages.length :: s.pages.flatMap PageRecord.bytes

/-- A slot record's ten bytes (R195, R204). -/
def Slot.bytes (x : Slot) (i : Nat) : List Byte :=
  match x with
  | .free => oneByte i :: List.replicate 9 0
  | .held st k =>
    [oneByte i, oneByte st.code,
     oneByte (k.background.toNat * 16 + k.forcePending.toNat * 8 + k.forced.toNat * 4 + k.closedBy.b.toNat * 2 + k.closedBy.a.toNat),
     k.page.tag] ++ twoBytes k.page.inst.toNat ++ [oneByte k.band, oneByte k.lines] ++ twoBytes k.width

/-- What READ BANDS shifts out (R195). -/
def State.bandsView (s : State) : List Byte := s.slotNumbers.flatMap fun i => (s.slot i).bytes i

end Sys2Proof.Machine
end

