-- ==== Sys2Proof/Machine/Frames.lean ====
section
/-! DEFINITION. Frames of the render ports: the assembler of R186, what ends a frame (R187 to R189), and the acceptance of queued
commands (R118, R119). -/

namespace Sys2Proof.Machine

/-! ## The assembler -/

/-- Select falls: the frame result byte is assembled and its first bit driven (R186, R190). -/
def State.openFrame (s : State) (p : Port) : State :=
  s.updPort p fun ps =>
    { ps with selectHigh := false, asdo := [], asdoBits := [],
              assembler := { FrameAssembler.empty with state := .command, outData := [s.frameResultByte p] } }

/-- A frame can be opened: select is high, no frame is in progress and reset is not held (R186, R198). -/
def State.canOpen (s : State) (p : Port) : Bool :=
  (s.port p).selectHigh && decide ((s.port p).assembler.state = .betweenFrames) && !s.resetHeld

/-- The eighth bit of the command byte is taken: the result byte has been driven, and a read command takes its view (R186, R197). -/
def State.takeCommandByte (s : State) (p : Port) (code : Byte) (target : FrameState) (view : List Byte) : State :=
  s.updPort p fun ps =>
    { ps with asdo := ps.asdo ++ [ps.assembler.outData.headD 0],
              assembler := { FrameAssembler.empty with state := target, commandByte := some code, outData := view } }

/-- The state once the command byte `code` of port `p`'s frame has been taken, or none where no such frame is in progress (R186). -/
def State.inFrame (s : State) (p : Port) (code : Byte) (target : FrameState) (view : List Byte) : Option State :=
  match (s.port p).assembler.state with
  | .command => some (s.takeCommandByte p code target view)
  | .betweenFrames => none
  | .body => if target = .body ∧ (s.port p).assembler.commandByte = some code then some s else none
  | .ignoring => if target = .ignoring ∧ (s.port p).assembler.commandByte = some code then some s else none

/-- One whole byte is shifted: ASDO carries the next byte of the view or 00H (R185), and the byte taken is stored while the command's
length is not reached (R186). -/
def State.shiftByte (p : Port) (s : State) (b : Byte) : State :=
  s.updPort p fun ps =>
    { ps with asdo := ps.asdo ++ [ps.assembler.outData.headD 0],
              assembler := { ps.assembler with
                outData := ps.assembler.outData.tail,
                count := ps.assembler.count + 1,
                stored := match ps.assembler.commandByte with
                  | none => ps.assembler.stored
                  | some code => if storesByte code ps.assembler.stored then ps.assembler.stored ++ [b] else ps.assembler.stored } }

def State.shiftBytes (s : State) (p : Port) (body : List Byte) : State := body.foldl (State.shiftByte p) s

/-- The first `n` bits of a byte in the order in which a port shifts them, most significant first (R185). -/
def firstBits (b : Byte) (n : Nat) : List Bool := (List.range n).map b.getMsbD

/-- A frame ends, `bits` bits after its last whole byte: ASDO has carried as many of the next byte (R185), the outcome is recorded and the assembler is
empty (R187, R189). -/
def State.closeFrame (s : State) (p : Port) (o : FrameOutcome) (bits : Nat) : State :=
  s.updPort p fun ps =>
    { ps with selectHigh := true, assembler := .empty, outcome := o, asdoBits := firstBits (ps.assembler.outData.headD 0) bits }

/-- Select rises where no frame is in progress: it forms no frame and records no outcome (R186). In the middle of another command's frame
there is no such event and nothing changes (log 3). -/
def State.selectRises (s : State) (p : Port) : State :=
  if (s.port p).assembler.state = .betweenFrames then s.updPort p fun ps => { ps with selectHigh := true } else s

/-- A frame command that ends a frame not yet opened stands for the whole frame, its opening included (log 2). -/
def State.openIfWhole (s : State) (p : Port) : State := if s.canOpen p then s.openFrame p else s

/-- The frame has a form its command allows: it ends on a byte boundary and has its command's length (R188). -/
def State.formOk (s : State) (p : Port) (code : Byte) (bits : Nat) : Bool :=
  decide (bits = 0) &&
    match frameLength code (s.port p).assembler.stored with
    | none => true
    | some n => decide ((s.port p).assembler.count + 1 = n)

/-- One stage of a frame with command byte `code`: `shift` is what its body bytes do, `finish` what its end does, with its outcome. -/
def State.runFrame (s : State) (p : Port) (code : Byte) (target : FrameState) (view : State → List Byte)
    (shift : State → List Byte → State) (finish : State → Nat → State × FrameOutcome) (st : FrameStage) : State :=
  match st with
  | .commandByte => (s.inFrame p code target (view s)).getD s
  | .bytes body =>
    match s.inFrame p code target (view s) with
    | none => s
    | some t => shift t body
  | .selectHigh body bits =>
    match (s.openIfWhole p).inFrame p code target (view (s.openIfWhole p)) with
    | none => s.selectRises p
    | some t => (finish (shift t body) bits).1.closeFrame p (finish (shift t body) bits).2 bits

/-- A frame that is not a read: its bytes are stored, and at select high `act` is carried out on them unless the form is wrong (R188). -/
def State.runCommand (s : State) (p : Port) (code : Byte) (act : State → List Byte → State × FrameOutcome) (st : FrameStage) : State :=
  s.runFrame p code .body (fun _ => []) (fun t body => t.shiftBytes p body)
    (fun t bits => if t.formOk p code bits then act t (t.port p).assembler.stored else (t, .badFrame)) st

/-- A read frame: its view is taken at the end of the command byte and shifted out, and its outcome is OK (R188, R197). -/
def State.runRead (s : State) (p : Port) (code : Byte) (view : State → List Byte) (st : FrameStage) : State :=
  s.runFrame p code .body view (fun t body => t.shiftBytes p body) (fun t _ => (t, .ok)) st

/-! ## READ EVENTS -/

/-- At the first bit of a record the port takes the record at the head of the queue, or a NONE record (R177, R179). -/
def State.takeRecord (s : State) (p : Port) : State :=
  s.updPort p fun ps =>
    match ps.assembler.record with
    | some _ => ps
    | none =>
      match ps.events with
      | [] => { ps with assembler := { ps.assembler with outData := noneRecord, record := some { sent := 0, real := false } } }
      | e :: _ => { ps with assembler := { ps.assembler with outData := e.bytes, record := some { sent := 0, real := true } } }

/-- The record's next byte has been shifted out; with the eighth a record of the queue is removed (R178). -/
def State.sendRecordByte (s : State) (p : Port) : State :=
  s.updPort p fun ps =>
    match ps.assembler.record with
    | none => ps
    | some r =>
      let ps1 := { ps with asdo := ps.asdo ++ [ps.assembler.outData.headD 0],
                           assembler := { ps.assembler with outData := ps.assembler.outData.tail, count := ps.assembler.count + 1,
                                                            record := some { r with sent := r.sent + 1 } } }
      if 8 ≤ r.sent + 1 then
        { ps1 with events := if r.real then ps.events.tail else ps.events,
                   assembler := { ps1.assembler with outData := [], record := none } }
      else ps1

/-- One byte of a READ EVENTS body: what is on ASDI is ignored (R197). -/
def State.shiftEventByte (p : Port) (s : State) (_b : Byte) : State := (s.takeRecord p).sendRecordByte p

/-- The bytes that remain of the record being shifted out (R178). -/
def State.recordBytesLeft (s : State) (p : Port) : Nat :=
  match (s.port p).assembler.record with
  | none => 8
  | some r => 8 - r.sent

/-- A READ EVENTS frame (R177): a record begun and not completed stays in the queue; a last bit short of a byte can be a record's first, which takes it. -/
def State.runReadEvents (s : State) (p : Port) (st : FrameStage) : State :=
  s.runFrame p 0x22 .body (fun _ => []) (fun t body => body.foldl (State.shiftEventByte p) t)
    (fun t bits => (if bits = 0 then t else t.takeRecord p, .ok)) st

/-! ## Acceptance of queued commands -/

/-- Checks 3 to 5 of R119: the page an entry captures (R120), none for a command that names no page, or the outcome of the check that fails. -/
def State.pageCheck (s : State) (p : Port) (q : QueuedFrame) : Except FrameOutcome (Option PageRef) :=
  match q.pageTag with
  | none => .ok none
  | some tag =>
    match s.pageOfTag tag with
    | none => .error .noPage
    | some r =>
      if r.state = .blanking then .error .noPage
      else if !r.participants.has p then .error .notParticipant
      else
        match q.band with
        | some b => if b < r.bandCount then .ok (some r.ref) else .error .badParam
        | none => if (r.participants.remove p).isEmpty then .error .lastParticipant else .ok (some r.ref)

/-- The staging word after the newest payload held (R116, R117): the newest entry with a payload, or else the payload of a command still
running after a PORT RESET, or else word 0. -/
def State.stagingNext (s : State) (p : Port) : Nat :=
  match (s.port p).queue.reverse.find? fun e => decide (0 < e.payloadLength) with
  | some e => (e.stagingPosition.getD 0 + e.payloadLength) % Config.stagingWords
  | none =>
    match s.execution with
    | none => 0
    | some x =>
      if x.port = p ∧ x.silent = true ∧ 0 < x.payloadLength then (x.stagingPosition + x.payloadLength) % Config.stagingWords else 0

/-- The entry an accepted frame becomes (R114). -/
def entryOf (q : QueuedFrame) (page : Option PageRef) (position : Nat) : Entry :=
  { op := q.op, commandTag := q.commandTag, notify := q.notify, page := page, band := q.band, payloadLength := q.payload.length,
    stagingPosition := if q.payload.length = 0 then none else some position, life := .queued }

/-- The entry joins the tail of its queue and its payload is placed (R116, R118). -/
def State.appendEntry (s : State) (p : Port) (q : QueuedFrame) (page : Option PageRef) : State :=
  s.updPort p fun ps =>
    { ps with queue := ps.queue ++ [entryOf q page (s.stagingNext p)], staging := stagingPlace ps.staging (s.stagingNext p) q.payload }

/-- Acceptance of a queued command (R118, R119), after check 1. -/
def State.acceptFrame (s : State) (p : Port) (parsed : Option QueuedFrame) : State × FrameOutcome :=
  match parsed with
  | none => (s, .badParam)
  | some q =>
    match s.pageCheck p q with
    | .error o => (s, o)
    | .ok page =>
      if Config.queueEntries ≤ (s.port p).queue.length then (s, .queueFull)
      else if s.stagingFree p < q.payload.length then (s, .stagingFull)
      else (s.appendEntry p q page, .ok)

end Sys2Proof.Machine
end

