-- ==== Sys2Proof/Machine/Raster.lean ====
section
/-! DEFINITION. The Raster Unit at work: logic functions, edge masks and sources (R71 to R84), the progress of an executing command word by
word (R85, R88), its start (R87) and its end (R89, R90). -/

namespace Sys2Proof.Machine

/-! ## Pixels -/

/-- Pixel position `i` of a word, the most significant bit at position 0 (R71). -/
def pixel (w : Word) (i : Nat) : Bool := w.getMsbD i

/-- The logic function: bit 2 x S + D of the code (R76). -/
def logicBit (fn : BitVec 4) (source dest : Bool) : Bool := fn.getLsbD (2 * source.toNat + dest.toNat)

/-- The function of a drawing command. -/
def Operation.fn : Operation → BitVec 4
  | .fill _ _ _ _ fn _ => fn
  | .putBits _ _ _ _ fn => fn
  | .copy _ _ _ _ _ _ fn => fn
  | .loadTile _ => 0
  | .closeBand => 0
  | .leavePage => 0
  | .mark _ => 0
  | .sumBand => 0

/-- Word `k` of a line after a row of rectangle `r` has been drawn into it: the pixels inside take the function of source and destination,
the others keep their value (R75, R76). -/
def mergeWord (fn : BitVec 4) (r : Rect) (k : Nat) (source : Nat → Bool) (old : Word) : Word :=
  BitVec.ofFnBE fun i : Fin 16 =>
    if r.x ≤ 16 * k + i.val ∧ 16 * k + i.val < r.x + r.w then logicBit fn (source (16 * k + i.val)) (pixel old i.val)
    else pixel old i.val

/-! ## Rows -/

/-- A COPY down the band processes its rows from the last to the first (R84). -/
def Operation.lastRowFirst : Operation → Bool
  | .copy _ sy _ dy _ _ _ => decide (sy < dy)
  | _ => false

/-- The row of the effective rectangle that is the `row`-th processed (R84, R85). -/
def ExecRecord.rowIndex (x : ExecRecord) : Nat := if x.op.lastRowFirst then x.rows - 1 - x.row else x.row

/-- The source bit for pixel `px` of band line `y` (R78, R80, R81, R83). -/
def State.sourceBit (s : State) (x : ExecRecord) (y px : Nat) : Bool :=
  match x.op with
  | .fill _ _ _ _ _ (.solid v) => v
  | .fill _ _ _ _ _ (.tile t) => pixel (s.tileRow t ((x.firstPageLine + y) % Config.tileRows)) (px % 16)
  | .putBits rx ry w _ _ =>
    pixel (s.stagingWord x.port (x.stagingPosition + (y - ry) * rowWordsOf w + (px - rx) / 16)) ((px - rx) % 16)
  | .copy sx _ dx _ _ _ _ => pixel (x.rowBuffer.getD ((px - dx + sx % 16) / 16) 0) ((px - dx + sx % 16) % 16)
  | _ => false

/-- The source row segment of a COPY, read whole before the row's first word is written (R84, R97). -/
def State.readRow (s : State) (i width : Nat) (op : Operation) (r : Rect) (row : Nat) : List Word :=
  match op with
  | .copy sx sy _ _ _ _ _ =>
    (List.range ((sx + r.w - 1) / 16 - sx / 16 + 1)).map fun k => s.readBand (slotAddress i ((sy + row) * width + sx / 16 + k))
  | _ => []

/-- The record with its row buffer holding the row about to be drawn (R84). -/
def State.withRowBuffer (s : State) (i width : Nat) (x : ExecRecord) (r : Rect) : ExecRecord :=
  if x.rowWord = 0 then { x with rowBuffer := s.readRow i width x.op r x.rowIndex } else x

/-- The command handles one word of slot `i`, which holds a band of `width` words a line (R93, R96, R97, R102). -/
def State.touchBandWord (s : State) (x : ExecRecord) (i width : Nat) : State × ExecRecord :=
  match x.clip with
  | none =>
    (s, { x with runningSum := x.runningSum.map fun sum => sum + s.readBand (slotAddress i (x.row * width + x.rowWord)) })
  | some c =>
    let x1 := s.withRowBuffer i width x c.rect
    let y := c.rect.y + x.rowIndex
    let k := c.rect.x / 16 + x.rowWord
    let a := slotAddress i (y * width + k)
    (s.writeBand a (mergeWord x.op.fn c.rect k (s.sourceBit x1 y) (s.readBand a)), x1)

/-- The command handles its next word: a LOAD TILE writes a row of its tile (R98); the others work in their slot while it is OPEN and no stop is
requested (R4, R104). -/
def State.touchWord (s : State) (x : ExecRecord) : State × ExecRecord :=
  match x.op with
  | .loadTile t =>
    ({ s with tileRam := ramWrite s.tileRam (t * Config.tileRows + x.row) (s.stagingWord x.port (x.stagingPosition + x.row)) }, x)
  | _ =>
    if x.stopRequested then (s, x)
    else
      match x.slot with
      | none => (s, x)
      | some i =>
        match s.slot i with
        | .held .opened k => s.touchBandWord x i k.width
        | _ => (s, x)

/-- The place of the next word; at the end of the last row, or of the row a stop lets finish, the work has finished (R85, R89). With a row's last period over
the next row is the one in progress, so a release taken exactly between two rows lets that next row's time run out (R104; DESIGN CHOICE, log 29). -/
def ExecRecord.advance (x : ExecRecord) : ExecRecord :=
  if x.rowWord + 1 < x.rowWords then { x with rowWord := x.rowWord + 1, period := 0 }
  else if x.row + 1 < x.rows ∧ x.stopRequested = false then { x with row := x.row + 1, rowWord := 0, period := 0 }
  else { x with finished := true, period := 0 }

/-- One word of the executing command's work. -/
def State.rasterWord (s : State) : State :=
  match s.execution with
  | none => s
  | some x => if x.finished then s else { (s.touchWord x).1 with execution := some (s.touchWord x).2.advance }

/-- `n` words of it. -/
def State.rasterWords : Nat → State → State
  | 0, s => s
  | n + 1, s => State.rasterWords n s.rasterWord

/-- The words that remain of the executing command, at most. -/
def ExecRecord.wordsLeft (x : ExecRecord) : Nat := if x.finished then 0 else (x.rows - x.row) * x.rowWords - x.rowWord

/-- The executing command's work, to its end. -/
def State.finishWork (s : State) : State :=
  match s.execution with
  | none => s
  | some x => State.rasterWords x.wordsLeft s

/-- Clock periods for each word a command handles (R88). -/
def Operation.wordPeriods : Operation → Nat
  | .fill _ _ _ _ _ _ => 2
  | .putBits _ _ _ _ _ => 2
  | .copy _ _ _ _ _ _ _ => 3
  | .loadTile _ => 1
  | .closeBand => 1
  | .leavePage => 1
  | .mark _ => 1
  | .sumBand => 1

/-! ## Words that exist -/

/-- The band of a slot fits its slot's words (R1). -/
def Slot.fits : Slot → Bool
  | .free => true
  | .held _ k => decide (k.lines * k.width ≤ Config.slotWords)

/-- What the executing command handles lies inside its band, or its tile (R74, R79). -/
def State.executionFits (s : State) : Bool :=
  match s.execution with
  | none => true
  | some x =>
    match x.op with
    | .loadTile t => decide (t < Config.tileCount) && decide (x.rows ≤ Config.tileRows)
    | _ =>
      match x.slot with
      | none => true
      | some i =>
        match s.slot i with
        | .held .opened k =>
          match x.clip with
          | none => decide (x.rows ≤ k.lines) && decide (x.rowWords ≤ k.width)
          | some c => decide (c.rect.y + x.rows ≤ k.lines) && decide (c.rect.x / 16 + x.rowWords ≤ k.width)
        | _ => true

/-- Every word that the Clear Unit and the Raster Unit can touch exists (R1; log 11). -/
def State.addressesExist (s : State) : Bool :=
  decide (s.slots.length ≤ Config.slotCount) && s.slots.all Slot.fits && s.executionFits

/-! ## Entries that end -/

/-- CMD DONE, if NOTIFY is set (R123). -/
def Entry.doneEvent (e : Entry) : Option Event := if e.notify then some (Event.ofCommand .cmdDone e.commandTag 0) else none

/-- CMD ERROR with an execution error code (R90). -/
def Entry.errorEvent (e : Entry) (c : ExecError) : Event := Event.ofCommand .cmdError e.commandTag (BitVec.ofNat 16 c.code)

/-- CMD WARN CLIPPED (R74). -/
def clippedEvent (tag : Byte) : Event := Event.ofCommand .cmdWarn tag 1

/-- An event to the issuing port, if there is one. -/
def State.postMaybe (s : State) (p : Port) : Option Event → State
  | none => s
  | some e => s.postTo p e

/-- A granted entry completes in the claim of its grant: it leaves the queue, its event is posted, and its port was served last (R111, R128). -/
def State.finishEntry (s : State) (p : Port) (e : Option Event) : State :=
  { ((s.popEntry p).postMaybe p e) with pointer := p }

/-! ## The start of execution -/

/-- The execution record is filled, the entry becomes EXECUTING, the in-flight mark is set, and its port was served last (R86, R87 step 4,
R128). -/
def State.startExecution (s : State) (p : Port) (e : Entry) (slot : Option Nat) (clip : Option Clip) (rows rowWords firstPageLine : Nat) :
    State :=
  { (s.setHeadLife p .executing) with
    pointer := p, inFlight := slot,
    execution := some
      { port := p, op := e.op, commandTag := e.commandTag, notify := e.notify, page := e.page, band := e.band, slot := slot, clip := clip,
        row := 0, runningSum := if e.op = .sumBand then some 0 else none, stopRequested := false, silent := false,
        stagingPosition := e.stagingPosition.getD 0, payloadLength := e.payloadLength, rows := rows, rowWords := rowWords,
        rowWord := 0, period := 0, finished := false, rowBuffer := [], firstPageLine := firstPageLine } }

/-- The tile a FILL names is not loaded (R94). -/
def State.tileEmpty (s : State) : Operation → Bool
  | .fill _ _ _ _ _ (.tile t) => !(s.tileLoaded.getD t false)
  | _ => false

/-- Steps 2 to 4 of R87 for a FILL, PUT BITS, COPY or SUM BAND that may run on slot `i`, which holds the band `k`. -/
def State.beginBandCommand (s : State) (p : Port) (e : Entry) (i : Nat) (k : BandRecord) : State :=
  if s.tileEmpty e.op then s.finishEntry p (some (e.errorEvent .tileEmpty))
  else
    match clipOf e.op k.width k.lines with
    | none => s.startExecution p e (some i) none k.lines k.width 0
    | some c =>
      if c.rect.isEmpty then s.finishEntry p (some (clippedEvent e.commandTag))
      else
        s.startExecution p e (some i) (some c) c.rect.h c.rect.rowWords
          (k.band * ((s.findPage k.page).map PageRecord.bandHeight).getD 0)

/-- The close claim of R57 for slot `i`: the port joins the closed-by set and readiness is evaluated. -/
def State.closeClaim (s : State) (p : Port) (i : Nat) : State :=
  match s.slot i with
  | .held st k =>
    let t := s.setSlot i (.held st { k with closedBy := k.closedBy.add p })
    if t.closedByAll i then (t.openToReady i false).offerIfHead k.page else t
  | .free => s

/-- The grant of an entry that names a band (R57, R66, R87, R124). -/
def State.grantBand (s : State) (p : Port) (e : Entry) (r : PageRef) (b : Nat) : State :=
  match s.executionCheck p r b with
  | .error c => s.finishEntry p (some (e.errorEvent c))
  | .wait => s.setHeadLife p .waiting
  | .run i =>
    if e.op = .closeBand then (s.closeClaim p i).finishEntry p e.doneEvent
    else
      match s.slot i with
      | .held _ k => s.beginBandCommand p e i k
      | .free => s

/-- The leave claim of R41 and R42. -/
def State.grantLeave (s : State) (p : Port) (e : Entry) (r : PageRef) : State :=
  match s.findPage r with
  | none => s.finishEntry p (some (e.errorEvent .pageGone))
  | some q =>
    if q.state = .blanking then s.finishEntry p (some (e.errorEvent .pageAborted))
    else if !q.participants.has p then s.finishEntry p (some (e.errorEvent .notParticipant))
    else if (q.participants.remove p).isEmpty then s.finishEntry p (some (e.errorEvent .lastParticipant))
    else (s.leaveRecord q p).finishEntry p e.doneEvent

/-- The grant of the head entry of a queue (R87, R98, R100, R128). -/
def State.grant (s : State) (p : Port) (e : Entry) : State :=
  match e.op with
  | .mark v => s.finishEntry p (some (Event.ofCommand .mark e.commandTag v))
  | .loadTile _ => s.startExecution p e none none Config.tileRows 1 0
  | .leavePage =>
    match e.page with
    | none => s
    | some r => s.grantLeave p e r
  | _ =>
    match e.page, e.band with
    | some r, some b => s.grantBand p e r b
    | _, _ => s

/-- A queue is runnable: its head entry exists and is QUEUED (R127). -/
def State.runnable (s : State) (p : Port) : Bool :=
  match s.headEntry p with
  | none => false
  | some e => decide (e.life = .queued)

/-- The port a free Raster Unit grants: with both queues runnable, the one not served last (R128). While a command executes, none (R127). -/
def State.grantedPort (s : State) : Option Port :=
  if s.execution.isSome then none
  else if s.runnable s.pointer.other then some s.pointer.other
  else if s.runnable s.pointer then some s.pointer
  else none

/-! ## The end of execution -/

/-- The event of a command's end (R90). -/
def ExecRecord.outcomeEvent (x : ExecRecord) : Option Event :=
  if x.silent then none
  else if x.stopRequested then
    some (Event.ofCommand .cmdError x.commandTag (BitVec.ofNat 16 ExecError.pageAborted.code))
  else
    match x.runningSum with
    | some sum => some (Event.ofCommand .sum x.commandTag sum)
    | none =>
      if (x.clip.map Clip.clipped).getD false then some (clippedEvent x.commandTag)
      else if x.notify then some (Event.ofCommand .cmdDone x.commandTag 0)
      else none

/-- The command-end claim takes the command's slot (R62, R63, R89): forced if a force is pending, READY if its readiness holds; allocation if it was
released meanwhile. -/
def State.takeEndedSlot (s : State) (i : Nat) : State :=
  match s.slot i with
  | .free => s.evaluateAllocation
  | .held .opened k =>
    if k.forcePending then (s.openToReady i true).offerIfHead k.page
    else if s.closedByAll i then (s.openToReady i false).offerIfHead k.page
    else s
  | _ => s

/-- The executing entry leaves its queue, unless a PORT RESET has already taken it (R111, R112). -/
def State.popExecuting (s : State) (x : ExecRecord) : State := if x.silent then s else s.popEntry x.port

/-- The tile of a LOAD TILE is loaded (R98). -/
def State.markLoaded (s : State) : Operation → State
  | .loadTile t => { s with tileLoaded := s.tileLoaded.set t true }
  | _ => s

/-- The command-end claim of R89 for a command whose work has finished. -/
def State.commandEndClaim (s : State) (x : ExecRecord) : State :=
  let s1 : State := { s with inFlight := none, execution := none }
  let s2 := s1.markLoaded x.op
  let s3 := match x.slot with
    | none => s2
    | some i => s2.takeEndedSlot i
  (s3.postMaybe x.port x.outcomeEvent).popExecuting x

/-! ## The Clear Unit -/

/-- The fill value of a band (R10). -/
def BandRecord.fillWord (k : BandRecord) : Word := backgroundWord k.background

/-- `n` words of slot `i` from word `w` on take the fill value, in rising order (R11). -/
def State.clearWords (i : Nat) (v : Word) : Nat → Nat → State → State
  | 0, _, s => s
  | n + 1, w, s => State.clearWords i v n (w + 1) (s.writeBand (slotAddress i w) v)

/-- The clear completion claim of R12 for slot `i`, which holds the band `k`. -/
def State.clearDone (s : State) (i : Nat) (k : BandRecord) : State :=
  let s1 : State := { (s.setSlot i (.held .opened k)) with clearOrder := s.clearOrder.tail, clearPos := 0 }
  let ps := ((s.findPage k.page).map PageRecord.participants).getD .empty
  (s1.postAll ps (Event.ofBand .bandAvailable k.page.tag k.band)).recheck k.page

end Sys2Proof.Machine
end

