-- ==== Sys2Proof/Machine/EngineOps.lean ====
section
/-! DEFINITION. The Streamer's answers to the engine and to its own timing: TOP, LREQ, HOLD, LACK, the ends of words and lines, the
acknowledge window and the starvation timer (R141 to R152, R157 to R167, R169). -/

namespace Sys2Proof.Machine

/-- Periods of the internal clock after which the starvation timer expires (R136, R159). -/
def State.starvationPeriods (s : State) : Nat := s.engine.starvationLimit * Config.clockPerMs

/-- A TOP (R35, R141, R142): it starts the offered page, and is unexpected in any other state. -/
def State.takeTop (s : State) : State :=
  match s.streamer with
  | .offered r =>
    match s.findPage r with
    | none => s
    | some p =>
      let s1 : State := { (s.mapPage r fun q => { q with state := .printing, linesServed := 0, nextToStream := 0 }) with
        streamer := .betweenLines r, prdyLow := none }
      if p.copiesRemaining = p.copies then s1.postAll p.participants (Event.ofPage .pageStarted p.ref.tag 0) else s1
  | _ => s.postFault 1

/-- The band of a requested line is not ready (R144): an underrun (R158) or a starvation wait (R159). -/
def State.notReady (s : State) (p : PageRecord) : State :=
  match s.engine.kind with
  | .nostall =>
    (s.blankPage p .underrun (Event.ofPage .pageSpoiled p.ref.tag SpoilCause.underrun.code)).beginLine p.ref .background
  | .stall => { s with streamer := .starved p.ref p.nextToStream 0 false }

/-- The slot that is STREAMING band `b` of page `r`. -/
def State.streamingSlot (s : State) (r : PageRef) (b : Nat) : Option Nat :=
  match s.slotOfBand r b with
  | none => none
  | some i =>
    match s.slot i with
    | .held .streaming _ => some i
    | _ => none

/-- The next line of a PRINTING page (R143, R157). -/
def State.nextLine (s : State) (p : PageRecord) : State :=
  if p.bandLine = 0 then (s.startBand p.ref p.nextToStream).getD (s.notReady p)
  else
    match s.streamingSlot p.ref p.nextToStream with
    | some i => s.beginLine p.ref (.slot i)
    | none => s.notReady p

/-- An LREQ between lines (R157). -/
def State.requestLine (s : State) (r : PageRef) : State :=
  match s.findPage r with
  | none => s
  | some p => if p.state = .blanking then s.beginLine r .background else s.nextLine p

/-- An LREQ (R143, R145, R157, R161). -/
def State.takeLreq (s : State) : State :=
  match s.streamer with
  | .idle => s.postFault 2
  | .offered _ => s.postFault 2
  | .betweenLines r => s.requestLine r
  | .sending r _ => s.spoil r .slip
  | .held r _ _ => s.spoil r .slip
  | .ackWait r _ _ => s.spoil r .slip
  | .starved _ _ _ _ => s

/-- The Streamer notes that the line ends after the word in flight (R148). -/
def State.markEarly (s : State) : State :=
  match s.streamer with
  | .sending r line => { s with streamer := .sending r { line with early := true } }
  | _ => s

/-- An LACK (R148, R149, R152): early while a line is being sent or held, in time in ACK WAIT, unexpected otherwise. A second
early LACK is one more (log 14). -/
def State.takeLack (s : State) : State :=
  match s.streamer with
  | .sending r _ => (s.spoil r .slip).markEarly
  | .held r source _ => (s.spoil r .slip).endLine r source
  | .ackWait r source _ => s.endLine r source
  | _ => s.postFault 3

/-- The end of word `k` with HOLD high (R147): a word not the line's last, of a line no early LACK is ending, pauses the line. -/
def State.takeHeld (s : State) (k : Nat) : State :=
  match s.streamer with
  | .sending r line =>
    if s.pins.hold = true ∧ line.early = false ∧ line.word ≤ k ∧ k + 1 < s.lineWidth r then
      { (s.sendWords r line.source line.word k) with streamer := .held r line.source (k + 1) }
    else s
  | _ => s

/-- HOLD goes low (R147). -/
def State.takeHoldLow (s : State) : State :=
  match s.streamer with
  | .held r source k =>
    { s with streamer := .sending r { source := source, word := k, bits := 0, wordDone := false, early := false } }
  | _ => s

/-- The last bit of the line has been sent (R146). -/
def State.takeLastBit (s : State) : State :=
  match s.streamer with
  | .sending r line =>
    if line.early then s
    else { (s.sendWords r line.source line.word (s.lineWidth r - 1)) with streamer := .ackWait r line.source 0 }
  | _ => s

/-- The word in flight of a line ended early has been sent (R148). -/
def State.takeEarlyEnd (s : State) : State :=
  match s.streamer with
  | .sending r line => if line.early then (s.sendWords r line.source line.word line.word).endLine r line.source else s
  | _ => s

/-- The acknowledge window expires (R150). -/
def State.takeWindowExpiry (s : State) : State :=
  match s.streamer with
  | .ackWait r source _ => (s.spoil r .slip).endLine r source
  | _ => s

/-- BAND FORCED to the participants that have not closed the band (R61, R62). -/
def State.postForced (s : State) (p : PageRecord) (k : BandRecord) : State :=
  s.postAll (p.participants.minus k.closedBy) (Event.ofBand .bandForced k.page.tag k.band)

/-- The force-close claim on slot `i`, OPEN with the band `k` of page `p` (R60, R61, R62): at once, or deferred behind the command that
executes on the slot. -/
def State.forceClose (s : State) (p : PageRecord) (i : Nat) (k : BandRecord) : State :=
  if k.forcePending then s
  else if s.inFlight = some i then (s.setSlot i (.held .opened { k with forcePending := true })).postForced p k
  else (s.postForced p k).openToReady i true

/-- The expiry claim of R162 for band `b` of page `p`; a band READY by then is left to its ready notice (log 25). -/
def State.expiryClaim (s : State) (p : PageRecord) (b : Nat) : State :=
  match s.slotOfBand p.ref b with
  | none => s.spoil p.ref .starved
  | some i =>
    match s.slot i with
    | .held .opened k => s.forceClose p i k
    | .held .clearing _ => s.spoil p.ref .starved
    | _ => s

/-- The starvation timer expires (R162): it holds the limit and does not run again in this wait (R159, R163). -/
def State.takeStarvationExpiry (s : State) : State :=
  match s.streamer with
  | .starved r b _ false =>
    match s.findPage r with
    | none => s
    | some p => ({ s with streamer := .starved r b s.starvationPeriods true } : State).expiryClaim p b
  | _ => s

/-- The words sent of the line last begun, once the cut word has left: it is that line's, unless another line has begun behind it (log 15). -/
def State.withCutWord (s : State) (w : Word) : List Word :=
  match s.streamer with
  | .sending _ _ => s.lineOut
  | _ => s.lineOut ++ [w]

/-- The word in flight of a removed page's line has been sent (R169). -/
def State.takeTailSent (s : State) : State :=
  match s.tail with
  | none => s
  | some t => { s with tail := none, lineOut := s.withCutWord t.word, vdat := t.word.getLsbD 0 }

end Sys2Proof.Machine
end

