-- ==== Sys2Proof/Machine/PortCommands.lean ====
section
/-! DEFINITION. The meanings of the frames that a port carries out itself: select's edges, malformed and unknown frames, NOP, the read commands
and the immediate commands (chapter 10; R28, R29, R45, R137, R181, R196). -/

namespace Sys2Proof.Machine

/-- The answer of a command that the part takes. -/
abbrev Answer := Host.Outcome State Fault Refusal

/-! ## Frames without a command -/

/-- Select falls (R186, R190). While reset is held, or with select low already, the fall opens no frame (R186, R198; log 3). -/
def State.selectFalls (s : State) (p : Port) : State :=
  if s.canOpen p then s.openFrame p else s.updPort p fun ps => { ps with selectHigh := false }

/-- FRAME_RESULT_BYTE (R190). -/
def execFrameResultByte (p : Port) (s : State) : Answer := .next (s.selectFalls p)

/-- Select rises after `bits` bits of an incomplete command byte (R186, R188). -/
def State.endShortFrame (s : State) (p : Port) (bits : Nat) : State :=
  if (s.port p).assembler.state = .command then s.closeFrame p .badFrame bits else s.selectRises p

/-- BAD_FRAME (R188): how many bits were taken makes no difference to the outcome. -/
def execBadFrame (p : Port) (bits : Nat) (s : State) : Answer := .next ((s.openIfWhole p).endShortFrame p bits)

/-- UNKNOWN_COMMAND (R186, R188): the bytes are ignored and ASDO carries 00H; at select high the outcome is recorded. -/
def execUnknownCommand (p : Port) (code : Byte) (st : FrameStage) (s : State) : Answer :=
  .next (s.runFrame p code .ignoring (fun _ => []) (fun t body => t.shiftBytes p body) (fun t _ => (t, .unknownCommand)) st)

/-- NOP (R192). -/
def execNop (p : Port) (st : FrameStage) (s : State) : Answer := .next (s.runCommand p 0x00 (fun t _ => (t, .ok)) st)

/-! ## Read commands -/

/-- READ_STATUS (R193, R197). -/
def execReadStatus (p : Port) (st : FrameStage) (s : State) : Answer :=
  .next (s.runRead p 0x21 (fun t => t.statusRecord p) st)

/-- READ_EVENTS (R177, R179). -/
def execReadEvents (p : Port) (st : FrameStage) (s : State) : Answer := .next (s.runReadEvents p st)

/-- The rest of the record being shifted out leaves. -/
def State.shiftRecord (p : Port) : Nat → State → State
  | 0, s => s
  | n + 1, s => State.shiftRecord p n (State.shiftEventByte p s 0)

/-- A READ EVENTS frame of port `p` is shifting its records. -/
def State.readingEvents (s : State) (p : Port) : Bool :=
  decide ((s.port p).assembler.state = .body) && decide ((s.port p).assembler.commandByte = some 0x22)

/-- EVENT_RECORD_REMOVAL (R178): the record being shifted out, or the next one, is shifted out to its eighth byte and removed. -/
def execEventRecordRemoval (p : Port) (s : State) : Answer :=
  .next (if s.readingEvents p then State.shiftRecord p (s.recordBytesLeft p) s else s)

/-- READ_PAGES (R194, R197). -/
def execReadPages (p : Port) (st : FrameStage) (s : State) : Answer := .next (s.runRead p 0x23 State.pagesView st)

/-- READ_BANDS (R195, R197, R24). -/
def execReadBands (p : Port) (st : FrameStage) (s : State) : Answer := .next (s.runRead p 0x24 State.bandsView st)

/-! ## Pages -/

/-- The claim of an OPEN PAGE that passed its checks (R29). -/
def State.appendPage (s : State) (p : Port) (o : PageOperands) : State :=
  let r := o.record p s.nextInstance
  (({ s with pages := s.pages ++ [r], nextInstance := s.nextInstance + 1 } : State).evaluateAllocation).offerIfHead r.ref

/-- OPEN PAGE's checks (R28, R29) and claim. -/
def State.openPageAct (p : Port) (s : State) (body : List Byte) : State × FrameOutcome :=
  if !(pageCodesOk body && (pageOperandsOf body).ok p) then (s, .badParam)
  else if (s.pageOfTag (byteAt body 0)).isSome then (s, .tagInUse)
  else if Config.queuePages ≤ s.pages.length then (s, .pageQueueFull)
  else (s.appendPage p (pageOperandsOf body), .ok)

/-- OPEN_PAGE (R28, R29). -/
def execOpenPage (p : Port) (st : FrameStage) (s : State) : Answer := .next (s.runCommand p 0x30 (State.openPageAct p) st)

/-- ABORT PAGE's checks (R45) and claim (R46 to R48). -/
def State.abortPageAct (p : Port) (s : State) (body : List Byte) : State × FrameOutcome :=
  match s.pageOfTag (byteAt body 0) with
  | none => (s, .noPage)
  | some q =>
    if !q.participants.isEmpty && !q.participants.has p then (s, .notParticipant)
    else (s.abortRecord q, .ok)

/-- ABORT_PAGE (R45). -/
def execAbortPage (p : Port) (st : FrameStage) (s : State) : Answer := .next (s.runCommand p 0x31 (State.abortPageAct p) st)

/-! ## Settings and PORT RESET -/

/-- SET ENGINE's checks and claim (R137). A removed page's word that is still leaving does not hold it back: the rest of that word leaves at the new divisor
(R169; DESIGN CHOICE, log 31). -/
def State.setEngineAct (s : State) (body : List Byte) : State × FrameOutcome :=
  match parseEngine body with
  | none => (s, .badParam)
  | some c => if s.streamer = .idle ∧ s.pages = [] then ({ s with engine := c }, .ok) else (s, .engineBusy)

/-- SET_ENGINE (R137). -/
def execSetEngine (p : Port) (st : FrameStage) (s : State) : Answer := .next (s.runCommand p 0x32 State.setEngineAct st)

/-- SET PORT's check and claim (R181). -/
def State.setPortAct (p : Port) (s : State) (body : List Byte) : State × FrameOutcome :=
  if (byteAt body 0).toNat ≤ 1 then
    (s.updPort p fun ps => { ps with interruptEnable := (byteAt body 0).getLsbD 0 }, .ok)
  else (s, .badParam)

/-- SET_PORT (R181). -/
def execSetPort (p : Port) (st : FrameStage) (s : State) : Answer := .next (s.runCommand p 0x33 (State.setPortAct p) st)

/-- PORT_RESET (R196). -/
def execPortReset (p : Port) (st : FrameStage) (s : State) : Answer :=
  .next (s.runCommand p 0x3C (fun t _ => (t.resetPort p, .ok)) st)

end Sys2Proof.Machine
end

