-- ==== Sys2Proof/Machine/Clock.lean ====
section
/-! DEFINITION. The part's own time: which events have come due, and what one period of the 96 MHz internal clock does (R11, R88, R135, R149, R159;
log 6, 7). -/

namespace Sys2Proof.Machine

/-! ## Events that have come due -/

/-- A command that is due, or none. -/
def dueWhen (b : Bool) (c : Instr) : List Instr := if b then [c] else []

/-- The slot at the front of the clear order has had its last word written (R12). -/
def State.clearIsDone (s : State) : Bool :=
  match s.clearOrder with
  | [] => false
  | i :: _ =>
    match s.slot i with
    | .held .clearing k => decide (k.lines * k.width ≤ s.clearPos)
    | _ => false

/-- The executing command's last row, or the row a stop lets finish, has ended (R89). -/
def State.workIsDone (s : State) : Bool :=
  match s.execution with
  | none => false
  | some x => x.finished

/-- What the Streamer has due: the end of a word that ends or pauses the line, the window's end, or the timer's (R146 to R150, R159). -/
def State.streamerDue (s : State) : List Instr :=
  match s.streamer with
  | .sending r line =>
    if !line.wordDone then []
    else if line.early then [.earlyLackWordEnd]
    else if s.lineWidth r ≤ line.word + 1 then [.lastBitSent]
    else if s.pins.hold then [.held (.wordEnd line.word)]
    else []
  | .ackWait _ _ count => dueWhen (decide (s.engine.acknowledgeWindow ≤ count)) .acknowledgeWindowExpiry
  | .starved _ _ timer expired => dueWhen (decide (s.starvationPeriods ≤ timer) && !expired) .starvationTimerExpiry
  | _ => []

/-- PRDY has been low for one video clock period (R139). -/
def State.prdyIsDue (s : State) : Bool :=
  match s.prdyLow with
  | none => false
  | some n => decide (s.engine.videoDivisor ≤ n)

/-- The cut word's last bit has been sent (R169). -/
def State.tailIsDone (s : State) : Bool :=
  match s.tail with
  | none => false
  | some t => t.done

/-- The events of the part's own that have come due and have not been taken. -/
def State.dueEvents (s : State) : List Instr :=
  dueWhen s.clearIsDone .clearCompletion ++ dueWhen s.workIsDone .commandEnd ++ s.streamerDue ++ dueWhen s.prdyIsDue .prdyReassert ++
    dueWhen s.tailIsDone .wordInFlightSent ++ dueWhen s.grantedPort.isSome .consideration

/-- One of the events that are due goes to the queue, a clear's completion naming its clear (R5). Of two or more, which one is a free choice (R5; log 7). -/
def State.postDue (s : State) (c : Instr) (rest : List Instr) : State :=
  (if rest = [] then { s with pending := [c] }
   else
    { s with pending := [(c :: rest).getD (Config.raceOrder s.freeCount % (c :: rest).length) c],
             freeCount := s.freeCount + 1 } : State).settleClaim

/-! ## One period of the internal clock -/

/-- The Clear Unit writes one word (R11). -/
def State.clearTick (s : State) : State :=
  match s.clearOrder with
  | [] => s
  | i :: _ =>
    match s.slot i with
    | .held .clearing k =>
      if s.clearPos < k.lines * k.width then
        { (s.writeBand (slotAddress i s.clearPos) k.fillWord) with clearPos := s.clearPos + 1 }
      else s
    | _ => s

/-- The Raster Unit works for one period: the word it handles is done in the last of the word's periods (R88; log 10). -/
def State.rasterTick (s : State) : State :=
  match s.execution with
  | none => s
  | some x =>
    if x.finished then s
    else if x.period + 1 < x.op.wordPeriods then { s with execution := some { x with period := x.period + 1 } }
    else s.rasterWord

/-- Word `k` of the line begins at its first bit. -/
def State.beginWord (s : State) (r : PageRef) (line : LineInFlight) (k : Nat) : State :=
  { s with streamer := .sending r { line with word := k, bits := 1, wordDone := false }, vdat := pixel (s.lineWord r line.source k) 0 }

/-- The next word follows with no gap: the word just ended joins the words sent (R147). -/
def State.followOn (s : State) (r : PageRef) (line : LineInFlight) : State :=
  ({ s with lineOut := s.lineOut ++ [s.lineWord r line.source line.word] } : State).beginWord r line (line.word + 1)

/-- The end of the word ends or pauses the line: an early LACK, the line's last word, or HOLD high (R146 to R148). -/
def State.wordStops (s : State) (r : PageRef) (line : LineInFlight) : Bool :=
  line.early || decide (s.lineWidth r ≤ line.word + 1) || s.pins.hold

/-- The boundary between two video clock periods, for a line being sent (R135, R146, R147; log 9). -/
def State.lineBoundary (s : State) (r : PageRef) (line : LineInFlight) : State :=
  if line.bits < 16 then
    { s with streamer := .sending r { line with bits := line.bits + 1 }, vdat := pixel (s.lineWord r line.source line.word) line.bits }
  else if s.wordStops r line then { s with streamer := .sending r { line with wordDone := true } }
  else s.followOn r line

/-- The boundary between two video clock periods: a bit begins, or the window count advances (R135, R146, R149). A line's bits wait while a removed
page's word is leaving (R169; log 13). -/
def State.streamerBoundary (s : State) : State :=
  match s.streamer with
  | .sending r line => if line.wordDone || s.tail.isSome then s else s.lineBoundary r line
  | .ackWait r source count =>
    { s with streamer := .ackWait r source (if count < s.engine.acknowledgeWindow then count + 1 else count) }
  | _ => s

/-- The boundary, for the word of a removed page that is still leaving (R169). -/
def State.tailBoundary (s : State) : State :=
  match s.tail with
  | none => s
  | some t =>
    if t.done then s
    else if t.bits < 16 then { s with tail := some { t with bits := t.bits + 1 }, vdat := pixel t.word t.bits }
    else { s with tail := some { t with done := true } }

/-- A word's end that HOLD was to pause finds HOLD low again before HELD was taken: the next word follows with no gap (R147;
log 26). -/
def State.resumeWord (s : State) : State :=
  match s.streamer with
  | .sending r line => if line.wordDone && !s.wordStops r line then s.followOn r line else s
  | _ => s

/-- The video clock for one period of the internal clock (R135; log 19). -/
def State.videoTick (s : State) : State :=
  let t := s.resumeWord
  if t.engine.videoDivisor ≤ t.videoPhase + 1 then
    ({ t with videoPhase := 0 } : State).streamerBoundary.tailBoundary
  else { t with videoPhase := t.videoPhase + 1 }

/-- The starvation timer (R159). -/
def State.starvationTick (s : State) : State :=
  match s.streamer with
  | .starved r b timer expired =>
    if expired then s else { s with streamer := .starved r b (timer + 1) false }
  | _ => s

/-- The count of PRDY's low period (R139). -/
def State.prdyTick (s : State) : State := { s with prdyLow := s.prdyLow.map fun n => n + 1 }

/-- One period of the 96 MHz internal clock. -/
def State.tick (s : State) : State := s.clearTick.rasterTick.videoTick.starvationTick.prdyTick

/-- What the part does with no command waiting: nothing while reset is held (R198); else an event that is due goes to the queue, or one period of
the internal clock passes (log 6). Words that do not exist fault (R1; log 11). -/
def State.idle (s : State) : Answer :=
  if s.resetHeld then .next s
  else
    match s.dueEvents with
    | c :: rest => .next (s.postDue c rest)
    | [] => if s.addressesExist then .next s.tick else .fault .bandRamAddress

end Sys2Proof.Machine
end

