-- ==== Sys2Proof/Machine/EngineCommands.lean ====
section
/-! DEFINITION. The meanings of the engine's inputs and of the Streamer's own events (chapters 7 and 8). An input's change from low to high is one
event, and nothing is taken while reset is held (R134, R198). -/

namespace Sys2Proof.Machine

/-- A change to `level` of an input that stood at `before` is an assertion that the Streamer takes (R134, R156, R198). -/
def State.asserted (s : State) (before level : Bool) : Bool := level && !before && !s.resetHeld

/-- TOP (R141, R142). -/
def execTop (level : Bool) (s : State) : Answer :=
  let t : State := { s with pins := { s.pins with top := level } }
  .next (if s.asserted s.pins.top level then t.takeTop else t)

/-- LREQ (R157). -/
def execLreq (level : Bool) (s : State) : Answer :=
  let t : State := { s with pins := { s.pins with lreq := level } }
  .next (if s.asserted s.pins.lreq level then t.takeLreq else t)

/-- LACK (R148, R149, R152). -/
def execLack (level : Bool) (s : State) : Answer :=
  let t : State := { s with pins := { s.pins with lack := level } }
  .next (if s.asserted s.pins.lack level then t.takeLack else t)

/-- HELD (R147; log 27): HOLD goes high; or word `k` of the line ends with HOLD high and the line pauses. -/
def execHeld (moment : HoldMoment) (s : State) : Answer :=
  match moment with
  | .rises => .next { s with pins := { s.pins with hold := true } }
  | .wordEnd k => .next (s.takeHeld k)

/-- HOLD_LOW (R147). -/
def execHoldLow (s : State) : Answer := .next ({ s with pins := { s.pins with hold := false } } : State).takeHoldLow

/-- LAST_BIT_SENT (R146). -/
def execLastBitSent (s : State) : Answer := .next s.takeLastBit

/-- EARLY_LACK_WORD_END (R148). -/
def execEarlyLackWordEnd (s : State) : Answer := .next s.takeEarlyEnd

/-- ACKNOWLEDGE_WINDOW_EXPIRY (R150). -/
def execAcknowledgeWindowExpiry (s : State) : Answer := .next s.takeWindowExpiry

/-- STARVATION_TIMER_EXPIRY (R162). -/
def execStarvationTimerExpiry (s : State) : Answer := .next s.takeStarvationExpiry

/-- PRDY_REASSERT (R139). -/
def execPrdyReassert (s : State) : Answer := .next { s with prdyLow := none }

/-- WORD_IN_FLIGHT_SENT (R169). -/
def execWordInFlightSent (s : State) : Answer := .next s.takeTailSent

end Sys2Proof.Machine
end

