-- ==== Sys2Proof/Machine/QueuedCommands.lean ====
section
/-! DEFINITION. The meanings of the queued commands' frames: their operands are checked and the entry is accepted or refused at select high
(R118, R119). What the entry does is CONSIDERATION's and COMMAND_END's. -/

namespace Sys2Proof.Machine

/-- FILL (R92). -/
def execFill (p : Port) (st : FrameStage) (s : State) : Answer :=
  .next (s.runCommand p 0x81 (fun t body => t.acceptFrame p (parseFill body)) st)

/-- PUT_BITS (R95). -/
def execPutBits (p : Port) (st : FrameStage) (s : State) : Answer :=
  .next (s.runCommand p 0x82 (fun t body => t.acceptFrame p (parsePutBits body)) st)

/-- COPY (R97). -/
def execCopy (p : Port) (st : FrameStage) (s : State) : Answer :=
  .next (s.runCommand p 0x83 (fun t body => t.acceptFrame p (parseCopy body)) st)

/-- LOAD_TILE (R98). -/
def execLoadTile (p : Port) (st : FrameStage) (s : State) : Answer :=
  .next (s.runCommand p 0x84 (fun t body => t.acceptFrame p (parseLoadTile body)) st)

/-- CLOSE_BAND (R56). -/
def execCloseBand (p : Port) (st : FrameStage) (s : State) : Answer :=
  .next (s.runCommand p 0x88 (fun t body => t.acceptFrame p (parseCloseBand body)) st)

/-- LEAVE_PAGE (R40). -/
def execLeavePage (p : Port) (st : FrameStage) (s : State) : Answer :=
  .next (s.runCommand p 0x89 (fun t body => t.acceptFrame p (parseLeavePage body)) st)

/-- MARK (R100). -/
def execMark (p : Port) (st : FrameStage) (s : State) : Answer :=
  .next (s.runCommand p 0x8A (fun t body => t.acceptFrame p (parseMark body)) st)

/-- SUM_BAND (R102). -/
def execSumBand (p : Port) (st : FrameStage) (s : State) : Answer :=
  .next (s.runCommand p 0x8B (fun t body => t.acceptFrame p (parseSumBand body)) st)

end Sys2Proof.Machine
end

