-- ==== Sys2Proof/Machine/RasterCommands.lean ====
section
/-! DEFINITION. The meanings of the Raster Unit's and the Clear Unit's own events: a consideration (R127, R128), the end of an executing
command (R89) and the completion of a clear (R12). -/

namespace Sys2Proof.Machine

/-- The head entry of the port that a consideration grants is granted (R128). -/
def State.consider (s : State) : State :=
  match s.grantedPort with
  | none => s
  | some p =>
    match s.headEntry p with
    | none => s
    | some e => s.grant p e

/-- CONSIDERATION (R127, R128). -/
def execConsideration (s : State) : Answer := .next s.consider

/-- The executing command's work is done to its end and its command-end claim taken (R88, R89; log 8). -/
def State.endCommand (s : State) : State :=
  match s.finishWork.execution with
  | none => s
  | some x => s.finishWork.commandEndClaim x

/-- COMMAND_END (R89). Words that do not exist fault (R1; log 11). -/
def execCommandEnd (s : State) : Answer :=
  if s.addressesExist then .next s.endCommand else .fault .bandRamAddress

/-- What remains of the clear of slot `i` is written and its completion claim taken (R11, R12; log 8). -/
def State.completeClear (s : State) (i : Nat) (k : BandRecord) : State :=
  (State.clearWords i k.fillWord (k.lines * k.width - s.clearPos) s.clearPos s).clearDone i k

/-- A completion claim acts on the clear it names, if that is under way; one that finds the slot FREE, with another page or band or in another state is
discarded (R5, R13). -/
def State.takeClearClaim (s : State) (c : ClearClaim) : State :=
  match s.slot c.slot with
  | .held .clearing k => if s.clearUnderWay = some c then s.completeClear c.slot k else s
  | _ => s

/-- The claim of the CLEAR_COMPLETION taken: what it came to name while it waited, else the clear under way (R5, R12; log 33). -/
def State.endClear (s : State) : State :=
  let t : State := { s with clearClaims := s.clearClaims.tail }
  match s.clearClaims.head?.or s.clearUnderWay with
  | none => t
  | some c => t.takeClearClaim c

/-- CLEAR_COMPLETION (R12). Words that do not exist fault (R1; log 11). -/
def execClearCompletion (s : State) : Answer :=
  if s.addressesExist then .next s.endClear else .fault .bandRamAddress

end Sys2Proof.Machine
end

