-- ==== Sys2Proof/Machine/ResetCommands.lean ====
section
/-! DEFINITION. The meanings of device reset and of RESETn rising (R198). -/

namespace Sys2Proof.Machine

/-- DEVICE_RESET (R198). -/
def execDeviceReset (s : State) : Answer := .next s.deviceReset

/-- RESETN_RISES (R198): frames and engine inputs are taken again; a select that is low opens no frame until it has risen and fallen (R186). -/
def execResetnRises (s : State) : Answer := .next { s with resetHeld := false }

end Sys2Proof.Machine
end

