-- ==== Sys2Proof/Machine/Dispatch.lean ====
section
/-! DEFINITION. What each command does: one arm per row of the opcode table. -/

namespace Sys2Proof.Machine

def exec (i : Instr) (s : State) : Host.Outcome State Fault Refusal :=
  match i with
  | .deviceReset => Sys2Proof.Machine.execDeviceReset s
  | .frameResultByte p => Sys2Proof.Machine.execFrameResultByte p s
  | .badFrame p bits => Sys2Proof.Machine.execBadFrame p bits s
  | .unknownCommand p code st => Sys2Proof.Machine.execUnknownCommand p code st s
  | .nop p st => Sys2Proof.Machine.execNop p st s
  | .readStatus p st => Sys2Proof.Machine.execReadStatus p st s
  | .readEvents p st => Sys2Proof.Machine.execReadEvents p st s
  | .eventRecordRemoval p => Sys2Proof.Machine.execEventRecordRemoval p s
  | .readPages p st => Sys2Proof.Machine.execReadPages p st s
  | .readBands p st => Sys2Proof.Machine.execReadBands p st s
  | .openPage p st => Sys2Proof.Machine.execOpenPage p st s
  | .abortPage p st => Sys2Proof.Machine.execAbortPage p st s
  | .setEngine p st => Sys2Proof.Machine.execSetEngine p st s
  | .setPort p st => Sys2Proof.Machine.execSetPort p st s
  | .portReset p st => Sys2Proof.Machine.execPortReset p st s
  | .fill p st => Sys2Proof.Machine.execFill p st s
  | .putBits p st => Sys2Proof.Machine.execPutBits p st s
  | .copy p st => Sys2Proof.Machine.execCopy p st s
  | .loadTile p st => Sys2Proof.Machine.execLoadTile p st s
  | .closeBand p st => Sys2Proof.Machine.execCloseBand p st s
  | .leavePage p st => Sys2Proof.Machine.execLeavePage p st s
  | .mark p st => Sys2Proof.Machine.execMark p st s
  | .sumBand p st => Sys2Proof.Machine.execSumBand p st s
  | .consideration => Sys2Proof.Machine.execConsideration s
  | .commandEnd => Sys2Proof.Machine.execCommandEnd s
  | .clearCompletion => Sys2Proof.Machine.execClearCompletion s
  | .prdyReassert => Sys2Proof.Machine.execPrdyReassert s
  | .top level => Sys2Proof.Machine.execTop level s
  | .lreq level => Sys2Proof.Machine.execLreq level s
  | .held moment => Sys2Proof.Machine.execHeld moment s
  | .holdLow => Sys2Proof.Machine.execHoldLow s
  | .lastBitSent => Sys2Proof.Machine.execLastBitSent s
  | .lack level => Sys2Proof.Machine.execLack level s
  | .earlyLackWordEnd => Sys2Proof.Machine.execEarlyLackWordEnd s
  | .acknowledgeWindowExpiry => Sys2Proof.Machine.execAcknowledgeWindowExpiry s
  | .starvationTimerExpiry => Sys2Proof.Machine.execStarvationTimerExpiry s
  | .resetnRises => Sys2Proof.Machine.execResetnRises s
  | .wordInFlightSent => Sys2Proof.Machine.execWordInFlightSent s

end Sys2Proof.Machine
end

