-- ==== Sys2Proof/Safety.lean ====
section
/-! DEFINITION. What every step keeps (the laws of R1, R3, R9, R10, R15, R20, R26, R54, R113, R115, R116, R139, R175), and
the words the statements are made of. -/

namespace Sys2Proof.Machine

/-! ## Memories -/

/-- Every memory is in its canonical form (log 5). -/
abbrev State.memoriesCanonical (s : State) : Prop :=
  s.bandRam.wf ∧ s.tileRam.wf ∧ (s.port .a).staging.wf ∧ (s.port .b).staging.wf

/-! ## Event queues -/

/-- The law of one event queue (R175): at most 16 records; an OVERFLOW is the newest; with 16 records the newest is OVERFLOW. -/
abbrev eventLaw (q : List Event) : Prop :=
  q.length ≤ 16 ∧ (∀ e ∈ q.dropLast, e.kind ≠ .overflow) ∧ (q.length = 16 → q.getLast?.map Event.kind = some .overflow)

/-- The law of R175 at both ports. -/
abbrev State.eventQueuesLawful (s : State) : Prop := eventLaw (s.port .a).events ∧ eventLaw (s.port .b).events

/-! ## Command queues -/

/-- The head entry of port `p` is EXECUTING. -/
def State.headExecuting (s : State) (p : Port) : Bool :=
  match s.headEntry p with
  | none => false
  | some e => decide (e.life = .executing)

/-- Port `p` has a command in the execution record whose entry stands in its queue. -/
def State.executesFor (s : State) (p : Port) : Bool :=
  match s.execution with
  | none => false
  | some x => decide (x.port = p) && !x.silent

/-- The head entry's payload is the one the executing command reads. -/
def State.payloadAgrees (s : State) (p : Port) : Bool :=
  match s.execution, s.headEntry p with
  | some x, some e => !(decide (x.port = p) && !x.silent) || decide (x.payloadLength = e.payloadLength)
  | _, _ => true

/-- The law of one command queue (R113, R115): at most 8 entries; only the head is WAITING or EXECUTING; the head is EXECUTING exactly while
the execution record is its command's; the payloads held take at most 1024 words. -/
abbrev State.commandLaw (s : State) (p : Port) : Prop :=
  (s.port p).queue.length ≤ 8 ∧ (∀ e ∈ (s.port p).queue.tail, e.life = .queued) ∧ s.headExecuting p = s.executesFor p ∧
    s.payloadAgrees p = true ∧ s.payloadHeld p ≤ 1024

/-- The law of R113 and R115 at both ports. -/
abbrev State.commandQueuesLawful (s : State) : Prop := s.commandLaw .a ∧ s.commandLaw .b

/-! ## Pages -/

/-- The ranges of a page record (R25, R1); next to stream's range is in the law of the run of bands (R9) below. -/
abbrev PageRecord.inRange (p : PageRecord) : Prop :=
  1 ≤ p.bandCount ∧ p.bandCount ≤ 255 ∧ 1 ≤ p.bandHeight ∧ p.bandHeight ≤ 64 ∧ 1 ≤ p.lastBandHeight ∧ p.lastBandHeight ≤ 64 ∧
    1 ≤ p.width ∧ p.width ≤ 640 ∧ p.bandHeight * p.width ≤ 32768 ∧ p.lastBandHeight * p.width ≤ 32768 ∧ 1 ≤ p.lead ∧ p.lead ≤ 8 ∧
    p.lead ≤ p.bandCount ∧ 1 ≤ p.copies ∧ p.copies ≤ 16 ∧ (1 < p.copies → p.resident = true) ∧
    (p.resident = true → p.bandCount ≤ 8) ∧ 1 ≤ p.copiesRemaining ∧ p.copiesRemaining ≤ p.copies ∧
    p.nextToAllocate ≤ p.bandCount ∧ p.linesServed < p.pageLines

/-- The law of the page queue (R25, R26): at most 4 records, each in its ranges, no two with one tag. -/
abbrev State.pageQueueLawful (s : State) : Prop :=
  s.pages.length ≤ 4 ∧ (s.pages.map fun p => p.ref.tag).Nodup ∧ ∀ p ∈ s.pages, p.inRange

/-- The Streamer's state agrees with the head page (R26, R138, R139). -/
def streamerAgrees (st : StreamerState) (head : Option PageRecord) : Bool :=
  match st, head with
  | .idle, none => true
  | .idle, some p => decide (p.state = .pending)
  | .offered r, some p => decide (p.ref = r) && decide (p.state = .offered)
  | .betweenLines r, some p => decide (p.ref = r) && (decide (p.state = .printing) || decide (p.state = .blanking))
  | .sending r _, some p => decide (p.ref = r) && (decide (p.state = .printing) || decide (p.state = .blanking))
  | .held r _ _, some p => decide (p.ref = r) && (decide (p.state = .printing) || decide (p.state = .blanking))
  | .ackWait r _ _, some p => decide (p.ref = r) && (decide (p.state = .printing) || decide (p.state = .blanking))
  | .starved r _ _ _, some p => decide (p.ref = r) && decide (p.state = .printing)
  | _, none => false

/-- The law of the head page (R26, R139): every other record is PENDING, and the Streamer's state is the head's. -/
abbrev State.headLawful (s : State) : Prop :=
  (s.pages.map fun p => p.ref.tag).Nodup ∧ (∀ p ∈ s.pages.tail, p.state = .pending) ∧ streamerAgrees s.streamer s.pages.head? = true

/-! ## Slots -/

/-- Slot `i` is CLEARING. -/
def State.isClearing (s : State) (i : Nat) : Bool :=
  match s.slot i with
  | .held .clearing _ => true
  | _ => false

/-- The law of the clear order (R10): eight slots, no duplicates, and exactly the CLEARING slots. -/
abbrev State.clearOrderLawful (s : State) : Prop :=
  s.slots.length = 8 ∧ s.clearOrder.Nodup ∧ (∀ i ∈ s.clearOrder, i < 8) ∧ ∀ i, i < 8 → (i ∈ s.clearOrder ↔ s.isClearing i = true)

/-- The in-flight mark is on the executing command's slot, which is not CLEARING (R15, R7). -/
def State.markAgrees (s : State) : Bool :=
  decide (s.inFlight = s.execution.bind ExecRecord.slot) &&
    match s.inFlight with
    | none => true
    | some i => !s.isClearing i

/-- The law that keeps every access inside its band and its tile (R1, R15, R28, R74): pages fit their slots, a tile number is at most 7, every
word that can be touched exists, and the mark holds the executing command's slot back from allocation. -/
abbrev State.accessLawful (s : State) : Prop :=
  (∀ p ∈ s.pages, p.bandHeight * p.width ≤ 32768 ∧ p.lastBandHeight * p.width ≤ 32768) ∧
    (∀ p, ∀ e ∈ (s.port p).queue, ∀ t, e.op = .loadTile t → t < 8) ∧ s.markAgrees = true ∧ s.addressesExist = true

/-- A slot is FREE, or its page is in the page queue (R3). -/
def State.slotHasPage (s : State) (x : Slot) : Bool :=
  match x with
  | .free => true
  | .held _ k => (s.findPage k.page).isSome

/-- A slot is STREAMING. -/
def Slot.isStreaming : Slot → Bool
  | .held .streaming _ => true
  | _ => false

/-- A STREAMING slot belongs to a page that is PRINTING or BLANKING (R3). -/
def State.streamsItsPage (s : State) (x : Slot) : Bool :=
  match x with
  | .held .streaming k =>
    match s.findPage k.page with
    | none => false
    | some p => decide (p.state = .printing) || decide (p.state = .blanking)
  | _ => true

/-- The two laws of R3. -/
abbrev State.bandTableLawful (s : State) : Prop :=
  (∀ x ∈ s.slots, s.slotHasPage x = true) ∧ (s.slots.countP Slot.isStreaming ≤ 1) ∧ ∀ x ∈ s.slots, s.streamsItsPage x = true

/-! ## The run of bands a page holds -/

/-- Lines of band `b` of the page (R8). -/
def PageRecord.linesOf (p : PageRecord) (b : Nat) : Nat := if b + 1 = p.bandCount then p.lastBandHeight else p.bandHeight

/-- The lowest band a page that is not BLANKING holds (R9): 0 for a resident page before its final copy, else next to stream. -/
def PageRecord.lowBand (p : PageRecord) : Nat := if p.resident = true ∧ p.copiesRemaining ≠ 1 then 0 else p.nextToStream

/-- A page's progress (R9, R25, R35, R37, R143): next to stream, next to allocate and band count in order; copies left only of a resident page; nothing
streamed before TOP; and of a PRINTING page the lines served lie in the band next to stream. -/
abbrev PageRecord.progressLawful (p : PageRecord) : Prop :=
  1 ≤ p.bandCount ∧ 1 ≤ p.bandHeight ∧ 1 ≤ p.lastBandHeight ∧ p.nextToStream ≤ p.nextToAllocate ∧ p.nextToAllocate ≤ p.bandCount ∧
    1 ≤ p.copiesRemaining ∧ (p.resident = false → p.copiesRemaining = 1) ∧
    (p.state = .pending ∨ p.state = .offered → p.nextToStream = 0 ∧ p.linesServed = 0) ∧
    (p.state = .printing → p.nextToStream < p.bandCount ∧ p.nextToStream * p.bandHeight ≤ p.linesServed ∧
      p.linesServed < p.nextToStream * p.bandHeight + p.linesOf p.nextToStream)

/-- A slot of page `p` holds a band of the page's run with that band's lines, the band next to stream if it is STREAMING; a slot of a BLANKING page is
STREAMING (R8, R9, R16). -/
def Slot.inRun (p : PageRecord) : Slot → Bool
  | .free => true
  | .held st k =>
    decide (k.page ≠ p.ref) ||
      (decide (k.lines = p.linesOf k.band) &&
        if p.state = .blanking then decide (st = .streaming)
        else decide (p.lowBand ≤ k.band) && decide (k.band < p.nextToAllocate) && (decide (st ≠ .streaming) || decide (k.band = p.nextToStream)))

/-- The law of R9 for page `p`: its slots lie in its run, and each band of the run of a page that is not BLANKING is in exactly one slot. -/
abbrev State.holdsRun (s : State) (p : PageRecord) : Prop :=
  (∀ x ∈ s.slots, x.inRun p = true) ∧
    (p.state ≠ .blanking → ∀ b, b < p.nextToAllocate → p.lowBand ≤ b → s.slots.countP (fun x => x.holds p.ref b) = 1)

/-- The law of R54 for a slot: READY or STREAMING, it is forced or every current participant has closed it. -/
def State.readyIsClosed (s : State) (x : Slot) : Bool :=
  match x with
  | .free => true
  | .held st k =>
    decide (st = .clearing) || decide (st = .opened) || k.forced ||
      match s.findPage k.page with
      | none => false
      | some p => p.participants.within k.closedBy

/-- The line in flight with its page, if there is one (R138). -/
def State.lineInFlight (s : State) : Option (PageRef × LineSource) :=
  match s.streamer with
  | .sending r line => some (r, line.source)
  | .held r source _ => some (r, source)
  | .ackWait r source _ => some (r, source)
  | _ => none

/-- The line in flight comes from the STREAMING slot of its page, or is a background line of a BLANKING page (R20, R146, R166). -/
def State.lineHasSlot (s : State) : Bool :=
  match s.lineInFlight with
  | none => true
  | some (r, .background) => s.pages.head?.any fun p => decide (p.ref = r) && decide (p.state = .blanking)
  | some (r, .slot i) =>
    match s.slot i with
    | .held .streaming k => decide (k.page = r)
    | _ => false

/-- A STREAMING slot of a BLANKING page is the slot of the line in flight (R20). -/
def State.blankingStreams (s : State) : Bool :=
  s.slotNumbers.all fun i =>
    match s.slot i with
    | .held .streaming k =>
      match s.findPage k.page with
      | none => false
      | some p => decide (p.state ≠ .blanking) || decide (s.lineSlot = some i)
    | _ => true

/-- A starvation wait is for the band next to stream (R144, R159). -/
def State.awaitsNextBand (s : State) : Bool :=
  match s.streamer with
  | .starved _ b _ _ => s.pages.head?.any fun p => decide (p.nextToStream = b)
  | _ => true

/-- The law of the ring of bands: the head page and the Streamer agree (R26, R139), every slot has its page (R3), every page holds its run (R9), READY
and STREAMING bands are closed or forced (R54), and the line in flight, the blanking and the starvation wait are of the band they should be (R20, R143,
R159). -/
abbrev State.ringLawful (s : State) : Prop :=
  s.headLawful ∧ s.bandTableLawful ∧ (∀ p ∈ s.pages, p.progressLawful ∧ s.holdsRun p) ∧ (∀ x ∈ s.slots, s.readyIsClosed x = true) ∧
    s.lineHasSlot = true ∧ s.blankingStreams = true ∧ s.awaitsNextBand = true

/-! ## Frames -/

/-- State `t` with the marks a whole frame of port `p`, opened in state `s`, leaves on its port: its outcome recorded, select high, nothing held, and the
result byte, `shown` and the bits `loose` of an unfinished byte driven on ASDO (R185, R186, R187, R190). -/
def State.framed (s t : State) (p : Port) (o : FrameOutcome) (shown : List Byte) (loose : List Bool := []) : State :=
  t.updPort p fun ps =>
    { ps with selectHigh := true, assembler := .empty, outcome := o, asdo := s.frameResultByte p :: shown, asdoBits := loose }

/-- The first `n` bytes of a view with 00H behind it (R185). -/
def shownBytes (view : List Byte) (n : Nat) : List Byte := (view ++ List.replicate n 0).take n

/-- The first `bits` bits of the byte behind the first `n` bytes of a view with 00H behind it (R185). -/
def looseBits (view : List Byte) (n bits : Nat) : List Bool := firstBits (view.getD n 0) bits

/-- The command codes whose frames have a fixed length (R200): all but the read commands. -/
def lengthCodes : List Byte :=
  [0x00, 0x30, 0x31, 0x32, 0x33, 0x3C, 0x81, 0x82, 0x83, 0x84, 0x88, 0x89, 0x8A, 0x8B]

/-- The bytes after the command byte have the length that R200 gives for the command, and no bit follows them (R188). -/
def wholeForm (code : Byte) (body : List Byte) (bits : Nat) : Prop := bits = 0 ∧ frameLength code body = some (body.length + 1)

/-! ## Queued frames as R200 lays them out -/

/-- The command codes of the queued commands (R200). -/
def queuedCodes : List Byte := [0x81, 0x82, 0x83, 0x84, 0x88, 0x89, 0x8A, 0x8B]

/-- The operands of a queued command's frame, by its command code. -/
def parseQueued (code : Byte) (body : List Byte) : Option QueuedFrame :=
  if code = 0x81 then parseFill body
  else if code = 0x82 then parsePutBits body
  else if code = 0x83 then parseCopy body
  else if code = 0x84 then parseLoadTile body
  else if code = 0x88 then parseCloseBand body
  else if code = 0x89 then parseLeavePage body
  else if code = 0x8A then parseMark body
  else if code = 0x8B then parseSumBand body
  else none

/-- The command code of an operation. -/
def Operation.code : Operation → Byte
  | .fill _ _ _ _ _ _ => 0x81
  | .putBits _ _ _ _ _ => 0x82
  | .copy _ _ _ _ _ _ _ => 0x83
  | .loadTile _ => 0x84
  | .closeBand => 0x88
  | .leavePage => 0x89
  | .mark _ => 0x8A
  | .sumBand => 0x8B

/-- The source byte of a FILL. -/
def FillSource.byte : FillSource → Byte
  | .solid v => if v then 1 else 0
  | .tile t => oneByte (8 + t)

/-- The operand bytes of an operation behind its page and band. -/
def Operation.operandBytes : Operation → List Byte
  | .fill x y w h fn source => twoBytes x ++ [oneByte y] ++ twoBytes w ++ [oneByte h, oneByte fn.toNat, source.byte]
  | .putBits x y w rows fn => twoBytes x ++ [oneByte y] ++ twoBytes w ++ [oneByte rows, oneByte fn.toNat]
  | .copy sx sy dx dy w h fn =>
    twoBytes sx ++ [oneByte sy] ++ twoBytes dx ++ [oneByte dy] ++ twoBytes w ++ [oneByte h, oneByte fn.toNat]
  | .loadTile t => [oneByte t]
  | .mark v => twoBytes v.toNat
  | .closeBand => []
  | .leavePage => []
  | .sumBand => []

/-- The bytes after the command byte: command tag, control, page tag and band where the command has them, operands, payload. -/
def QueuedFrame.body (q : QueuedFrame) : List Byte :=
  [q.commandTag, if q.notify then 1 else 0] ++ q.pageTag.toList ++ q.band.toList.map oneByte ++ q.op.operandBytes ++
    q.payload.flatMap fun w => twoBytes w.toNat

/-- The operands are in their ranges (R73, R78, R81, R98). -/
def Operation.inRange : Operation → Bool
  | .fill x y w h _ source =>
    decide (x ≤ 10239 ∧ y ≤ 63 ∧ 1 ≤ w ∧ w ≤ 10240 ∧ 1 ≤ h ∧ h ≤ 64) &&
      match source with
      | .solid _ => true
      | .tile t => decide (t < 8)
  | .putBits x y w rows _ =>
    decide (x ≤ 10239 ∧ y ≤ 63 ∧ 1 ≤ w ∧ w ≤ 2048 ∧ 1 ≤ rows ∧ rows ≤ 64 ∧ rows * ((w + 15) / 16) ≤ 512)
  | .copy sx sy dx dy w h _ =>
    decide (sx ≤ 10239 ∧ sy ≤ 63 ∧ dx ≤ 10239 ∧ dy ≤ 63 ∧ 1 ≤ w ∧ w ≤ 10240 ∧ 1 ≤ h ∧ h ≤ 64)
  | .loadTile t => decide (t < 8)
  | .closeBand => true
  | .leavePage => true
  | .mark _ => true
  | .sumBand => true

/-- The payload length of an operation (R114). -/
def Operation.payloadLength : Operation → Nat
  | .putBits _ _ w rows _ => rows * ((w + 15) / 16)
  | .loadTile _ => 16
  | .fill _ _ _ _ _ _ => 0
  | .copy _ _ _ _ _ _ _ => 0
  | .closeBand => 0
  | .leavePage => 0
  | .mark _ => 0
  | .sumBand => 0

/-- The operation names a page; it names a band (R114). -/
def Operation.namesPage : Operation → Bool
  | .loadTile _ => false
  | .mark _ => false
  | _ => true

def Operation.namesBand : Operation → Bool
  | .loadTile _ => false
  | .mark _ => false
  | .leavePage => false
  | _ => true

/-- A queued frame that R200 can spell and whose operands are in range. -/
def QueuedFrame.wellFormed (q : QueuedFrame) : Bool :=
  q.op.inRange && decide (q.payload.length = q.op.payloadLength) && decide (q.pageTag.isSome = q.op.namesPage) &&
    decide (q.band.isSome = q.op.namesBand) && q.band.all fun b => decide (b < 256)

/-! ## Raster -/

/-- Pixel `px` of line `y` of a band of `width` words a line in slot `i` (R71). -/
def State.bandPixel (s : State) (i width y px : Nat) : Bool := pixel (s.readBand (slotAddress i (y * width + px / 16))) (px % 16)

/-- The pixel lies in the rectangle. -/
def Rect.holds (r : Rect) (px y : Nat) : Bool :=
  decide (r.x ≤ px) && decide (px < r.x + r.w) && decide (r.y ≤ y) && decide (y < r.y + r.h)

/-- Word `a` of band RAM is one of the lines of the band `k` in slot `i` (R1). -/
def bandHasWord (i : Nat) (k : BandRecord) (a : Nat) : Prop := slotAddress i 0 ≤ a ∧ a < slotAddress i (k.lines * k.width)

/-- A drawing command that has been granted and has not handled a word yet, on slot `i`, OPEN with the band `k` (R87). -/
def State.startsDrawing (s : State) (x : ExecRecord) (i : Nat) (k : BandRecord) (c : Clip) : Prop :=
  s.execution = some x ∧ x.slot = some i ∧ s.slot i = .held .opened k ∧ x.clip = some c ∧ x.rows = c.rect.h ∧
    x.rowWords = c.rect.rowWords ∧ 0 < c.rect.w ∧ 0 < c.rect.h ∧ x.row = 0 ∧ x.rowWord = 0 ∧ x.finished = false ∧
    x.stopRequested = false ∧ c.rect.x + c.rect.w ≤ k.width * 16 ∧ c.rect.y + c.rect.h ≤ k.lines ∧ s.addressesExist = true

/-! ## The clock and the Raster Unit -/

/-- A step ends the time of the executing command's next word: no command waits, nothing is due, and the last of the word's periods passes (R88;
log 6, 10). -/
def State.wordEnds (s : State) (x : ExecRecord) : Prop :=
  s.pending = [] ∧ s.resetHeld = false ∧ s.dueEvents = [] ∧ s.addressesExist = true ∧ s.execution = some x ∧
    x.op.wordPeriods ≤ x.period + 1 ∧ x.row < x.rows ∧ x.rowWord < x.rowWords

/-- What word `a` of band RAM reads as once the Clear Unit has written its word of the period (R11). -/
def State.readAfterClear (s : State) (a : Nat) : Word :=
  match s.clearOrder with
  | [] => s.readBand a
  | i :: _ =>
    match s.slot i with
    | .held .clearing k => if a = slotAddress i s.clearPos then (if k.background then 0xFFFF else 0) else s.readBand a
    | _ => s.readBand a

/-- From `s` to `t` the executing command draws its next word, in row `row` of its effective rectangle: the pixels of the word inside the rectangle take
the function of source bit and old value, the others keep theirs, and no other word changes but for the Clear Unit's (R75, R76). -/
def State.drawsWord (s t : State) (x : ExecRecord) (i : Nat) (k : BandRecord) (c : Clip) (row : Nat) (source : Nat → Nat → Bool) : Prop :=
  let y := c.rect.y + row
  let w := c.rect.x / 16 + x.rowWord
  let a := slotAddress i (y * k.width + w)
  (∀ j, j < 16 → pixel (t.readBand a) j =
    if c.rect.x ≤ 16 * w + j ∧ 16 * w + j < c.rect.x + c.rect.w then logicBit x.op.fn (source y (16 * w + j)) (pixel (s.readBand a) j)
    else pixel (s.readBand a) j) ∧
    (∀ b, b ≠ a → t.readBand b = s.readAfterClear b) ∧ t.tileRam = s.tileRam

/-! ## Waiting heads -/

/-- A WAITING head entry of port `p` names page `r`. -/
def State.waitsOn (s : State) (p : Port) (r : PageRef) : Bool :=
  match s.headEntry p with
  | none => false
  | some e => decide (e.life = .waiting) && decide (e.page = some r)

/-- Port `z`'s command queue once page `r` is aborted or spoiled: a WAITING head that names it leaves (R125). -/
def State.queueAfterAbort (s : State) (r : PageRef) (z : Port) : List Entry :=
  if s.waitsOn z r = true then (s.port z).queue.tail else (s.port z).queue

/-- Its event queue, which held `events` by then: that head's CMD ERROR PAGE ABORTED joins it (R43, R46, R125). -/
def State.eventsAfterAbort (s : State) (r : PageRef) (z : Port) (events : List Event) : List Event :=
  match s.headEntry z with
  | none => events
  | some e =>
    if s.waitsOn z r = true then
      enqueueEvent events { kind := .cmdError, pageTag := none, band := none, commandTag := some e.commandTag, detail := 6 }
    else events

/-- Port `z`'s command queue after the repeated check for page `r`, made on state `t`: its WAITING head stays so, or is QUEUED again (R68, R125). -/
def State.queueAfterRecheck (s t : State) (r : PageRef) (z : Port) : List Entry :=
  match (s.port z).queue with
  | [] => []
  | e :: es =>
    if e.life = .waiting ∧ e.page = some r ∧ t.executionCheck z r (e.band.getD 0) ≠ .wait then { e with life := .queued } :: es
    else e :: es

/-- The execution record once page `r` is released: stop is requested of its command (R104). -/
def State.stoppedFor (s : State) (r : PageRef) : Option ExecRecord :=
  s.execution.map fun x => { x with stopRequested := x.stopRequested || decide (x.page = some r) }

/-! ## The offer -/

/-- Bands 0 to lead - 1 of page `q` are READY (R33). -/
def State.leadReady (s : State) (q : PageRecord) : Prop :=
  ∀ b, b < q.lead → ∃ k, Slot.held .ready k ∈ s.slots ∧ k.page = q.ref ∧ k.band = b

/-- The next head is evaluated in the claim, from `s` to `t`, that removes the head page and leaves `rest` behind it (R34): OFFERED by the Streamer if
its lead bands are READY, else PENDING with the Streamer IDLE. -/
def State.nextHeadEvaluated (s t : State) (rest : List PageRecord) : Prop :=
  match rest with
  | [] => t.pages = [] ∧ t.streamer = .idle
  | q :: _ =>
    (s.leadReady q → t.streamer = .offered q.ref ∧ t.pages.head?.map (fun p => (p.ref, p.state)) = some (q.ref, .offered)) ∧
      (¬ s.leadReady q → t.streamer = .idle ∧ t.pages.head?.map (fun p => (p.ref, p.state)) = some (q.ref, .pending))

/-- The records behind the head: PENDING, and other pages than the head `r` (R26). -/
def pendingBehind (r : PageRef) (rest : List PageRecord) : Prop := ∀ p ∈ rest, p.state = .pending ∧ p.ref ≠ r

/-! ## PORT RESET -/

/-- PORT RESET of port `p` leaves page `q` without a participant (R50). -/
def PageRecord.emptiedBy (q : PageRecord) (p : Port) : Bool := q.participants.has p && !q.participants.has p.other

/-- The other port's event queue after PORT RESET of port `p`: a PARTICIPANT LEFT for each page of both, in queue order (R49). -/
def State.eventsAfterReset (s : State) (p : Port) : List Event :=
  s.pages.foldl (fun events q =>
    if q.participants.has p = true ∧ q.participants.has p.other = true then
      enqueueEvent events
        { kind := .participantLeft, pageTag := some q.ref.tag, band := none, commandTag := none, detail := if p = .a then 1 else 2 }
    else events) (s.port p.other).events

/-! ## Inputs -/

/-- The levels of TOP, LREQ and LACK. -/
def State.withTop (s : State) (level : Bool) : State := { s with pins := { s.pins with top := level } }

def State.withLreq (s : State) (level : Bool) : State := { s with pins := { s.pins with lreq := level } }

def State.withLack (s : State) (level : Bool) : State := { s with pins := { s.pins with lack := level } }

end Sys2Proof.Machine
end

