-- ==== Sys2Proof/Certificates/Slice0/Obligations.lean ====
section
/-! DEFINITION. What is claimed of the part, for the provers: the queue of commands, the resets, frames, pages, the Raster Unit, the engine, the
events, and the laws that every step keeps. -/

section

open Sys2Proof Sys2Proof.Machine

/-! ## The queue of commands -/

/-- A step with a command at the front of the queue is that command on the state with the queue's rest. -/
def Obligations.StepRunsTheFrontCommand : Prop :=
  ∀ (c : Instr) (rest : List Instr) (s : State), step { s with pending := c :: rest } = exec c { s with pending := rest }

/-- No command touches the queue; and every command is taken: it answers a next state, unless it is COMMAND_END or CLEAR_COMPLETION in a state where a word that
it could reach does not exist (log 11). -/
def Obligations.CommandsAreTakenAndLeaveTheQueue : Prop :=
  (∀ (c : Instr) (s t : State), exec c s = .next t → t.pending = s.pending) ∧
  ∀ (c : Instr) (s : State), (c ≠ .commandEnd ∧ c ≠ .clearCompletion) ∨ s.addressesExist = true → ∃ t, exec c s = .next t

/-! ## Resets -/

/-- DEVICE_RESET: every block takes its reset values (R23, R51, R110, R133, R156, R183, R198), and the RAM contents are undefined anew. -/
def Obligations.DeviceResetState : Prop :=
  ∀ s : State, ∃ t, exec .deviceReset s = .next t ∧ t.slots = List.replicate 8 .free ∧ t.inFlight = none ∧ t.clearOrder = [] ∧ t.clearClaims = [] ∧
    t.pages = [] ∧ t.nextInstance = 0 ∧ t.execution = none ∧ t.tileLoaded = List.replicate 8 false ∧ t.pointer = .b ∧
    t.streamer = .idle ∧ t.engine = { kind := .nostall, starvationLimit := 50, acknowledgeWindow := 4, videoDivisor := 8 } ∧
    t.prdy = false ∧ t.lstb = false ∧ t.vclkRunning = false ∧ t.vdat = false ∧ t.resetHeld = true ∧
    (∀ p, (t.port p).queue = [] ∧ (t.port p).events = [] ∧ (t.port p).interruptEnable = false ∧ (t.port p).outcome = .ok ∧
      (t.port p).assembler = .empty ∧ t.asdoPin p = none ∧ t.interruptAsserted p = false ∧ t.stagingFree p = 1024 ∧ t.stagingNext p = 0 ∧
      (t.port p).selectHigh = (s.port p).selectHigh) ∧
    t.pins = s.pins ∧ t.pending = s.pending ∧ ∀ a, t.readBand a = Config.undefinedWord .band (s.ramEpoch + 1) a

/-- While reset is held no frame is opened and no engine input is taken; when RESETn rises the part goes on from the reset values, an input that is
high is no assertion, and a select that is low opens no frame (R156, R186, R198). -/
def Obligations.HeldResetTakesNothing : Prop :=
  ∀ s : State, s.resetHeld = true →
    exec .resetnRises s = .next { s with resetHeld := false } ∧
    (∀ p, exec (.frameResultByte p) s = .next (s.updPort p fun ps => { ps with selectHigh := false })) ∧
    (∀ l, exec (.top l) s = .next (s.withTop l)) ∧ (∀ l, exec (.lreq l) s = .next (s.withLreq l)) ∧
    (∀ l, exec (.lack l) s = .next (s.withLack l)) ∧
    ∀ (p : Port) (code : Byte) (body : List Byte) (bits : Nat), (s.port p).assembler.state = .betweenFrames →
      exec (commandOfCode p code (.selectHigh body bits)) s = .next (s.updPort p fun ps => { ps with selectHigh := true })

/-! ## Frames -/

/-- FRAME_RESULT_BYTE: select falling opens the frame with the result byte of that moment, and nothing else changes; the byte holds the previous outcome,
events pending, command queue full, page queue full and Streamer printing, set in five of the Streamer's states (R155, R186, R190, R201), the outcome by its
code (R191). ASDO is driven exactly while select is low and reset is not held, in a frame with the first bit of the next byte (R185, R198). -/
def Obligations.SelectFallOpensFrame : Prop :=
  (∀ (s : State) (p : Port),
    ((s.asdoPin p).isSome = true ↔ (s.port p).selectHigh = false ∧ s.resetHeld = false) ∧
    ((s.port p).selectHigh = false → s.resetHeld = false → (s.port p).assembler.state ≠ .betweenFrames →
      s.asdoPin p = some (((s.port p).assembler.outData.headD 0).getMsbD 0)) ∧
    ((s.frameResultByte p).getLsbD 0 = true ↔
      (∃ r, s.streamer = .betweenLines r) ∨ (∃ r line, s.streamer = .sending r line) ∨ (∃ r source k, s.streamer = .held r source k) ∨
        (∃ r source n, s.streamer = .ackWait r source n) ∨ ∃ r b n x, s.streamer = .starved r b n x)) ∧
  ∀ (p : Port) (s : State), s.canOpen p = true →
    exec (.frameResultByte p) s = .next (s.updPort p fun ps =>
      { ps with
        selectHigh := false, asdo := [], asdoBits := [],
        assembler := { state := .command, commandByte := none, stored := [], count := 0, outData := [s.frameResultByte p],
                       record := none } }) ∧
    (s.frameResultByte p).toNat / 16 = (s.port p).outcome.code ∧
    (s.frameResultByte p).getLsbD 3 = !(s.port p).events.isEmpty ∧
    (s.frameResultByte p).getLsbD 2 = decide (8 ≤ (s.port p).queue.length) ∧
    (s.frameResultByte p).getLsbD 1 = decide (4 ≤ s.pages.length) ∧
    (s.frameResultByte p).getLsbD 0 = s.streamerPrinting ∧
    [FrameOutcome.ok, .badFrame, .unknownCommand, .badParam, .queueFull, .stagingFull, .noPage, .notParticipant, .tagInUse, .pageQueueFull,
      .engineBusy, .lastParticipant].map FrameOutcome.code = [0, 1, 2, 3, 4, 5, 6, 7, 8, 9, 10, 11]

/-- A frame sent in parts (select, command byte, bytes, more bytes and select) is the frame sent whole, for every command byte (R186; log 1, 2). -/
def Obligations.FrameInPartsIsTheWholeFrame : Prop :=
  ∀ (p : Port) (code : Byte) (b1 b2 : List Byte) (bits : Nat) (s : State), s.canOpen p = true →
    ∃ t u v, exec (.frameResultByte p) s = .next t ∧ exec (commandOfCode p code .commandByte) t = .next u ∧
      exec (commandOfCode p code (.bytes b1)) u = .next v ∧
      exec (commandOfCode p code (.selectHigh b2 bits)) v = exec (commandOfCode p code (.selectHigh (b1 ++ b2) bits)) s

/-- BAD_FRAME, UNKNOWN_COMMAND, and every frame of a fixed-length command that has another length or ends inside a byte: the outcome is recorded, ASDO has
carried 00H after the command byte, also in the bits of an unfinished byte, and nothing is carried out (R185, R186, R188). -/
def Obligations.MalformedFramesCarryOutNothing : Prop :=
  ∀ (p : Port) (s : State), s.canOpen p = true →
    (∀ bits, exec (.badFrame p bits) s = .next (s.updPort p fun ps =>
      { ps with selectHigh := true, assembler := .empty, outcome := .badFrame, asdo := [],
                asdoBits := firstBits (s.frameResultByte p) bits })) ∧
    (∀ (code : Byte) (body : List Byte) (bits : Nat), code ∈ lengthCodes → ¬ wholeForm code body bits →
      exec (commandOfCode p code (.selectHigh body bits)) s =
        .next (s.framed s p .badFrame (List.replicate body.length 0) (List.replicate bits false))) ∧
    ∀ (code : Byte) (body : List Byte) (bits : Nat), code ∉ knownCodes →
      exec (.unknownCommand p code (.selectHigh body bits)) s =
        .next (s.framed s p .unknownCommand (List.replicate body.length 0) (List.replicate bits false))

/-- NOP: the command byte alone changes nothing and records OK; any other length records BAD FRAME in the place of the outcome it was sent to read
(R192). -/
def Obligations.NopReadsTheOutcome : Prop :=
  ∀ (p : Port) (s : State), s.canOpen p = true →
    exec (.nop p (.selectHigh [] 0)) s = .next (s.framed s p .ok []) ∧
    ∀ (body : List Byte) (bits : Nat), body ≠ [] ∨ bits ≠ 0 →
      exec (.nop p (.selectHigh body bits)) s =
        .next (s.framed s p .badFrame (List.replicate body.length 0) (List.replicate bits false))

/-- READ_STATUS, READ_PAGES, READ_BANDS: at any length the frame shows the record of the moment its command byte was taken, then 00H, to the last bit, records OK and
changes nothing (R185, R188, R193, R194, R195, R197). -/
def Obligations.ReadsShowOneView : Prop :=
  ∀ (p : Port) (body : List Byte) (bits : Nat) (s : State), s.canOpen p = true →
    exec (.readStatus p (.selectHigh body bits)) s = .next (s.framed s p .ok (shownBytes (s.statusRecord p) body.length)
      (looseBits (s.statusRecord p) body.length bits)) ∧
    exec (.readPages p (.selectHigh body bits)) s = .next (s.framed s p .ok (shownBytes s.pagesView body.length)
      (looseBits s.pagesView body.length bits)) ∧
    exec (.readBands p (.selectHigh body bits)) s = .next (s.framed s p .ok (shownBytes s.bandsView body.length)
      (looseBits s.bandsView body.length bits))

/-- The status record's eleven bytes, the Streamer's state by its code, the payload words held being those of the queue and of a silent command, the tags those
of the port's pages in queue order (R112, R117, R131, R193, R202). -/
def Obligations.StatusRecordLayout : Prop :=
  (StreamerState.idle.code = 0 ∧ ∀ (r : PageRef) (line : LineInFlight) (source : LineSource) (n b : Nat) (x : Bool),
    (StreamerState.offered r).code = 1 ∧ (StreamerState.betweenLines r).code = 2 ∧ (StreamerState.sending r line).code = 3 ∧
    (StreamerState.held r source n).code = 4 ∧ (StreamerState.ackWait r source n).code = 5 ∧ (StreamerState.starved r b n x).code = 6) ∧
  (∀ (s : State) (p : Port),
    (∀ x, s.execution = some x → x.port = p → x.silent = true →
      s.payloadHeld p = ((s.port p).queue.map Entry.payloadLength).sum + x.payloadLength) ∧
    ((∀ x, s.execution = some x → x.port ≠ p ∨ x.silent = false) → s.payloadHeld p = ((s.port p).queue.map Entry.payloadLength).sum)) ∧
  ∀ (s : State) (p : Port), (s.port p).queue.length ≤ 8 → s.payloadHeld p ≤ 1024 → s.pages.length ≤ 4 →
    let tags := (s.pages.filter fun q => q.participants.has p).map fun q => q.ref.tag
    (s.statusRecord p).length = 11 ∧
    ((s.statusRecord p).getD 0 0).toNat = 8 - (s.port p).queue.length ∧
    ((s.statusRecord p).getD 1 0).toNat * 256 + ((s.statusRecord p).getD 2 0).toNat = 1024 - s.payloadHeld p ∧
    (s.statusRecord p).getD 3 0 = BitVec.ofNat 8 (s.port p).events.length ∧
    ((s.statusRecord p).getD 4 0).getLsbD 0 = hasOverflow (s.port p).events ∧
    ((s.statusRecord p).getD 4 0).getLsbD 1 = (s.port p).interruptEnable ∧
    ((s.statusRecord p).getD 5 0).toNat = s.streamer.code ∧
    ((s.statusRecord p).getD 6 0).toNat = tags.length ∧
    (s.statusRecord p).drop 7 = tags ++ List.replicate (4 - tags.length) 0

/-- A page record's nineteen bytes, a slot record's ten and an event record's eight; READ PAGES shows the count and the records, head page first; READ BANDS
the eight slots, slot 0 first; the states, spoil causes, event kinds and execution errors by their codes (R165, R173, R191, R194, R195, R201, R203, R204). -/
def Obligations.PageAndSlotRecordLayouts : Prop :=
  (∀ q : PageRecord, q.inRange → q.nextToStream ≤ q.bandCount →
    q.bytes.length = 19 ∧ q.bytes.getD 0 0 = q.ref.tag ∧
    (q.bytes.getD 1 0).toNat * 256 + (q.bytes.getD 2 0).toNat = q.ref.inst.toNat ∧ (q.bytes.getD 3 0).toNat = q.state.code ∧
    (q.bytes.getD 4 0).getLsbD 7 = decide (q.opener = .b) ∧ (q.bytes.getD 4 0).getLsbD 1 = q.participants.b ∧
    (q.bytes.getD 4 0).getLsbD 0 = q.participants.a ∧ (q.bytes.getD 5 0).toNat = q.bandCount ∧
    (q.bytes.getD 6 0).toNat = q.bandHeight ∧ (q.bytes.getD 7 0).toNat = q.lastBandHeight ∧
    (q.bytes.getD 8 0).toNat * 256 + (q.bytes.getD 9 0).toNat = q.width ∧ (q.bytes.getD 10 0).getLsbD 1 = q.resident ∧
    (q.bytes.getD 10 0).getLsbD 0 = q.background ∧ (q.bytes.getD 11 0).toNat = q.lead ∧ (q.bytes.getD 12 0).toNat = q.copies ∧
    (q.bytes.getD 13 0).toNat = q.copiesRemaining ∧ (q.bytes.getD 14 0).toNat = q.nextToAllocate ∧
    (q.bytes.getD 15 0).toNat = q.nextToStream ∧
    (q.bytes.getD 16 0).toNat * 256 + (q.bytes.getD 17 0).toNat = q.linesServed ∧
    (q.bytes.getD 18 0).toNat = (q.spoilCause.map SpoilCause.code).getD 0) ∧
  (∀ i, i < 8 → Slot.free.bytes i = BitVec.ofNat 8 i :: List.replicate 9 0) ∧
  (∀ (i : Nat) (st : HeldState) (k : BandRecord), i < 8 → k.band < 256 → k.lines < 256 → k.width < 65536 →
    ∃ flags hi lo whi wlo : Byte,
      (Slot.held st k).bytes i =
        [BitVec.ofNat 8 i, BitVec.ofNat 8 st.code, flags, k.page.tag, hi, lo, BitVec.ofNat 8 k.band, BitVec.ofNat 8 k.lines, whi, wlo] ∧
      flags.getLsbD 4 = k.background ∧ flags.getLsbD 3 = k.forcePending ∧ flags.getLsbD 2 = k.forced ∧
      flags.getLsbD 1 = k.closedBy.b ∧ flags.getLsbD 0 = k.closedBy.a ∧ flags.toNat < 32 ∧ hi ++ lo = k.page.inst ∧
      whi.toNat * 256 + wlo.toNat = k.width) ∧
  (∀ e : Event, ∃ presence hi lo : Byte,
    e.bytes = [BitVec.ofNat 8 e.kind.code, presence, e.pageTag.getD 0, BitVec.ofNat 8 (e.band.getD 0), e.commandTag.getD 0, 0, hi, lo] ∧
    presence.getLsbD 2 = e.pageTag.isSome ∧ presence.getLsbD 1 = e.band.isSome ∧ presence.getLsbD 0 = e.commandTag.isSome ∧
    presence.toNat < 8 ∧ hi ++ lo = e.detail) ∧
  [PageState.pending, .offered, .printing, .blanking].map PageState.code = [0, 1, 2, 3] ∧
  [SpoilCause.underrun, .starved, .slip, .aborted].map SpoilCause.code = [1, 2, 3, 4] ∧
  [HeldState.clearing, .opened, .ready, .streaming].map HeldState.code = [1, 2, 3, 4] ∧
  [EventKind.bandAvailable, .bandForced, .pageStarted, .pageDone, .pageSpoiled, .pageAborted, .participantLeft, .cmdDone, .cmdWarn, .cmdError,
    .mark, .sum, .engineFault, .overflow].map EventKind.code = [1, 2, 3, 4, 5, 6, 7, 8, 9, 10, 11, 12, 13, 14] ∧
  [ExecError.pageGone, .notParticipant, .bandClosed, .bandForced, .bandPassed, .pageAborted, .tileEmpty, .lastParticipant].map ExecError.code =
    [1, 2, 3, 4, 5, 6, 7, 8] ∧
  ∀ s : State,
    (s.pages.length ≤ 4 → s.pagesView.length = 1 + 19 * s.pages.length ∧ (s.pagesView.getD 0 0).toNat = s.pages.length ∧
      ∀ j q, s.pages[j]? = some q → (s.pagesView.drop (1 + 19 * j)).take 19 = q.bytes) ∧
    (s.slots.length = 8 → s.bandsView.length = 80 ∧ ∀ i, i < 8 → (s.bandsView.drop (10 * i)).take 10 = (s.slot i).bytes i)

/-- READ_EVENTS: the records leave in queue order, then NONE records; those shown whole are removed, and nothing else changes. EVENT_RECORD_REMOVAL: the rest
of the record under way leaves, or the whole of the next one, and with its eighth byte it is removed; a NONE record removes nothing (R177, R178, R179). -/
def Obligations.ReadEventsRemovesWhatItShows : Prop :=
  (∀ (p : Port) (body : List Byte) (bits : Nat) (s : State), s.canOpen p = true →
    exec (.readEvents p (.selectHigh body bits)) s =
      .next (s.framed (s.updPort p fun ps => { ps with events := ps.events.drop (body.length / 8) }) p .ok
        (shownBytes ((s.port p).events.flatMap Event.bytes) body.length) (looseBits ((s.port p).events.flatMap Event.bytes) body.length bits))) ∧
  ∀ (p : Port) (s : State), (s.port p).assembler.state = .body → (s.port p).assembler.commandByte = some 0x22 →
    ((s.port p).assembler.record = none →
      exec (.eventRecordRemoval p) s = .next (s.updPort p fun ps =>
        { ps with
          events := ps.events.tail,
          asdo := ps.asdo ++ ((ps.events.head?.map Event.bytes).getD (List.replicate 8 0)),
          assembler := { ps.assembler with outData := [], count := ps.assembler.count + 8, record := none } })) ∧
    ∀ (k : Nat) (real : Bool), (s.port p).assembler.record = some { sent := k, real := real } → k < 8 →
      (s.port p).assembler.outData.length = 8 - k →
      exec (.eventRecordRemoval p) s = .next (s.updPort p fun ps =>
        { ps with
          events := if real then ps.events.tail else ps.events,
          asdo := ps.asdo ++ ps.assembler.outData,
          assembler := { ps.assembler with outData := [], count := ps.assembler.count + (8 - k), record := none } })

/-! ## Pages -/

/-- The record an OPEN PAGE appends, from the bytes of its frame (R28, R29, R200). -/
def Obligations.OpenPageRecordFromItsBytes : Prop :=
  ∀ (tag parts count height last w1 w0 back lead copies res : Byte) (p : Port) (inst : BitVec 16),
    let body := [tag, parts, count, height, last, w1, w0, back, lead, copies, res]
    pageCodesOk body = true → (pageOperandsOf body).ok p = true →
      (pageOperandsOf body).record p inst =
        { ref := { tag := tag, inst := inst }, opener := p,
          participants := { a := decide (parts.toNat % 2 = 1), b := decide (2 ≤ parts.toNat) },
          bandCount := count.toNat, bandHeight := height.toNat, lastBandHeight := last.toNat, width := w1.toNat * 256 + w0.toNat,
          background := decide (back = 1), lead := min lead.toNat count.toNat, copies := copies.toNat, resident := decide (res = 1),
          state := .pending, nextToAllocate := 0, nextToStream := 0, copiesRemaining := copies.toNat, linesServed := 0,
          spoilCause := none } ∧
      ((pageOperandsOf body).record p inst).inRange

/-- OPEN_PAGE taken: the record joins the tail with the next instance, and allocation is evaluated (R29, R27). -/
def Obligations.OpenPageAppendsItsRecord : Prop :=
  ∀ (p : Port) (body : List Byte) (s : State), s.canOpen p = true → body.length = 11 → pageCodesOk body = true →
    (pageOperandsOf body).ok p = true → s.pageOfTag (byteAt body 0) = none → s.pages.length < 4 →
    (∀ x ∈ s.slots, x.ofPage { tag := byteAt body 0, inst := s.nextInstance } = false) →
      exec (.openPage p (.selectHigh body 0)) s =
        .next (s.framed
          ({ s with pages := s.pages ++ [(pageOperandsOf body).record p s.nextInstance],
                    nextInstance := s.nextInstance + 1 } : State).evaluateAllocation p .ok (List.replicate 11 0))

/-- An evaluation of allocation (R6, R7, R8). One allocation serves the oldest page that wants a band, with its next band, in the lowest FREE slot without the
in-flight mark; next to allocate advances and the slot joins the end of the clear order; nothing else changes. The evaluation allocates until no page wants a
band or no slot can be given; it changes no slot that was held. -/
def Obligations.AllocationGivesWhatItCan : Prop :=
  (∀ (s : State) (older newer : List PageRecord) (q : PageRecord) (i : Nat), s.pages = older ++ q :: newer →
    (∀ p ∈ older, p.bandCount ≤ p.nextToAllocate ∨ p.state = .blanking) → q.nextToAllocate < q.bandCount → q.state ≠ .blanking →
    (s.pages.map PageRecord.ref).Nodup → i < s.slots.length → s.slot i = .free → s.inFlight ≠ some i →
    (∀ j, j < i → s.slot j ≠ .free ∨ s.inFlight = some j) →
      ∃ u, s.allocateOne = some u ∧ s.evaluateAllocation = u.evaluateAllocation ∧
        u.pages = older ++ { q with nextToAllocate := q.nextToAllocate + 1 } :: newer ∧
        u.slots = s.slots.set i (.held .clearing
          { page := q.ref, band := q.nextToAllocate,
            lines := if q.nextToAllocate + 1 = q.bandCount then q.lastBandHeight else q.bandHeight, width := q.width,
            background := q.background, closedBy := { a := false, b := false }, forced := false, forcePending := false }) ∧
        u.clearOrder = s.clearOrder ++ [i] ∧
        u = { s with pages := u.pages, slots := u.slots, clearOrder := u.clearOrder, clearPos := u.clearPos }) ∧
  ∀ s : State,
    ((∀ p ∈ s.pages, p.bandCount ≤ p.nextToAllocate ∨ p.state = .blanking) ∨
      (∀ i, i < s.slots.length → s.slot i ≠ .free ∨ s.inFlight = some i) → s.evaluateAllocation = s) ∧
    (s.evaluateAllocation.pages.find? PageRecord.wantsBand = none ∨ s.evaluateAllocation.freeSlot = none) ∧
    (∀ i, s.slot i ≠ .free → s.evaluateAllocation.slot i = s.slot i) ∧
    (∀ i, s.slot i = .free → s.evaluateAllocation.slot i = .free ∨
      s.inFlight ≠ some i ∧ i ∈ s.evaluateAllocation.clearOrder ∧ ∃ q ∈ s.pages, ∃ b, q.nextToAllocate ≤ b ∧ b < q.bandCount ∧
        q.state ≠ .blanking ∧
        s.evaluateAllocation.slot i = .held .clearing
          { page := q.ref, band := b, lines := if b + 1 = q.bandCount then q.lastBandHeight else q.bandHeight, width := q.width,
            background := q.background, closedBy := { a := false, b := false }, forced := false, forcePending := false }) ∧
    ∃ l, s.evaluateAllocation.clearOrder = s.clearOrder ++ l

/-- OPEN_PAGE refused: BAD PARAM for an operand out of R28's ranges, then TAG IN USE, then PAGE QUEUE FULL. ABORT_PAGE refused: NO PAGE without a record of the tag,
NOT PARTICIPANT for a port outside a page that has participants. Nothing else changes (R28, R29, R45). -/
def Obligations.PageCommandRefusals : Prop :=
  (∀ (tag parts count height last w1 w0 back lead copies res : Byte) (p : Port),
    let body := [tag, parts, count, height, last, w1, w0, back, lead, copies, res]
    let width := w1.toNat * 256 + w0.toNat
    pageCodesOk body = true ∧ (pageOperandsOf body).ok p = true ↔
      1 ≤ count.toNat ∧ 1 ≤ height.toNat ∧ height.toNat ≤ 64 ∧ 1 ≤ last.toNat ∧ last.toNat ≤ 64 ∧ 1 ≤ width ∧ width ≤ 640 ∧
        height.toNat * width ≤ 32768 ∧ last.toNat * width ≤ 32768 ∧ back.toNat ≤ 1 ∧ 1 ≤ lead.toNat ∧ lead.toNat ≤ 8 ∧
        1 ≤ copies.toNat ∧ copies.toNat ≤ 16 ∧ parts.toNat ≤ 3 ∧ parts.getLsbD (if p = .a then 0 else 1) = true ∧ res.toNat ≤ 1 ∧
        (1 < copies.toNat → res = 1) ∧ (res = 1 → count.toNat ≤ 8)) ∧
  (∀ (p : Port) (body : List Byte) (s : State), s.canOpen p = true → body.length = 11 →
    (pageCodesOk body = false ∨ (pageOperandsOf body).ok p = false →
      exec (.openPage p (.selectHigh body 0)) s = .next (s.framed s p .badParam (List.replicate 11 0))) ∧
    (pageCodesOk body = true → (pageOperandsOf body).ok p = true → (s.pageOfTag (byteAt body 0)).isSome = true →
      exec (.openPage p (.selectHigh body 0)) s = .next (s.framed s p .tagInUse (List.replicate 11 0))) ∧
    (pageCodesOk body = true → (pageOperandsOf body).ok p = true → s.pageOfTag (byteAt body 0) = none → 4 ≤ s.pages.length →
      exec (.openPage p (.selectHigh body 0)) s = .next (s.framed s p .pageQueueFull (List.replicate 11 0)))) ∧
  ∀ (p : Port) (tag : Byte) (s : State), s.canOpen p = true →
    (s.pageOfTag tag = none → exec (.abortPage p (.selectHigh [tag] 0)) s = .next (s.framed s p .noPage [0])) ∧
    ∀ q, s.pageOfTag tag = some q → q.participants.isEmpty = false → q.participants.has p = false →
      exec (.abortPage p (.selectHigh [tag] 0)) s = .next (s.framed s p .notParticipant [0])

/-- ABORT_PAGE of a PENDING, OFFERED or BLANKING page removes it with its slots; only the abort of a PENDING or OFFERED page posts PAGE ABORTED, to its
participants; WAITING heads that name it leave with CMD ERROR PAGE ABORTED; its executing command has stop requested; if it was the head page the next head is
evaluated, PRDY being high for a new offer where none was withdrawn, else the Streamer stays (R34, R45, R46, R48, R104, R125, R139, R140). -/
def Obligations.AbortRemovesAPage : Prop :=
  ∀ (p : Port) (tag : Byte) (s : State) (q : PageRecord), s.canOpen p = true → s.pageOfTag tag = some q →
    q.participants.isEmpty = true ∨ q.participants.has p = true → q.state ≠ .printing →
      ∃ t, exec (.abortPage p (.selectHigh [tag] 0)) s = .next t ∧ (t.port p).outcome = .ok ∧
        t.pages.map PageRecord.ref = (s.pages.map PageRecord.ref).filter (fun r => decide (r ≠ q.ref)) ∧
        (∀ x ∈ t.slots, x.ofPage q.ref = false) ∧
        (∀ z, (t.port z).events = s.eventsAfterAbort q.ref z
          (if q.state ≠ .blanking ∧ q.participants.has z = true then
            enqueueEvent (s.port z).events { kind := .pageAborted, pageTag := some q.ref.tag, band := none, commandTag := none, detail := 4 }
          else (s.port z).events)) ∧
        (∀ z, (t.port z).queue = s.queueAfterAbort q.ref z) ∧ t.execution = s.stoppedFor q.ref ∧
        (q.state = .offered → s.isHead q.ref = true → t.prdy = false ∧
          (t.streamer = .idle ∨ ∃ r, r ≠ q.ref ∧ t.streamer = .offered r ∧ t.prdyLow = some 0)) ∧
        (∀ rest, s.pages = q :: rest → pendingBehind q.ref rest → s.nextHeadEvaluated t rest) ∧
        (q.state ≠ .offered → s.isHead q.ref = true → ∀ r, t.streamer = .offered r → t.prdy = true) ∧
        (s.isHead q.ref = false → t.streamer = s.streamer ∧ t.prdyLow = s.prdyLow) ∧
        t.nextInstance = s.nextInstance ∧ t.bandRam = s.bandRam ∧ t.tileRam = s.tileRam ∧ t.tileLoaded = s.tileLoaded ∧
        t.engine = s.engine ∧ t.inFlight = s.inFlight ∧ t.pointer = s.pointer ∧ t.pins = s.pins

/-- ABORT_PAGE of a PRINTING page turns it BLANKING with cause ABORTED and one copy remaining, posts PAGE ABORTED to its participants, frees its slots but keeps
the one whose line is in flight; WAITING heads that name it leave with CMD ERROR PAGE ABORTED; its executing command has stop requested (R20, R47, R104, R125,
R164). -/
def Obligations.AbortBlanksAPrintingPage : Prop :=
  ∀ (p : Port) (tag : Byte) (s : State) (q : PageRecord), s.canOpen p = true → (s.pages.map fun r => r.ref.tag).Nodup →
    s.pageOfTag tag = some q → q.participants.isEmpty = true ∨ q.participants.has p = true → q.state = .printing →
      ∃ t, exec (.abortPage p (.selectHigh [tag] 0)) s = .next t ∧ (t.port p).outcome = .ok ∧
        t.pages.map PageRecord.ref = s.pages.map PageRecord.ref ∧
        t.findPage q.ref = some { q with state := .blanking, spoilCause := some .aborted, copiesRemaining := 1 } ∧
        (∀ i, (t.slot i).ofPage q.ref = true → s.lineSlot = some i ∧ t.slot i = s.slot i) ∧
        (∀ i, s.lineSlot = some i → (s.slot i).ofPage q.ref = true → t.slot i = s.slot i) ∧
        (∀ z, (t.port z).events = s.eventsAfterAbort q.ref z
          (if q.participants.has z = true then
            enqueueEvent (s.port z).events { kind := .pageAborted, pageTag := some q.ref.tag, band := none, commandTag := none, detail := 4 }
          else (s.port z).events)) ∧
        (∀ z, (t.port z).queue = s.queueAfterAbort q.ref z) ∧ t.execution = s.stoppedFor q.ref ∧
        (∀ b n x, s.streamer = .starved q.ref b n x →
          t.streamer = .sending q.ref { source := .background, word := 0, bits := 0, wordDone := false, early := false }) ∧
        ((∀ b n x, s.streamer ≠ .starved q.ref b n x) → t.streamer = s.streamer) ∧
        t.bandRam = s.bandRam ∧ t.tileRam = s.tileRam ∧ t.engine = s.engine ∧ t.nextInstance = s.nextInstance

/-! ## Settings and PORT RESET -/

/-- SET_ENGINE: BAD PARAM for a field out of range, then ENGINE BUSY unless the Streamer is IDLE and the page queue empty; else all four fields are
replaced; nothing else changes (R137). -/
def Obligations.SetEngineChecksAndEffect : Prop :=
  ∀ (p : Port) (kind limit window divisor : Byte) (s : State), s.canOpen p = true →
    let ok : Prop := kind.toNat ≤ 1 ∧ 1 ≤ limit.toNat ∧ limit.toNat ≤ 250 ∧ 1 ≤ window.toNat ∧ window.toNat ≤ 15 ∧ 2 ≤ divisor.toNat ∧
      divisor.toNat ≤ 64
    let c := Instr.setEngine p (.selectHigh [kind, limit, window, divisor] 0)
    (¬ ok → exec c s = .next (s.framed s p .badParam [0, 0, 0, 0])) ∧
    (ok → ¬ (s.streamer = .idle ∧ s.pages = []) → exec c s = .next (s.framed s p .engineBusy [0, 0, 0, 0])) ∧
    (ok → s.streamer = .idle → s.pages = [] →
      exec c s = .next (s.framed
        { s with engine := { kind := if kind = 1 then .stall else .nostall, starvationLimit := limit.toNat,
                             acknowledgeWindow := window.toNat, videoDivisor := divisor.toNat } } p .ok [0, 0, 0, 0]))

/-- SET_PORT writes its own port's enable from 0 or 1, and refuses any other value with BAD PARAM; the queue is not touched and the interrupt output follows
enable and queue (R180, R181). -/
def Obligations.SetPortWritesTheEnable : Prop :=
  ∀ (p : Port) (v : Byte) (s : State), s.canOpen p = true →
    (2 ≤ v.toNat → exec (.setPort p (.selectHigh [v] 0)) s = .next (s.framed s p .badParam [0])) ∧
    (v.toNat ≤ 1 → ∃ t,
      exec (.setPort p (.selectHigh [v] 0)) s = .next t ∧
      t = s.framed (s.updPort p fun ps => { ps with interruptEnable := decide (v = 1) }) p .ok [0] ∧
      t.interruptAsserted p = (decide (v = 1) && !(s.port p).events.isEmpty) ∧ t.interruptAsserted p.other = s.interruptAsserted p.other)

/-- PORT_RESET empties its port's command and event queues, clears its enable and outcome, and takes it out of every page: a page that keeps the other port
posts PARTICIPANT LEFT to it, and each of its OPEN slots that the other port has closed goes READY, but for the slot of the executing command, which stays OPEN;
slots of a page that the port was not in stay; a page left without participant is removed, or turns BLANKING if it was PRINTING, and keeps the slot of its line in flight. The other port's queue stays, but for the repeated check of its WAITING head. The
executing command of the port runs on silently, and stop is requested of one in a page left empty. An offer withdrawn with a new one made holds PRDY low for a
period. The tile store, the pointer and the engine configuration stay. The head page and the Streamer are taken to agree (O57's law; R20, R49, R50, R55, R58, R104,
R107, R132, R139, R182, R196; log 12). -/
def Obligations.PortResetClearsItsPort : Prop :=
  ∀ (p : Port) (s : State), s.canOpen p = true → s.headLawful →
    ∃ t, exec (.portReset p (.selectHigh [] 0)) s = .next t ∧ (t.port p).queue = [] ∧ (t.port p).events = [] ∧
      (t.port p).interruptEnable = false ∧ (t.port p).outcome = .ok ∧ (∀ q ∈ t.pages, q.participants.has p = false) ∧
      (t.port p.other).outcome = (s.port p.other).outcome ∧ (t.port p.other).interruptEnable = (s.port p.other).interruptEnable ∧
      (t.port p.other).assembler = (s.port p.other).assembler ∧ (t.port p.other).staging = (s.port p.other).staging ∧
      ((∀ q ∈ s.pages, q.emptiedBy p = true → s.waitsOn p.other q.ref = false) →
        (t.port p.other).events = s.eventsAfterReset p ∧
        (∀ q ∈ s.pages, q.participants.has p = true → s.waitsOn p.other q.ref = true → (∀ x ∈ s.slots, x.inRun q = true) →
          (t.port p.other).queue = s.queueAfterRecheck t q.ref p.other) ∧
        ((∀ q ∈ s.pages, q.participants.has p = true → s.waitsOn p.other q.ref = false) → (t.port p.other).queue = (s.port p.other).queue)) ∧
      (∀ q ∈ s.pages,
        (q.emptiedBy p = true →
          (q.state ≠ .printing → t.findPage q.ref = none ∧ ∀ x ∈ t.slots, x.ofPage q.ref = false) ∧
          (q.state = .printing →
            t.findPage q.ref = some { q with participants := .empty, state := .blanking, spoilCause := some .aborted, copiesRemaining := 1 } ∧
            (∀ i, (t.slot i).ofPage q.ref = true → s.lineSlot = some i) ∧
            (∀ i, s.lineSlot = some i → (s.slot i).ofPage q.ref = true → t.slot i = s.slot i))) ∧
        (q.participants.has p = false → ∀ i, (s.slot i).ofPage q.ref = true → t.slot i = s.slot i) ∧
        (q.emptiedBy p = false → ∃ q', t.findPage q.ref = some q' ∧ q'.participants = q.participants.remove p) ∧
        (q.participants.has p = true → q.participants.has p.other = true →
          ∀ i k, s.slot i = .held .opened k → k.page = q.ref →
            (s.inFlight = some i → t.slot i = s.slot i) ∧
            (s.inFlight ≠ some i → k.closedBy.has p.other = true →
              ∃ st, (st = .ready ∨ st = .streaming) ∧ t.slot i = .held st { k with forcePending := false }) ∧
            (k.closedBy.has p.other = false → t.slot i = s.slot i))) ∧
      (∀ x, s.execution = some x → ∃ y, t.execution = some y ∧ y.silent = (x.silent || decide (x.port = p)) ∧ y.op = x.op ∧ y.row = x.row ∧
        y.stopRequested = (x.stopRequested || s.pages.any fun q => q.emptiedBy p && decide (x.page = some q.ref))) ∧
      (s.execution = none → t.execution = none) ∧
      (∀ r r', s.streamer = .offered r → t.streamer = .offered r' → r ≠ r' → t.prdyLow = some 0 ∧ t.prdy = false) ∧
      t.inFlight = s.inFlight ∧ t.tileRam = s.tileRam ∧ t.tileLoaded = s.tileLoaded ∧
      t.pointer = s.pointer ∧ t.engine = s.engine ∧ t.nextInstance = s.nextInstance ∧ t.bandRam = s.bandRam

/-! ## Queued commands -/

/-- FILL, PUT_BITS, COPY, LOAD_TILE, CLOSE_BAND, LEAVE_PAGE, MARK, SUM_BAND accepted: the entry joins the tail of its queue as QUEUED with its payload in
staging, OK is recorded, and nothing else changes (R118, R119). The payload stands at the word after the newest payload held, at word 0 if none is held, and
runs on in the ring; no other staging word changes (R116, R117). -/
def Obligations.AcceptedFrameAppendsItsEntry : Prop :=
  (∀ (p : Port) (code : Byte) (body : List Byte) (q : QueuedFrame) (page : Option PageRef) (s : State), s.canOpen p = true →
    code ∈ queuedCodes → frameLength code body = some (body.length + 1) → parseQueued code body = some q → s.pageCheck p q = .ok page →
    (s.port p).queue.length < 8 → q.payload.length ≤ s.stagingFree p →
      exec (commandOfCode p code (.selectHigh body 0)) s =
        .next (s.framed (s.updPort p fun ps =>
          { ps with
            queue := ps.queue ++ [{ op := q.op, commandTag := q.commandTag, notify := q.notify, page := page, band := q.band,
                                    payloadLength := q.payload.length,
                                    stagingPosition := if q.payload.length = 0 then none else some (s.stagingNext p),
                                    life := .queued }],
            staging := stagingPlace ps.staging (s.stagingNext p) q.payload }) p .ok (List.replicate body.length 0))) ∧
  (∀ (p : Port) (s : State),
    (∀ older e newer n, (s.port p).queue = older ++ e :: newer → 0 < e.payloadLength → e.stagingPosition = some n →
      (∀ x ∈ newer, x.payloadLength = 0) → s.stagingNext p = (n + e.payloadLength) % 1024) ∧
    ((∀ e ∈ (s.port p).queue, e.payloadLength = 0) →
      (∀ x, s.execution = some x → x.port = p → x.silent = true → 0 < x.payloadLength →
        s.stagingNext p = (x.stagingPosition + x.payloadLength) % 1024) ∧
      ((∀ x, s.execution = some x → x.port ≠ p ∨ x.silent = false ∨ x.payloadLength = 0) → s.stagingNext p = 0))) ∧
  ∀ (s : State) (p : Port) (at_ : Nat) (words : List Word), words.length ≤ 1024 →
    let t := s.updPort p fun ps => { ps with staging := stagingPlace ps.staging at_ words }
    (∀ j, j < words.length → t.stagingWord p (at_ + j) = words.getD j 0) ∧
    ∀ j, words.length ≤ j → j < 1024 → t.stagingWord p (at_ + j) = s.stagingWord p (at_ + j)

/-- The same eight refused: BAD PARAM, then the page checks' outcome, then QUEUE FULL, then STAGING FULL; nothing else changes (R118, R119). -/
def Obligations.RefusedFrameChangesNothing : Prop :=
  ∀ (p : Port) (code : Byte) (body : List Byte) (s : State), s.canOpen p = true → code ∈ queuedCodes →
    frameLength code body = some (body.length + 1) →
    let answers := fun o => exec (commandOfCode p code (.selectHigh body 0)) s = .next (s.framed s p o (List.replicate body.length 0))
    (parseQueued code body = none → answers .badParam) ∧
    ∀ q, parseQueued code body = some q →
      (∀ o, s.pageCheck p q = .error o → answers o) ∧
      ∀ page, s.pageCheck p q = .ok page →
        (8 ≤ (s.port p).queue.length → answers .queueFull) ∧
        ((s.port p).queue.length < 8 → s.stagingFree p < q.payload.length → answers .stagingFull)

/-- Checks 3 to 5 of R119 for a command that names a page, in their order, and the instance captured (R119, R120, R40); a band byte of 255 comes to them too
(log 30). -/
def Obligations.PageChecksInOrder : Prop :=
  ∀ (s : State) (p : Port) (q : QueuedFrame),
    (q.pageTag = none → s.pageCheck p q = .ok none) ∧
    ∀ tag, q.pageTag = some tag →
      (s.pageOfTag tag = none → s.pageCheck p q = .error .noPage) ∧
      ∀ r, s.pageOfTag tag = some r →
        (r.state = .blanking → s.pageCheck p q = .error .noPage) ∧
        (r.state ≠ .blanking → r.participants.has p = false → s.pageCheck p q = .error .notParticipant) ∧
        (r.state ≠ .blanking → r.participants.has p = true →
          (∀ b, q.band = some b → s.pageCheck p q = if b < r.bandCount then .ok (some r.ref) else .error .badParam) ∧
          (q.band = none → s.pageCheck p q =
            if r.participants.has p.other = true then .ok (some r.ref) else .error .lastParticipant))

/-- Every queued frame that R200 can spell with operands in range is read back from its bytes whole, at the length R200 gives; and a frame of its command's
length that is read at all is such a frame: an operand out of range, or a control byte with another bit than NOTIFY, is refused; a band byte of 255 is left to
the page checks (log 30; R73, R76, R78, R81, R92, R95,
R97, R98, R199, R200). -/
def Obligations.QueuedFramesReadBack : Prop :=
  (∀ q : QueuedFrame, q.wellFormed = true →
    parseQueued q.op.code q.body = some q ∧ frameLength q.op.code q.body = some (q.body.length + 1)) ∧
  ∀ (code : Byte) (body : List Byte) (q : QueuedFrame), code ∈ queuedCodes → frameLength code body = some (body.length + 1) →
    parseQueued code body = some q → q.wellFormed = true ∧ q.op.code = code ∧ q.body = body

/-! ## The Raster Unit's choice and its checks -/

/-- The round-robin pointer (R128): which queue a consideration grants, when the pointer moves, that device reset names B and PORT RESET leaves it. -/
def Obligations.RoundRobinPointer : Prop :=
  State.reset.pointer = .b ∧ (∀ s t, exec .deviceReset s = .next t → t.pointer = .b) ∧
  (∀ s t p, exec (.portReset p (.selectHigh [] 0)) s = .next t → t.pointer = s.pointer) ∧
  ∀ s : State,
    (s.execution ≠ none → exec .consideration s = .next s) ∧
    (s.execution = none → s.runnable .a = false → s.runnable .b = false → exec .consideration s = .next s) ∧
    ∀ (p : Port) (e : Entry), s.execution = none → s.headEntry p = some e → e.life = .queued →
      s.runnable p.other = false ∨ s.pointer = p.other →
      e.op.namesPage = e.page.isSome → e.op.namesBand = e.band.isSome →
        s.grantedPort = some p ∧ ∃ t, exec .consideration s = .next t ∧
          ((∀ r b, e.page = some r → e.band = some b → s.executionCheck p r b ≠ .wait) → t.pointer = p) ∧
          ((∃ r b, e.page = some r ∧ e.band = some b ∧ s.executionCheck p r b = .wait) →
            t = s.setHeadLife p .waiting ∧ t.pointer = s.pointer)

/-- The execution check's cases in their order (R66, R67); a READY or STREAMING slot that the port has not closed gives BAND FORCED, whatever its forced flag
(log 18). -/
def Obligations.ExecutionCheckCases : Prop :=
  ∀ (s : State) (p : Port) (r : PageRef) (b : Nat),
    (s.findPage r = none → s.executionCheck p r b = .error .pageGone) ∧
    ∀ q, s.findPage r = some q →
      (q.state = .blanking → s.executionCheck p r b = .error .pageAborted) ∧
      (q.state ≠ .blanking → q.participants.has p = false → s.executionCheck p r b = .error .notParticipant) ∧
      (q.state ≠ .blanking → q.participants.has p = true →
        (b < q.nextToStream ∧ (q.resident = false ∨ q.copiesRemaining = 1) → s.executionCheck p r b = .error .bandPassed) ∧
        (¬ (b < q.nextToStream ∧ (q.resident = false ∨ q.copiesRemaining = 1)) →
          (q.nextToAllocate ≤ b → s.executionCheck p r b = .wait) ∧
          (b < q.nextToAllocate → ∀ i st k, s.slotOfBand r b = some i → s.slot i = .held st k →
            s.executionCheck p r b =
              if st = .clearing then .wait
              else if k.closedBy.has p = true then .error .bandClosed
              else if st = .opened ∧ k.forcePending = false then .run i
              else .error .bandForced)))

/-- A granted MARK posts its event and completes; a band command whose check gives an error posts CMD ERROR with its code and completes; a FILL of an empty
tile fails with TILE EMPTY; a drawing that clipping empties completes with CMD WARN CLIPPED. Each leaves everything else (R66, R74, R87, R90, R94, R100). -/
def Obligations.GrantsThatCompleteAtOnce : Prop :=
  ∀ (s : State) (p : Port) (e : Entry), s.grantedPort = some p → s.headEntry p = some e →
    let answers := fun kind detail => exec .consideration s = .next
      { (s.popEntry p).postTo p { kind := kind, pageTag := none, band := none, commandTag := some e.commandTag, detail := detail } with
        pointer := p }
    (∀ v, e.op = .mark v → answers .mark v) ∧
    ∀ r b, e.page = some r → e.band = some b → e.op.namesBand = true →
      (∀ c, s.executionCheck p r b = .error c → answers .cmdError (BitVec.ofNat 16 c.code)) ∧
      ∀ i st k, s.executionCheck p r b = .run i → s.slot i = .held st k → e.op ≠ .closeBand →
        (s.tileEmpty e.op = true → answers .cmdError 7) ∧
        ∀ c, s.tileEmpty e.op = false → clipOf e.op k.width k.lines = some c → c.rect.w = 0 ∨ c.rect.h = 0 → answers .cmdWarn 1

/-- A granted CLOSE_BAND that may run joins its port to the closed-by set; with every participant in it the slot goes READY, or STREAMING where a starving
engine awaits it; a PENDING head page whose lead bands are then READY goes OFFERED with the Streamer; CMD DONE if NOTIFY is set; the in-flight mark and band RAM
are untouched (R33, R57, R59, R140, R160). -/
def Obligations.CloseJoinsTheClosedBySet : Prop :=
  ∀ (s : State) (p : Port) (e : Entry) (r : PageRef) (b i : Nat) (k : BandRecord) (q : PageRecord),
    s.grantedPort = some p → s.headEntry p = some e → e.op = .closeBand → e.page = some r → e.band = some b →
    s.executionCheck p r b = .run i → s.slot i = .held .opened k → s.findPage k.page = some q →
      ∃ t, exec .consideration s = .next t ∧ (t.port p).queue = (s.port p).queue.tail ∧ t.inFlight = s.inFlight ∧ t.execution = none ∧
        t.bandRam = s.bandRam ∧ t.pointer = p ∧
        (t.port p).events = (if e.notify then enqueueEvent (s.port p).events (Event.ofCommand .cmdDone e.commandTag 0)
          else (s.port p).events) ∧ t.port p.other = s.port p.other ∧
        (q.participants.within (k.closedBy.add p) = false → t.slot i = .held .opened { k with closedBy := k.closedBy.add p } ∧
          t.pages = s.pages ∧ t.streamer = s.streamer) ∧
        (q.participants.within (k.closedBy.add p) = true →
          let u : State := { s with slots := s.slots.set i (.held .ready { k with closedBy := k.closedBy.add p, forcePending := false }) }
          ((∀ n x, s.streamer ≠ .starved k.page k.band n x) → t.slots = u.slots ∧
            (∀ rest, s.pages = q :: rest → q.state = .pending → u.leadReady q →
              t.pages = { q with state := .offered } :: rest ∧ t.streamer = .offered q.ref ∧ t.prdy = true) ∧
            (s.isHead q.ref = false ∨ q.state ≠ .pending ∨ ¬ u.leadReady q → t.pages = s.pages ∧ t.streamer = s.streamer)) ∧
          (∀ n x, s.streamer = .starved k.page k.band n x → q.state = .printing → s.slotOfBand k.page k.band = some i →
            t.slot i = .held .streaming { k with closedBy := k.closedBy.add p, forcePending := false } ∧
            t.streamer = .sending k.page { source := .slot i, word := 0, bits := 0, wordDone := false, early := false }))

/-- A granted LEAVE_PAGE (R41, R42, R58): PAGE GONE, PAGE ABORTED, NOT PARTICIPANT, LAST PARTICIPANT in that order; else the port leaves the page's participant
set, the other port is told and its WAITING head that names the page checked again, OPEN slots that the other port has closed go READY, but for the slot of an
executing command, the page's other slots stay (R55), a PENDING head page whose lead bands are then READY goes OFFERED, and CMD DONE is posted if NOTIFY is set. -/
def Obligations.LeavePageCases : Prop :=
  ∀ (s : State) (p : Port) (e : Entry) (r : PageRef), s.grantedPort = some p → s.headEntry p = some e → e.op = .leavePage → e.page = some r →
    (s.pages.map fun q => q.ref.tag).Nodup →
    let fails := fun c : ExecError => exec .consideration s = .next
      { (s.popEntry p).postTo p (Event.ofCommand .cmdError e.commandTag (BitVec.ofNat 16 c.code)) with pointer := p }
    (s.findPage r = none → fails .pageGone) ∧
    ∀ q, s.findPage r = some q →
      (q.state = .blanking → fails .pageAborted) ∧
      (q.state ≠ .blanking → q.participants.has p = false → fails .notParticipant) ∧
      (q.state ≠ .blanking → q.participants.has p = true → q.participants.has p.other = false → fails .lastParticipant) ∧
      (q.state ≠ .blanking → q.participants.has p = true → q.participants.has p.other = true →
        ∃ t, exec .consideration s = .next t ∧
          (∃ q', t.findPage r = some q' ∧ q'.participants = q.participants.remove p ∧ q'.opener = q.opener) ∧
          (t.port p).queue = (s.port p).queue.tail ∧ (t.port p.other).queue = s.queueAfterRecheck t r p.other ∧
          (t.port p).events = (if e.notify then enqueueEvent (s.port p).events (Event.ofCommand .cmdDone e.commandTag 0)
            else (s.port p).events) ∧
          (t.port p.other).events = enqueueEvent (s.port p.other).events
            { kind := .participantLeft, pageTag := some r.tag, band := none, commandTag := none, detail := if p = .a then 1 else 2 } ∧
          (∀ i k, s.slot i = .held .opened k → k.page = r → s.inFlight ≠ some i → k.closedBy.has p.other = true →
            ∃ st, (st = .ready ∨ st = .streaming) ∧ t.slot i = .held st { k with forcePending := false }) ∧
          (∀ i, (s.slot i).ofPage r = false → t.slot i = s.slot i) ∧
          (∀ i k, s.inFlight = some i → s.slot i = .held .opened k → t.slot i = s.slot i) ∧
          (∀ i k, s.slot i = .held .opened k → k.closedBy.has p.other = false → t.slot i = s.slot i) ∧
          (∀ i k, s.slot i = .held .clearing k ∨ s.slot i = .held .streaming k → t.slot i = s.slot i) ∧
          ((∀ r' b n x, s.streamer ≠ .starved r' b n x) → ∀ i k, s.slot i = .held .ready k → t.slot i = s.slot i) ∧
          (∀ rest, s.pages = q :: rest → q.state = .pending →
            (∃ i k, s.slot i = .held .opened k ∧ k.page = r ∧ s.inFlight ≠ some i ∧ k.closedBy.has p.other = true) → t.leadReady q →
            t.pages = { q with participants := q.participants.remove p, state := .offered } :: rest ∧ t.streamer = .offered r ∧
              t.prdy = true) ∧
          t.bandRam = s.bandRam ∧ t.pointer = p ∧ t.inFlight = s.inFlight)

/-- A granted FILL, PUT_BITS, COPY, SUM_BAND or LOAD_TILE that begins to run fills the execution record, with its payload's place and, for a drawing, the page
line of the band's line 0 (R72); it becomes EXECUTING and sets the in-flight mark on its slot (none for LOAD_TILE); memory, pages, slots and events are as
before (R86, R87, R98). Clipping gives the part of the rectangle inside the band, a COPY's inside it with its source, and says whether that is smaller (R74,
R83). -/
def Obligations.ExecutionBegins : Prop :=
  (∀ (s : State) (p : Port) (e : Entry), s.grantedPort = some p → s.headEntry p = some e →
    let begins := fun (slot : Option Nat) (clip : Option Clip) (rows rowWords firstPageLine : Nat) =>
      ∃ t x, exec .consideration s = .next t ∧
      t = { (s.setHeadLife p .executing) with inFlight := slot, pointer := p, execution := some x } ∧
      x.port = p ∧ x.op = e.op ∧ x.commandTag = e.commandTag ∧ x.notify = e.notify ∧ x.page = e.page ∧ x.band = e.band ∧ x.slot = slot ∧
      x.clip = clip ∧ x.row = 0 ∧ x.rowWord = 0 ∧ x.period = 0 ∧ x.rows = rows ∧ x.rowWords = rowWords ∧ x.finished = false ∧
      x.stopRequested = false ∧ x.silent = false ∧ x.runningSum = (if e.op = .sumBand then some 0 else none) ∧
      x.stagingPosition = e.stagingPosition.getD 0 ∧ x.payloadLength = e.payloadLength ∧ x.firstPageLine = firstPageLine
    (∀ n, e.op = .loadTile n → begins none none 16 1 0) ∧
    ∀ r b i st k, e.page = some r → e.band = some b → s.executionCheck p r b = .run i → s.slot i = .held st k →
      (e.op = .sumBand → begins (some i) none k.lines k.width 0) ∧
      ∀ c q, clipOf e.op k.width k.lines = some c → s.tileEmpty e.op = false → 0 < c.rect.w → 0 < c.rect.h → s.findPage k.page = some q →
        begins (some i) (some c) c.rect.h ((c.rect.x + c.rect.w - 1) / 16 - c.rect.x / 16 + 1) (k.band * q.bandHeight)) ∧
  ∀ (x y w h width lines : Nat) (fn : BitVec 4),
    (∀ source, clipOf (.fill x y w h fn source) width lines = some
      { rect := { x := x, y := y, w := min (x + w) (width * 16) - x, h := min (y + h) lines - y },
        clipped := decide (width * 16 < x + w ∧ 0 < w ∨ lines < y + h ∧ 0 < h) }) ∧
    clipOf (.putBits x y w h fn) width lines = some
      { rect := { x := x, y := y, w := min (x + w) (width * 16) - x, h := min (y + h) lines - y },
        clipped := decide (width * 16 < x + w ∧ 0 < w ∨ lines < y + h ∧ 0 < h) } ∧
    (∀ sx sy, clipOf (.copy sx sy x y w h fn) width lines = some
      { rect := { x := x, y := y, w := min w (min (width * 16 - sx) (width * 16 - x)), h := min h (min (lines - sy) (lines - y)) },
        clipped := decide (min (width * 16 - sx) (width * 16 - x) < w ∨ min (lines - sy) (lines - y) < h) }) ∧
    clipOf .sumBand width lines = none

/-! ## What a command has done at its end -/

/-- The sixteen functions by name (R76). -/
def Obligations.SixteenFunctions : Prop :=
  ∀ source dest : Bool,
    logicBit 0 source dest = false ∧ logicBit 1 source dest = !(source || dest) ∧ logicBit 2 source dest = (!source && dest) ∧
    logicBit 3 source dest = !source ∧ logicBit 4 source dest = (source && !dest) ∧ logicBit 5 source dest = !dest ∧
    logicBit 6 source dest = (source != dest) ∧ logicBit 7 source dest = !(source && dest) ∧ logicBit 8 source dest = (source && dest) ∧
    logicBit 9 source dest = (source == dest) ∧ logicBit 10 source dest = dest ∧ logicBit 11 source dest = (!source || dest) ∧
    logicBit 12 source dest = source ∧ logicBit 13 source dest = (source || !dest) ∧ logicBit 14 source dest = (source || dest) ∧
    logicBit 15 source dest = true

/-- COMMAND_END of a FILL or a PUT BITS: exactly the pixels of its effective rectangle take the function of source bit and old value; every other word of band RAM
reads as before (log 8). As the clock goes, the step that ends a word's time draws that word (log 10; R71, R75, R76, R78, R80, R81, R93, R96). -/
def Obligations.FillAndPutBitsDrawTheirRectangle : Prop :=
  ∀ (s : State) (x : ExecRecord) (i : Nat) (k : BandRecord) (c : Clip),
    ∀ source : Nat → Nat → Bool,
      ((∃ rx ry w h fn v, x.op = .fill rx ry w h fn (.solid v) ∧ ∀ y px, source y px = v) ∨
        (∃ rx ry w h fn n, x.op = .fill rx ry w h fn (.tile n) ∧
          ∀ y px, source y px = pixel (s.tileRow n ((x.firstPageLine + y) % 16)) (px % 16)) ∨
        (∃ rx ry w rows fn, x.op = .putBits rx ry w rows fn ∧
          ∀ y px, source y px =
            pixel (s.stagingWord x.port (x.stagingPosition + (y - ry) * ((w + 15) / 16) + (px - rx) / 16)) ((px - rx) % 16))) →
      (s.startsDrawing x i k c → ∃ t, exec .commandEnd s = .next t ∧
        (∀ y px, y < k.lines → px < k.width * 16 →
          t.bandPixel i k.width y px =
            if c.rect.holds px y then logicBit x.op.fn (source y px) (s.bandPixel i k.width y px) else s.bandPixel i k.width y px) ∧
        ∀ a, ¬ bandHasWord i k a → t.readBand a = s.readBand a) ∧
      (s.wordEnds x → x.slot = some i → s.slot i = .held .opened k → x.clip = some c → x.stopRequested = false →
        ∃ t, step s = .next t ∧ s.drawsWord t x i k c x.row source)

/-- COMMAND_END of a COPY: every pixel of the effective destination takes the function of the source pixel and its own value as both stood before the command,
however the rectangles overlap; every other word of band RAM reads as before (log 8). As the clock goes, the step that ends a word's time draws that word from
the row buffer, which the row's first word fills with the source row as it then stands, the rows running from the last where the copy goes down (log 10; R83,
R84, R97). -/
def Obligations.CopyReadsBeforeItWrites : Prop :=
  (∀ (s : State) (x : ExecRecord) (i : Nat) (k : BandRecord) (c : Clip) (sx sy dx dy w h : Nat) (fn : BitVec 4),
    s.startsDrawing x i k c → x.op = .copy sx sy dx dy w h fn → c.rect.x = dx → c.rect.y = dy → sx + c.rect.w ≤ k.width * 16 →
    sy + c.rect.h ≤ k.lines →
      ∃ t, exec .commandEnd s = .next t ∧
        (∀ y px, y < k.lines → px < k.width * 16 →
          t.bandPixel i k.width y px =
            if c.rect.holds px y then
              logicBit fn (s.bandPixel i k.width (sy + (y - dy)) (sx + (px - dx))) (s.bandPixel i k.width y px)
            else s.bandPixel i k.width y px) ∧
        ∀ a, ¬ bandHasWord i k a → t.readBand a = s.readBand a) ∧
  ∀ (s : State) (x : ExecRecord) (i : Nat) (k : BandRecord) (c : Clip) (sx sy dx dy w h : Nat) (fn : BitVec 4),
    s.wordEnds x → x.op = .copy sx sy dx dy w h fn → x.slot = some i → s.slot i = .held .opened k → x.clip = some c →
    x.stopRequested = false → x.rows = c.rect.h → x.rowWords = c.rect.rowWords → 0 < c.rect.w → sx + c.rect.w ≤ k.width * 16 →
    sy + c.rect.h ≤ k.lines →
      let row := if sy < dy then c.rect.h - 1 - x.row else x.row
      let buffer := if x.rowWord = 0 then
          (List.range ((sx + c.rect.w - 1) / 16 - sx / 16 + 1)).map fun n => s.readBand (slotAddress i ((sy + row) * k.width + sx / 16 + n))
        else x.rowBuffer
      ∃ t y, step s = .next t ∧ t.execution = some y ∧ y.rowBuffer = buffer ∧
        s.drawsWord t x i k c row fun _ px => pixel (buffer.getD ((px - dx + sx % 16) / 16) 0) ((px - dx + sx % 16) % 16)

/-- COMMAND_END of a SUM BAND posts SUM with the sum of the band's words modulo 65536 and writes nothing; of a LOAD TILE, the tile holds the sixteen payload words
and is loaded, and every other tile word and flag is as before (log 8). As the clock goes, the step that ends a word's time adds that word to the running sum, or
writes that row of the tile (log 10; R79, R98, R102). -/
def Obligations.SumBandAndLoadTileAtTheirEnd : Prop :=
  (∀ (s : State) (x : ExecRecord) (i : Nat) (k : BandRecord), s.execution = some x → x.op = .sumBand → x.slot = some i →
    s.slot i = .held .opened k → x.clip = none → x.rows = k.lines → x.rowWords = k.width → 0 < k.lines → 0 < k.width → x.row = 0 →
    x.rowWord = 0 → x.finished = false → x.stopRequested = false → x.silent = false → x.runningSum = some 0 → s.addressesExist = true →
      ∃ t, exec .commandEnd s = .next t ∧ t.bandRam = s.bandRam ∧ t.tileRam = s.tileRam ∧
        (t.port x.port).events = enqueueEvent (s.port x.port).events
          { kind := .sum, pageTag := none, band := none, commandTag := some x.commandTag,
            detail := (List.range (k.lines * k.width)).foldl (fun sum w => sum + s.readBand (slotAddress i w)) 0 }) ∧
  (∀ (s : State) (x : ExecRecord) (n : Nat), s.execution = some x → x.op = .loadTile n → x.slot = none → x.rows = 16 → x.rowWords = 1 →
    x.row = 0 → x.rowWord = 0 → x.finished = false → x.stopRequested = false → n < 8 → s.tileLoaded.length = 8 → s.addressesExist = true →
      ∃ t, exec .commandEnd s = .next t ∧ (∀ r, r < 16 → t.tileRow n r = s.stagingWord x.port (x.stagingPosition + r)) ∧
        (∀ m r, m ≠ n → r < 16 → t.tileRow m r = s.tileRow m r) ∧ t.tileLoaded = s.tileLoaded.set n true ∧ t.bandRam = s.bandRam ∧
        t.execution = none ∧ t.slots = s.slots ∧ t.pages = s.pages) ∧
  (∀ (s : State) (x : ExecRecord) (i : Nat) (k : BandRecord), s.wordEnds x → x.op = .sumBand → x.slot = some i →
    s.slot i = .held .opened k → x.clip = none → x.stopRequested = false →
      ∃ t y, step s = .next t ∧ t.execution = some y ∧
        y.runningSum = x.runningSum.map (fun sum => sum + s.readBand (slotAddress i (x.row * k.width + x.rowWord))) ∧
        (∀ a, t.readBand a = s.readAfterClear a) ∧ t.tileRam = s.tileRam) ∧
  ∀ (s : State) (x : ExecRecord) (n : Nat), s.wordEnds x → x.op = .loadTile n →
    ∃ t, step s = .next t ∧ t.tileRow n x.row = s.stagingWord x.port (x.stagingPosition + x.row) ∧
      (∀ m r, r < 16 → m ≠ n ∨ r ≠ x.row → t.tileRow m r = s.tileRow m r) ∧ t.tileLoaded = s.tileLoaded ∧
      ∀ a, t.readBand a = s.readAfterClear a

/-- COMMAND_END of a stopped command writes nothing more (R104; sent before the row's end, the rest of the row's time is taken as passed, log 8), nor does the
clock as its row's time runs out (log 10). The claim itself
(R89, R90): the mark and the execution record go; the entry leaves with its payload; the issuing port alone gets the first that applies of nothing for a silent
command, CMD ERROR PAGE ABORTED, SUM, CMD WARN CLIPPED, CMD DONE, nothing; a FREE slot brings an evaluation of allocation; a pending force makes the slot READY
forced, and a close by all makes it READY; where a starving engine awaits the band it is then STREAMING and its line sent (R160, R163); and a PENDING head page
whose lead bands are then READY goes OFFERED (R33, R62, R63). -/
def Obligations.CommandEndClaim : Prop :=
  (∀ (s : State) (x : ExecRecord), s.execution = some x → x.stopRequested = true → (∀ n, x.op ≠ .loadTile n) → s.addressesExist = true →
    ∃ t, exec .commandEnd s = .next t ∧ t.bandRam = s.bandRam ∧ t.tileRam = s.tileRam ∧ t.execution = none ∧ t.inFlight = none) ∧
  (∀ (s : State) (x : ExecRecord), s.wordEnds x → x.stopRequested = true → (∀ n, x.op ≠ .loadTile n) →
    ∃ t y, step s = .next t ∧ t.execution = some y ∧ y.runningSum = x.runningSum ∧ y.rowBuffer = x.rowBuffer ∧ t.tileRam = s.tileRam ∧
      ∀ a, t.readBand a = s.readAfterClear a) ∧
  ∀ (s : State) (x : ExecRecord), s.execution = some x → x.finished = true → s.addressesExist = true →
    ∃ t, exec .commandEnd s = .next t ∧ t.execution = none ∧ t.inFlight = none ∧ t.bandRam = s.bandRam ∧ t.tileRam = s.tileRam ∧
      t.pointer = s.pointer ∧
      (t.port x.port).queue = (if x.silent then (s.port x.port).queue else (s.port x.port).queue.tail) ∧
      (t.port x.port).events =
        (if x.silent = true then (s.port x.port).events
        else if x.stopRequested = true then enqueueEvent (s.port x.port).events (Event.ofCommand .cmdError x.commandTag 6)
        else if x.runningSum.isSome = true then
          enqueueEvent (s.port x.port).events (Event.ofCommand .sum x.commandTag (x.runningSum.getD 0))
        else if x.clip.map Clip.clipped = some true then enqueueEvent (s.port x.port).events (Event.ofCommand .cmdWarn x.commandTag 1)
        else if x.notify = true then enqueueEvent (s.port x.port).events (Event.ofCommand .cmdDone x.commandTag 0)
        else (s.port x.port).events) ∧
      t.port x.port.other = s.port x.port.other ∧
      ∀ i, x.slot = some i →
        (s.slot i = .free → t.slots = ({ s with inFlight := none } : State).evaluateAllocation.slots) ∧
        ∀ k, s.slot i = .held .opened k →
          (k.forcePending = false → s.closedByAll i = false → t.slots = s.slots ∧ t.pages = s.pages ∧ t.streamer = s.streamer) ∧
          ∀ q, s.findPage k.page = some q → k.forcePending = true ∨ s.closedByAll i = true →
            let k' : BandRecord := { k with forced := k.forced || k.forcePending, forcePending := false }
            let u : State := { s with slots := s.slots.set i (.held .ready k') }
            ((∀ n y, s.streamer ≠ .starved k.page k.band n y) → t.slots = u.slots ∧
              (∀ rest, s.pages = q :: rest → q.state = .pending → u.leadReady q →
                t.pages = { q with state := .offered } :: rest ∧ t.streamer = .offered q.ref ∧ t.prdy = true) ∧
              (s.isHead q.ref = false ∨ q.state ≠ .pending ∨ ¬ u.leadReady q → t.pages = s.pages ∧ t.streamer = s.streamer)) ∧
            ∀ n y, s.streamer = .starved k.page k.band n y → q.state = .printing → s.slotOfBand k.page k.band = some i →
              t.slots = s.slots.set i (.held .streaming k') ∧ t.pages = s.pages ∧
              t.streamer = .sending k.page { source := .slot i, word := 0, bits := 0, wordDone := false, early := false }

/-- CLEAR_COMPLETION of the clear under way: what remains of the slot takes the fill value and no other word changes; the slot is OPEN; BAND AVAILABLE goes to the
participants; WAITING heads that name the page are checked again; the slot leaves the clear order. A completion that names a slot which is FREE, or holds another page
or band, or is in another state is discarded (R5, R10, R11, R12, R13, R68, R125), and so is one whose clear is not under way (log 3). A release that frees the slot
being cleared while a completion waits that names nothing yet makes it name that slot, page and band (R13; log 33). -/
def Obligations.ClearOpensTheSlot : Prop :=
  (∀ s : State, s.addressesExist = true →
    (∀ c rest, s.clearClaims = c :: rest →
      (∀ k, s.slot c.slot = .held .clearing k → k.page ≠ c.page ∨ k.band ≠ c.band) ∨ s.clearOrder.head? ≠ some c.slot →
        exec .clearCompletion s = .next { s with clearClaims := rest }) ∧
    (s.clearClaims = [] → s.clearOrder = [] → exec .clearCompletion s = .next s)) ∧
  (∀ (s : State) (r : PageRef) (keep : Option Nat) (i : Nat) (rest : List Nat) (k : BandRecord), s.clearOrder = i :: rest →
    s.slot i = .held .clearing k → k.page = r → keep ≠ some i →
      (s.releaseSlots r keep).slot i = .free ∧
      (s.clearClaims.length < s.pending.count .clearCompletion →
        s.clearClaims ++ [{ slot := i, page := k.page, band := k.band }] <+: (s.releaseSlots r keep).clearClaims) ∧
      s.clearClaims <+: (s.releaseSlots r keep).clearClaims) ∧
  ∀ (s : State) (i : Nat) (rest : List Nat) (k : BandRecord) (q : PageRecord), s.clearOrder = i :: rest → s.slot i = .held .clearing k →
    s.clearClaims = [] ∨ s.clearClaims.head? = some { slot := i, page := k.page, band := k.band } →
    s.findPage k.page = some q → s.addressesExist = true → s.clearPos ≤ k.lines * k.width →
      ∃ t, exec .clearCompletion s = .next t ∧ t.slots = s.slots.set i (.held .opened k) ∧ t.clearOrder = rest ∧ t.clearPos = 0 ∧
        t.clearClaims = s.clearClaims.tail ∧
        (∀ a, t.readBand a =
          if slotAddress i s.clearPos ≤ a ∧ a < slotAddress i (k.lines * k.width) then (if k.background then 0xFFFF else 0)
          else s.readBand a) ∧
        (∀ z, (t.port z).events = if q.participants.has z = true then
            enqueueEvent (s.port z).events { kind := .bandAvailable, pageTag := some k.page.tag, band := some k.band, commandTag := none,
                                             detail := 0 }
          else (s.port z).events) ∧
        (∀ z, (t.port z).queue = s.queueAfterRecheck t k.page z) ∧
        t.pages = s.pages ∧ t.tileRam = s.tileRam ∧ t.execution = s.execution ∧ t.inFlight = s.inFlight ∧ t.streamer = s.streamer

/-! ## The engine -/

/-- TOP, LREQ and LACK are events only when they change from low to high; held high or falling they change nothing but the level (R134). -/
def Obligations.OnlyRisingInputsAreEvents : Prop :=
  ∀ (s : State) (l : Bool),
    (l = false ∨ s.pins.top = true → exec (.top l) s = .next (s.withTop l)) ∧
    (l = false ∨ s.pins.lreq = true → exec (.lreq l) s = .next (s.withLreq l)) ∧
    (l = false ∨ s.pins.lack = true → exec (.lack l) s = .next (s.withLack l))

/-- TOP while OFFERED starts the page: PRINTING with its counters at 0, the Streamer BETWEEN LINES, and PAGE STARTED to the participants for the first copy
(R35, R141). -/
def Obligations.TopStartsTheOfferedPage : Prop :=
  ∀ (s : State) (r : PageRef) (q : PageRecord), s.pins.top = false → s.resetHeld = false → s.streamer = .offered r → s.findPage r = some q →
    ∃ t, exec (.top true) s = .next t ∧ t.streamer = .betweenLines r ∧ t.prdy = false ∧
      t.pages = (s.pages.map fun p => if p.ref = r then { p with state := .printing, linesServed := 0, nextToStream := 0 } else p) ∧
      (∀ z, (t.port z).events = if q.copiesRemaining = q.copies ∧ q.participants.has z = true then
          enqueueEvent (s.port z).events { kind := .pageStarted, pageTag := some q.ref.tag, band := none, commandTag := none, detail := 0 }
        else (s.port z).events) ∧
      t.slots = s.slots ∧ t.bandRam = s.bandRam ∧ t.execution = s.execution ∧ ∀ z, (t.port z).queue = (s.port z).queue

/-- A TOP in any state but OFFERED posts ENGINE FAULT UNEXPECTED TOP to both ports, and an LACK with no line outstanding UNEXPECTED LACK, and neither changes
anything else (R142, R152). -/
def Obligations.UnexpectedTopOrLack : Prop :=
  (∀ s : State, s.pins.top = false → s.resetHeld = false → (∀ r, s.streamer ≠ .offered r) →
    ∃ t, exec (.top true) s = .next t ∧ t = { (s.withTop true) with ports := t.ports } ∧
      ∀ z, t.port z = { s.port z with events := enqueueEvent (s.port z).events (Event.engineFault 1) }) ∧
  ∀ s : State, s.pins.lack = false → s.resetHeld = false →
    (s.streamer = .idle ∨ (∃ r, s.streamer = .offered r) ∨ (∃ r, s.streamer = .betweenLines r) ∨ ∃ r b n x, s.streamer = .starved r b n x) →
    ∃ t, exec (.lack true) s = .next t ∧ t = { (s.withLack true) with ports := t.ports } ∧
      ∀ z, t.port z = { s.port z with events := enqueueEvent (s.port z).events (Event.engineFault 3) }

/-- An LREQ that asks for a line gets one: a background line of a BLANKING page; the first line of a READY band, whose slot goes STREAMING; a later line of
the STREAMING band (R16, R143, R146, R157, R166). The words sent (lineOut) start anew (log 15); a
removed page's word that is still leaving stays, and this line's bits wait for it (log 13). -/
def Obligations.LreqSendsALine : Prop :=
  ∀ (s : State) (r : PageRef) (q : PageRecord), s.pins.lreq = false → s.resetHeld = false → s.streamer = .betweenLines r →
    s.findPage r = some q → q.ref = r →
      let sends := fun (u : State) (source : LineSource) => exec (.lreq true) s = .next
        { u with streamer := .sending r { source := source, word := 0, bits := 0, wordDone := false, early := false }, lineOut := [] }
      (q.state = .blanking → sends (s.withLreq true) .background) ∧
      (q.state ≠ .blanking → ∀ i k, s.slotOfBand r q.nextToStream = some i →
        (q.linesServed - q.nextToStream * q.bandHeight = 0 → s.slot i = .held .ready k →
          sends { (s.withLreq true) with slots := s.slots.set i (.held .streaming k) } (.slot i)) ∧
        (q.linesServed - q.nextToStream * q.bandHeight ≠ 0 → s.slot i = .held .streaming k → sends (s.withLreq true) (.slot i)))

/-- An LREQ for the first line of a band that is not ready: on a NOSTALL engine an underrun spoils the page, WAITING heads that name it leave with CMD ERROR PAGE
ABORTED, its executing command has stop requested, and a background line is sent; on a STALL engine the Streamer waits and the timer starts from 0 (R43, R104,
R125, R144, R158, R159). -/
def Obligations.LreqForAnUnreadyBand : Prop :=
  ∀ (s : State) (r : PageRef) (q : PageRecord), s.pins.lreq = false → s.resetHeld = false → s.streamer = .betweenLines r →
    (s.pages.map fun p => p.ref.tag).Nodup → s.findPage r = some q → q.state = .printing →
    q.linesServed = q.nextToStream * q.bandHeight →
    (∀ i k, s.slotOfBand r q.nextToStream = some i → s.slot i ≠ .held .ready k) →
      (s.engine.kind = .stall →
        exec (.lreq true) s = .next { (s.withLreq true) with streamer := .starved r q.nextToStream 0 false }) ∧
      (s.engine.kind = .nostall → ∃ t, exec (.lreq true) s = .next t ∧
        t.streamer = .sending r { source := .background, word := 0, bits := 0, wordDone := false, early := false } ∧
        t.findPage r = some { q with state := .blanking, spoilCause := some .underrun, copiesRemaining := 1 } ∧
        (∀ x ∈ t.slots, x.ofPage r = false) ∧ (∀ z, (t.port z).queue = s.queueAfterAbort r z) ∧ t.execution = s.stoppedFor r ∧
        ∀ z, (t.port z).events = s.eventsAfterAbort r z (if q.participants.has z = true then
            enqueueEvent (s.port z).events { kind := .pageSpoiled, pageTag := some r.tag, band := none, commandTag := none, detail := 1 }
          else (s.port z).events))

/-- An LREQ out of place: with no page served it is UNEXPECTED LREQ; while STARVED it is the same request; with a line in flight it spoils a PRINTING page with
SLIP, the slot of that line staying, WAITING heads that name the page leaving with CMD ERROR PAGE ABORTED and its executing command having stop requested, and
is SLIP WHILE BLANKING on a BLANKING page; the line goes on (R20, R43, R104, R125, R145, R167). -/
def Obligations.LreqOutOfPlace : Prop :=
  ∀ s : State, s.pins.lreq = false → s.resetHeld = false →
    let faults := fun d : Nat => ∃ t, exec (.lreq true) s = .next t ∧ t = { (s.withLreq true) with ports := t.ports } ∧
      ∀ z, t.port z = { s.port z with events := enqueueEvent (s.port z).events (Event.engineFault d) }
    (s.streamer = .idle → faults 2) ∧ (∀ r, s.streamer = .offered r → faults 2) ∧
    (∀ r b n x, s.streamer = .starved r b n x → exec (.lreq true) s = .next (s.withLreq true)) ∧
    ∀ r q, (∃ line, s.streamer = .sending r line) ∨ (∃ src k, s.streamer = .held r src k) ∨ (∃ src n, s.streamer = .ackWait r src n) →
      s.findPage r = some q →
        (q.state = .blanking → faults 4) ∧
        (q.state = .printing → (s.pages.map fun p => p.ref.tag).Nodup → ∃ t, exec (.lreq true) s = .next t ∧
          t.streamer = s.streamer ∧ t.findPage r = some { q with state := .blanking, spoilCause := some .slip, copiesRemaining := 1 } ∧
          (∀ i, (t.slot i).ofPage r = true → s.lineSlot = some i) ∧
          (∀ i, s.lineSlot = some i → (s.slot i).ofPage r = true → t.slot i = s.slot i) ∧
          (∀ z, (t.port z).queue = s.queueAfterAbort r z) ∧ t.execution = s.stoppedFor r ∧
          ∀ z, (t.port z).events = s.eventsAfterAbort r z (if q.participants.has z = true then
              enqueueEvent (s.port z).events { kind := .pageSpoiled, pageTag := some r.tag, band := none, commandTag := none, detail := 3 }
            else (s.port z).events))

/-- HELD and HOLD_LOW: the end of a word that is not the line's last, with HOLD high, pauses the line before the next word; HOLD going low sends that word; HOLD changes
nothing in the other states. LAST_BIT_SENT: the line's words have left, VDAT keeps the last bit, and the Streamer is ACK WAIT with its window count 0 (R146, R147).
Words not yet sent when the command comes count as sent with it, a removed page's word before them (log 8, 13, 15, 27). Word k of a line from a slot is the slot's
word (band line) x width + k, the band line counting from next to stream's first line; a background line's words are all 0 or all 1 (R143, R146, R166). -/
def Obligations.WordsLeaveUntilHoldOrTheLastBit : Prop :=
  (∀ (s : State) (r : PageRef) (q : PageRecord) (k : Nat), s.findPage r = some q → s.lineWidth r = q.width ∧
    s.lineWord r .background k = (if q.background then 0xFFFF else 0) ∧
    ∀ i, s.lineWord r (.slot i) k = s.readBand (i * 32768 + ((q.linesServed - q.nextToStream * q.bandHeight) * q.width + k))) ∧
  (∀ s : State,
    exec (.held .rises) s = .next { s with pins := { s.pins with hold := true } } ∧
    (∀ r line k, s.streamer = .sending r line → s.pins.hold = true → line.early = false → line.word ≤ k → k + 1 < s.lineWidth r →
      exec (.held (.wordEnd k)) s = .next
        { s with streamer := .held r line.source (k + 1), tail := none,
                 lineOut := s.lineOut ++ (List.range (k + 1 - line.word)).map (fun j => s.lineWord r line.source (line.word + j)),
                 vdat := (s.lineWord r line.source k).getLsbD 0 }) ∧
    (∀ r source k, s.streamer = .held r source k → exec .holdLow s = .next
      { s with pins := { s.pins with hold := false },
               streamer := .sending r { source := source, word := k, bits := 0, wordDone := false, early := false } }) ∧
    ((∀ r source k, s.streamer ≠ .held r source k) → exec .holdLow s = .next { s with pins := { s.pins with hold := false } })) ∧
  ∀ (s : State) (r : PageRef) (line : LineInFlight), s.streamer = .sending r line → line.early = false → line.word < s.lineWidth r →
    exec .lastBitSent s = .next
      { s with streamer := .ackWait r line.source 0, tail := none,
               lineOut := s.lineOut ++
                 (List.range (s.lineWidth r - line.word)).map (fun j => s.lineWord r line.source (line.word + j)),
               vdat := (s.lineWord r line.source (s.lineWidth r - 1)).getLsbD 0 }

/-- LACK in ACK WAIT ends the line in time; ACKNOWLEDGE_WINDOW_EXPIRY spoils a PRINTING page with SLIP, or is SLIP WHILE BLANKING, and then ends the line; LACK
while HELD does the same at once; LACK while SENDING is a slip and marks the line to end after its word, which EARLY_LACK_WORD_END does (R148, R149, R150,
R167). An expiry or a word's end sent before its time takes that time as passed (log 8); a second early LACK is a slip again (log 14). -/
def Obligations.LinesEndByLackOrWindow : Prop :=
  ∀ (s : State) (r : PageRef) (source : LineSource), s.resetHeld = false →
    (∀ n, s.streamer = .ackWait r source n → s.pins.lack = false →
      exec (.lack true) s = .next ((s.withLack true).endLine r source)) ∧
    (∀ n, s.streamer = .ackWait r source n → exec .acknowledgeWindowExpiry s = .next ((s.spoil r .slip).endLine r source)) ∧
    (∀ k, s.streamer = .held r source k → s.pins.lack = false →
      exec (.lack true) s = .next (((s.withLack true).spoil r .slip).endLine r source)) ∧
    ∀ line, s.streamer = .sending r line → s.pins.lack = false →
      (∃ t, exec (.lack true) s = .next t ∧ t.streamer = .sending r { line with early := true } ∧
        t = { ((s.withLack true).spoil r .slip) with streamer := t.streamer }) ∧
      (line.early = true → exec .earlyLackWordEnd s = .next (({ s with
        lineOut := s.lineOut ++ [s.lineWord r line.source line.word], tail := none,
        vdat := (s.lineWord r line.source line.word).getLsbD 0 } : State).endLine r line.source))

/-- The end of a line (R151, R17, R18, R20, R37, R38, R153, R168): lines served counts one; the last line of a band frees its slot, or returns it to READY while a
resident page has copies left, also at the end of a copy; any line of a BLANKING page frees its slot, also its last; the last line of the copy offers the page again or completes it with PAGE DONE, and of a
BLANKING page removes it; a removal evaluates the next head and checks WAITING heads again, and PRDY is high for the page then offered (R34, R125, R139). -/
def Obligations.EndOfALine : Prop :=
  ∀ (s : State) (r : PageRef) (source : LineSource) (q : PageRecord), (s.pages.map fun p => p.ref.tag).Nodup → s.findPage r = some q →
    (q.linesServed + 1 ≠ q.pageLines →
      (s.endLine r source).streamer = .betweenLines r ∧
      (∃ q', (s.endLine r source).findPage r = some q' ∧ q'.linesServed = q.linesServed + 1 ∧ q'.state = q.state ∧
        (q.state = .blanking → q'.nextToStream = q.nextToStream))) ∧
    (source = .background → (s.endLine r source).slots = s.slots) ∧
    (∀ i k, source = .slot i → s.slot i = .held .streaming k → k.page = r →
      (q.state ≠ .blanking → q.bandLine + 1 ≠ k.lines → (s.endLine r source).slots = s.slots) ∧
      (q.state ≠ .blanking → q.bandLine + 1 = k.lines → q.resident = true → q.copiesRemaining ≠ 1 →
        (s.endLine r source).slots = s.slots.set i (.held .ready k)) ∧
      (q.state = .blanking ∨ q.bandLine + 1 = k.lines ∧ (q.resident = false ∨ q.copiesRemaining = 1) →
        ∃ u : State, u.slots = s.slots.set i .free ∧ u.inFlight = s.inFlight ∧ u.clearOrder = s.clearOrder ∧
          u.pages = (s.pages.map fun p => if p.ref = r then
            { p with linesServed := p.linesServed + 1,
                     nextToStream := if q.state = .blanking then p.nextToStream else p.nextToStream + 1 } else p) ∧
          (s.endLine r source).slots = u.evaluateAllocation.slots)) ∧
    (q.linesServed + 1 = q.pageLines →
      (∀ r', (s.endLine r source).streamer = .offered r' → (s.endLine r source).prdy = true) ∧
      (q.state = .blanking → (s.endLine r source).findPage r = none ∧ ∀ z, ((s.endLine r source).port z).events = (s.port z).events) ∧
      (q.state = .printing → 2 ≤ q.copiesRemaining →
        (s.endLine r source).streamer = .offered r ∧
        ∃ q', (s.endLine r source).findPage r = some q' ∧ q'.state = .offered ∧ q'.copiesRemaining + 1 = q.copiesRemaining ∧
          q'.linesServed = 0 ∧ q'.nextToStream = 0) ∧
      (q.state = .printing → q.copiesRemaining < 2 →
        (s.endLine r source).findPage r = none ∧
        ∀ z, ((s.endLine r source).port z).events = if q.participants.has z = true then
            enqueueEvent (s.port z).events { kind := .pageDone, pageTag := some r.tag, band := none, commandTag := none, detail := 0 }
          else (s.port z).events) ∧
      (q.state = .blanking ∨ q.state = .printing ∧ q.copiesRemaining < 2 →
        (∀ rest, s.pages = q :: rest → pendingBehind r rest → s.nextHeadEvaluated (s.endLine r source) rest) ∧
        ∀ z, ((s.endLine r source).port z).queue = s.queueAfterRecheck (s.endLine r source) r z))

/-- STARVATION_TIMER_EXPIRY (R61, R62, R162): an OPEN band is forced READY and its line sent, or, with a command executing on it, the force is left pending; BAND
FORCED goes to the participants that had not closed it; with the band CLEARING or without a slot the page is spoiled with STARVED, WAITING heads that name it leave
with CMD ERROR PAGE ABORTED, its executing command has stop requested, and a background line is sent (R43, R104, R125, R164). An expiry sent before the limit takes
the time as passed (log 8). -/
def Obligations.StarvationExpiryCases : Prop :=
  ∀ (s : State) (r : PageRef) (b n : Nat) (q : PageRecord), s.streamer = .starved r b n false → (s.pages.map fun p => p.ref.tag).Nodup →
    s.findPage r = some q → q.state = .printing →
      (∀ i k, s.slotOfBand r b = some i → s.slot i = .held .opened k → k.forcePending = false → ∃ t, exec .starvationTimerExpiry s = .next t ∧
        (∀ z, (t.port z).events = if q.participants.has z = true ∧ k.closedBy.has z = false then
            enqueueEvent (s.port z).events { kind := .bandForced, pageTag := some r.tag, band := some b, commandTag := none, detail := 0 }
          else (s.port z).events) ∧ (∀ z, (t.port z).queue = (s.port z).queue) ∧ t.execution = s.execution ∧ t.pages = s.pages ∧
        (s.inFlight = some i → t.slots = s.slots.set i (.held .opened { k with forcePending := true }) ∧
          t.streamer = .starved r b s.starvationPeriods true) ∧
        (s.inFlight ≠ some i → t.slots = s.slots.set i (.held .streaming { k with forced := true, forcePending := false }) ∧
          t.streamer = .sending r { source := .slot i, word := 0, bits := 0, wordDone := false, early := false })) ∧
      (s.slotOfBand r b = none ∨ (∃ i k, s.slotOfBand r b = some i ∧ s.slot i = .held .clearing k) →
        ∃ t, exec .starvationTimerExpiry s = .next t ∧
        t.streamer = .sending r { source := .background, word := 0, bits := 0, wordDone := false, early := false } ∧
        t.findPage r = some { q with state := .blanking, spoilCause := some .starved, copiesRemaining := 1 } ∧
        (∀ x ∈ t.slots, x.ofPage r = false) ∧ (∀ z, (t.port z).queue = s.queueAfterAbort r z) ∧ t.execution = s.stoppedFor r ∧
        ∀ z, (t.port z).events = s.eventsAfterAbort r z (if q.participants.has z = true then
            enqueueEvent (s.port z).events { kind := .pageSpoiled, pageTag := some r.tag, band := none, commandTag := none, detail := 2 }
          else (s.port z).events))

/-- PRDY (R139): it is high exactly while the Streamer is OFFERED, but for the period after a withdrawal and a new offer in one claim; PRDY_REASSERT ends that
period, at whatever count of it the command comes (log 8), and changes nothing else. LSTB is high exactly in the period of a line's first bit, and VCLK runs
exactly while a bit of a line is being sent; while a removed page's word is leaving both are that word's (R135, R146, R147, R169; log 13). -/
def Obligations.PrdyFollowsTheOffer : Prop :=
  ∀ s : State,
    (s.prdy = true ↔ (∃ r, s.streamer = .offered r) ∧ s.prdyLow = none) ∧
    (∃ t, exec .prdyReassert s = .next t ∧ t = { s with prdyLow := none } ∧ (t.prdy = true ↔ ∃ r, s.streamer = .offered r)) ∧
    (s.lstb = true ↔ (∃ w, s.tail = some w ∧ w.first = true ∧ w.bits = 1 ∧ w.done = false) ∨
      s.tail = none ∧ ∃ r line, s.streamer = .sending r line ∧ line.word = 0 ∧ line.bits = 1 ∧ line.wordDone = false) ∧
    (s.vclkRunning = true ↔ (∃ w, s.tail = some w ∧ 1 ≤ w.bits ∧ w.done = false) ∨
      s.tail = none ∧ ∃ r line, s.streamer = .sending r line ∧ 1 ≤ line.bits ∧ line.wordDone = false)

/-- A second abort while a line is being sent, or a PORT RESET that leaves the BLANKING page without a participant then, keeps the word in flight, to be sent to its last bit with LSTB over the line's first bit, and the Streamer serves the
page no more; a word that is already leaving so stays the one in flight (log 13). WORD_IN_FLIGHT_SENT: that word has left, VDAT keeps its last bit, and nothing
else changes (R48, R135, R169); sent before the word's end it takes the rest of it as sent (log 8), and lineOut is the model's record (log 15). -/
def Obligations.CutLineEndsWithItsWord : Prop :=
  (∀ (s : State) (w : TailWord), s.tail = some w → ∃ t, exec .wordInFlightSent s = .next t ∧
    t = { s with tail := none, lineOut := t.lineOut, vdat := w.word.getLsbD 0 } ∧
    ((∀ r line, s.streamer ≠ .sending r line) → t.lineOut = s.lineOut ++ [w.word])) ∧
  (∀ (p : Port) (tag : Byte) (s : State) (q : PageRecord) (line : LineInFlight), s.canOpen p = true → s.pageOfTag tag = some q →
    q.participants.isEmpty = true ∨ q.participants.has p = true → q.state = .blanking → s.isHead q.ref = true →
    s.streamer = .sending q.ref line →
      ∃ t, exec (.abortPage p (.selectHigh [tag] 0)) s = .next t ∧
        (s.tail = none → t.tail = some { word := s.lineWord q.ref line.source line.word, first := decide (line.word = 0), bits := line.bits,
                                         done := line.wordDone }) ∧
        (∀ w, s.tail = some w → t.tail = some w) ∧ t.lstb = s.lstb ∧ t.vclkRunning = s.vclkRunning ∧ t.vdat = s.vdat ∧
        (t.streamer = .idle ∨ ∃ r, t.streamer = .offered r ∧ r ≠ q.ref) ∧ t.lineOut = s.lineOut) ∧
  ∀ (p : Port) (s : State) (q : PageRecord) (line : LineInFlight), s.canOpen p = true → s.headLawful → q ∈ s.pages → q.emptiedBy p = true →
    q.state = .blanking → s.streamer = .sending q.ref line →
      ∃ t, exec (.portReset p (.selectHigh [] 0)) s = .next t ∧
        (s.tail = none → t.tail = some { word := s.lineWord q.ref line.source line.word, first := decide (line.word = 0), bits := line.bits,
                                         done := line.wordDone }) ∧
        (∀ w, s.tail = some w → t.tail = some w) ∧ t.lstb = s.lstb ∧ t.vclkRunning = s.vclkRunning ∧ t.vdat = s.vdat ∧
        (t.streamer = .idle ∨ ∃ r, t.streamer = .offered r ∧ r ≠ q.ref) ∧ t.lineOut = s.lineOut

/-! ## Events and interrupts -/

/-- One posting (R175): dropped while an OVERFLOW record stands; appended with up to 14 records; with 15 records dropped, and OVERFLOW with its kind's code
appended; and a posting leaves at most 16 records, OVERFLOW only as the newest. -/
def Obligations.PostingRule : Prop :=
  ∀ (q : List Event) (e : Event),
    ((∃ o ∈ q, o.kind = .overflow) → enqueueEvent q e = q) ∧
    ((∀ o ∈ q, o.kind ≠ .overflow) → q.length ≤ 14 → enqueueEvent q e = q ++ [e]) ∧
    ((∀ o ∈ q, o.kind ≠ .overflow) → q.length = 15 →
      enqueueEvent q e = q ++
        [{ kind := .overflow, pageTag := none, band := none, commandTag := none, detail := BitVec.ofNat 16 e.kind.code }]) ∧
    (eventLaw q → eventLaw (enqueueEvent q e))

/-! ## The part's own time -/

/-- A step with no command waiting (log 6): while reset is held it changes nothing; an event that is due goes to the queue, a
clear's completion naming the clear under way (R5; log 33); else one period of the internal clock
passes, in which pages, queues, events and slots stay. The Clear Unit writes one word (R11); the executing command's word takes the periods of R88 and its place
then advances (R85, R89; log 10, 29), the word itself being drawn, summed or loaded as O33 to O36 say; a running starvation timer counts one (R159), and so does PRDY's low period (R139). At the end of a video clock period a bit of
the line, or of a removed page's word, begins on VDAT with the most significant bit of a word first, or the window count advances (R135, R146, R147, R149, R169;
log 9, 13, 19). -/
def Obligations.OneClockPeriod : Prop :=
  (∀ s : State, s.pending = [] →
    (s.resetHeld = true → step s = .next s) ∧
    (s.resetHeld = false → s.dueEvents ≠ [] →
      ∃ c ∈ s.dueEvents, ∃ t, step s = .next t ∧
        t = { s with pending := [c], clearClaims := t.clearClaims, freeCount := t.freeCount } ∧
        (c ≠ .clearCompletion ∨ s.clearClaims ≠ [] → t.clearClaims = s.clearClaims) ∧
        (c = .clearCompletion → s.clearClaims = [] → t.clearClaims.map some = [s.clearUnderWay])) ∧
    (s.resetHeld = false → s.dueEvents = [] → s.addressesExist = true → ∃ t, step s = .next t ∧ t.pages = s.pages ∧ t.slots = s.slots ∧
      t.ports = s.ports ∧ t.pending = [] ∧ t.clearOrder = s.clearOrder ∧ t.inFlight = s.inFlight ∧ t.engine = s.engine ∧
      (∀ i rest k, s.clearOrder = i :: rest → s.slot i = .held .clearing k →
        t.clearPos = s.clearPos + 1 ∧
        (s.execution = none → t.bandRam = ramWrite s.bandRam (slotAddress i s.clearPos) (if k.background then 0xFFFF else 0))) ∧
      (∀ x, s.execution = some x → ∃ y, t.execution = some y ∧ y.stopRequested = x.stopRequested ∧ y.op = x.op ∧
        (x.period + 1 < x.op.wordPeriods → y = { x with period := x.period + 1 } ∧ (s.clearOrder = [] → t.bandRam = s.bandRam) ∧
          t.tileRam = s.tileRam) ∧
        (x.op.wordPeriods ≤ x.period + 1 →
          y = { x with row := y.row, rowWord := y.rowWord, period := 0, finished := y.finished, runningSum := y.runningSum,
                       rowBuffer := y.rowBuffer } ∧
          t.bandRam = s.clearTick.rasterWord.bandRam ∧ t.tileRam = s.rasterWord.tileRam ∧ t.execution = s.clearTick.rasterWord.execution ∧
          (x.rowWord + 1 < x.rowWords → y.row = x.row ∧ y.rowWord = x.rowWord + 1 ∧ y.finished = false) ∧
          (x.rowWords ≤ x.rowWord + 1 → x.row + 1 < x.rows → x.stopRequested = false →
            y.row = x.row + 1 ∧ y.rowWord = 0 ∧ y.finished = false) ∧
          (x.rowWords ≤ x.rowWord + 1 → x.rows ≤ x.row + 1 ∨ x.stopRequested = true → y.finished = true))) ∧
      (s.execution = none → t.execution = none) ∧
      (∀ r b n, s.streamer = .starved r b n false → t.streamer = .starved r b (n + 1) false) ∧
      t.prdyLow = s.prdyLow.map (· + 1) ∧
      (s.videoPhase + 1 < s.engine.videoDivisor → t.videoPhase = s.videoPhase + 1 ∧ t.tail = s.tail ∧
        (∀ r line, s.streamer = .sending r line → line.wordDone = false → t.streamer = s.streamer ∧ t.vdat = s.vdat) ∧
        ∀ r source n, s.streamer = .ackWait r source n → t.streamer = s.streamer) ∧
      (s.engine.videoDivisor ≤ s.videoPhase + 1 → t.videoPhase = 0 ∧
        (∀ r line, s.streamer = .sending r line → line.wordDone = false → s.tail = none →
          (line.bits < 16 → t.streamer = .sending r { line with bits := line.bits + 1 } ∧
            t.vdat = (t.lineWord r line.source line.word).getMsbD line.bits) ∧
          (16 ≤ line.bits → line.early = true ∨ s.lineWidth r ≤ line.word + 1 ∨ s.pins.hold = true →
            t.streamer = .sending r { line with wordDone := true } ∧ t.vdat = s.vdat) ∧
          (16 ≤ line.bits → line.early = false → line.word + 1 < s.lineWidth r → s.pins.hold = false →
            t.streamer = .sending r { line with word := line.word + 1, bits := 1 } ∧
            t.vdat = (t.lineWord r line.source (line.word + 1)).getMsbD 0 ∧
            t.lineOut = s.lineOut ++ [t.lineWord r line.source line.word])) ∧
        (∀ w, s.tail = some w → w.done = false →
          (∀ r line, s.streamer = .sending r line → line.wordDone = false → t.streamer = s.streamer) ∧
          (w.bits < 16 → t.tail = some { w with bits := w.bits + 1 } ∧ t.vdat = w.word.getMsbD w.bits) ∧
          (16 ≤ w.bits → t.tail = some { w with done := true })) ∧
        ∀ r source n, s.streamer = .ackWait r source n → t.streamer = .ackWait r source (n + 1)))) ∧
  (∀ x y w h fn source, (Operation.fill x y w h fn source).wordPeriods = 2) ∧ (∀ x y w h fn, (Operation.putBits x y w h fn).wordPeriods = 2) ∧
  (∀ sx sy x y w h fn, (Operation.copy sx sy x y w h fn).wordPeriods = 3) ∧ Operation.sumBand.wordPeriods = 1 ∧
  ∀ n, (Operation.loadTile n).wordPeriods = 1

/-! ## Laws that every step keeps -/

/-- Right after reset every law below holds (R198). -/
def Obligations.ResetIsLawful : Prop :=
  State.reset.memoriesCanonical ∧ State.reset.eventQueuesLawful ∧ State.reset.commandQueuesLawful ∧ State.reset.pageQueueLawful ∧
    State.reset.headLawful ∧ State.reset.clearOrderLawful ∧ State.reset.accessLawful ∧ State.reset.bandTableLawful ∧ State.reset.ringLawful

/-- Every step keeps every memory in its canonical form (log 5). -/
def Obligations.StepsKeepMemoriesCanonical : Prop :=
  ∀ s t : State, s.memoriesCanonical → step s = .next t → t.memoriesCanonical

/-- Every step keeps both event queues under R175: at most 16 records, OVERFLOW only as the newest, and with 16 records the newest is OVERFLOW. -/
def Obligations.StepsKeepEventQueuesLawful : Prop :=
  ∀ s t : State, s.eventQueuesLawful → step s = .next t → t.eventQueuesLawful

/-- Every step keeps both command queues under R113 and R115: at most 8 entries and 1024 payload words, and only the head WAITING or EXECUTING. -/
def Obligations.StepsKeepCommandQueuesLawful : Prop :=
  ∀ s t : State, s.commandQueuesLawful → step s = .next t → t.commandQueuesLawful

/-- Every step keeps the page queue: at most 4 records, no two with one tag (R26), and each record's fields in R25's ranges, next to stream's range being
StepsKeepTheRingOfBands' (R9). -/
def Obligations.StepsKeepPageQueueLawful : Prop :=
  ∀ s t : State, s.pageQueueLawful → step s = .next t → t.pageQueueLawful

/-- Every step keeps the head page and the Streamer in agreement (R26, R138, R139): every record behind the head is PENDING, and the Streamer offers or serves the
head page exactly as the head's state says. -/
def Obligations.StepsKeepTheHeadServed : Prop :=
  ∀ s t : State, s.headLawful → step s = .next t → t.headLawful

/-- Every step keeps the clear order as R10 says: no duplicates, and exactly the CLEARING slots. -/
def Obligations.StepsKeepTheClearOrder : Prop :=
  ∀ s t : State, s.clearOrderLawful → step s = .next t → t.clearOrderLawful

/-- No step reaches a word that does not exist (R1, R74), and every step keeps the law that this rests on: from a lawful state a step always answers a next state. -/
def Obligations.NoStepFaults : Prop :=
  ∀ s : State, s.accessLawful → ∃ t, step s = .next t ∧ t.accessLawful

/-- Every step keeps the ring of bands: a slot that is not FREE belongs to a page in the queue, at most one is STREAMING and its page is PRINTING or BLANKING (R3);
each page holds its run of bands, next to stream, next to allocate and band count in order, and a BLANKING page at most the STREAMING slot (R9, R20); a READY or
STREAMING band is forced or closed by every current participant (R54); head page, Streamer and line in flight agree (R26, R139, R143). -/
def Obligations.StepsKeepTheRingOfBands : Prop :=
  ∀ s t : State, s.ringLawful → step s = .next t → t.ringLawful

end
end

