-- ==== Sys2Proof/Laws/State.lean ====
section
/-! SUPPORT. What each update of the state leaves as it was, field by field, and what it makes of the field it is for. -/

namespace Sys2Proof.Machine

/-! ## updPort -/

@[simp] theorem State.updPort_pending (s : State) (p : Port) (f : PortState → PortState) : (s.updPort p f).pending = s.pending := rfl
@[simp] theorem State.updPort_resetHeld (s : State) (p : Port) (f : PortState → PortState) : (s.updPort p f).resetHeld = s.resetHeld := rfl
@[simp] theorem State.updPort_pins (s : State) (p : Port) (f : PortState → PortState) : (s.updPort p f).pins = s.pins := rfl
@[simp] theorem State.updPort_slots (s : State) (p : Port) (f : PortState → PortState) : (s.updPort p f).slots = s.slots := rfl
@[simp] theorem State.updPort_inFlight (s : State) (p : Port) (f : PortState → PortState) : (s.updPort p f).inFlight = s.inFlight := rfl
@[simp] theorem State.updPort_clearOrder (s : State) (p : Port) (f : PortState → PortState) : (s.updPort p f).clearOrder = s.clearOrder := rfl
@[simp] theorem State.updPort_clearPos (s : State) (p : Port) (f : PortState → PortState) : (s.updPort p f).clearPos = s.clearPos := rfl
@[simp] theorem State.updPort_clearClaims (s : State) (p : Port) (f : PortState → PortState) : (s.updPort p f).clearClaims = s.clearClaims := rfl
@[simp] theorem State.updPort_bandRam (s : State) (p : Port) (f : PortState → PortState) : (s.updPort p f).bandRam = s.bandRam := rfl
@[simp] theorem State.updPort_pages (s : State) (p : Port) (f : PortState → PortState) : (s.updPort p f).pages = s.pages := rfl
@[simp] theorem State.updPort_nextInstance (s : State) (p : Port) (f : PortState → PortState) : (s.updPort p f).nextInstance = s.nextInstance := rfl
@[simp] theorem State.updPort_tileRam (s : State) (p : Port) (f : PortState → PortState) : (s.updPort p f).tileRam = s.tileRam := rfl
@[simp] theorem State.updPort_tileLoaded (s : State) (p : Port) (f : PortState → PortState) : (s.updPort p f).tileLoaded = s.tileLoaded := rfl
@[simp] theorem State.updPort_execution (s : State) (p : Port) (f : PortState → PortState) : (s.updPort p f).execution = s.execution := rfl
@[simp] theorem State.updPort_pointer (s : State) (p : Port) (f : PortState → PortState) : (s.updPort p f).pointer = s.pointer := rfl
@[simp] theorem State.updPort_streamer (s : State) (p : Port) (f : PortState → PortState) : (s.updPort p f).streamer = s.streamer := rfl
@[simp] theorem State.updPort_engine (s : State) (p : Port) (f : PortState → PortState) : (s.updPort p f).engine = s.engine := rfl
@[simp] theorem State.updPort_prdyLow (s : State) (p : Port) (f : PortState → PortState) : (s.updPort p f).prdyLow = s.prdyLow := rfl
@[simp] theorem State.updPort_tail (s : State) (p : Port) (f : PortState → PortState) : (s.updPort p f).tail = s.tail := rfl
@[simp] theorem State.updPort_videoPhase (s : State) (p : Port) (f : PortState → PortState) : (s.updPort p f).videoPhase = s.videoPhase := rfl
@[simp] theorem State.updPort_vdat (s : State) (p : Port) (f : PortState → PortState) : (s.updPort p f).vdat = s.vdat := rfl
@[simp] theorem State.updPort_lineOut (s : State) (p : Port) (f : PortState → PortState) : (s.updPort p f).lineOut = s.lineOut := rfl
@[simp] theorem State.updPort_ramEpoch (s : State) (p : Port) (f : PortState → PortState) : (s.updPort p f).ramEpoch = s.ramEpoch := rfl
@[simp] theorem State.updPort_freeCount (s : State) (p : Port) (f : PortState → PortState) : (s.updPort p f).freeCount = s.freeCount := rfl

/-! ## setSlot -/

@[simp] theorem State.setSlot_pending (s : State) (i : Nat) (x : Slot) : (s.setSlot i x).pending = s.pending := rfl
@[simp] theorem State.setSlot_resetHeld (s : State) (i : Nat) (x : Slot) : (s.setSlot i x).resetHeld = s.resetHeld := rfl
@[simp] theorem State.setSlot_pins (s : State) (i : Nat) (x : Slot) : (s.setSlot i x).pins = s.pins := rfl
@[simp] theorem State.setSlot_inFlight (s : State) (i : Nat) (x : Slot) : (s.setSlot i x).inFlight = s.inFlight := rfl
@[simp] theorem State.setSlot_clearOrder (s : State) (i : Nat) (x : Slot) : (s.setSlot i x).clearOrder = s.clearOrder := rfl
@[simp] theorem State.setSlot_clearPos (s : State) (i : Nat) (x : Slot) : (s.setSlot i x).clearPos = s.clearPos := rfl
@[simp] theorem State.setSlot_clearClaims (s : State) (i : Nat) (x : Slot) : (s.setSlot i x).clearClaims = s.clearClaims := rfl
@[simp] theorem State.setSlot_bandRam (s : State) (i : Nat) (x : Slot) : (s.setSlot i x).bandRam = s.bandRam := rfl
@[simp] theorem State.setSlot_pages (s : State) (i : Nat) (x : Slot) : (s.setSlot i x).pages = s.pages := rfl
@[simp] theorem State.setSlot_nextInstance (s : State) (i : Nat) (x : Slot) : (s.setSlot i x).nextInstance = s.nextInstance := rfl
@[simp] theorem State.setSlot_tileRam (s : State) (i : Nat) (x : Slot) : (s.setSlot i x).tileRam = s.tileRam := rfl
@[simp] theorem State.setSlot_tileLoaded (s : State) (i : Nat) (x : Slot) : (s.setSlot i x).tileLoaded = s.tileLoaded := rfl
@[simp] theorem State.setSlot_execution (s : State) (i : Nat) (x : Slot) : (s.setSlot i x).execution = s.execution := rfl
@[simp] theorem State.setSlot_pointer (s : State) (i : Nat) (x : Slot) : (s.setSlot i x).pointer = s.pointer := rfl
@[simp] theorem State.setSlot_ports (s : State) (i : Nat) (x : Slot) : (s.setSlot i x).ports = s.ports := rfl
@[simp] theorem State.setSlot_streamer (s : State) (i : Nat) (x : Slot) : (s.setSlot i x).streamer = s.streamer := rfl
@[simp] theorem State.setSlot_engine (s : State) (i : Nat) (x : Slot) : (s.setSlot i x).engine = s.engine := rfl
@[simp] theorem State.setSlot_prdyLow (s : State) (i : Nat) (x : Slot) : (s.setSlot i x).prdyLow = s.prdyLow := rfl
@[simp] theorem State.setSlot_tail (s : State) (i : Nat) (x : Slot) : (s.setSlot i x).tail = s.tail := rfl
@[simp] theorem State.setSlot_videoPhase (s : State) (i : Nat) (x : Slot) : (s.setSlot i x).videoPhase = s.videoPhase := rfl
@[simp] theorem State.setSlot_vdat (s : State) (i : Nat) (x : Slot) : (s.setSlot i x).vdat = s.vdat := rfl
@[simp] theorem State.setSlot_lineOut (s : State) (i : Nat) (x : Slot) : (s.setSlot i x).lineOut = s.lineOut := rfl
@[simp] theorem State.setSlot_ramEpoch (s : State) (i : Nat) (x : Slot) : (s.setSlot i x).ramEpoch = s.ramEpoch := rfl
@[simp] theorem State.setSlot_freeCount (s : State) (i : Nat) (x : Slot) : (s.setSlot i x).freeCount = s.freeCount := rfl

/-! ## mapPage -/

@[simp] theorem State.mapPage_pending (s : State) (r : PageRef) (f : PageRecord → PageRecord) : (s.mapPage r f).pending = s.pending := rfl
@[simp] theorem State.mapPage_resetHeld (s : State) (r : PageRef) (f : PageRecord → PageRecord) : (s.mapPage r f).resetHeld = s.resetHeld := rfl
@[simp] theorem State.mapPage_pins (s : State) (r : PageRef) (f : PageRecord → PageRecord) : (s.mapPage r f).pins = s.pins := rfl
@[simp] theorem State.mapPage_slots (s : State) (r : PageRef) (f : PageRecord → PageRecord) : (s.mapPage r f).slots = s.slots := rfl
@[simp] theorem State.mapPage_inFlight (s : State) (r : PageRef) (f : PageRecord → PageRecord) : (s.mapPage r f).inFlight = s.inFlight := rfl
@[simp] theorem State.mapPage_clearOrder (s : State) (r : PageRef) (f : PageRecord → PageRecord) : (s.mapPage r f).clearOrder = s.clearOrder := rfl
@[simp] theorem State.mapPage_clearPos (s : State) (r : PageRef) (f : PageRecord → PageRecord) : (s.mapPage r f).clearPos = s.clearPos := rfl
@[simp] theorem State.mapPage_clearClaims (s : State) (r : PageRef) (f : PageRecord → PageRecord) : (s.mapPage r f).clearClaims = s.clearClaims := rfl
@[simp] theorem State.mapPage_bandRam (s : State) (r : PageRef) (f : PageRecord → PageRecord) : (s.mapPage r f).bandRam = s.bandRam := rfl
@[simp] theorem State.mapPage_nextInstance (s : State) (r : PageRef) (f : PageRecord → PageRecord) : (s.mapPage r f).nextInstance = s.nextInstance := rfl
@[simp] theorem State.mapPage_tileRam (s : State) (r : PageRef) (f : PageRecord → PageRecord) : (s.mapPage r f).tileRam = s.tileRam := rfl
@[simp] theorem State.mapPage_tileLoaded (s : State) (r : PageRef) (f : PageRecord → PageRecord) : (s.mapPage r f).tileLoaded = s.tileLoaded := rfl
@[simp] theorem State.mapPage_execution (s : State) (r : PageRef) (f : PageRecord → PageRecord) : (s.mapPage r f).execution = s.execution := rfl
@[simp] theorem State.mapPage_pointer (s : State) (r : PageRef) (f : PageRecord → PageRecord) : (s.mapPage r f).pointer = s.pointer := rfl
@[simp] theorem State.mapPage_ports (s : State) (r : PageRef) (f : PageRecord → PageRecord) : (s.mapPage r f).ports = s.ports := rfl
@[simp] theorem State.mapPage_streamer (s : State) (r : PageRef) (f : PageRecord → PageRecord) : (s.mapPage r f).streamer = s.streamer := rfl
@[simp] theorem State.mapPage_engine (s : State) (r : PageRef) (f : PageRecord → PageRecord) : (s.mapPage r f).engine = s.engine := rfl
@[simp] theorem State.mapPage_prdyLow (s : State) (r : PageRef) (f : PageRecord → PageRecord) : (s.mapPage r f).prdyLow = s.prdyLow := rfl
@[simp] theorem State.mapPage_tail (s : State) (r : PageRef) (f : PageRecord → PageRecord) : (s.mapPage r f).tail = s.tail := rfl
@[simp] theorem State.mapPage_videoPhase (s : State) (r : PageRef) (f : PageRecord → PageRecord) : (s.mapPage r f).videoPhase = s.videoPhase := rfl
@[simp] theorem State.mapPage_vdat (s : State) (r : PageRef) (f : PageRecord → PageRecord) : (s.mapPage r f).vdat = s.vdat := rfl
@[simp] theorem State.mapPage_lineOut (s : State) (r : PageRef) (f : PageRecord → PageRecord) : (s.mapPage r f).lineOut = s.lineOut := rfl
@[simp] theorem State.mapPage_ramEpoch (s : State) (r : PageRef) (f : PageRecord → PageRecord) : (s.mapPage r f).ramEpoch = s.ramEpoch := rfl
@[simp] theorem State.mapPage_freeCount (s : State) (r : PageRef) (f : PageRecord → PageRecord) : (s.mapPage r f).freeCount = s.freeCount := rfl

/-! ## writeBand -/

@[simp] theorem State.writeBand_pending (s : State) (a : Nat) (v : Word) : (s.writeBand a v).pending = s.pending := rfl
@[simp] theorem State.writeBand_resetHeld (s : State) (a : Nat) (v : Word) : (s.writeBand a v).resetHeld = s.resetHeld := rfl
@[simp] theorem State.writeBand_pins (s : State) (a : Nat) (v : Word) : (s.writeBand a v).pins = s.pins := rfl
@[simp] theorem State.writeBand_slots (s : State) (a : Nat) (v : Word) : (s.writeBand a v).slots = s.slots := rfl
@[simp] theorem State.writeBand_inFlight (s : State) (a : Nat) (v : Word) : (s.writeBand a v).inFlight = s.inFlight := rfl
@[simp] theorem State.writeBand_clearOrder (s : State) (a : Nat) (v : Word) : (s.writeBand a v).clearOrder = s.clearOrder := rfl
@[simp] theorem State.writeBand_clearPos (s : State) (a : Nat) (v : Word) : (s.writeBand a v).clearPos = s.clearPos := rfl
@[simp] theorem State.writeBand_clearClaims (s : State) (a : Nat) (v : Word) : (s.writeBand a v).clearClaims = s.clearClaims := rfl
@[simp] theorem State.writeBand_pages (s : State) (a : Nat) (v : Word) : (s.writeBand a v).pages = s.pages := rfl
@[simp] theorem State.writeBand_nextInstance (s : State) (a : Nat) (v : Word) : (s.writeBand a v).nextInstance = s.nextInstance := rfl
@[simp] theorem State.writeBand_tileRam (s : State) (a : Nat) (v : Word) : (s.writeBand a v).tileRam = s.tileRam := rfl
@[simp] theorem State.writeBand_tileLoaded (s : State) (a : Nat) (v : Word) : (s.writeBand a v).tileLoaded = s.tileLoaded := rfl
@[simp] theorem State.writeBand_execution (s : State) (a : Nat) (v : Word) : (s.writeBand a v).execution = s.execution := rfl
@[simp] theorem State.writeBand_pointer (s : State) (a : Nat) (v : Word) : (s.writeBand a v).pointer = s.pointer := rfl
@[simp] theorem State.writeBand_ports (s : State) (a : Nat) (v : Word) : (s.writeBand a v).ports = s.ports := rfl
@[simp] theorem State.writeBand_streamer (s : State) (a : Nat) (v : Word) : (s.writeBand a v).streamer = s.streamer := rfl
@[simp] theorem State.writeBand_engine (s : State) (a : Nat) (v : Word) : (s.writeBand a v).engine = s.engine := rfl
@[simp] theorem State.writeBand_prdyLow (s : State) (a : Nat) (v : Word) : (s.writeBand a v).prdyLow = s.prdyLow := rfl
@[simp] theorem State.writeBand_tail (s : State) (a : Nat) (v : Word) : (s.writeBand a v).tail = s.tail := rfl
@[simp] theorem State.writeBand_videoPhase (s : State) (a : Nat) (v : Word) : (s.writeBand a v).videoPhase = s.videoPhase := rfl
@[simp] theorem State.writeBand_vdat (s : State) (a : Nat) (v : Word) : (s.writeBand a v).vdat = s.vdat := rfl
@[simp] theorem State.writeBand_lineOut (s : State) (a : Nat) (v : Word) : (s.writeBand a v).lineOut = s.lineOut := rfl
@[simp] theorem State.writeBand_ramEpoch (s : State) (a : Nat) (v : Word) : (s.writeBand a v).ramEpoch = s.ramEpoch := rfl
@[simp] theorem State.writeBand_freeCount (s : State) (a : Nat) (v : Word) : (s.writeBand a v).freeCount = s.freeCount := rfl

/-! ## popEntry -/

@[simp] theorem State.popEntry_pending (s : State) (p : Port) : (s.popEntry p).pending = s.pending := rfl
@[simp] theorem State.popEntry_resetHeld (s : State) (p : Port) : (s.popEntry p).resetHeld = s.resetHeld := rfl
@[simp] theorem State.popEntry_pins (s : State) (p : Port) : (s.popEntry p).pins = s.pins := rfl
@[simp] theorem State.popEntry_slots (s : State) (p : Port) : (s.popEntry p).slots = s.slots := rfl
@[simp] theorem State.popEntry_inFlight (s : State) (p : Port) : (s.popEntry p).inFlight = s.inFlight := rfl
@[simp] theorem State.popEntry_clearOrder (s : State) (p : Port) : (s.popEntry p).clearOrder = s.clearOrder := rfl
@[simp] theorem State.popEntry_clearPos (s : State) (p : Port) : (s.popEntry p).clearPos = s.clearPos := rfl
@[simp] theorem State.popEntry_clearClaims (s : State) (p : Port) : (s.popEntry p).clearClaims = s.clearClaims := rfl
@[simp] theorem State.popEntry_bandRam (s : State) (p : Port) : (s.popEntry p).bandRam = s.bandRam := rfl
@[simp] theorem State.popEntry_pages (s : State) (p : Port) : (s.popEntry p).pages = s.pages := rfl
@[simp] theorem State.popEntry_nextInstance (s : State) (p : Port) : (s.popEntry p).nextInstance = s.nextInstance := rfl
@[simp] theorem State.popEntry_tileRam (s : State) (p : Port) : (s.popEntry p).tileRam = s.tileRam := rfl
@[simp] theorem State.popEntry_tileLoaded (s : State) (p : Port) : (s.popEntry p).tileLoaded = s.tileLoaded := rfl
@[simp] theorem State.popEntry_execution (s : State) (p : Port) : (s.popEntry p).execution = s.execution := rfl
@[simp] theorem State.popEntry_pointer (s : State) (p : Port) : (s.popEntry p).pointer = s.pointer := rfl
@[simp] theorem State.popEntry_streamer (s : State) (p : Port) : (s.popEntry p).streamer = s.streamer := rfl
@[simp] theorem State.popEntry_engine (s : State) (p : Port) : (s.popEntry p).engine = s.engine := rfl
@[simp] theorem State.popEntry_prdyLow (s : State) (p : Port) : (s.popEntry p).prdyLow = s.prdyLow := rfl
@[simp] theorem State.popEntry_tail (s : State) (p : Port) : (s.popEntry p).tail = s.tail := rfl
@[simp] theorem State.popEntry_videoPhase (s : State) (p : Port) : (s.popEntry p).videoPhase = s.videoPhase := rfl
@[simp] theorem State.popEntry_vdat (s : State) (p : Port) : (s.popEntry p).vdat = s.vdat := rfl
@[simp] theorem State.popEntry_lineOut (s : State) (p : Port) : (s.popEntry p).lineOut = s.lineOut := rfl
@[simp] theorem State.popEntry_ramEpoch (s : State) (p : Port) : (s.popEntry p).ramEpoch = s.ramEpoch := rfl
@[simp] theorem State.popEntry_freeCount (s : State) (p : Port) : (s.popEntry p).freeCount = s.freeCount := rfl

/-! ## setHeadLife -/

@[simp] theorem State.setHeadLife_pending (s : State) (p : Port) (life : LifeState) : (s.setHeadLife p life).pending = s.pending := rfl
@[simp] theorem State.setHeadLife_resetHeld (s : State) (p : Port) (life : LifeState) : (s.setHeadLife p life).resetHeld = s.resetHeld := rfl
@[simp] theorem State.setHeadLife_pins (s : State) (p : Port) (life : LifeState) : (s.setHeadLife p life).pins = s.pins := rfl
@[simp] theorem State.setHeadLife_slots (s : State) (p : Port) (life : LifeState) : (s.setHeadLife p life).slots = s.slots := rfl
@[simp] theorem State.setHeadLife_inFlight (s : State) (p : Port) (life : LifeState) : (s.setHeadLife p life).inFlight = s.inFlight := rfl
@[simp] theorem State.setHeadLife_clearOrder (s : State) (p : Port) (life : LifeState) : (s.setHeadLife p life).clearOrder = s.clearOrder := rfl
@[simp] theorem State.setHeadLife_clearPos (s : State) (p : Port) (life : LifeState) : (s.setHeadLife p life).clearPos = s.clearPos := rfl
@[simp] theorem State.setHeadLife_clearClaims (s : State) (p : Port) (life : LifeState) : (s.setHeadLife p life).clearClaims = s.clearClaims := rfl
@[simp] theorem State.setHeadLife_bandRam (s : State) (p : Port) (life : LifeState) : (s.setHeadLife p life).bandRam = s.bandRam := rfl
@[simp] theorem State.setHeadLife_pages (s : State) (p : Port) (life : LifeState) : (s.setHeadLife p life).pages = s.pages := rfl
@[simp] theorem State.setHeadLife_nextInstance (s : State) (p : Port) (life : LifeState) : (s.setHeadLife p life).nextInstance = s.nextInstance := rfl
@[simp] theorem State.setHeadLife_tileRam (s : State) (p : Port) (life : LifeState) : (s.setHeadLife p life).tileRam = s.tileRam := rfl
@[simp] theorem State.setHeadLife_tileLoaded (s : State) (p : Port) (life : LifeState) : (s.setHeadLife p life).tileLoaded = s.tileLoaded := rfl
@[simp] theorem State.setHeadLife_execution (s : State) (p : Port) (life : LifeState) : (s.setHeadLife p life).execution = s.execution := rfl
@[simp] theorem State.setHeadLife_pointer (s : State) (p : Port) (life : LifeState) : (s.setHeadLife p life).pointer = s.pointer := rfl
@[simp] theorem State.setHeadLife_streamer (s : State) (p : Port) (life : LifeState) : (s.setHeadLife p life).streamer = s.streamer := rfl
@[simp] theorem State.setHeadLife_engine (s : State) (p : Port) (life : LifeState) : (s.setHeadLife p life).engine = s.engine := rfl
@[simp] theorem State.setHeadLife_prdyLow (s : State) (p : Port) (life : LifeState) : (s.setHeadLife p life).prdyLow = s.prdyLow := rfl
@[simp] theorem State.setHeadLife_tail (s : State) (p : Port) (life : LifeState) : (s.setHeadLife p life).tail = s.tail := rfl
@[simp] theorem State.setHeadLife_videoPhase (s : State) (p : Port) (life : LifeState) : (s.setHeadLife p life).videoPhase = s.videoPhase := rfl
@[simp] theorem State.setHeadLife_vdat (s : State) (p : Port) (life : LifeState) : (s.setHeadLife p life).vdat = s.vdat := rfl
@[simp] theorem State.setHeadLife_lineOut (s : State) (p : Port) (life : LifeState) : (s.setHeadLife p life).lineOut = s.lineOut := rfl
@[simp] theorem State.setHeadLife_ramEpoch (s : State) (p : Port) (life : LifeState) : (s.setHeadLife p life).ramEpoch = s.ramEpoch := rfl
@[simp] theorem State.setHeadLife_freeCount (s : State) (p : Port) (life : LifeState) : (s.setHeadLife p life).freeCount = s.freeCount := rfl

/-! ## postTo -/

@[simp] theorem State.postTo_pending (s : State) (p : Port) (e : Event) : (s.postTo p e).pending = s.pending := rfl
@[simp] theorem State.postTo_resetHeld (s : State) (p : Port) (e : Event) : (s.postTo p e).resetHeld = s.resetHeld := rfl
@[simp] theorem State.postTo_pins (s : State) (p : Port) (e : Event) : (s.postTo p e).pins = s.pins := rfl
@[simp] theorem State.postTo_slots (s : State) (p : Port) (e : Event) : (s.postTo p e).slots = s.slots := rfl
@[simp] theorem State.postTo_inFlight (s : State) (p : Port) (e : Event) : (s.postTo p e).inFlight = s.inFlight := rfl
@[simp] theorem State.postTo_clearOrder (s : State) (p : Port) (e : Event) : (s.postTo p e).clearOrder = s.clearOrder := rfl
@[simp] theorem State.postTo_clearPos (s : State) (p : Port) (e : Event) : (s.postTo p e).clearPos = s.clearPos := rfl
@[simp] theorem State.postTo_clearClaims (s : State) (p : Port) (e : Event) : (s.postTo p e).clearClaims = s.clearClaims := rfl
@[simp] theorem State.postTo_bandRam (s : State) (p : Port) (e : Event) : (s.postTo p e).bandRam = s.bandRam := rfl
@[simp] theorem State.postTo_pages (s : State) (p : Port) (e : Event) : (s.postTo p e).pages = s.pages := rfl
@[simp] theorem State.postTo_nextInstance (s : State) (p : Port) (e : Event) : (s.postTo p e).nextInstance = s.nextInstance := rfl
@[simp] theorem State.postTo_tileRam (s : State) (p : Port) (e : Event) : (s.postTo p e).tileRam = s.tileRam := rfl
@[simp] theorem State.postTo_tileLoaded (s : State) (p : Port) (e : Event) : (s.postTo p e).tileLoaded = s.tileLoaded := rfl
@[simp] theorem State.postTo_execution (s : State) (p : Port) (e : Event) : (s.postTo p e).execution = s.execution := rfl
@[simp] theorem State.postTo_pointer (s : State) (p : Port) (e : Event) : (s.postTo p e).pointer = s.pointer := rfl
@[simp] theorem State.postTo_streamer (s : State) (p : Port) (e : Event) : (s.postTo p e).streamer = s.streamer := rfl
@[simp] theorem State.postTo_engine (s : State) (p : Port) (e : Event) : (s.postTo p e).engine = s.engine := rfl
@[simp] theorem State.postTo_prdyLow (s : State) (p : Port) (e : Event) : (s.postTo p e).prdyLow = s.prdyLow := rfl
@[simp] theorem State.postTo_tail (s : State) (p : Port) (e : Event) : (s.postTo p e).tail = s.tail := rfl
@[simp] theorem State.postTo_videoPhase (s : State) (p : Port) (e : Event) : (s.postTo p e).videoPhase = s.videoPhase := rfl
@[simp] theorem State.postTo_vdat (s : State) (p : Port) (e : Event) : (s.postTo p e).vdat = s.vdat := rfl
@[simp] theorem State.postTo_lineOut (s : State) (p : Port) (e : Event) : (s.postTo p e).lineOut = s.lineOut := rfl
@[simp] theorem State.postTo_ramEpoch (s : State) (p : Port) (e : Event) : (s.postTo p e).ramEpoch = s.ramEpoch := rfl
@[simp] theorem State.postTo_freeCount (s : State) (p : Port) (e : Event) : (s.postTo p e).freeCount = s.freeCount := rfl

/-! ## settleClaim and cancelClear -/

/-- What a waiting CLEAR_COMPLETION comes to name is all that changes (log 33). -/
theorem State.settleClaim_eq (s : State) : s.settleClaim = { s with clearClaims := s.settleClaim.clearClaims } := by
  unfold State.settleClaim; split <;> rfl

theorem State.cancelClear_eq (s : State) (i : Nat) : s.cancelClear i = { s with clearClaims := (s.cancelClear i).clearClaims } := by
  unfold State.cancelClear; split
  · exact s.settleClaim_eq
  · rfl

@[simp] theorem State.settleClaim_pending (s : State) : s.settleClaim.pending = s.pending := by rw [s.settleClaim_eq]
@[simp] theorem State.settleClaim_resetHeld (s : State) : s.settleClaim.resetHeld = s.resetHeld := by rw [s.settleClaim_eq]
@[simp] theorem State.settleClaim_pins (s : State) : s.settleClaim.pins = s.pins := by rw [s.settleClaim_eq]
@[simp] theorem State.settleClaim_slots (s : State) : s.settleClaim.slots = s.slots := by rw [s.settleClaim_eq]
@[simp] theorem State.settleClaim_inFlight (s : State) : s.settleClaim.inFlight = s.inFlight := by rw [s.settleClaim_eq]
@[simp] theorem State.settleClaim_clearOrder (s : State) : s.settleClaim.clearOrder = s.clearOrder := by rw [s.settleClaim_eq]
@[simp] theorem State.settleClaim_clearPos (s : State) : s.settleClaim.clearPos = s.clearPos := by rw [s.settleClaim_eq]
@[simp] theorem State.settleClaim_bandRam (s : State) : s.settleClaim.bandRam = s.bandRam := by rw [s.settleClaim_eq]
@[simp] theorem State.settleClaim_pages (s : State) : s.settleClaim.pages = s.pages := by rw [s.settleClaim_eq]
@[simp] theorem State.settleClaim_nextInstance (s : State) : s.settleClaim.nextInstance = s.nextInstance := by rw [s.settleClaim_eq]
@[simp] theorem State.settleClaim_tileRam (s : State) : s.settleClaim.tileRam = s.tileRam := by rw [s.settleClaim_eq]
@[simp] theorem State.settleClaim_tileLoaded (s : State) : s.settleClaim.tileLoaded = s.tileLoaded := by rw [s.settleClaim_eq]
@[simp] theorem State.settleClaim_execution (s : State) : s.settleClaim.execution = s.execution := by rw [s.settleClaim_eq]
@[simp] theorem State.settleClaim_pointer (s : State) : s.settleClaim.pointer = s.pointer := by rw [s.settleClaim_eq]
@[simp] theorem State.settleClaim_streamer (s : State) : s.settleClaim.streamer = s.streamer := by rw [s.settleClaim_eq]
@[simp] theorem State.settleClaim_engine (s : State) : s.settleClaim.engine = s.engine := by rw [s.settleClaim_eq]
@[simp] theorem State.settleClaim_prdyLow (s : State) : s.settleClaim.prdyLow = s.prdyLow := by rw [s.settleClaim_eq]
@[simp] theorem State.settleClaim_tail (s : State) : s.settleClaim.tail = s.tail := by rw [s.settleClaim_eq]
@[simp] theorem State.settleClaim_videoPhase (s : State) : s.settleClaim.videoPhase = s.videoPhase := by rw [s.settleClaim_eq]
@[simp] theorem State.settleClaim_vdat (s : State) : s.settleClaim.vdat = s.vdat := by rw [s.settleClaim_eq]
@[simp] theorem State.settleClaim_lineOut (s : State) : s.settleClaim.lineOut = s.lineOut := by rw [s.settleClaim_eq]
@[simp] theorem State.settleClaim_ramEpoch (s : State) : s.settleClaim.ramEpoch = s.ramEpoch := by rw [s.settleClaim_eq]
@[simp] theorem State.settleClaim_freeCount (s : State) : s.settleClaim.freeCount = s.freeCount := by rw [s.settleClaim_eq]
@[simp] theorem State.settleClaim_ports (s : State) : s.settleClaim.ports = s.ports := by rw [s.settleClaim_eq]
@[simp] theorem State.cancelClear_pending (s : State) (i : Nat) : (s.cancelClear i).pending = s.pending := by rw [s.cancelClear_eq i]
@[simp] theorem State.cancelClear_resetHeld (s : State) (i : Nat) : (s.cancelClear i).resetHeld = s.resetHeld := by rw [s.cancelClear_eq i]
@[simp] theorem State.cancelClear_pins (s : State) (i : Nat) : (s.cancelClear i).pins = s.pins := by rw [s.cancelClear_eq i]
@[simp] theorem State.cancelClear_slots (s : State) (i : Nat) : (s.cancelClear i).slots = s.slots := by rw [s.cancelClear_eq i]
@[simp] theorem State.cancelClear_inFlight (s : State) (i : Nat) : (s.cancelClear i).inFlight = s.inFlight := by rw [s.cancelClear_eq i]
@[simp] theorem State.cancelClear_clearOrder (s : State) (i : Nat) : (s.cancelClear i).clearOrder = s.clearOrder := by rw [s.cancelClear_eq i]
@[simp] theorem State.cancelClear_clearPos (s : State) (i : Nat) : (s.cancelClear i).clearPos = s.clearPos := by rw [s.cancelClear_eq i]
@[simp] theorem State.cancelClear_bandRam (s : State) (i : Nat) : (s.cancelClear i).bandRam = s.bandRam := by rw [s.cancelClear_eq i]
@[simp] theorem State.cancelClear_pages (s : State) (i : Nat) : (s.cancelClear i).pages = s.pages := by rw [s.cancelClear_eq i]
@[simp] theorem State.cancelClear_nextInstance (s : State) (i : Nat) : (s.cancelClear i).nextInstance = s.nextInstance := by rw [s.cancelClear_eq i]
@[simp] theorem State.cancelClear_tileRam (s : State) (i : Nat) : (s.cancelClear i).tileRam = s.tileRam := by rw [s.cancelClear_eq i]
@[simp] theorem State.cancelClear_tileLoaded (s : State) (i : Nat) : (s.cancelClear i).tileLoaded = s.tileLoaded := by rw [s.cancelClear_eq i]
@[simp] theorem State.cancelClear_execution (s : State) (i : Nat) : (s.cancelClear i).execution = s.execution := by rw [s.cancelClear_eq i]
@[simp] theorem State.cancelClear_pointer (s : State) (i : Nat) : (s.cancelClear i).pointer = s.pointer := by rw [s.cancelClear_eq i]
@[simp] theorem State.cancelClear_streamer (s : State) (i : Nat) : (s.cancelClear i).streamer = s.streamer := by rw [s.cancelClear_eq i]
@[simp] theorem State.cancelClear_engine (s : State) (i : Nat) : (s.cancelClear i).engine = s.engine := by rw [s.cancelClear_eq i]
@[simp] theorem State.cancelClear_prdyLow (s : State) (i : Nat) : (s.cancelClear i).prdyLow = s.prdyLow := by rw [s.cancelClear_eq i]
@[simp] theorem State.cancelClear_tail (s : State) (i : Nat) : (s.cancelClear i).tail = s.tail := by rw [s.cancelClear_eq i]
@[simp] theorem State.cancelClear_videoPhase (s : State) (i : Nat) : (s.cancelClear i).videoPhase = s.videoPhase := by rw [s.cancelClear_eq i]
@[simp] theorem State.cancelClear_vdat (s : State) (i : Nat) : (s.cancelClear i).vdat = s.vdat := by rw [s.cancelClear_eq i]
@[simp] theorem State.cancelClear_lineOut (s : State) (i : Nat) : (s.cancelClear i).lineOut = s.lineOut := by rw [s.cancelClear_eq i]
@[simp] theorem State.cancelClear_ramEpoch (s : State) (i : Nat) : (s.cancelClear i).ramEpoch = s.ramEpoch := by rw [s.cancelClear_eq i]
@[simp] theorem State.cancelClear_freeCount (s : State) (i : Nat) : (s.cancelClear i).freeCount = s.freeCount := by rw [s.cancelClear_eq i]
@[simp] theorem State.cancelClear_ports (s : State) (i : Nat) : (s.cancelClear i).ports = s.ports := by rw [s.cancelClear_eq i]

/-! ## leaveClearOrder -/

@[simp] theorem State.leaveClearOrder_pending (s : State) (i : Nat) : (s.leaveClearOrder i).pending = s.pending := rfl
@[simp] theorem State.leaveClearOrder_resetHeld (s : State) (i : Nat) : (s.leaveClearOrder i).resetHeld = s.resetHeld := rfl
@[simp] theorem State.leaveClearOrder_pins (s : State) (i : Nat) : (s.leaveClearOrder i).pins = s.pins := rfl
@[simp] theorem State.leaveClearOrder_slots (s : State) (i : Nat) : (s.leaveClearOrder i).slots = s.slots := rfl
@[simp] theorem State.leaveClearOrder_inFlight (s : State) (i : Nat) : (s.leaveClearOrder i).inFlight = s.inFlight := rfl
@[simp] theorem State.leaveClearOrder_clearClaims (s : State) (i : Nat) : (s.leaveClearOrder i).clearClaims = s.clearClaims := rfl
@[simp] theorem State.leaveClearOrder_bandRam (s : State) (i : Nat) : (s.leaveClearOrder i).bandRam = s.bandRam := rfl
@[simp] theorem State.leaveClearOrder_pages (s : State) (i : Nat) : (s.leaveClearOrder i).pages = s.pages := rfl
@[simp] theorem State.leaveClearOrder_nextInstance (s : State) (i : Nat) : (s.leaveClearOrder i).nextInstance = s.nextInstance := rfl
@[simp] theorem State.leaveClearOrder_tileRam (s : State) (i : Nat) : (s.leaveClearOrder i).tileRam = s.tileRam := rfl
@[simp] theorem State.leaveClearOrder_tileLoaded (s : State) (i : Nat) : (s.leaveClearOrder i).tileLoaded = s.tileLoaded := rfl
@[simp] theorem State.leaveClearOrder_execution (s : State) (i : Nat) : (s.leaveClearOrder i).execution = s.execution := rfl
@[simp] theorem State.leaveClearOrder_pointer (s : State) (i : Nat) : (s.leaveClearOrder i).pointer = s.pointer := rfl
@[simp] theorem State.leaveClearOrder_ports (s : State) (i : Nat) : (s.leaveClearOrder i).ports = s.ports := rfl
@[simp] theorem State.leaveClearOrder_streamer (s : State) (i : Nat) : (s.leaveClearOrder i).streamer = s.streamer := rfl
@[simp] theorem State.leaveClearOrder_engine (s : State) (i : Nat) : (s.leaveClearOrder i).engine = s.engine := rfl
@[simp] theorem State.leaveClearOrder_prdyLow (s : State) (i : Nat) : (s.leaveClearOrder i).prdyLow = s.prdyLow := rfl
@[simp] theorem State.leaveClearOrder_tail (s : State) (i : Nat) : (s.leaveClearOrder i).tail = s.tail := rfl
@[simp] theorem State.leaveClearOrder_videoPhase (s : State) (i : Nat) : (s.leaveClearOrder i).videoPhase = s.videoPhase := rfl
@[simp] theorem State.leaveClearOrder_vdat (s : State) (i : Nat) : (s.leaveClearOrder i).vdat = s.vdat := rfl
@[simp] theorem State.leaveClearOrder_lineOut (s : State) (i : Nat) : (s.leaveClearOrder i).lineOut = s.lineOut := rfl
@[simp] theorem State.leaveClearOrder_ramEpoch (s : State) (i : Nat) : (s.leaveClearOrder i).ramEpoch = s.ramEpoch := rfl
@[simp] theorem State.leaveClearOrder_freeCount (s : State) (i : Nat) : (s.leaveClearOrder i).freeCount = s.freeCount := rfl

/-! ## requestStop -/

@[simp] theorem State.requestStop_pending (s : State) (r : PageRef) : (s.requestStop r).pending = s.pending := rfl
@[simp] theorem State.requestStop_resetHeld (s : State) (r : PageRef) : (s.requestStop r).resetHeld = s.resetHeld := rfl
@[simp] theorem State.requestStop_pins (s : State) (r : PageRef) : (s.requestStop r).pins = s.pins := rfl
@[simp] theorem State.requestStop_slots (s : State) (r : PageRef) : (s.requestStop r).slots = s.slots := rfl
@[simp] theorem State.requestStop_inFlight (s : State) (r : PageRef) : (s.requestStop r).inFlight = s.inFlight := rfl
@[simp] theorem State.requestStop_clearOrder (s : State) (r : PageRef) : (s.requestStop r).clearOrder = s.clearOrder := rfl
@[simp] theorem State.requestStop_clearPos (s : State) (r : PageRef) : (s.requestStop r).clearPos = s.clearPos := rfl
@[simp] theorem State.requestStop_clearClaims (s : State) (r : PageRef) : (s.requestStop r).clearClaims = s.clearClaims := rfl
@[simp] theorem State.requestStop_bandRam (s : State) (r : PageRef) : (s.requestStop r).bandRam = s.bandRam := rfl
@[simp] theorem State.requestStop_pages (s : State) (r : PageRef) : (s.requestStop r).pages = s.pages := rfl
@[simp] theorem State.requestStop_nextInstance (s : State) (r : PageRef) : (s.requestStop r).nextInstance = s.nextInstance := rfl
@[simp] theorem State.requestStop_tileRam (s : State) (r : PageRef) : (s.requestStop r).tileRam = s.tileRam := rfl
@[simp] theorem State.requestStop_tileLoaded (s : State) (r : PageRef) : (s.requestStop r).tileLoaded = s.tileLoaded := rfl
@[simp] theorem State.requestStop_pointer (s : State) (r : PageRef) : (s.requestStop r).pointer = s.pointer := rfl
@[simp] theorem State.requestStop_ports (s : State) (r : PageRef) : (s.requestStop r).ports = s.ports := rfl
@[simp] theorem State.requestStop_streamer (s : State) (r : PageRef) : (s.requestStop r).streamer = s.streamer := rfl
@[simp] theorem State.requestStop_engine (s : State) (r : PageRef) : (s.requestStop r).engine = s.engine := rfl
@[simp] theorem State.requestStop_prdyLow (s : State) (r : PageRef) : (s.requestStop r).prdyLow = s.prdyLow := rfl
@[simp] theorem State.requestStop_tail (s : State) (r : PageRef) : (s.requestStop r).tail = s.tail := rfl
@[simp] theorem State.requestStop_videoPhase (s : State) (r : PageRef) : (s.requestStop r).videoPhase = s.videoPhase := rfl
@[simp] theorem State.requestStop_vdat (s : State) (r : PageRef) : (s.requestStop r).vdat = s.vdat := rfl
@[simp] theorem State.requestStop_lineOut (s : State) (r : PageRef) : (s.requestStop r).lineOut = s.lineOut := rfl
@[simp] theorem State.requestStop_ramEpoch (s : State) (r : PageRef) : (s.requestStop r).ramEpoch = s.ramEpoch := rfl
@[simp] theorem State.requestStop_freeCount (s : State) (r : PageRef) : (s.requestStop r).freeCount = s.freeCount := rfl

/-! ## beginLine -/

@[simp] theorem State.beginLine_pending (s : State) (r : PageRef) (source : LineSource) : (s.beginLine r source).pending = s.pending := rfl
@[simp] theorem State.beginLine_resetHeld (s : State) (r : PageRef) (source : LineSource) : (s.beginLine r source).resetHeld = s.resetHeld := rfl
@[simp] theorem State.beginLine_pins (s : State) (r : PageRef) (source : LineSource) : (s.beginLine r source).pins = s.pins := rfl
@[simp] theorem State.beginLine_slots (s : State) (r : PageRef) (source : LineSource) : (s.beginLine r source).slots = s.slots := rfl
@[simp] theorem State.beginLine_inFlight (s : State) (r : PageRef) (source : LineSource) : (s.beginLine r source).inFlight = s.inFlight := rfl
@[simp] theorem State.beginLine_clearOrder (s : State) (r : PageRef) (source : LineSource) : (s.beginLine r source).clearOrder = s.clearOrder := rfl
@[simp] theorem State.beginLine_clearPos (s : State) (r : PageRef) (source : LineSource) : (s.beginLine r source).clearPos = s.clearPos := rfl
@[simp] theorem State.beginLine_clearClaims (s : State) (r : PageRef) (source : LineSource) : (s.beginLine r source).clearClaims = s.clearClaims := rfl
@[simp] theorem State.beginLine_bandRam (s : State) (r : PageRef) (source : LineSource) : (s.beginLine r source).bandRam = s.bandRam := rfl
@[simp] theorem State.beginLine_pages (s : State) (r : PageRef) (source : LineSource) : (s.beginLine r source).pages = s.pages := rfl
@[simp] theorem State.beginLine_nextInstance (s : State) (r : PageRef) (source : LineSource) : (s.beginLine r source).nextInstance = s.nextInstance := rfl
@[simp] theorem State.beginLine_tileRam (s : State) (r : PageRef) (source : LineSource) : (s.beginLine r source).tileRam = s.tileRam := rfl
@[simp] theorem State.beginLine_tileLoaded (s : State) (r : PageRef) (source : LineSource) : (s.beginLine r source).tileLoaded = s.tileLoaded := rfl
@[simp] theorem State.beginLine_execution (s : State) (r : PageRef) (source : LineSource) : (s.beginLine r source).execution = s.execution := rfl
@[simp] theorem State.beginLine_pointer (s : State) (r : PageRef) (source : LineSource) : (s.beginLine r source).pointer = s.pointer := rfl
@[simp] theorem State.beginLine_ports (s : State) (r : PageRef) (source : LineSource) : (s.beginLine r source).ports = s.ports := rfl
@[simp] theorem State.beginLine_engine (s : State) (r : PageRef) (source : LineSource) : (s.beginLine r source).engine = s.engine := rfl
@[simp] theorem State.beginLine_prdyLow (s : State) (r : PageRef) (source : LineSource) : (s.beginLine r source).prdyLow = s.prdyLow := rfl
@[simp] theorem State.beginLine_videoPhase (s : State) (r : PageRef) (source : LineSource) : (s.beginLine r source).videoPhase = s.videoPhase := rfl
@[simp] theorem State.beginLine_vdat (s : State) (r : PageRef) (source : LineSource) : (s.beginLine r source).vdat = s.vdat := rfl
@[simp] theorem State.beginLine_ramEpoch (s : State) (r : PageRef) (source : LineSource) : (s.beginLine r source).ramEpoch = s.ramEpoch := rfl
@[simp] theorem State.beginLine_freeCount (s : State) (r : PageRef) (source : LineSource) : (s.beginLine r source).freeCount = s.freeCount := rfl

/-! ## openFrame -/

@[simp] theorem State.openFrame_pending (s : State) (p : Port) : (s.openFrame p).pending = s.pending := rfl
@[simp] theorem State.openFrame_resetHeld (s : State) (p : Port) : (s.openFrame p).resetHeld = s.resetHeld := rfl
@[simp] theorem State.openFrame_pins (s : State) (p : Port) : (s.openFrame p).pins = s.pins := rfl
@[simp] theorem State.openFrame_slots (s : State) (p : Port) : (s.openFrame p).slots = s.slots := rfl
@[simp] theorem State.openFrame_inFlight (s : State) (p : Port) : (s.openFrame p).inFlight = s.inFlight := rfl
@[simp] theorem State.openFrame_clearOrder (s : State) (p : Port) : (s.openFrame p).clearOrder = s.clearOrder := rfl
@[simp] theorem State.openFrame_clearPos (s : State) (p : Port) : (s.openFrame p).clearPos = s.clearPos := rfl
@[simp] theorem State.openFrame_clearClaims (s : State) (p : Port) : (s.openFrame p).clearClaims = s.clearClaims := rfl
@[simp] theorem State.openFrame_bandRam (s : State) (p : Port) : (s.openFrame p).bandRam = s.bandRam := rfl
@[simp] theorem State.openFrame_pages (s : State) (p : Port) : (s.openFrame p).pages = s.pages := rfl
@[simp] theorem State.openFrame_nextInstance (s : State) (p : Port) : (s.openFrame p).nextInstance = s.nextInstance := rfl
@[simp] theorem State.openFrame_tileRam (s : State) (p : Port) : (s.openFrame p).tileRam = s.tileRam := rfl
@[simp] theorem State.openFrame_tileLoaded (s : State) (p : Port) : (s.openFrame p).tileLoaded = s.tileLoaded := rfl
@[simp] theorem State.openFrame_execution (s : State) (p : Port) : (s.openFrame p).execution = s.execution := rfl
@[simp] theorem State.openFrame_pointer (s : State) (p : Port) : (s.openFrame p).pointer = s.pointer := rfl
@[simp] theorem State.openFrame_streamer (s : State) (p : Port) : (s.openFrame p).streamer = s.streamer := rfl
@[simp] theorem State.openFrame_engine (s : State) (p : Port) : (s.openFrame p).engine = s.engine := rfl
@[simp] theorem State.openFrame_prdyLow (s : State) (p : Port) : (s.openFrame p).prdyLow = s.prdyLow := rfl
@[simp] theorem State.openFrame_tail (s : State) (p : Port) : (s.openFrame p).tail = s.tail := rfl
@[simp] theorem State.openFrame_videoPhase (s : State) (p : Port) : (s.openFrame p).videoPhase = s.videoPhase := rfl
@[simp] theorem State.openFrame_vdat (s : State) (p : Port) : (s.openFrame p).vdat = s.vdat := rfl
@[simp] theorem State.openFrame_lineOut (s : State) (p : Port) : (s.openFrame p).lineOut = s.lineOut := rfl
@[simp] theorem State.openFrame_ramEpoch (s : State) (p : Port) : (s.openFrame p).ramEpoch = s.ramEpoch := rfl
@[simp] theorem State.openFrame_freeCount (s : State) (p : Port) : (s.openFrame p).freeCount = s.freeCount := rfl

/-! ## closeFrame -/

@[simp] theorem State.closeFrame_pending (s : State) (p : Port) (o : FrameOutcome) (n : Nat) : (s.closeFrame p o n).pending = s.pending := rfl
@[simp] theorem State.closeFrame_resetHeld (s : State) (p : Port) (o : FrameOutcome) (n : Nat) : (s.closeFrame p o n).resetHeld = s.resetHeld := rfl
@[simp] theorem State.closeFrame_pins (s : State) (p : Port) (o : FrameOutcome) (n : Nat) : (s.closeFrame p o n).pins = s.pins := rfl
@[simp] theorem State.closeFrame_slots (s : State) (p : Port) (o : FrameOutcome) (n : Nat) : (s.closeFrame p o n).slots = s.slots := rfl
@[simp] theorem State.closeFrame_inFlight (s : State) (p : Port) (o : FrameOutcome) (n : Nat) : (s.closeFrame p o n).inFlight = s.inFlight := rfl
@[simp] theorem State.closeFrame_clearOrder (s : State) (p : Port) (o : FrameOutcome) (n : Nat) : (s.closeFrame p o n).clearOrder = s.clearOrder := rfl
@[simp] theorem State.closeFrame_clearPos (s : State) (p : Port) (o : FrameOutcome) (n : Nat) : (s.closeFrame p o n).clearPos = s.clearPos := rfl
@[simp] theorem State.closeFrame_clearClaims (s : State) (p : Port) (o : FrameOutcome) (n : Nat) : (s.closeFrame p o n).clearClaims = s.clearClaims := rfl
@[simp] theorem State.closeFrame_bandRam (s : State) (p : Port) (o : FrameOutcome) (n : Nat) : (s.closeFrame p o n).bandRam = s.bandRam := rfl
@[simp] theorem State.closeFrame_pages (s : State) (p : Port) (o : FrameOutcome) (n : Nat) : (s.closeFrame p o n).pages = s.pages := rfl
@[simp] theorem State.closeFrame_nextInstance (s : State) (p : Port) (o : FrameOutcome) (n : Nat) : (s.closeFrame p o n).nextInstance = s.nextInstance := rfl
@[simp] theorem State.closeFrame_tileRam (s : State) (p : Port) (o : FrameOutcome) (n : Nat) : (s.closeFrame p o n).tileRam = s.tileRam := rfl
@[simp] theorem State.closeFrame_tileLoaded (s : State) (p : Port) (o : FrameOutcome) (n : Nat) : (s.closeFrame p o n).tileLoaded = s.tileLoaded := rfl
@[simp] theorem State.closeFrame_execution (s : State) (p : Port) (o : FrameOutcome) (n : Nat) : (s.closeFrame p o n).execution = s.execution := rfl
@[simp] theorem State.closeFrame_pointer (s : State) (p : Port) (o : FrameOutcome) (n : Nat) : (s.closeFrame p o n).pointer = s.pointer := rfl
@[simp] theorem State.closeFrame_streamer (s : State) (p : Port) (o : FrameOutcome) (n : Nat) : (s.closeFrame p o n).streamer = s.streamer := rfl
@[simp] theorem State.closeFrame_engine (s : State) (p : Port) (o : FrameOutcome) (n : Nat) : (s.closeFrame p o n).engine = s.engine := rfl
@[simp] theorem State.closeFrame_prdyLow (s : State) (p : Port) (o : FrameOutcome) (n : Nat) : (s.closeFrame p o n).prdyLow = s.prdyLow := rfl
@[simp] theorem State.closeFrame_tail (s : State) (p : Port) (o : FrameOutcome) (n : Nat) : (s.closeFrame p o n).tail = s.tail := rfl
@[simp] theorem State.closeFrame_videoPhase (s : State) (p : Port) (o : FrameOutcome) (n : Nat) : (s.closeFrame p o n).videoPhase = s.videoPhase := rfl
@[simp] theorem State.closeFrame_vdat (s : State) (p : Port) (o : FrameOutcome) (n : Nat) : (s.closeFrame p o n).vdat = s.vdat := rfl
@[simp] theorem State.closeFrame_lineOut (s : State) (p : Port) (o : FrameOutcome) (n : Nat) : (s.closeFrame p o n).lineOut = s.lineOut := rfl
@[simp] theorem State.closeFrame_ramEpoch (s : State) (p : Port) (o : FrameOutcome) (n : Nat) : (s.closeFrame p o n).ramEpoch = s.ramEpoch := rfl
@[simp] theorem State.closeFrame_freeCount (s : State) (p : Port) (o : FrameOutcome) (n : Nat) : (s.closeFrame p o n).freeCount = s.freeCount := rfl

/-! ## appendEntry -/

@[simp] theorem State.appendEntry_pending (s : State) (p : Port) (q : QueuedFrame) (page : Option PageRef) : (s.appendEntry p q page).pending = s.pending := rfl
@[simp] theorem State.appendEntry_resetHeld (s : State) (p : Port) (q : QueuedFrame) (page : Option PageRef) : (s.appendEntry p q page).resetHeld = s.resetHeld := rfl
@[simp] theorem State.appendEntry_pins (s : State) (p : Port) (q : QueuedFrame) (page : Option PageRef) : (s.appendEntry p q page).pins = s.pins := rfl
@[simp] theorem State.appendEntry_slots (s : State) (p : Port) (q : QueuedFrame) (page : Option PageRef) : (s.appendEntry p q page).slots = s.slots := rfl
@[simp] theorem State.appendEntry_inFlight (s : State) (p : Port) (q : QueuedFrame) (page : Option PageRef) : (s.appendEntry p q page).inFlight = s.inFlight := rfl
@[simp] theorem State.appendEntry_clearOrder (s : State) (p : Port) (q : QueuedFrame) (page : Option PageRef) : (s.appendEntry p q page).clearOrder = s.clearOrder := rfl
@[simp] theorem State.appendEntry_clearPos (s : State) (p : Port) (q : QueuedFrame) (page : Option PageRef) : (s.appendEntry p q page).clearPos = s.clearPos := rfl
@[simp] theorem State.appendEntry_clearClaims (s : State) (p : Port) (q : QueuedFrame) (page : Option PageRef) : (s.appendEntry p q page).clearClaims = s.clearClaims := rfl
@[simp] theorem State.appendEntry_bandRam (s : State) (p : Port) (q : QueuedFrame) (page : Option PageRef) : (s.appendEntry p q page).bandRam = s.bandRam := rfl
@[simp] theorem State.appendEntry_pages (s : State) (p : Port) (q : QueuedFrame) (page : Option PageRef) : (s.appendEntry p q page).pages = s.pages := rfl
@[simp] theorem State.appendEntry_nextInstance (s : State) (p : Port) (q : QueuedFrame) (page : Option PageRef) : (s.appendEntry p q page).nextInstance = s.nextInstance := rfl
@[simp] theorem State.appendEntry_tileRam (s : State) (p : Port) (q : QueuedFrame) (page : Option PageRef) : (s.appendEntry p q page).tileRam = s.tileRam := rfl
@[simp] theorem State.appendEntry_tileLoaded (s : State) (p : Port) (q : QueuedFrame) (page : Option PageRef) : (s.appendEntry p q page).tileLoaded = s.tileLoaded := rfl
@[simp] theorem State.appendEntry_execution (s : State) (p : Port) (q : QueuedFrame) (page : Option PageRef) : (s.appendEntry p q page).execution = s.execution := rfl
@[simp] theorem State.appendEntry_pointer (s : State) (p : Port) (q : QueuedFrame) (page : Option PageRef) : (s.appendEntry p q page).pointer = s.pointer := rfl
@[simp] theorem State.appendEntry_streamer (s : State) (p : Port) (q : QueuedFrame) (page : Option PageRef) : (s.appendEntry p q page).streamer = s.streamer := rfl
@[simp] theorem State.appendEntry_engine (s : State) (p : Port) (q : QueuedFrame) (page : Option PageRef) : (s.appendEntry p q page).engine = s.engine := rfl
@[simp] theorem State.appendEntry_prdyLow (s : State) (p : Port) (q : QueuedFrame) (page : Option PageRef) : (s.appendEntry p q page).prdyLow = s.prdyLow := rfl
@[simp] theorem State.appendEntry_tail (s : State) (p : Port) (q : QueuedFrame) (page : Option PageRef) : (s.appendEntry p q page).tail = s.tail := rfl
@[simp] theorem State.appendEntry_videoPhase (s : State) (p : Port) (q : QueuedFrame) (page : Option PageRef) : (s.appendEntry p q page).videoPhase = s.videoPhase := rfl
@[simp] theorem State.appendEntry_vdat (s : State) (p : Port) (q : QueuedFrame) (page : Option PageRef) : (s.appendEntry p q page).vdat = s.vdat := rfl
@[simp] theorem State.appendEntry_lineOut (s : State) (p : Port) (q : QueuedFrame) (page : Option PageRef) : (s.appendEntry p q page).lineOut = s.lineOut := rfl
@[simp] theorem State.appendEntry_ramEpoch (s : State) (p : Port) (q : QueuedFrame) (page : Option PageRef) : (s.appendEntry p q page).ramEpoch = s.ramEpoch := rfl
@[simp] theorem State.appendEntry_freeCount (s : State) (p : Port) (q : QueuedFrame) (page : Option PageRef) : (s.appendEntry p q page).freeCount = s.freeCount := rfl

/-! ## The field an update is for -/

@[simp] theorem State.setSlot_slots (s : State) (i : Nat) (x : Slot) : (s.setSlot i x).slots = s.slots.set i x := rfl

@[simp] theorem State.writeBand_bandRam (s : State) (a : Nat) (v : Word) : (s.writeBand a v).bandRam = ramWrite s.bandRam a v := rfl

@[simp] theorem State.mapPage_pages (s : State) (r : PageRef) (f : PageRecord → PageRecord) :
    (s.mapPage r f).pages = s.pages.map fun p => if p.ref = r then f p else p := rfl

@[simp] theorem State.beginLine_streamer (s : State) (r : PageRef) (source : LineSource) :
    (s.beginLine r source).streamer = .sending r { source := source, word := 0, bits := 0, wordDone := false, early := false } := rfl

@[simp] theorem Both.get_set_same {α : Type} (x : Both α) (p : Port) (v : α) : (x.set p v).get p = v := by cases p <;> rfl

@[simp] theorem Both.get_set_other {α : Type} (x : Both α) (p : Port) (v : α) : (x.set p v).get p.other = x.get p.other := by
  cases p <;> rfl

theorem Both.get_set_ne {α : Type} (x : Both α) (p q : Port) (v : α) (h : q ≠ p) : (x.set p v).get q = x.get q := by
  cases p <;> cases q <;> first | rfl | exact absurd rfl h

@[simp] theorem Both.set_get {α : Type} (x : Both α) (p : Port) : x.set p (x.get p) = x := by cases p <;> rfl

@[simp] theorem Both.set_set {α : Type} (x : Both α) (p : Port) (v w : α) : (x.set p v).set p w = x.set p w := by cases p <;> rfl

@[simp] theorem Port.other_other (p : Port) : p.other.other = p := by cases p <;> rfl

@[simp] theorem Port.other_ne (p : Port) : p.other ≠ p := by cases p <;> decide

@[simp] theorem State.updPort_port_same (s : State) (p : Port) (f : PortState → PortState) : (s.updPort p f).port p = f (s.port p) := by
  cases p <;> rfl

@[simp] theorem State.updPort_port_other (s : State) (p : Port) (f : PortState → PortState) :
    (s.updPort p f).port p.other = s.port p.other := by cases p <;> rfl

theorem State.updPort_port_ne (s : State) (p q : Port) (f : PortState → PortState) (h : q ≠ p) :
    (s.updPort p f).port q = s.port q := by
  cases p <;> cases q <;> first | rfl | exact absurd rfl h

@[simp] theorem State.updPort_updPort (s : State) (p : Port) (f g : PortState → PortState) :
    (s.updPort p f).updPort p g = s.updPort p fun ps => g (f ps) := by cases p <;> rfl

@[simp] theorem State.updPort_id (s : State) (p : Port) : (s.updPort p fun ps => ps) = s := by cases p <;> rfl

/-- Updates of the two ports do not meet. -/
theorem State.updPort_comm (s : State) (p : Port) (f g : PortState → PortState) :
    (s.updPort p f).updPort p.other g = (s.updPort p.other g).updPort p f := by cases p <;> rfl

end Sys2Proof.Machine
end

