-- ==== Sys2Proof/Laws/Events.lean ====
section
/-! SUPPORT. Postings: what one does to an event queue (R175), and that it changes nothing else of the part (R174). -/

namespace Sys2Proof.Machine

/-! ## One queue -/

/-- A queue that holds an OVERFLOW record drops what is posted (R175). -/
theorem enqueueEvent_of_overflow {q : List Event} (h : hasOverflow q = true) (e : Event) : enqueueEvent q e = q := by
  simp [enqueueEvent, h]

/-- With room and no OVERFLOW record the event is appended (R175). -/
theorem enqueueEvent_of_room {q : List Event} (h : hasOverflow q = false) (hl : q.length < 15) (e : Event) :
    enqueueEvent q e = q ++ [e] := by
  simp [enqueueEvent, h, Config.eventRecords, hl]

/-- The event that meets 15 records is dropped and OVERFLOW with its kind is appended (R175). -/
theorem enqueueEvent_of_full {q : List Event} (h : hasOverflow q = false) (hl : 15 ≤ q.length) (e : Event) :
    enqueueEvent q e = q ++ [Event.overflowOf e.kind] := by
  simp [enqueueEvent, h, Config.eventRecords, Nat.not_lt.2 hl]

/-- A posting leaves the records that stand in the queue. -/
theorem enqueueEvent_prefix (q : List Event) (e : Event) : ∃ l, enqueueEvent q e = q ++ l := by
  unfold enqueueEvent
  split
  · exact ⟨[], by simp⟩
  · split <;> exact ⟨_, rfl⟩

/-- A posting never empties a queue. -/
theorem enqueueEvent_ne_nil (q : List Event) (e : Event) (h : q ≠ [] ∨ hasOverflow q = false) : enqueueEvent q e ≠ [] := by
  unfold enqueueEvent
  split
  · rcases h with h | h
    · exact h
    · simp_all
  · split <;> simp

/-! ## Postings to ports -/

/-- What a posting to a port does to it. -/
@[simp] theorem State.postTo_port_same (s : State) (p : Port) (e : Event) :
    (s.postTo p e).port p = { s.port p with events := enqueueEvent (s.port p).events e } := by
  cases p <;> rfl

@[simp] theorem State.postTo_port_other (s : State) (p : Port) (e : Event) : (s.postTo p e).port p.other = s.port p.other := by
  cases p <;> rfl

/-- A posting to the ports of a set changes the ports alone. -/
theorem State.postAll_eq (s : State) (ps : PortSet) (e : Event) : s.postAll ps e = { s with ports := (s.postAll ps e).ports } := by
  obtain ⟨a, b⟩ := ps
  cases a <;> cases b <;> rfl

/-- What it does to each port. -/
theorem State.postAll_port (s : State) (ps : PortSet) (e : Event) (p : Port) :
    (s.postAll ps e).port p =
      if ps.has p then { s.port p with events := enqueueEvent (s.port p).events e } else s.port p := by
  obtain ⟨a, b⟩ := ps
  cases a <;> cases b <;> cases p <;> rfl

/-- A posting to nobody changes nothing. -/
@[simp] theorem State.postAll_empty (s : State) (e : Event) : s.postAll .empty e = s := rfl

/-- An ENGINE FAULT reaches both ports and changes the ports alone (R155). -/
theorem State.postFault_port (s : State) (d : Nat) (p : Port) :
    (s.postFault d).port p = { s.port p with events := enqueueEvent (s.port p).events (Event.engineFault d) } := by
  cases p <;> rfl

theorem State.postFault_eq (s : State) (d : Nat) : s.postFault d = { s with ports := (s.postFault d).ports } := rfl

@[simp] theorem State.postMaybe_none (s : State) (p : Port) : s.postMaybe p none = s := rfl

@[simp] theorem State.postMaybe_some (s : State) (p : Port) (e : Event) : s.postMaybe p (some e) = s.postTo p e := rfl

theorem State.postMaybe_eq (s : State) (p : Port) (e : Option Event) : s.postMaybe p e = { s with ports := (s.postMaybe p e).ports } := by
  cases e <;> rfl

/-- A posting to a set leaves the other fields as they were. -/
@[simp] theorem State.postAll_slots (s : State) (ps : PortSet) (e : Event) : (s.postAll ps e).slots = s.slots := by
  rw [State.postAll_eq]

@[simp] theorem State.postAll_pages (s : State) (ps : PortSet) (e : Event) : (s.postAll ps e).pages = s.pages := by
  rw [State.postAll_eq]

@[simp] theorem State.postAll_streamer (s : State) (ps : PortSet) (e : Event) : (s.postAll ps e).streamer = s.streamer := by
  rw [State.postAll_eq]

@[simp] theorem State.postAll_execution (s : State) (ps : PortSet) (e : Event) : (s.postAll ps e).execution = s.execution := by
  rw [State.postAll_eq]

@[simp] theorem State.postAll_inFlight (s : State) (ps : PortSet) (e : Event) : (s.postAll ps e).inFlight = s.inFlight := by
  rw [State.postAll_eq]

@[simp] theorem State.postAll_pending (s : State) (ps : PortSet) (e : Event) : (s.postAll ps e).pending = s.pending := by
  rw [State.postAll_eq]

@[simp] theorem State.postAll_bandRam (s : State) (ps : PortSet) (e : Event) : (s.postAll ps e).bandRam = s.bandRam := by
  rw [State.postAll_eq]

@[simp] theorem State.postAll_clearOrder (s : State) (ps : PortSet) (e : Event) : (s.postAll ps e).clearOrder = s.clearOrder := by
  rw [State.postAll_eq]

end Sys2Proof.Machine
end

