-- ==== Sys2Proof/Laws/Bands.lean ====
section
/-! SUPPORT. Allocation, release, the ready notice and the checks: for each shared operation, what it can do (R6 to R8, R16, R19, R54, R58, R66, R125). -/

namespace Sys2Proof.Machine

/-! ## Slots -/

theorem State.slot_setSlot (s : State) (i j : Nat) (x : Slot) (h : i < s.slots.length) :
    (s.setSlot i x).slot j = if j = i then x else s.slot j := by
  simp only [State.slot, State.setSlot, List.getD_eq_getElem?_getD, List.getElem?_set]
  by_cases hj : j = i
  · subst hj; simp [h]
  · simp [hj, Ne.symm hj]

/-- A slot whose page matches is not FREE. -/
theorem Slot.held_of_ofPage {x : Slot} {r : PageRef} (h : x.ofPage r = true) : ∃ st k, x = .held st k ∧ k.page = r := by
  cases x with
  | free => simp [Slot.ofPage] at h
  | held st k => exact ⟨st, k, rfl, by simpa [Slot.ofPage] using h⟩

/-! ## Allocation -/

/-- One allocation (R7, R8): the oldest page that wants a band, and the lowest FREE slot without the in-flight mark. -/
theorem State.allocateOne_some {s t : State} (h : s.allocateOne = some t) :
    ∃ p i, s.pages.find? PageRecord.wantsBand = some p ∧ s.freeSlot = some i ∧
      t = { (s.mapPage p.ref fun q => { q with nextToAllocate := q.nextToAllocate + 1 }) with
        slots := s.slots.set i (.held .clearing p.nextBand), clearOrder := s.clearOrder ++ [i],
        clearPos := if s.clearOrder.isEmpty then 0 else s.clearPos } := by
  unfold State.allocateOne at h
  split at h
  · rename_i p i hp hi
    exact ⟨p, i, hp, hi, (Option.some.inj h).symm⟩
  · cases h

/-- What one allocation keeps, any number of them keeps. -/
theorem State.allocateUpTo_induct {P : State → Prop} (step : ∀ s t, P s → s.allocateOne = some t → P t) (n : Nat) (s : State) (h : P s) :
    P (State.allocateUpTo n s) := by
  induction n generalizing s with
  | zero => exact h
  | succ n ih =>
    simp only [State.allocateUpTo]
    split
    · exact h
    · rename_i t ht
      exact ih t (step s t h ht)

/-- What one allocation keeps, an evaluation of allocation keeps (R6). -/
theorem State.evaluateAllocation_induct {P : State → Prop} (step : ∀ s t, P s → s.allocateOne = some t → P t) (s : State) (h : P s) :
    P s.evaluateAllocation := State.allocateUpTo_induct step _ s h

/-- An evaluation of allocation changes the slots, the pages and the clear order alone. -/
theorem State.evaluateAllocation_eq (s : State) :
    s.evaluateAllocation = { s with
      slots := s.evaluateAllocation.slots, pages := s.evaluateAllocation.pages,
      clearOrder := s.evaluateAllocation.clearOrder, clearPos := s.evaluateAllocation.clearPos } := by
  refine State.evaluateAllocation_induct
    (P := fun t => t = { s with slots := t.slots, pages := t.pages, clearOrder := t.clearOrder, clearPos := t.clearPos }) ?_ s rfl
  intro t u ht hu
  obtain ⟨p, i, -, -, rfl⟩ := State.allocateOne_some hu
  rw [ht]
  rfl

/-! ## The line, the offer and the ready notice -/

/-- A start claim finds the slot READY and sets it STREAMING (R16). -/
theorem State.startBand_some {s t : State} {r : PageRef} {b : Nat} (h : s.startBand r b = some t) :
    ∃ i k, s.slotOfBand r b = some i ∧ s.slot i = .held .ready k ∧
      t = (s.setSlot i (.held .streaming k)).beginLine r (.slot i) := by
  unfold State.startBand at h
  split at h
  · cases h
  · rename_i i hi
    split at h
    · rename_i k hk
      exact ⟨i, k, hi, hk, (Option.some.inj h).symm⟩
    · cases h

/-- A ready notice does nothing, or starts the awaited band of a STARVED Streamer (R160). -/
theorem State.readyNotice_cases (s : State) (r : PageRef) (b : Nat) :
    s.readyNotice r b = s ∨ ∃ n x, s.streamer = .starved r b n x ∧ s.startBand r b = some (s.readyNotice r b) := by
  unfold State.readyNotice
  split
  · rename_i r' b' n x hst
    split
    · rename_i hrb
      obtain ⟨rfl, rfl⟩ := hrb
      cases hs : s.startBand r' b' with
      | none => left; rfl
      | some t => right; exact ⟨n, x, hst, rfl⟩
    · left; rfl
  · left; rfl

/-- An offer does nothing, or makes the PENDING head page OFFERED and hands it to the Streamer (R33, R140). -/
theorem State.evaluateOffer_cases (s : State) (w : Bool) :
    s.evaluateOffer w = s ∨ ∃ p rest, s.pages = p :: rest ∧ s.offerHolds = true ∧
      s.evaluateOffer w = { s with pages := { p with state := .offered } :: rest, streamer := .offered p.ref,
                                   prdyLow := if w then some 0 else none } := by
  unfold State.evaluateOffer
  split
  · left; rfl
  · rename_i p rest hp
    split
    · rename_i ho
      right; exact ⟨p, rest, hp, ho, rfl⟩
    · left; rfl

/-! ## Release -/

/-- The freeing of one slot does nothing, or frees a slot of the page and takes it from the clear order; what the waiting CLEAR_COMPLETIONs name may
grow (R13, R19; log 33). -/
theorem State.releaseSlot_cases (r : PageRef) (keep : Option Nat) (s : State) (i : Nat) :
    State.releaseSlot r keep s i = s ∨
      (s.slot i).ofPage r = true ∧ keep ≠ some i ∧ ∃ l, State.releaseSlot r keep s i =
        { ((s.setSlot i .free).leaveClearOrder i) with clearClaims := s.clearClaims ++ l } := by
  unfold State.releaseSlot
  split
  · rename_i h
    refine Or.inr ⟨h.1, h.2, ?_⟩
    unfold State.cancelClear State.settleClaim
    split
    · split
      · exact ⟨_, rfl⟩
      · exact ⟨[], by simp [State.leaveClearOrder, State.setSlot]⟩
    · exact ⟨[], by simp [State.leaveClearOrder, State.setSlot]⟩
  · exact Or.inl rfl

/-- What the freeing of one slot keeps, a release keeps, if its mark on the executing command keeps it too (R19, R104). -/
theorem State.releaseSlots_induct {P : State → Prop} {r : PageRef} {keep : Option Nat}
    (one : ∀ s i, P s → P (State.releaseSlot r keep s i)) (stop : ∀ s, P s → P (s.requestStop r)) (s : State) (h : P s) :
    P (s.releaseSlots r keep) := by
  apply stop
  generalize s.slotNumbers = l
  induction l generalizing s with
  | nil => exact h
  | cons i l ih => exact ih _ (one s i h)

/-! ## Claims of a clear's completion -/

/-- The clear under way is of a CLEARING slot at the front of the clear order (R10). -/
theorem State.clearUnderWay_some {s : State} {c : ClearClaim} (h : s.clearUnderWay = some c) :
    ∃ rest k, s.clearOrder = c.slot :: rest ∧ s.slot c.slot = .held .clearing k ∧ c.page = k.page ∧ c.band = k.band := by
  unfold State.clearUnderWay at h
  split at h
  · cases h
  · rename_i i rest ho
    split at h
    · rename_i k hk
      cases h
      exact ⟨rest, k, ho, hk, rfl, rfl⟩
    · cases h

/-- A completion claim is discarded, or completes the clear it names, which is under way (R5, R12, R13). -/
theorem State.takeClearClaim_cases (s : State) (c : ClearClaim) :
    s.takeClearClaim c = s ∨
      ∃ k, s.slot c.slot = .held .clearing k ∧ s.clearUnderWay = some c ∧ s.takeClearClaim c = s.completeClear c.slot k := by
  unfold State.takeClearClaim
  split
  · rename_i k hk
    split
    · rename_i h
      exact Or.inr ⟨k, hk, h, rfl⟩
    · exact Or.inl rfl
  · exact Or.inl rfl

/-! ## Waiting heads -/

/-- A repeated check leaves a port as it is, or returns its WAITING head to QUEUED (R68). -/
theorem State.recheckPort_cases (s : State) (r : PageRef) (p : Port) :
    s.recheckPort r p = s ∨
      ∃ e, s.headEntry p = some e ∧ e.life = .waiting ∧ s.recheckPort r p = s.setHeadLife p .queued := by
  unfold State.recheckPort
  split
  · left; rfl
  · rename_i e he
    split
    · rename_i hw
      split
      · left; rfl
      · right; exact ⟨e, he, hw.1, rfl⟩
    · left; rfl

/-- A repeated check changes the ports alone. -/
theorem State.recheck_eq (s : State) (r : PageRef) : s.recheck r = { s with ports := (s.recheck r).ports } := by
  unfold State.recheck
  rcases (s.recheckPort r .a).recheckPort_cases r .b with h | ⟨_, _, _, h⟩ <;>
    rcases s.recheckPort_cases r .a with g | ⟨_, _, _, g⟩ <;> rw [h, g] <;> rfl

/-- The completion of a WAITING head whose page is released: nothing, or its entry leaves with CMD ERROR PAGE ABORTED (R125). -/
theorem State.abortWaitingPort_cases (s : State) (r : PageRef) (p : Port) :
    s.abortWaitingPort r p = s ∨
      ∃ e, s.headEntry p = some e ∧ e.life = .waiting ∧ e.page = some r ∧
        s.abortWaitingPort r p = (s.popEntry p).postTo p (Event.ofCommand .cmdError e.commandTag 6) := by
  unfold State.abortWaitingPort
  split
  · left; rfl
  · rename_i e he
    split
    · rename_i hw
      right; exact ⟨e, he, hw.1, hw.2, rfl⟩
    · left; rfl

/-- It changes the ports alone. -/
theorem State.abortWaiting_eq (s : State) (r : PageRef) : s.abortWaiting r = { s with ports := (s.abortWaiting r).ports } := by
  unfold State.abortWaiting
  rcases (s.abortWaitingPort r .a).abortWaitingPort_cases r .b with h | ⟨_, _, _, _, h⟩ <;>
    rcases s.abortWaitingPort_cases r .a with g | ⟨_, _, _, _, g⟩ <;> rw [h, g] <;> rfl

end Sys2Proof.Machine
end

