-- ==== Sys2Proof/Laws/Clock.lean ====
section
/-! SUPPORT. One period of the internal clock: what each block's share of it changes (R11, R88, R135, R139, R159). -/

namespace Sys2Proof.Machine

/-- The Clear Unit's word changes band RAM and the place in the clear alone (R11). -/
theorem State.clearTick_eq (s : State) :
    s.clearTick = { s with bandRam := s.clearTick.bandRam, clearPos := s.clearTick.clearPos } := by
  unfold State.clearTick
  split
  · rfl
  · split
    · split <;> rfl
    · rfl

/-- The Raster Unit's period changes its execution record and its memories alone (R88). -/
theorem State.rasterTick_cases (s : State) :
    s.rasterTick = s ∨
      (∃ x, s.execution = some x ∧ s.rasterTick = { s with execution := some { x with period := x.period + 1 } }) ∨
      s.rasterTick = s.rasterWord := by
  unfold State.rasterTick
  split
  · exact .inl rfl
  · rename_i x hx
    split
    · exact .inl rfl
    · split
      · exact .inr (.inl ⟨x, hx, rfl⟩)
      · exact .inr (.inr rfl)

theorem State.resumeWord_eq (s : State) :
    s.resumeWord = { s with streamer := s.resumeWord.streamer, lineOut := s.resumeWord.lineOut, vdat := s.resumeWord.vdat } := by
  unfold State.resumeWord
  split
  · split <;> rfl
  · rfl

theorem State.streamerBoundary_eq (s : State) :
    s.streamerBoundary =
      { s with streamer := s.streamerBoundary.streamer, lineOut := s.streamerBoundary.lineOut, vdat := s.streamerBoundary.vdat } := by
  unfold State.streamerBoundary
  split
  · split
    · rfl
    · unfold State.lineBoundary
      split
      · rfl
      · split <;> rfl
  · rfl
  · rfl

theorem State.tailBoundary_eq (s : State) : s.tailBoundary = { s with tail := s.tailBoundary.tail, vdat := s.tailBoundary.vdat } := by
  unfold State.tailBoundary
  split
  · rfl
  · split
    · rfl
    · split <;> rfl

/-- The video clock's period changes the line's progress and the video output alone (R135). -/
theorem State.videoTick_eq (s : State) : ∃ streamer lineOut vdat tail phase,
    s.videoTick = { s with streamer := streamer, lineOut := lineOut, vdat := vdat, tail := tail, videoPhase := phase } := by
  obtain ⟨a, b, c, h⟩ : ∃ a b c, s.resumeWord = { s with streamer := a, lineOut := b, vdat := c } := ⟨_, _, _, s.resumeWord_eq⟩
  have boundary : ∀ u : State, ∃ a b c d, u.streamerBoundary.tailBoundary = { u with streamer := a, lineOut := b, vdat := c, tail := d } := by
    intro u
    obtain ⟨a, b, c, h⟩ : ∃ a b c, u.streamerBoundary = { u with streamer := a, lineOut := b, vdat := c } := ⟨_, _, _, u.streamerBoundary_eq⟩
    rw [h]
    exact ⟨_, _, _, _, State.tailBoundary_eq _⟩
  unfold State.videoTick
  rw [h]
  extract_lets t
  split
  · obtain ⟨d, e, f, g, h2⟩ := boundary { t with videoPhase := 0 }
    exact ⟨d, e, f, g, 0, h2⟩
  · exact ⟨a, b, c, s.tail, s.videoPhase + 1, rfl⟩

theorem State.starvationTick_eq (s : State) : s.starvationTick = { s with streamer := s.starvationTick.streamer } := by
  unfold State.starvationTick
  split
  · split <;> rfl
  · rfl

/-- After the Clear Unit's and the Raster Unit's shares of a period, the memories stay. -/
theorem State.tick_bandRam (s : State) : s.tick.bandRam = s.clearTick.rasterTick.bandRam := by
  obtain ⟨_, _, _, _, _, h⟩ := s.clearTick.rasterTick.videoTick_eq
  unfold State.tick State.prdyTick
  rw [State.starvationTick_eq, h]

theorem State.tick_tileRam (s : State) : s.tick.tileRam = s.clearTick.rasterTick.tileRam := by
  obtain ⟨_, _, _, _, _, h⟩ := s.clearTick.rasterTick.videoTick_eq
  unfold State.tick State.prdyTick
  rw [State.starvationTick_eq, h]

theorem State.tick_execution (s : State) : s.tick.execution = s.clearTick.rasterTick.execution := by
  obtain ⟨_, _, _, _, _, h⟩ := s.clearTick.rasterTick.videoTick_eq
  unfold State.tick State.prdyTick
  rw [State.starvationTick_eq, h]

end Sys2Proof.Machine
end

