-- ==== Sys2Proof/Laws/Frames.lean ====
section
/-! SUPPORT. Frames: bytes shifted, and what a frame changes (R185 to R189). -/

namespace Sys2Proof.Machine

/-- Bytes shifted one run after another are shifted as one run. -/
theorem State.shiftBytes_append (s : State) (p : Port) (l m : List Byte) :
    s.shiftBytes p (l ++ m) = (s.shiftBytes p l).shiftBytes p m := by
  simp [State.shiftBytes, List.foldl_append]

/-- A byte shifted changes its own port alone. -/
theorem State.shiftByte_eq (s : State) (p : Port) (b : Byte) :
    State.shiftByte p s b = s.updPort p fun _ => (State.shiftByte p s b).port p := by cases p <;> rfl

/-- Bytes shifted change their own port alone. -/
theorem State.shiftBytes_eq (s : State) (p : Port) (l : List Byte) :
    s.shiftBytes p l = s.updPort p fun _ => (s.shiftBytes p l).port p := by
  induction l generalizing s with
  | nil => cases p <;> rfl
  | cons b l ih =>
    have h := ih (State.shiftByte p s b)
    have h2 : s.shiftBytes p (b :: l) = (State.shiftByte p s b).shiftBytes p l := rfl
    rw [h2, h]
    cases p <;> rfl

/-! ## The bits of an unfinished byte, and the pin -/

@[simp] theorem firstBits_none (b : Byte) : firstBits b 0 = [] := rfl

/-- Of 00H every bit is 0. -/
theorem firstBits_zero (n : Nat) : firstBits 0 n = List.replicate n false := by
  unfold firstBits
  apply List.ext_getElem
  · simp
  · intro i h1 h2
    simp [BitVec.getMsbD]

/-- ASDO is high impedance while select is high (R185). -/
theorem State.asdoPin_of_selectHigh {s : State} {p : Port} (h : (s.port p).selectHigh = true) : s.asdoPin p = none := by
  simp [State.asdoPin, h]

/-- And while reset is held (R198). -/
theorem State.asdoPin_of_resetHeld {s : State} (h : s.resetHeld = true) (p : Port) : s.asdoPin p = none := by
  simp [State.asdoPin, h]

/-! ## Whole frames -/

/-- A frame command at select high, with no frame begun yet, runs on the frame it opens (log 2). -/
theorem State.openIfWhole_of_canOpen {s : State} {p : Port} (h : s.canOpen p = true) : s.openIfWhole p = s.openFrame p := by
  simp [State.openIfWhole, h]

/-- With a frame in progress it opens none. -/
theorem State.openIfWhole_of_open {s : State} {p : Port} (h : s.canOpen p = false) : s.openIfWhole p = s := by
  simp [State.openIfWhole, h]

/-- An acceptance that refuses changes nothing (R118). -/
theorem State.acceptFrame_refused {s t : State} {p : Port} {q : Option QueuedFrame} {o : FrameOutcome}
    (h : s.acceptFrame p q = (t, o)) (ho : o ≠ .ok) : t = s := by
  unfold State.acceptFrame at h
  repeat' split at h
  all_goals
    have h1 := congrArg Prod.fst h
    have h2 := congrArg Prod.snd h
    simp only at h1 h2
    first
      | exact h1.symm
      | exact absurd h2.symm ho

end Sys2Proof.Machine
end

