-- ==== Sys2Proof/Laws/Memory.lean ====
section
/-! SUPPORT. The memories: what a write does, and that every operation on a memory keeps its canonical form (R1, R79, R116; log 5). -/

namespace Sys2Proof.Machine

/-! ## One word -/

/-- The addresses listed after a write: the old ones and the written one. -/
theorem mem_addresses_ramWrite {m : WordRam} {a b : Nat} {v : Word} (h : b ∈ (ramWrite m a v).map Prod.fst) :
    b = a ∨ b ∈ m.map Prod.fst := by
  induction m with
  | nil => simpa [ramWrite] using h
  | cons x m ih =>
    obtain ⟨k, w⟩ := x
    simp only [ramWrite] at h
    split at h
    · simpa using h
    · split at h
      · subst_vars; simp only [List.map_cons, List.mem_cons] at h ⊢; tauto
      · simp only [List.map_cons, List.mem_cons] at h ⊢
        rcases h with h | h
        · exact .inr (.inl h)
        · rcases ih h with h | h
          · exact .inl h
          · exact .inr (.inr h)

/-- A write keeps the canonical form. -/
theorem ramWrite_wf {m : WordRam} (h : m.wf) (a : Nat) (v : Word) : (ramWrite m a v).wf := by
  induction m with
  | nil => simp [ramWrite, WordRam.wf]
  | cons x m ih =>
    obtain ⟨k, w⟩ := x
    simp only [WordRam.wf, List.map_cons, List.pairwise_cons] at h
    simp only [ramWrite]
    split
    · rename_i hlt
      simp only [WordRam.wf, List.map_cons, List.pairwise_cons]
      refine ⟨?_, h.1, h.2⟩
      intro b hb
      rcases List.mem_cons.1 hb with hb | hb
      · simpa [hb] using hlt
      · exact Nat.lt_trans hlt (h.1 b hb)
    · split
      · subst_vars
        simpa [WordRam.wf] using h
      · rename_i h1 h2
        simp only [WordRam.wf, List.map_cons, List.pairwise_cons]
        refine ⟨?_, ih h.2⟩
        intro b hb
        rcases mem_addresses_ramWrite hb with hb | hb
        · omega
        · exact h.1 b hb

/-- The word written is the word read. -/
@[simp] theorem ramLookup_ramWrite_same (m : WordRam) (a : Nat) (v : Word) : ramLookup (ramWrite m a v) a = some v := by
  induction m with
  | nil => simp [ramWrite, ramLookup]
  | cons x m ih =>
    obtain ⟨k, w⟩ := x
    simp only [ramWrite]
    split
    · simp [ramLookup]
    · split
      · simp [ramLookup]
      · rename_i h1 h2
        have h3 : k ≠ a := fun h => h2 h.symm
        simp [ramLookup, h3, ih]

/-- In a canonical memory every other word reads as before. -/
theorem ramLookup_ramWrite_ne {m : WordRam} {a b : Nat} (v : Word) (h : b ≠ a) : ramLookup (ramWrite m a v) b = ramLookup m b := by
  induction m with
  | nil => simp [ramWrite, ramLookup, Ne.symm h]
  | cons x m ih =>
    obtain ⟨k, w⟩ := x
    simp only [ramWrite]
    split
    · simp [ramLookup, Ne.symm h]
    · split
      · rename_i h1 h2
        subst h2
        simp [ramLookup, Ne.symm h]
      · simp only [ramLookup, ih]

@[simp] theorem ramRead_ramWrite_same (g : Config.RamRegion) (n : Nat) (m : WordRam) (a : Nat) (v : Word) :
    ramRead g n (ramWrite m a v) a = v := by simp [ramRead]

theorem ramRead_ramWrite_ne {g : Config.RamRegion} {n : Nat} {m : WordRam} {a b : Nat} {v : Word} (h : b ≠ a) :
    ramRead g n (ramWrite m a v) b = ramRead g n m b := by simp [ramRead, ramLookup_ramWrite_ne v h]

/-! ## Band RAM -/

@[simp] theorem State.readBand_writeBand_same (s : State) (a : Nat) (v : Word) : (s.writeBand a v).readBand a = v :=
  ramRead_ramWrite_same ..

theorem State.readBand_writeBand_ne (s : State) {a b : Nat} (v : Word) (h : b ≠ a) : (s.writeBand a v).readBand b = s.readBand b :=
  ramRead_ramWrite_ne h

/-- Clearing words changes band RAM alone. -/
theorem State.clearWords_eq (i : Nat) (v : Word) (n w : Nat) (s : State) :
    State.clearWords i v n w s = { s with bandRam := (State.clearWords i v n w s).bandRam } := by
  induction n generalizing w s with
  | zero => rfl
  | succ n ih => simp only [State.clearWords]; rw [ih]; rfl

/-- What clearing leaves at an address: the fill value in the words cleared, and what stood there elsewhere (R11). -/
theorem State.readBand_clearWords (i : Nat) (v : Word) (n w : Nat) (s : State) (a : Nat) :
    (State.clearWords i v n w s).readBand a =
      if slotAddress i w ≤ a ∧ a < slotAddress i (w + n) then v else s.readBand a := by
  induction n generalizing w s with
  | zero => simp only [State.clearWords, Nat.add_zero]; rw [if_neg]; omega
  | succ n ih =>
    simp only [State.clearWords]
    rw [ih]
    have h1 : slotAddress i (w + 1) = slotAddress i w + 1 := by simp only [slotAddress]; omega
    have h2 : slotAddress i (w + (n + 1)) = slotAddress i (w + 1 + n) := by simp only [slotAddress]; omega
    rw [h1] at *
    rw [h2]
    by_cases ha : a = slotAddress i w
    · subst ha
      rw [if_neg (by omega), if_pos]
      · simp
      · simp only [slotAddress]; omega
    · rw [State.readBand_writeBand_ne _ _ ha]
      by_cases hb : slotAddress i w ≤ a
      · have hc : slotAddress i w + 1 ≤ a := by omega
        simp [hb, hc]
      · have hc : ¬ slotAddress i w + 1 ≤ a := by omega
        simp [hb, hc]

/-- Clearing words keeps band RAM canonical. -/
theorem State.clearWords_wf (i : Nat) (v : Word) (n w : Nat) (s : State) (h : s.bandRam.wf) :
    (State.clearWords i v n w s).bandRam.wf := by
  induction n generalizing w s with
  | zero => exact h
  | succ n ih => exact ih _ _ (ramWrite_wf h _ _)

/-! ## Staging RAM -/

/-- Placing a payload keeps staging RAM canonical (R116). -/
theorem stagingPlace_wf {m : WordRam} (h : m.wf) (at_ : Nat) (ws : List Word) : (stagingPlace m at_ ws).wf := by
  induction ws generalizing m at_ with
  | nil => exact h
  | cons w ws ih => exact ih (ramWrite_wf h _ _) _

/-! ## The Raster Unit's words -/

/-- One word of a command's work keeps band RAM and the tile store canonical. -/
theorem State.touchWord_wf (s : State) (x : ExecRecord) (hb : s.bandRam.wf) (ht : s.tileRam.wf) :
    (s.touchWord x).1.bandRam.wf ∧ (s.touchWord x).1.tileRam.wf := by
  unfold State.touchWord State.touchBandWord
  repeat' split
  all_goals first
    | exact ⟨hb, ht⟩
    | exact ⟨hb, ramWrite_wf ht _ _⟩
    | exact ⟨ramWrite_wf hb _ _, ht⟩

/-- So does all the work that remains of it. -/
theorem State.rasterWords_wf (n : Nat) (s : State) (hb : s.bandRam.wf) (ht : s.tileRam.wf) :
    (State.rasterWords n s).bandRam.wf ∧ (State.rasterWords n s).tileRam.wf := by
  induction n generalizing s with
  | zero => exact ⟨hb, ht⟩
  | succ n ih =>
    apply ih
    all_goals
      unfold State.rasterWord
      split
      · assumption
      · split
        · assumption
        · first | exact (State.touchWord_wf s _ hb ht).1 | exact (State.touchWord_wf s _ hb ht).2

/-- A memory that lists nothing is canonical. -/
theorem WordRam.wf_nil : WordRam.wf [] := by simp [WordRam.wf]

/-- Band RAM after reset is canonical. -/
theorem State.reset_bandRam_wf : State.reset.bandRam.wf := WordRam.wf_nil

/-- The tile store after reset is canonical. -/
theorem State.reset_tileRam_wf : State.reset.tileRam.wf := WordRam.wf_nil

/-- Each staging RAM after reset is canonical. -/
theorem State.reset_staging_wf (p : Port) : (State.reset.port p).staging.wf := by cases p <;> exact WordRam.wf_nil

end Sys2Proof.Machine
end

