-- ==== Sys2Proof/Laws/Ring.lean ====
section
/-! SUPPORT. Lines whose page is removed, PORT RESET's claim, waiting heads, and the small facts of the law of the ring of bands (R3, R9, R20, R34, R49, R54,
R125, R139, R140, R169). -/

namespace Sys2Proof.Machine

/-! ## The word of a removed page -/

@[simp] theorem State.cutWord_of_tail {s : State} {w : TailWord} (h : s.tail = some w) (r : PageRef) (line : LineInFlight) :
    s.cutWord r line = w := by
  simp [State.cutWord, h]

@[simp] theorem State.cutWord_of_no_tail {s : State} (h : s.tail = none) (r : PageRef) (line : LineInFlight) :
    s.cutWord r line =
      { word := s.lineWord r line.source line.word, first := decide (line.word = 0), bits := line.bits, done := line.wordDone } := by
  simp [State.cutWord, h]

/-- The Streamer leaves its page for IDLE, and keeps the word in flight of a line being SENT (R169). -/
theorem State.stopServing_cases (s : State) :
    (∃ r line, s.streamer = .sending r line ∧
      s.stopServing = { s with streamer := .idle, prdyLow := none, tail := some (s.cutWord r line) }) ∨
    ((∀ r line, s.streamer ≠ .sending r line) ∧ s.stopServing = { s with streamer := .idle, prdyLow := none }) := by
  unfold State.stopServing
  split
  · rename_i r line h
    exact .inl ⟨r, line, h, rfl⟩
  · rename_i h
    exact .inr ⟨h, rfl⟩

/-! ## The end of a copy -/

@[simp] theorem State.evaluateOffer_slots (s : State) (w : Bool) : (s.evaluateOffer w).slots = s.slots := by
  rcases s.evaluateOffer_cases w with h | ⟨_, _, _, _, h⟩ <;> rw [h]

@[simp] theorem State.recheck_slots (s : State) (r : PageRef) : (s.recheck r).slots = s.slots := by
  rw [State.recheck_eq]

@[simp] theorem State.finishPage_slots (s : State) (r : PageRef) : (s.finishPage r).slots = s.slots := by
  simp [State.finishPage]

/-- The copy-end claim changes no slot: the band-end claim before it has done so (R17, R18). -/
@[simp] theorem State.copyEnd_slots (s : State) (p : PageRecord) : (s.copyEnd p).slots = s.slots := by
  unfold State.copyEnd
  split
  · rfl
  · simp

/-! ## PORT RESET -/

/-- The end of a claim that withdrew an offer changes PRDY's low period alone (R139). -/
theorem State.afterWithdrawal_eq (s : State) : s.afterWithdrawal = { s with prdyLow := s.afterWithdrawal.prdyLow } := by
  unfold State.afterWithdrawal
  split <;> rfl

/-- An offer has been withdrawn exactly where the Streamer offered a page that it offers no more (R140). -/
theorem State.withdraws_iff (s t : State) : s.withdraws t = true ↔ ∃ r, s.streamer = .offered r ∧ t.streamer ≠ .offered r := by
  unfold State.withdraws
  split
  · rename_i r h
    simp [h]
  · rename_i h
    simp only [Bool.false_eq_true, false_iff]
    rintro ⟨r, hr, -⟩
    exact h r hr

/-- What the port's own clearing, the work on one record and PRDY's low period keep, PORT RESET keeps (R49, R196). -/
theorem State.resetPort_induct {P : State → Prop} {p : Port} (s : State)
    (own : P (({ s with execution := s.execution.map fun x => if x.port = p then { x with silent := true } else x } : State).updPort p
      fun ps => { ps with queue := [], events := [], interruptEnable := false, outcome := .ok }))
    (record : ∀ t r, P t → P (State.resetRecord p t r)) (low : ∀ t : State, P t → P { t with prdyLow := some 0 }) :
    P (s.resetPort p) := by
  have fold : ∀ (l : List PageRef) (x : State × Bool), P x.1 → P (l.foldl (State.resetNext p) x).1 := by
    intro l
    induction l with
    | nil => exact fun _ hx => hx
    | cons r l ih => exact fun x hx => ih _ (record _ _ hx)
  have last : ∀ t : State, P t → P t.afterWithdrawal := by
    intro t ht
    unfold State.afterWithdrawal
    split
    · exact low t ht
    · exact ht
  unfold State.resetPort
  extract_lets s1 s2 x
  split
  · exact last _ (fold _ _ own)
  · exact fold _ _ own

/-! ## Waiting heads -/

/-- Where no WAITING head names the page, its release leaves the port as it is. -/
theorem State.abortWaitingPort_of_not_waits {s : State} {r : PageRef} {p : Port} (h : s.waitsOn p r = false) :
    s.abortWaitingPort r p = s := by
  rcases s.abortWaitingPort_cases r p with h' | ⟨e, he, hw, hr, -⟩
  · exact h'
  · simp [State.waitsOn, he, hw, hr] at h

/-- Nor does the repeated check touch it. -/
theorem State.queueAfterRecheck_of_not_waits {s : State} {r : PageRef} {z : Port} (h : s.waitsOn z r = false) (t : State) :
    s.queueAfterRecheck t r z = (s.port z).queue := by
  unfold State.queueAfterRecheck
  unfold State.waitsOn State.headEntry at h
  cases hq : (s.port z).queue with
  | nil => rfl
  | cons e es =>
    rw [hq] at h
    simp only [List.head?_cons, Bool.and_eq_false_iff, decide_eq_false_iff_not] at h
    simp only
    rw [if_neg (by rintro ⟨h1, h2, -⟩; exact h.elim (· h1) (· h2))]

/-! ## The ring of bands -/

@[simp] theorem Slot.inRun_free (p : PageRecord) : Slot.inRun p .free = true := rfl

/-- A slot of another page is no slot of the run. -/
theorem Slot.inRun_of_other {p : PageRecord} {x : Slot} (h : x.ofPage p.ref = false) : x.inRun p = true := by
  cases x with
  | free => rfl
  | held st k =>
    simp only [Slot.ofPage, decide_eq_false_iff_not] at h
    simp [Slot.inRun, h]

@[simp] theorem State.slotHasPage_free (s : State) : s.slotHasPage .free = true := rfl

@[simp] theorem State.streamsItsPage_free (s : State) : s.streamsItsPage .free = true := rfl

@[simp] theorem State.readyIsClosed_free (s : State) : s.readyIsClosed .free = true := rfl

@[simp] theorem State.readyIsClosed_clearing (s : State) (k : BandRecord) : s.readyIsClosed (.held .clearing k) = true := rfl

@[simp] theorem State.readyIsClosed_opened (s : State) (k : BandRecord) : s.readyIsClosed (.held .opened k) = true := by
  simp [State.readyIsClosed]

/-- The laws of the page queue and of the slots read the pages alone. -/
theorem State.slotHasPage_congr {s t : State} (h : t.pages = s.pages) (x : Slot) : t.slotHasPage x = s.slotHasPage x := by
  unfold State.slotHasPage State.findPage
  rw [h]

theorem State.streamsItsPage_congr {s t : State} (h : t.pages = s.pages) (x : Slot) : t.streamsItsPage x = s.streamsItsPage x := by
  unfold State.streamsItsPage State.findPage
  rw [h]

theorem State.readyIsClosed_congr {s t : State} (h : t.pages = s.pages) (x : Slot) : t.readyIsClosed x = s.readyIsClosed x := by
  unfold State.readyIsClosed State.findPage
  rw [h]

theorem State.holdsRun_congr {s t : State} (h : t.slots = s.slots) (p : PageRecord) : t.holdsRun p ↔ s.holdsRun p := by
  unfold State.holdsRun
  rw [h]

theorem State.lineInFlight_congr {s t : State} (h : t.streamer = s.streamer) : t.lineInFlight = s.lineInFlight := by
  unfold State.lineInFlight
  rw [h]

/-- A state with the same pages, slots and Streamer keeps the law of the ring of bands. -/
theorem State.ringLawful_congr {s t : State} (hp : t.pages = s.pages) (hs : t.slots = s.slots) (hst : t.streamer = s.streamer)
    (h : s.ringLawful) : t.ringLawful := by
  obtain ⟨⟨h1, h2, h3⟩, ⟨h4, h5, h6⟩, h7, h8, h9, h10, h11⟩ := h
  refine ⟨⟨by rwa [hp], by rwa [hp], by rwa [hp, hst]⟩, ⟨?_, by rwa [hs], ?_⟩, ?_, ?_, ?_, ?_, ?_⟩
  · intro x hx; rw [State.slotHasPage_congr hp]; exact h4 x (hs ▸ hx)
  · intro x hx; rw [State.streamsItsPage_congr hp]; exact h6 x (hs ▸ hx)
  · intro p hpp; exact ⟨(h7 p (hp ▸ hpp)).1, (State.holdsRun_congr hs p).mpr (h7 p (hp ▸ hpp)).2⟩
  · intro x hx; rw [State.readyIsClosed_congr hp]; exact h8 x (hs ▸ hx)
  · unfold State.lineHasSlot State.slot; rw [State.lineInFlight_congr hst, hp, hs]; exact h9
  · unfold State.blankingStreams State.slotNumbers State.slot State.findPage State.lineSlot; rw [hp, hs, hst]; exact h10
  · unfold State.awaitsNextBand; rw [hst, hp]; exact h11

end Sys2Proof.Machine
end

