-- ==== Sys2Proof/Tests/Slice0.lean ====
section
/-! SUPPORT. Our own tests: the well-formedness smoke, frames read from their bytes, small tests of the commands with the values of the manual's examples, and
for every statement with hypotheses a state and operands that meet them. -/

namespace Sys2Proof.Tests

set_option Elab.async false

open Sys2Proof.Machine

/-! ## Well-formedness: each check refuses an ill-formed term -/

theorem test_wellFormed_bad_frame_of_eight_bits : (Instr.badFrame .a 8).wellFormed = false ∧ (Instr.badFrame .a 7).wellFormed = true := by
  decide

theorem test_wellFormed_known_code_is_not_unknown :
    (Instr.unknownCommand .a 0x81 .commandByte).wellFormed = false ∧ (Instr.unknownCommand .a 0x55 .commandByte).wellFormed = true := by
  decide

theorem test_wellFormed_select_after_eight_bits :
    (Instr.fill .b (.selectHigh [] 8)).wellFormed = false ∧ (Instr.fill .b (.selectHigh [] 7)).wellFormed = true := by decide

theorem test_wellFormed_held_after_the_last_word :
    (Instr.held (.wordEnd 639)).wellFormed = false ∧ (Instr.held (.wordEnd 638)).wellFormed = true := by decide

/-! ## Frames read from their bytes (R200) -/

theorem test_frame_open_page :
    commandOfFrame .a [0x30, 0x05, 0x03, 0x0A, 0x40, 0x20, 0x01, 0x40, 0x00, 0x03, 0x01, 0x00] 0 =
      .openPage .a (.selectHigh [0x05, 0x03, 0x0A, 0x40, 0x20, 0x01, 0x40, 0x00, 0x03, 0x01, 0x00] 0) ∧
    (pageOperandsOf [0x05, 0x03, 0x0A, 0x40, 0x20, 0x01, 0x40, 0x00, 0x03, 0x01, 0x00]).width = 320 ∧
    (pageOperandsOf [0x05, 0x03, 0x0A, 0x40, 0x20, 0x01, 0x40, 0x00, 0x03, 0x01, 0x00]).lastBandHeight = 32 := by decide

theorem test_frame_fill :
    parseFill [0x07, 0x01, 0x05, 0x02, 0x00, 0x14, 0x03, 0x00, 0x25, 0x02, 0x06, 0x01] =
      some { op := .fill 20 3 37 2 6 (.solid true), commandTag := 7, notify := true, pageTag := some 5, band := some 2, payload := [] } := by
  decide

theorem test_frame_queued_kinds :
    commandOfFrame .b [0x8B, 1, 0, 5, 2] 0 = .sumBand .b (.selectHigh [1, 0, 5, 2] 0) ∧
    parseCopy [1, 0, 5, 2, 0, 10, 1, 0x27, 0xFF, 63, 0x28, 0x00, 64, 15] =
      some { op := .copy 10 1 10239 63 10240 64 15, commandTag := 1, notify := false, pageTag := some 5, band := some 2, payload := [] } ∧
    parseMark [9, 0, 0xBE, 0xEF] =
      some { op := .mark 0xBEEF, commandTag := 9, notify := false, pageTag := none, band := none, payload := [] } ∧
    parseFill [1, 2, 5, 2, 0, 0, 0, 0, 1, 1, 12, 1] = none ∧ parseFill [1, 0, 5, 2, 0, 0, 0, 0, 1, 1, 12, 2] = none := by decide

theorem test_frame_put_bits_length :
    frameLength 0x82 [1, 0, 5, 2, 0, 0, 0, 0, 20, 64, 12] = some (12 + 2 * 128) ∧
    parsePutBits [1, 0, 5, 2, 0, 0, 0, 0, 20, 1, 12, 0xAB, 0xCD, 0xE0, 0x00] =
      some { op := .putBits 0 0 20 1 12, commandTag := 1, notify := false, pageTag := some 5, band := some 2,
             payload := [0xABCD, 0xE000] } := by decide

/-! ## Small states -/

/-- A page of three bands of two lines, the last of one, two words wide. -/
def page : PageRecord :=
  { ref := { tag := 5, inst := 3 }, opener := .a, participants := .both, bandCount := 3, bandHeight := 2, lastBandHeight := 1, width := 2,
    background := true, lead := 1, copies := 1, resident := false, state := .pending, nextToAllocate := 1, nextToStream := 0,
    copiesRemaining := 1, linesServed := 0, spoilCause := none }

/-- The record of its band 0. -/
def band : BandRecord :=
  { page := page.ref, band := 0, lines := 2, width := 2, background := true, closedBy := .empty, forced := false, forcePending := false }

/-- The part with that page in a state, its band 0 in slot 0 in a state, and the Streamer in a state. -/
def part (ps : PageState) (hs : HeldState) (st : StreamerState) : State :=
  { State.reset with pages := [{ page with state := ps }], slots := Slot.held hs band :: List.replicate 7 .free, streamer := st,
                     clearOrder := if hs = .clearing then [0] else [] }

/-- An entry of a queue. -/
def entry (op : Operation) : Entry :=
  { op := op, commandTag := 7, notify := true, page := if op.namesPage then some page.ref else none,
    band := if op.namesBand then some 0 else none, payloadLength := op.payloadLength,
    stagingPosition := if op.payloadLength = 0 then none else some 0, life := .queued }

/-- Port A with a queue. -/
def queued (l : List Entry) (s : State) : State := s.updPort .a fun ps => { ps with queue := l }

/-- The state a command answers; the state itself where it answers none. -/
def after (c : Instr) (s : State) : State :=
  match exec c s with
  | .next t => t
  | _ => s

/-- The line of that page from slot 0. -/
def line (word bits : Nat) (early : Bool) : LineInFlight :=
  { source := .slot 0, word := word, bits := bits, wordDone := false, early := early }

/-- The state a step answers, if it answers one. -/
def stepped (s : State) : Option State :=
  match step s with
  | .next t => some t
  | _ => none

/-- A whole frame of port A. -/
def sent (bytes : List Byte) (s : State) : State := after (commandOfFrame .a bytes 0) s

/-! ## Commands -/

theorem test_result_byte_after_reset : (after (.frameResultByte .a) State.reset).port .a =
    { PortState.reset with
      selectHigh := false,
      assembler := { FrameAssembler.empty with state := .command, outData := [0] } } := by decide +kernel

theorem test_result_byte_of_a_busy_part :
    ((part .printing .streaming (.betweenLines page.ref)).postFault 1).frameResultByte .a = 0x09 := by decide +kernel

theorem test_bad_frame_then_nop :
    ((after (.badFrame .a 3) State.reset).port .a).outcome = .badFrame ∧
    ((sent [0x00] (after (.badFrame .a 3) State.reset)).port .a).asdo = [0x10] := by decide +kernel

theorem test_unknown_command : ((sent [0x55, 1, 2] State.reset).port .a).outcome = .unknownCommand ∧
    ((sent [0x55, 1, 2] State.reset).port .a).asdo = [0, 0, 0] := by decide +kernel

theorem test_read_status_after_reset :
    ((sent (0x21 :: List.replicate 12 0) State.reset).port .a).asdo = [0, 8, 4, 0, 0, 0, 0, 0, 0, 0, 0, 0, 0] := by decide +kernel

theorem test_read_events_removes_a_record :
    ((sent (0x22 :: List.replicate 9 0) (State.reset.postFault 2)).port .a).asdo = [8, 13, 0, 0, 0, 0, 0, 0, 2, 0] ∧
    ((sent (0x22 :: List.replicate 9 0) (State.reset.postFault 2)).port .a).events = [] ∧
    ((sent (0x22 :: List.replicate 7 0) (State.reset.postFault 2)).port .a).events = [Event.engineFault 2] := by decide +kernel

theorem test_event_record_removal :
    ((after (.eventRecordRemoval .a) (after (.readEvents .a .commandByte) (after (.frameResultByte .a) (State.reset.postFault 2)))).port
      .a).events = [] := by decide +kernel

theorem test_read_pages_and_bands :
    ((sent (0x23 :: List.replicate 20 0) (part .printing .streaming (.betweenLines page.ref))).port .a).asdo =
      [1, 1, 5, 0, 3, 2, 3, 3, 2, 1, 0, 2, 1, 1, 1, 1, 1, 0, 0, 0, 0] ∧
    ((sent (0x24 :: List.replicate 11 0) (part .printing .streaming (.betweenLines page.ref))).port .a).asdo =
      [1, 0, 4, 0x10, 5, 0, 3, 0, 2, 0, 2, 1] := by decide +kernel

theorem test_open_page :
    (sent [0x30, 5, 3, 3, 2, 1, 0, 2, 1, 4, 1, 0] State.reset).pages.map (fun p => (p.ref, p.lead, p.nextToAllocate)) =
      [({ tag := 5, inst := 0 }, 3, 3)] ∧
    (sent [0x30, 5, 3, 3, 2, 1, 0, 2, 1, 4, 1, 0] State.reset).clearOrder = [0, 1, 2] := by decide +kernel

theorem test_open_page_refused :
    ((sent [0x30, 5, 2, 3, 2, 1, 0, 2, 1, 4, 1, 0] State.reset).port .a).outcome = .badParam ∧
    ((sent [0x30, 5, 3, 3, 2, 1, 0, 2, 1, 4, 1, 0] (part .pending .opened .idle)).port .a).outcome = .tagInUse := by decide +kernel

theorem test_abort_page :
    (sent [0x31, 5] (part .pending .opened .idle)).pages = [] ∧
    (sent [0x31, 5] (part .pending .opened .idle)).slots = List.replicate 8 .free ∧
    ((sent [0x31, 5] (part .pending .opened .idle)).port .b).events = [Event.ofPage .pageAborted 5 4] := by decide +kernel

theorem test_abort_of_a_printing_page :
    (sent [0x31, 5] (part .printing .streaming (.sending page.ref (line 0 3 false)))).slots.head? = some (.held .streaming band) ∧
    (sent [0x31, 5] (part .printing .streaming (.sending page.ref (line 0 3 false)))).pages.map PageRecord.state = [.blanking] := by
  decide +kernel

theorem test_set_engine : (sent [0x32, 1, 250, 15, 64] State.reset).engine =
      { kind := .stall, starvationLimit := 250, acknowledgeWindow := 15, videoDivisor := 64 } ∧
    ((sent [0x32, 1, 250, 15, 65] State.reset).port .a).outcome = .badParam ∧
    ((sent [0x32, 0, 50, 4, 8] (part .pending .opened .idle)).port .a).outcome = .engineBusy := by decide +kernel

theorem test_set_port : (sent [0x33, 1] (State.reset.postFault 1)).interruptAsserted .a = true ∧
    ((sent [0x33, 2] State.reset).port .a).outcome = .badParam := by decide +kernel

theorem test_port_reset :
    ((sent [0x3C] (queued [entry .closeBand] (part .pending .opened .idle))).port .a).queue = [] ∧
    (sent [0x3C] (part .pending .opened .idle)).pages.map PageRecord.participants = [{ a := false, b := true }] ∧
    ((sent [0x3C] (part .pending .opened .idle)).port .b).events = [Event.ofPage .participantLeft 5 1] := by decide +kernel

theorem test_queued_frames_accepted :
    ((sent [0x81, 7, 1, 5, 0, 0, 3, 0, 0, 2, 1, 12, 1] (part .pending .opened .idle)).port .a).queue =
      [{ (entry (.fill 3 0 2 1 12 (.solid true))) with life := .queued }] ∧
    ((sent [0x82, 7, 1, 5, 0, 0, 3, 0, 0, 2, 1, 12, 0xC0, 0] (part .pending .opened .idle)).port .a).staging = [(0, 0xC000)] ∧
    ((sent [0x88, 7, 1, 5, 3] (part .pending .opened .idle)).port .a).outcome = .badParam ∧
    ((sent [0x89, 7, 1, 6] (part .pending .opened .idle)).port .a).outcome = .noPage := by decide +kernel

theorem test_copy_load_tile_mark_and_sum_accepted :
    ((sent [0x83, 7, 1, 5, 0, 0, 3, 0, 0, 2, 1, 0, 2, 1, 12] (part .pending .opened .idle)).port .a).queue =
      [entry (.copy 3 0 2 1 2 1 12)] ∧
    ((sent ([0x84, 7, 1, 2] ++ List.replicate 32 0xFF) State.reset).port .a).queue = [entry (.loadTile 2)] ∧
    ((sent [0x8A, 7, 1, 0, 9] State.reset).port .a).queue = [entry (.mark 9)] ∧
    ((sent [0x8B, 7, 1, 5, 0] (part .pending .opened .idle)).port .a).queue = [entry .sumBand] := by decide +kernel

theorem test_consideration_closes_a_band :
    (after .consideration (queued [entry .closeBand] (part .pending .opened .idle))).slots.head? =
      some (.held .opened { band with closedBy := { a := true, b := false } }) ∧
    ((after .consideration (queued [entry .closeBand] (part .pending .opened .idle))).port .a).events =
      [Event.ofCommand .cmdDone 7 0] := by decide +kernel

theorem test_consideration_waits_and_marks :
    ((after .consideration (queued [entry .closeBand] (part .pending .clearing .idle))).port .a).queue =
      [{ (entry .closeBand) with life := .waiting }] ∧
    ((after .consideration (queued [entry (.mark 9)] State.reset)).port .a).events = [Event.ofCommand .mark 7 9] := by decide +kernel

/-- Band 0 with known words: 0F0FH at word 0 of line 0 (04 section 4.9 uses such a word). -/
def drawn : State := { (part .pending .opened .idle) with bandRam := [(0, 0x0F0F), (1, 0), (2, 0), (3, 0xFFFF)] }

/-- XOR of solid 1 over pixels 5 to 31 of line 0: the mask of word 0 is 07FFH. -/
theorem test_fill_xor_under_a_mask :
    (after .commandEnd (after .consideration (queued [entry (.fill 5 0 40 1 6 (.solid true))] drawn))).bandRam =
      [(0, 0x08F0), (1, 0xFFFF), (2, 0), (3, 0xFFFF)] ∧
    ((after .commandEnd (after .consideration (queued [entry (.fill 5 0 40 1 6 (.solid true))] drawn))).port .a).events =
      [Event.ofCommand .cmdWarn 7 1] := by decide +kernel

theorem test_copy_down_over_itself :
    (after .commandEnd (after .consideration (queued [entry (.copy 0 0 0 1 32 1 12)] drawn))).bandRam =
      [(0, 0x0F0F), (1, 0), (2, 0x0F0F), (3, 0)] := by decide +kernel

theorem test_sum_band :
    ((after .commandEnd (after .consideration (queued [entry .sumBand] drawn))).port .a).events = [Event.ofCommand .sum 7 0x0F0E] := by
  decide +kernel

theorem test_clear_completion :
    (after (.clearCompletion) (part .pending .clearing .idle)).bandRam = [(0, 0xFFFF), (1, 0xFFFF), (2, 0xFFFF), (3, 0xFFFF)] ∧
    ((after (.clearCompletion) (part .pending .clearing .idle)).port .b).events = [Event.ofBand .bandAvailable 5 0] := by decide +kernel

theorem test_top :
    (after (.top true) (part .offered .ready (.offered page.ref))).streamer = .betweenLines page.ref ∧
    ((after (.top true) (part .pending .opened .idle)).port .b).events = [Event.engineFault 1] := by decide +kernel

theorem test_lreq :
    (after (.lreq true) (part .printing .ready (.betweenLines page.ref))).streamer =
      .sending page.ref { source := .slot 0, word := 0, bits := 0, wordDone := false, early := false } ∧
    (after (.lreq true) (part .printing .opened (.betweenLines page.ref))).pages.map PageRecord.spoilCause = [some .underrun] := by
  decide +kernel

theorem test_hold_and_go_on :
    (after (.held (.wordEnd 0)) (after (.held .rises)
      { drawn with streamer := .sending page.ref (line 0 16 false), slots := (part .printing .streaming .idle).slots })).streamer =
      .held page.ref (.slot 0) 1 ∧
    (after .holdLow { drawn with streamer := .held page.ref (.slot 0) 1 }).streamer =
      .sending page.ref { source := .slot 0, word := 1, bits := 0, wordDone := false, early := false } := by decide +kernel

theorem test_line_ends_in_time :
    (after .lastBitSent { drawn with streamer := .sending page.ref (line 0 3 false) }).lineOut = [0x0F0F, 0] ∧
    (after (.lack true) { (part .printing .streaming (.ackWait page.ref (.slot 0) 3)) with bandRam := drawn.bandRam }).pages.map
      PageRecord.linesServed = [1] := by decide +kernel

theorem test_early_lack :
    (after .earlyLackWordEnd (after (.lack true) { (part .printing .streaming (.sending page.ref (line 0 3 false))) with
      bandRam := drawn.bandRam })).streamer = .betweenLines page.ref ∧
    (after .acknowledgeWindowExpiry (part .printing .streaming (.ackWait page.ref (.slot 0) 4))).pages.map PageRecord.spoilCause =
      [some .slip] := by decide +kernel

theorem test_starvation_expiry :
    (after .starvationTimerExpiry (part .printing .opened (.starved page.ref 0 4800000 false))).slots.head? =
      some (.held .streaming { band with forced := true }) ∧
    ((after .starvationTimerExpiry (part .printing .opened (.starved page.ref 0 4800000 false))).port .b).events =
      [Event.ofBand .bandForced 5 0] := by decide +kernel

theorem test_prdy_reassert_and_cut_word :
    (after .prdyReassert { (part .offered .ready (.offered page.ref)) with prdyLow := some 8 }).prdy = true ∧
    (after .wordInFlightSent { State.reset with tail := some { word := 0x8001, first := true, bits := 16, done := true } }).lineOut =
      [0x8001] := by decide +kernel

/-- Page `tag` of ports `ps`, one band that is in slot `i` in a state. -/
def onePage (tag : Byte) (ps : PortSet) (state : PageState) : PageRecord :=
  { page with ref := { tag := tag, inst := 0 }, participants := ps, bandCount := 1, state := state }

/-- READY bands of pages 1 and 3, of ports A and B: page 1 is offered, page 2 of port A has no READY band. -/
def threePages : State :=
  { State.reset with
    pages := [onePage 1 { a := true, b := false } .offered, onePage 2 { a := true, b := false } .pending,
              onePage 3 { a := false, b := true } .pending],
    slots := [.held .ready { band with page := { tag := 1, inst := 0 } }, .held .opened { band with page := { tag := 2, inst := 0 } },
              .held .ready { band with page := { tag := 3, inst := 0 } }] ++ List.replicate 5 .free,
    streamer := .offered { tag := 1, inst := 0 } }

/-- PORT RESET of A withdraws the offer of page 1 and offers page 3 in one claim: PRDY falls for one video clock period (R139). -/
theorem test_port_reset_lowers_prdy :
    (sent [0x3C] threePages).streamer = .offered { tag := 3, inst := 0 } ∧ (sent [0x3C] threePages).prdyLow = some 0 ∧
    (sent [0x3C] threePages).prdy = false ∧ threePages.prdy = true := by decide +kernel

/-- The cut word of a removed page keeps LSTB over the line's first bit, and the next page's line waits for it (R135, R169). -/
theorem test_cut_word_keeps_lstb_and_goes_first :
    (sent [0x31, 5] (part .blanking .streaming (.sending page.ref (line 0 1 false)))).lstb = true ∧
    (({ (part .blanking .streaming (.sending page.ref (line 0 0 false))) with
        tail := some { word := 1, first := false, bits := 15, done := false }, videoPhase := 7 } : State).tick).streamer =
      .sending page.ref (line 0 0 false) ∧
    (({ (part .blanking .streaming (.sending page.ref (line 0 0 false))) with
        tail := some { word := 1, first := false, bits := 15, done := false }, videoPhase := 7 } : State).tick).vdat = true := by
  decide +kernel

theorem test_resets :
    (after .resetnRises (after .deviceReset (part .printing .streaming (.betweenLines page.ref)))) = { State.reset with ramEpoch := 1 } := by
  decide +kernel

/-- A clear of four words by the part's own clock: four periods, then CLEAR_COMPLETION is due. -/
theorem test_clock_clears_a_word :
    (stepped (part .pending .clearing .idle)).map State.bandRam = some [(0, 0xFFFF)] ∧
    ({ (part .pending .clearing .idle) with clearPos := 4 } : State).dueEvents = [.clearCompletion] := by decide +kernel

/-! ## States and operands that meet the hypotheses of the statements, clause by clause, at the ends of the ranges -/

/-- A port can be opened in each state used below. -/
theorem test_witness_can_open :
    State.reset.canOpen .a = true ∧ State.reset.canOpen .b = true ∧ (part .pending .opened .idle).canOpen .a = true ∧
    (part .printing .streaming (.sending page.ref (line 0 3 false))).canOpen .b = true := by decide +kernel

theorem test_witness_commands_are_taken : State.reset.addressesExist = true ∧ Instr.nop .a .commandByte ≠ .commandEnd ∧
    Instr.nop .a .commandByte ≠ .clearCompletion := by decide +kernel

theorem test_witness_held_reset : (after .deviceReset State.reset).resetHeld = true ∧
    ((after .deviceReset State.reset).port .a).assembler.state = .betweenFrames := by decide +kernel

theorem test_witness_malformed_frames :
    (0x00 ∈ lengthCodes ∧ frameLength 0x00 [0] ≠ some 2) ∧ (0x8B ∈ lengthCodes ∧ frameLength 0x8B [1, 0, 5] ≠ some 4) ∧
    (0x82 ∈ lengthCodes ∧ frameLength 0x82 [1, 0, 5, 0, 0, 0, 0, 0, 1, 1, 0] ≠ some 12) ∧
    (0x30 ∈ lengthCodes ∧ (1 : Nat) ≠ 0 ∧ (7 : Nat) ≠ 0) ∧ 0x25 ∉ knownCodes ∧ 0xFF ∉ knownCodes := by decide +kernel

theorem test_witness_status_record :
    ((queued (List.replicate 8 (entry .sumBand)) State.reset).port .a).queue.length = 8 ∧
    (queued [entry (.putBits 0 0 2048 4 12), entry (.putBits 0 0 2048 4 12)] State.reset).payloadHeld .a = 1024 ∧
    ({ State.reset with pages := List.replicate 4 page } : State).pages.length = 4 := by decide +kernel

theorem test_witness_page_and_slot_records :
    ({ page with bandCount := 255, bandHeight := 51, lastBandHeight := 51, width := 640, lead := 8, nextToAllocate := 255,
                 linesServed := 13004 } : PageRecord).inRange ∧
    ({ page with bandCount := 8, copies := 16, copiesRemaining := 16, resident := true, lead := 1 } : PageRecord).inRange ∧
    (254 < 256 ∧ 64 < 256 ∧ 640 < 65536) := by decide +kernel

theorem test_witness_event_record_removal :
    ((after (.readEvents .a .commandByte) (after (.frameResultByte .a) State.reset)).port .a).assembler.state = .body ∧
    ((after (.readEvents .a .commandByte) (after (.frameResultByte .a) State.reset)).port .a).assembler.commandByte = some 0x22 ∧
    ((after (.readEvents .a .commandByte) (after (.frameResultByte .a) State.reset)).port .a).assembler.record = none ∧
    ((after (.readEvents .a (.bytes (List.replicate 7 0))) (after (.frameResultByte .a) (State.reset.postFault 1))).port
      .a).assembler.record = some { sent := 7, real := true } ∧
    ((after (.readEvents .a (.bytes (List.replicate 7 0))) (after (.frameResultByte .a) (State.reset.postFault 1))).port
      .a).assembler.outData.length = 8 - 7 := by decide +kernel

/-- An OPEN PAGE body of the largest values. -/
def largest : List Byte := [255, 3, 8, 51, 51, 2, 0x80, 1, 8, 16, 1]

theorem test_witness_open_page :
    pageCodesOk largest = true ∧ (pageOperandsOf largest).ok .a = true ∧ largest.length = 11 ∧
    State.reset.pageOfTag (byteAt largest 0) = none ∧ State.reset.pages.length < 4 ∧
    (∀ x ∈ State.reset.slots, x.ofPage { tag := byteAt largest 0, inst := State.reset.nextInstance } = false) := by decide +kernel

theorem test_witness_page_refusals :
    pageCodesOk (largest.set 10 2) = false ∧ (pageOperandsOf (largest.set 4 65)).ok .a = false ∧ (pageOperandsOf (largest.set 3 52)).ok .a = false ∧
    ((part .pending .opened .idle).pageOfTag (byteAt (largest.set 0 5) 0)).isSome = true ∧
    (pageOperandsOf (largest.set 0 5)).ok .b = true ∧ 4 ≤ ({ State.reset with pages := List.replicate 4 page } : State).pages.length ∧
    ({ State.reset with pages := List.replicate 4 page } : State).pageOfTag 255 = none ∧ (part .pending .opened .idle).pageOfTag 6 = none ∧
    ({ page with participants := { a := false, b := true } } : PageRecord).participants.isEmpty = false ∧
    ({ page with participants := { a := false, b := true } } : PageRecord).participants.has .a = false ∧
    ({ State.reset with pages := [{ page with participants := { a := false, b := true } }] } : State).pageOfTag 5 =
      some { page with participants := { a := false, b := true } } := by decide +kernel

theorem test_witness_abort (ps : PageState) :
    (part ps .ready .idle).pageOfTag 5 = some { page with state := ps } ∧ page.participants.has .a = true ∧
    (part ps .ready .idle).waitsOn .a page.ref = false ∧ (part ps .ready .idle).waitsOn .b page.ref = false ∧
    ((part ps .ready .idle).pages.map fun r => r.ref.tag).Nodup ∧ (part ps .ready .idle).isHead page.ref = true := by
  cases ps <;> decide +kernel

theorem test_witness_abort_without_participants : PortSet.empty.isEmpty = true ∧ (PageState.blanking ≠ .printing) := by decide

theorem test_witness_set_engine_busy : (part .pending .opened .idle).pages ≠ [] ∧ State.reset.streamer = .idle ∧ State.reset.pages = [] := by
  decide +kernel

theorem test_witness_set_port : 2 ≤ (2 : Byte).toNat ∧ (1 : Byte).toNat ≤ 1 := by decide

/-- Bodies of the eight queued commands, accepted on a PENDING page of both ports. -/
theorem test_witness_accepted :
    ([(0x81, [7, 1, 5, 2, 0x27, 0xFF, 63, 0x28, 0x00, 64, 15, 15]), (0x83, [7, 1, 5, 2, 0, 0, 0, 0, 0, 0, 0, 1, 1, 0]),
      (0x88, [7, 1, 5, 2]), (0x89, [7, 1, 5]), (0x8A, [7, 1, 0xFF, 0xFF]), (0x8B, [7, 1, 5, 0]),
      (0x82, [7, 1, 5, 2, 0, 0, 0, 0, 1, 1, 0, 0, 0]), (0x84, [7, 1, 7] ++ List.replicate 32 0)] : List (Byte × List Byte)).all
      (fun (code, body) => queuedCodes.contains code && decide (frameLength code body = some (body.length + 1)) &&
        match parseQueued code body with
        | none => false
        | some q =>
          (match (queued (List.replicate 7 (entry .sumBand)) (part .pending .opened .idle)).pageCheck .a q with
            | .ok _ => true
            | .error _ => false) &&
          decide (((queued (List.replicate 7 (entry .sumBand)) (part .pending .opened .idle)).port .a).queue.length < 8) &&
          decide (q.payload.length ≤ (queued (List.replicate 7 (entry .sumBand)) (part .pending .opened .idle)).stagingFree .a)) = true := by
  decide +kernel

theorem test_witness_refused :
    parseQueued 0x88 [7, 2, 5, 2] = none ∧ parseQueued 0x88 [7, 1, 6, 2] ≠ none ∧
    (match parseQueued 0x88 [7, 1, 6, 2] with
      | none => none
      | some q =>
        match (part .pending .opened .idle).pageCheck .a q with
        | .error o => some o
        | .ok _ => none) = some .noPage ∧
    8 ≤ ((queued (List.replicate 8 (entry .sumBand)) State.reset).port .a).queue.length ∧
    (queued [entry (.putBits 0 0 2048 4 12), entry (.putBits 0 0 2048 4 12)] State.reset).stagingFree .a < 1 := by decide +kernel

theorem test_witness_page_checks :
    ({ State.reset with pages := [{ page with state := .blanking }] } : State).pageOfTag 5 = some { page with state := .blanking } ∧
    (part .printing .opened .idle).pageOfTag 5 = some { page with state := .printing } ∧ PageState.printing ≠ .blanking ∧
    page.participants.has .a = true ∧ ({ a := false, b := true } : PortSet).has .a = false ∧ 2 < page.bandCount ∧ ¬ 3 < page.bandCount := by
  decide +kernel

theorem test_witness_read_back :
    ({ op := .fill 10239 63 10240 64 15 (.tile 7), commandTag := 255, notify := true, pageTag := some 255, band := some 255,
       payload := [] } : QueuedFrame).wellFormed = true ∧
    ({ op := .putBits 0 0 2048 4 0, commandTag := 0, notify := false, pageTag := some 0, band := some 0,
       payload := List.replicate 512 0xFFFF } : QueuedFrame).wellFormed = true ∧
    ({ op := .loadTile 7, commandTag := 0, notify := false, pageTag := none, band := none, payload := List.replicate 16 0x8000 } :
      QueuedFrame).wellFormed = true ∧
    ({ op := .leavePage, commandTag := 0, notify := false, pageTag := some 9, band := none, payload := [] } : QueuedFrame).wellFormed =
      true := by decide +kernel

/-- An idle Raster Unit with a mark at the head of port A and the pointer at `p`. -/
def marked (p : Port) : State := { (queued [entry (.mark 9)] State.reset) with pointer := p }

theorem test_witness_round_robin :
    (after (.portReset .a (.selectHigh [] 0)) State.reset).pointer = State.reset.pointer ∧
    (after .consideration (queued [entry (.loadTile 0)] State.reset)).execution ≠ none ∧ State.reset.runnable .a = false ∧
    State.reset.runnable .b = false ∧
    (marked .b).execution = none ∧ (marked .b).headEntry .a = some (entry (.mark 9)) ∧ (marked .b).pointer = Port.a.other ∧
    (marked .a).runnable Port.a.other = false ∧ (entry (.mark 9)).op.namesPage = (entry (.mark 9)).page.isSome ∧
    (entry (.mark 9)).op.namesBand = (entry (.mark 9)).band.isSome ∧
    (queued [entry .closeBand] (part .pending .clearing .idle)).executionCheck .a page.ref 0 = .wait := by decide +kernel

theorem test_witness_execution_check :
    State.reset.findPage page.ref = none ∧ (part .blanking .streaming .idle).findPage page.ref = some { page with state := .blanking } ∧
    (part .printing .opened .idle).findPage page.ref = some { page with state := .printing } ∧
    ({ page with nextToStream := 1 } : PageRecord).passed 0 = true ∧
    ({ page with nextToStream := 1, resident := true, copies := 2, copiesRemaining := 1 } : PageRecord).passed 0 = true ∧
    ({ page with nextToStream := 1, resident := true, copies := 2, copiesRemaining := 2 } : PageRecord).passed 0 = false ∧
    page.nextToAllocate ≤ 1 ∧ 0 < page.nextToAllocate ∧ (part .pending .clearing .idle).slotOfBand page.ref 0 = some 0 ∧
    (part .pending .ready .idle).slot 0 = .held .ready band := by decide +kernel

/-- Port A's head is granted in these states. -/
theorem test_witness_grants_at_once :
    (marked .b).grantedPort = some .a ∧
    (queued [entry .closeBand] (part .blanking .streaming .idle)).grantedPort = some .a ∧
    (queued [entry .closeBand] (part .blanking .streaming .idle)).executionCheck .a page.ref 0 = .error .pageAborted ∧
    (queued [entry (.fill 0 0 1 1 0 (.tile 7))] (part .pending .opened .idle)).executionCheck .a page.ref 0 = .run 0 ∧
    (part .pending .opened .idle).slot 0 = .held .opened band ∧
    (part .pending .opened .idle).tileEmpty (.fill 0 0 1 1 0 (.tile 7)) = true ∧
    (part .pending .opened .idle).tileEmpty (.fill 32 0 1 1 0 (.solid true)) = false ∧
    (clipOf (.fill 32 0 1 1 0 (.solid true)) 2 2).map (fun c => c.rect.w) = some 0 ∧
    (clipOf (.copy 0 2 0 0 1 1 0) 2 2).map (fun c => c.rect.h) = some 0 := by decide +kernel

theorem test_witness_close :
    (queued [entry .closeBand] (part .pending .opened .idle)).grantedPort = some .a ∧
    (queued [entry .closeBand] (part .pending .opened .idle)).headEntry .a = some (entry .closeBand) ∧
    (queued [entry .closeBand] (part .pending .opened .idle)).executionCheck .a page.ref 0 = .run 0 ∧
    page.participants.within (band.closedBy.add .a) = false ∧
    ({ a := true, b := false } : PortSet).within (band.closedBy.add .a) = true ∧
    (queued [entry .closeBand] (part .printing .opened (.starved page.ref 0 9 false))).slotOfBand page.ref 0 = some 0 := by decide +kernel

theorem test_witness_leave :
    (queued [entry .leavePage] State.reset).grantedPort = some .a ∧ (queued [entry .leavePage] State.reset).findPage page.ref = none ∧
    (queued [entry .leavePage] (part .blanking .streaming .idle)).grantedPort = some .a ∧
    (queued [entry .leavePage] (part .printing .opened .idle)).findPage page.ref = some { page with state := .printing } ∧
    page.participants.has Port.a.other = true ∧ ({ a := true, b := false } : PortSet).has Port.a.other = false ∧
    ((part .printing .opened .idle).pages.map fun q => q.ref.tag).Nodup ∧ (part .printing .opened .idle).inFlight ≠ some 0 := by decide +kernel

theorem test_witness_execution_begins :
    (queued [entry (.loadTile 7)] State.reset).grantedPort = some .a ∧ (queued [entry .sumBand] drawn).grantedPort = some .a ∧
    (queued [entry .sumBand] drawn).executionCheck .a page.ref 0 = .run 0 ∧ drawn.slot 0 = .held .opened band ∧
    (clipOf (.fill 31 1 9 9 6 (.solid true)) 2 2).map (fun c => (c.rect.w, c.rect.h)) = some (1, 1) ∧
    drawn.tileEmpty (.fill 31 1 9 9 6 (.solid true)) = false := by decide +kernel

/-- The command of the head of port A has just begun in the band of `drawn`. -/
def begun (op : Operation) : State := after .consideration (queued [entry op] { drawn with tileLoaded := List.replicate 8 true })

/-- What the drawing statements assume, as one check. -/
def startsDrawingCheck (s : State) : Bool :=
  match s.execution with
  | none => false
  | some x =>
    match x.clip with
    | none => false
    | some c =>
      decide (x.slot = some 0 ∧ s.slot 0 = .held .opened band ∧ x.rows = c.rect.h ∧ x.rowWords = c.rect.rowWords ∧ 0 < c.rect.w ∧
        0 < c.rect.h ∧ x.row = 0 ∧ x.rowWord = 0 ∧ x.finished = false ∧ x.stopRequested = false ∧ c.rect.x + c.rect.w ≤ 2 * 16 ∧
        c.rect.y + c.rect.h ≤ 2 ∧ s.addressesExist = true)

theorem test_witness_drawing :
    startsDrawingCheck (begun (.fill 0 0 32 2 6 (.solid true))) = true ∧ startsDrawingCheck (begun (.fill 31 1 1 1 6 (.tile 7))) = true ∧
    startsDrawingCheck (begun (.putBits 5 0 20 2 12)) = true ∧ startsDrawingCheck (begun (.copy 0 0 0 1 32 1 12)) = true ∧
    ((begun (.copy 0 0 0 1 32 2 12)).execution.bind ExecRecord.clip).map (fun c => (c.rect.x, c.rect.y, c.rect.w, c.rect.h)) =
      some (0, 1, 32, 1) := by decide +kernel

/-- A SUM BAND or LOAD TILE that has just begun: its operation, its slot, and its extent of work. -/
def freshWork (s : State) (op : Operation) (slot : Option Nat) (rows rowWords : Nat) : Bool :=
  match s.execution with
  | none => false
  | some x =>
    decide (x.op = op ∧ x.slot = slot ∧ x.rows = rows ∧ x.rowWords = rowWords ∧ x.row = 0 ∧ x.rowWord = 0 ∧ x.finished = false ∧
      x.stopRequested = false)

theorem test_witness_sum_and_tile :
    freshWork (begun .sumBand) .sumBand (some 0) 2 2 = true ∧
    (begun .sumBand).execution.map ExecRecord.runningSum = some (some 0) ∧ (begun .sumBand).addressesExist = true ∧
    freshWork (begun (.loadTile 7)) (.loadTile 7) none 16 1 = true ∧ (begun (.loadTile 7)).tileLoaded.length = 8 := by decide +kernel

/-- The work of that command is done. -/
def worked (op : Operation) : State := (begun op).finishWork

theorem test_witness_command_end :
    (worked .sumBand).execution.map ExecRecord.finished = some true ∧ (worked .sumBand).addressesExist = true ∧
    (worked .sumBand).slot 0 = .held .opened band ∧ (worked .sumBand).closedByAll 0 = false ∧
    (({ worked .sumBand with pages := [{ page with participants := .empty }] } : State).closedByAll 0) = true ∧
    ({ worked .sumBand with slots := List.replicate 8 .free } : State).slot 0 = .free ∧
    ((begun .sumBand).requestStop page.ref).execution.map ExecRecord.stopRequested = some true ∧
    ((begun .sumBand).requestStop page.ref).addressesExist = true := by decide +kernel

theorem test_witness_clear :
    (part .pending .clearing .idle).clearOrder = [0] ∧ (part .pending .clearing .idle).slot 0 = .held .clearing band ∧
    (part .pending .clearing .idle).findPage band.page = some page ∧ (part .pending .clearing .idle).addressesExist = true ∧
    (part .pending .clearing .idle).clearPos ≤ band.lines * band.width ∧ 4 ≤ band.lines * band.width := by decide +kernel

theorem test_witness_inputs :
    State.reset.pins = { top := false, lreq := false, lack := false, hold := false } ∧
    (after (.top true) State.reset).pins.top = true ∧ (after (.lreq true) State.reset).pins.lreq = true ∧
    (after (.lack true) State.reset).pins.lack = true ∧ State.reset.resetHeld = false := by decide +kernel

theorem test_witness_top :
    (part .offered .ready (.offered page.ref)).streamer = .offered page.ref ∧
    (part .offered .ready (.offered page.ref)).findPage page.ref = some { page with state := .offered } ∧
    (part .printing .streaming (.starved page.ref 0 0 false)).streamer = .starved page.ref 0 0 false := by decide +kernel

/-- An idle Streamer is not OFFERED. -/
theorem test_witness_unexpected_top : ∀ r, State.reset.streamer ≠ .offered r := by
  intro r h
  cases h

theorem test_witness_lreq :
    (part .blanking .streaming (.betweenLines page.ref)).findPage page.ref = some { page with state := .blanking } ∧
    (part .printing .ready (.betweenLines page.ref)).slotOfBand page.ref 0 = some 0 ∧
    page.linesServed - page.nextToStream * page.bandHeight = 0 ∧
    ({ page with linesServed := 1 } : PageRecord).bandLine ≠ 0 ∧
    (part .printing .streaming (.betweenLines page.ref)).slot 0 = .held .streaming band ∧
    (part .printing .opened (.betweenLines page.ref)).slot 0 = .held .opened band ∧
    page.linesServed = page.nextToStream * page.bandHeight ∧
    ({ State.reset.engine with kind := .stall } : EngineConfig).kind = .stall ∧ State.reset.engine.kind = .nostall := by decide +kernel

/-- The awaited band is OPEN, so it is not READY. -/
theorem test_witness_unready_band : ∀ i k, (part .printing .opened (.betweenLines page.ref)).slotOfBand page.ref 0 = some i →
    (part .printing .opened (.betweenLines page.ref)).slot i ≠ .held .ready k := by
  intro i k h
  have h0 : (part .printing .opened (.betweenLines page.ref)).slotOfBand page.ref 0 = some 0 := by decide +kernel
  rw [h0] at h
  obtain rfl := Option.some.inj h
  intro hk
  have h1 : (part .printing .opened (.betweenLines page.ref)).slot 0 = .held .opened band := by decide +kernel
  rw [h1] at hk
  cases hk

theorem test_witness_words :
    (part .printing .streaming (.sending page.ref (line 0 16 false))).lineWidth page.ref = 2 ∧ 0 + 1 < 2 ∧ (line 1 16 false).word < 2 ∧
    (line 1 16 false).early = false ∧ (line 1 16 true).early = true := by decide +kernel

theorem test_witness_end_of_line :
    page.linesServed + 1 ≠ page.pageLines ∧ ({ page with linesServed := 4 } : PageRecord).linesServed + 1 = page.pageLines ∧
    ({ page with linesServed := 1 } : PageRecord).bandLine + 1 = band.lines ∧
    ({ page with linesServed := 4, nextToStream := 2 } : PageRecord).bandLine + 1 = 1 ∧
    ({ State.reset with pages := [{ page with linesServed := 4, state := .printing }] } : State).findPage page.ref =
      some { page with linesServed := 4, state := .printing } ∧
    2 ≤ ({ page with copiesRemaining := 2 } : PageRecord).copiesRemaining ∧ page.copiesRemaining < 2 := by decide +kernel

theorem test_witness_starvation :
    (part .printing .opened (.starved page.ref 0 4800000 false)).slotOfBand page.ref 0 = some 0 ∧ band.forcePending = false ∧
    (part .printing .clearing (.starved page.ref 0 4800000 false)).slot 0 = .held .clearing band ∧
    (part .printing .opened (.starved page.ref 1 4800000 false)).slotOfBand page.ref 1 = none ∧
    ({ (part .printing .opened (.starved page.ref 0 4800000 false)) with inFlight := some 0 } : State).inFlight = some 0 := by decide +kernel

theorem test_witness_cut_line :
    (part .blanking .streaming (.sending page.ref (line 0 3 false))).isHead page.ref = true ∧
    (part .blanking .streaming (.sending page.ref (line 0 3 false))).tail = none ∧
    ({ State.reset with tail := some { word := 1, first := true, bits := 16, done := true } } : State).tail =
      some { word := 1, first := true, bits := 16, done := true } := by decide +kernel

/-- The page left to port A, BLANKING, with a line being sent. -/
def lonely : State :=
  { (part .blanking .streaming (.sending page.ref (line 0 3 false))).writeBand 0 0x8001 with
    pages := [{ page with state := .blanking, participants := { a := true, b := false } }] }

/-- PORT RESET leaves the word in flight of a BLANKING page to its end (R169); and a lawful head for the statements about PORT RESET. -/
theorem test_witness_port_reset :
    lonely.headLawful ∧ threePages.headLawful ∧ lonely.canOpen .a = true ∧
    ({ page with state := .blanking, participants := { a := true, b := false } } : PageRecord).emptiedBy .a = true ∧
    (sent [0x3C] lonely).tail = some { word := 0x8001, first := true, bits := 3, done := false } ∧
    (sent [0x3C] lonely).slots = List.replicate 8 .free ∧ (sent [0x3C] lonely).streamer = .idle := by
  refine ⟨by decide +kernel, by decide +kernel, by decide +kernel, by decide +kernel, by decide +kernel, by decide +kernel, by decide +kernel⟩

/-- PORT RESET of A leaves the slot of the executing command OPEN, though port B has closed its band, until the command ends (R55, R58). -/
theorem test_port_reset_and_leave_keep_the_marked_slot :
    let closed : Slot := .held .opened { band with closedBy := { a := false, b := true } }
    let marked : State := { (part .pending .opened .idle) with inFlight := some 0, slots := closed :: List.replicate 7 .free }
    (sent [0x3C] marked).slot 0 = closed ∧ (sent [0x3C] { marked with inFlight := none }).slot 0 ≠ closed ∧
    (after .consideration (queued [entry .leavePage] (part .pending .opened .idle))).slot 0 = .held .opened band := by decide +kernel

/-- The last line of a copy: of a resident page with copies left its slot is READY again, else FREE, as for a BLANKING page's last line (R17, R18, R20). -/
theorem test_witness_copy_end :
    let last (resident : Bool) (copies : Nat) (state : PageState) : State :=
      { State.reset with
        pages := [{ page with bandCount := 1, resident := resident, copies := copies, copiesRemaining := copies, linesServed := 0, state := state }],
        slots := Slot.held .streaming { band with lines := 1 } :: List.replicate 7 .free,
        streamer := .ackWait page.ref (.slot 0) 0 }
    ({ page with bandCount := 1 } : PageRecord).linesServed + 1 = ({ page with bandCount := 1 } : PageRecord).pageLines ∧
    ((last true 2 .printing).endLine page.ref (.slot 0)).slot 0 = .held .ready { band with lines := 1 } ∧
    ((last true 1 .printing).endLine page.ref (.slot 0)).slots = List.replicate 8 .free ∧
    ((last false 1 .blanking).endLine page.ref (.slot 0)).slots = List.replicate 8 .free := by decide +kernel

theorem test_line_words :
    (part .printing .streaming (.betweenLines page.ref)).lineWord page.ref .background 1 = 0xFFFF ∧
    ((({ (part .printing .streaming (.betweenLines page.ref)) with pages := [{ page with linesServed := 1 }] } : State).writeBand 3
      0xBEEF).lineWord page.ref (.slot 0) 1) = 0xBEEF := by decide +kernel

theorem test_witness_posting :
    (∃ o ∈ [Event.overflowOf .mark], o.kind = .overflow) ∧
    ((∀ o ∈ List.replicate 14 (Event.engineFault 1), o.kind ≠ .overflow) ∧ (List.replicate 14 (Event.engineFault 1)).length ≤ 14) ∧
    ((∀ o ∈ List.replicate 15 (Event.engineFault 1), o.kind ≠ .overflow) ∧ (List.replicate 15 (Event.engineFault 1)).length = 15) ∧
    eventLaw (List.replicate 15 (Event.engineFault 1) ++ [Event.overflowOf .mark]) := by
  decide +kernel

theorem test_witness_clock :
    State.reset.pending = [] ∧ (after .deviceReset State.reset).resetHeld = true ∧ (marked .b).dueEvents ≠ [] ∧ State.reset.dueEvents = [] ∧
    (part .pending .clearing .idle).dueEvents = [] ∧ (part .pending .clearing .idle).execution = none ∧
    (part .printing .opened (.starved page.ref 0 4799999 false)).dueEvents = [] := by decide +kernel

/-- A part that serves a line meets the laws that every step keeps. -/
def serving : State := part .printing .streaming (.sending page.ref (line 0 3 false))

theorem test_witness_memories : serving.memoriesCanonical := by decide +kernel

theorem test_witness_event_queues : (serving.postFault 1).eventQueuesLawful := by decide +kernel

theorem test_witness_command_queues : (begun (.fill 0 0 32 2 6 (.solid true))).commandQueuesLawful := by decide +kernel

theorem test_witness_page_queue : serving.pageQueueLawful := by decide +kernel

theorem test_witness_head : serving.headLawful := by decide +kernel

theorem test_witness_clear_order : (part .pending .clearing .idle).clearOrderLawful := by decide +kernel

theorem test_witness_mark_and_addresses :
    (begun (.fill 0 0 32 2 6 (.solid true))).markAgrees = true ∧ (begun (.fill 0 0 32 2 6 (.solid true))).addressesExist = true := by
  decide +kernel

/-- The law of NoStepFaults after reset: no page, no entry. -/
theorem test_witness_access : State.reset.accessLawful := by
  refine ⟨by decide +kernel, ?_, by decide +kernel, by decide +kernel⟩
  intro p e he
  have h : (State.reset.port p).queue = [] := by cases p <;> decide +kernel
  rw [h] at he
  cases he

/-- A PRINTING page whose band 0, closed by both ports, is being sent. -/
def streaming : State :=
  { serving with slots := Slot.held .streaming { band with closedBy := .both } :: List.replicate 7 .free }

theorem test_witness_ring_head_and_table : streaming.headLawful ∧ streaming.bandTableLawful := by
  refine ⟨by decide +kernel, by decide +kernel, by decide +kernel, by decide +kernel⟩

theorem test_witness_ring_run : (∀ p ∈ streaming.pages, p.progressLawful) ∧ (∀ p ∈ streaming.pages, streaming.holdsRun p) ∧
    (∀ x ∈ streaming.slots, streaming.readyIsClosed x = true) := by
  refine ⟨by decide +kernel, by decide +kernel, by decide +kernel⟩

theorem test_witness_ring_line : streaming.lineHasSlot = true ∧ streaming.blankingStreams = true ∧ streaming.awaitsNextBand = true := by
  decide +kernel

/-! ## Witnesses of the clauses about waiting heads, offers, removals and the clock -/

/-- Port A's head waits for band 0 of the page; a command executes on its slot. -/
def waiting (s : State) : State :=
  queued [{ (entry .closeBand) with life := .waiting }] { s with execution := (begun .sumBand).execution, inFlight := some 0 }

theorem test_witness_waiting_head :
    (waiting (part .pending .clearing .idle)).waitsOn .a page.ref = true ∧ (waiting (part .pending .clearing .idle)).waitsOn .b page.ref = false ∧
    (waiting (part .printing .clearing (.starved page.ref 0 9 false))).queueAfterAbort page.ref .a = [] ∧
    ((waiting (part .pending .clearing .idle)).stoppedFor page.ref).map ExecRecord.stopRequested = some true ∧
    (waiting (part .pending .clearing .idle)).queueAfterRecheck (part .pending .opened .idle) page.ref .a = [entry .closeBand] := by
  decide +kernel

/-- The lead band of a page is READY. -/
theorem test_witness_lead_ready : (part .pending .ready .idle).leadReady page := by
  intro b hb
  have h0 : b = 0 := Nat.lt_one_iff.1 hb
  subst h0
  exact ⟨band, by decide +kernel, rfl, rfl⟩

theorem test_witness_removals :
    threePages.pages = onePage 1 { a := true, b := false } .offered :: threePages.pages.tail ∧
    pendingBehind { tag := 1, inst := 0 } threePages.pages.tail ∧ threePages.isHead { tag := 2, inst := 0 } = false ∧
    threePages.canOpen .a = true ∧ threePages.pageOfTag 1 = some (onePage 1 { a := true, b := false } .offered) ∧
    (onePage 1 { a := true, b := false } .offered).emptiedBy .a = true ∧ page.emptiedBy .a = false := by
  refine ⟨by decide +kernel, ?_, by decide +kernel, by decide +kernel, by decide +kernel, by decide +kernel, by decide +kernel⟩
  unfold pendingBehind
  decide +kernel

/-- Port A has closed band 0 and port B's CLOSE_BAND is granted: the lead band goes READY and the page is offered (R33). -/
def lastClose : State :=
  let s : State := { (part .pending .opened .idle) with
    slots := Slot.held .opened { band with closedBy := { a := true, b := false } } :: List.replicate 7 .free }
  s.updPort .b fun ps => { ps with queue := [entry .closeBand] }

theorem test_witness_close_offers :
    lastClose.grantedPort = some .b ∧ (after .consideration lastClose).streamer = .offered page.ref ∧ (after .consideration lastClose).prdy = true := by
  decide +kernel

/-- A leave, with a band that the other port has closed. -/
theorem test_witness_leave_offers :
    (after .consideration (queued [entry .leavePage] { (part .pending .opened .idle) with
      slots := Slot.held .opened { band with closedBy := { a := false, b := true } } :: List.replicate 7 .free })).streamer =
      .offered page.ref := by decide +kernel

/-- A command has ended on a band that a force awaits, or that both ports have closed, with the engine starving on it or not. -/
def endsOn (k : BandRecord) (ps : PageState) (st : StreamerState) : State :=
  { (worked .sumBand) with slots := Slot.held .opened k :: List.replicate 7 .free, pages := [{ page with state := ps }], streamer := st }

theorem test_witness_command_end_offers_and_streams :
    (after .commandEnd (endsOn { band with closedBy := .both } .pending .idle)).streamer = .offered page.ref ∧
    (after .commandEnd (endsOn { band with forcePending := true } .printing (.starved page.ref 0 4800000 true))).slot 0 =
      .held .streaming { band with forced := true } ∧
    (endsOn { band with closedBy := .both } .pending .idle).closedByAll 0 = true := by decide +kernel

theorem test_witness_allocation :
    ({ State.reset with pages := [{ page with nextToAllocate := 254, bandCount := 255 }] } : State).slot 0 = .free ∧
    State.reset.inFlight ≠ some 0 ∧ 254 < 255 ∧ ({ page with bandCount := 1 } : PageRecord).bandCount ≤ page.nextToAllocate := by
  decide +kernel

theorem test_witness_staging :
    (queued [{ (entry (.putBits 0 0 2048 4 12)) with stagingPosition := some 512, payloadLength := 512 }, entry (.mark 0)]
      State.reset).stagingNext .a = 0 ∧
    ({ State.reset with execution := (begun (.putBits 5 0 20 2 12)).execution.map fun x =>
        { x with silent := true, stagingPosition := 1020, payloadLength := 4 } } : State).stagingNext .a = 0 ∧
    State.reset.stagingNext .b = 0 := by decide +kernel

/-- At a boundary of the video clock, a bit of the line or of a cut word is due to begin, or the window to advance. -/
theorem test_witness_clock_boundaries :
    ({ serving with videoPhase := 7 } : State).dueEvents = [] ∧ ({ serving with videoPhase := 7 } : State).addressesExist = true ∧
    (part .printing .streaming (.sending page.ref (line 0 16 false))).dueEvents = [] ∧
    (part .printing .streaming (.ackWait page.ref (.slot 0) 3)).dueEvents = [] ∧
    ({ serving with tail := some { word := 1, first := true, bits := 16, done := false } } : State).dueEvents = [] ∧
    (begun (.copy 0 0 0 1 32 1 12)).dueEvents = [] ∧ ({ threePages with prdyLow := some 7 } : State).dueEvents = [] := by decide +kernel

/-! ## ASDO, the words the clock draws, and PRDY at a removal -/

/-- ASDO is high impedance with select high or reset held, and in a frame has the first bit of the next byte; the bits of an unfinished byte are driven too:
three of the result byte 1001 0000, and two of a status record's first byte 08H (R185, R190, R198). -/
theorem test_asdo_pin_and_loose_bits :
    State.reset.asdoPin .a = none ∧ (after (.frameResultByte .a) (after .deviceReset State.reset)).asdoPin .a = none ∧
    ((after (.frameResultByte .a) (State.reset.updPort .a fun ps => { ps with outcome := .pageQueueFull })).asdoPin .a = some true) ∧
    ((after (.badFrame .a 4) (State.reset.updPort .a fun ps => { ps with outcome := .pageQueueFull })).port .a).asdoBits =
      [true, false, false, true] ∧
    ((after (.readStatus .a (.selectHigh [] 5)) State.reset).port .a).asdoBits = [false, false, false, false, true] ∧
    ((after (.readEvents .a (.selectHigh [] 5)) (State.reset.postFault 2)).port .a).asdoBits = [false, false, false, false, true] ∧
    ((after (.readEvents .a (.selectHigh [] 5)) (State.reset.postFault 2)).port .a).events = [Event.engineFault 2] := by decide +kernel

/-- Slots of two pages of port A are being cleared, page 1's first. -/
def clearing : State :=
  { State.reset with
    pages := [onePage 1 { a := true, b := false } .pending, onePage 2 { a := true, b := false } .pending],
    slots := [.held .clearing { band with page := { tag := 1, inst := 0 } }, .held .clearing { band with page := { tag := 2, inst := 0 } }] ++
      List.replicate 6 .free,
    clearOrder := [0, 1] }

/-- The claim of the clear of a page's band 0. -/
def claimOf (slot : Nat) (tag : Byte) : ClearClaim := { slot := slot, page := { tag := tag, inst := 0 }, band := 0 }

/-- Those clears, with two completions behind the frame ABORT PAGE 1 in the queue, that frame taken. -/
def released : State := sent [0x31, 1] { clearing with pending := [.clearCompletion, .clearCompletion] }

/-- The release of page 1 taken first, the completion behind it names page 1's clear and is discarded: page 2's slot goes on clearing, until its own completion
opens it (R5, R13). -/
theorem test_completion_behind_a_release_is_discarded :
    released.clearClaims = [claimOf 0 1] ∧ released.clearOrder = [1] ∧
    stepped released = some { released with pending := [.clearCompletion], clearClaims := [] } ∧
    released.slot 1 = .held .clearing { band with page := { tag := 2, inst := 0 } } ∧
    (stepped { released with pending := [.clearCompletion], clearClaims := [] }).map
        (fun t => (t.slot 1, (t.port .a).events.map Event.kind)) =
      some (.held .opened { band with page := { tag := 2, inst := 0 } }, [.pageAborted, .bandAvailable]) := by decide +kernel

/-- The completion taken first, the slot has opened, and BAND AVAILABLE comes before PAGE ABORTED (R13). -/
theorem test_completion_before_a_release :
    ((sent [0x31, 1] (after .clearCompletion clearing)).port .a).events.map Event.kind = [.bandAvailable, .pageAborted] := by decide +kernel

/-- A completion that names another page, band or slot, or a clear that is not under way, is discarded (R5). -/
theorem test_completion_of_another_clear_is_discarded :
    ((State.takeClearClaim clearing (claimOf 0 2)) = clearing ∧ (State.takeClearClaim clearing (claimOf 1 2)) = clearing ∧
    (State.takeClearClaim clearing (claimOf 5 1)) = clearing ∧ (State.takeClearClaim clearing { claimOf 0 1 with band := 1 }) = clearing) ∧
    (after .clearCompletion { clearing with clearClaims := [claimOf 0 2] }) = clearing := by decide +kernel

/-- The clock's own completion names the clear that is done (R5). -/
theorem test_clock_names_the_clear :
    (stepped { clearing with clearPos := 4 }).map (fun t => (t.pending, t.clearClaims)) = some ([.clearCompletion], [claimOf 0 1]) := by decide +kernel

/-- Claims, and a queue, that the clauses about completions are of. -/
theorem test_witness_clear_claims :
    clearing.addressesExist = true ∧ clearing.clearOrder.head? = some 0 ∧ clearing.clearOrder.head? ≠ some 1 ∧
    clearing.slot 0 = .held .clearing { band with page := { tag := 1, inst := 0 } } ∧
    State.reset.clearClaims = [] ∧ State.reset.clearOrder = [] ∧ State.reset.addressesExist = true ∧
    ({ clearing with pending := [.clearCompletion] } : State).clearClaims.length <
      ({ clearing with pending := [.clearCompletion] } : State).pending.count .clearCompletion := by decide +kernel

/-- A command in the last period of its next word. -/
def lastPeriod (op : Operation) : State :=
  { (begun op) with execution := (begun op).execution.map fun x => { x with period := op.wordPeriods - 1 } }

/-- With nothing due, the step after it ends the word's time, for each kind of command and for a stopped one. -/
theorem test_witness_word_ends :
    (lastPeriod (.fill 0 0 32 2 6 (.solid true))).dueEvents = [] ∧ (lastPeriod (.putBits 5 0 20 2 12)).dueEvents = [] ∧
    (lastPeriod (.copy 0 0 0 1 32 1 12)).dueEvents = [] ∧ (lastPeriod .sumBand).dueEvents = [] ∧ (lastPeriod (.loadTile 7)).dueEvents = [] ∧
    (lastPeriod (.copy 0 0 0 1 32 1 12)).addressesExist = true ∧ (lastPeriod (.loadTile 7)).addressesExist = true ∧
    (lastPeriod (.fill 0 0 32 2 6 (.solid true))).pending = [] ∧
    (lastPeriod (.copy 0 0 0 1 32 1 12)).execution.map (fun x => decide (x.op.wordPeriods ≤ x.period + 1 ∧ x.row < x.rows ∧ x.rowWord < x.rowWords)) =
      some true := by decide +kernel

/-- The step draws the word: a solid FILL inverts the cleared word by XOR. -/
theorem test_clock_draws_a_word :
    ((({ (lastPeriod (.fill 4 0 8 1 6 (.solid true))) with bandRam := [(0, 0xFF00)] } : State).tick).readBand 0) = 0xF0F0 := by decide +kernel

/-- An abort of a BLANKING head, with the next page ready: PRDY is high at once; and the same at the end of a page (R34, R139). -/
theorem test_witness_prdy_at_a_removal :
    let s : State := { threePages with pages := onePage 1 { a := true, b := false } .blanking :: threePages.pages.tail.tail,
                                       streamer := .betweenLines { tag := 1, inst := 0 } }
    (sent [0x31, 1] s).streamer = .offered { tag := 3, inst := 0 } ∧ (sent [0x31, 1] s).prdy = true ∧
    (s.endLine { tag := 1, inst := 0 } .background).streamer = .offered { tag := 3, inst := 0 } ∧
    (s.endLine { tag := 1, inst := 0 } .background).prdy = true := by decide +kernel

end Sys2Proof.Tests
end

