-- ==== Sys2Proof/Proofs/Actions.lean ====
section
/-! SUPPORT. The walk through the commands: what a property of the state needs, action by action, for every command and every step to keep it. -/

namespace Sys2Proof.Machine

/-! ## Answers -/

/-- The state that an answer goes on with, if it goes on, has the property `P`. -/
def Answer.Keeps (P : State → Prop) : Answer → Prop
  | .next t => P t
  | .fault _ => True
  | .refused _ => True

theorem Answer.Keeps.of_next {P : State → Prop} {a : Answer} {t : State} (h : Answer.Keeps P a) (ha : a = .next t) : P t := by
  subst ha; exact h

/-! ## Frames -/

/-- The update `f` leaves the command queue and the staging RAM of the port. -/
def LeavesCommands (f : PortState → PortState) : Prop := ∀ ps, (f ps).queue = ps.queue ∧ (f ps).staging = ps.staging

/-- What every update of a port that leaves its commands keeps. -/
def PortRule (P : State → Prop) : Prop := ∀ s p f, LeavesCommands f → P s → P (s.updPort p f)

section frames

variable {P : State → Prop} (port : PortRule P)
include port

theorem PortRule.selectRises (s : State) (p : Port) (h : P s) : P (s.selectRises p) := by
  unfold State.selectRises
  split
  · exact port _ _ _ (fun _ => ⟨rfl, rfl⟩) h
  · exact h

theorem PortRule.openIfWhole (s : State) (p : Port) (h : P s) : P (s.openIfWhole p) := by
  unfold State.openIfWhole
  split
  · exact port _ _ _ (fun _ => ⟨rfl, rfl⟩) h
  · exact h

theorem PortRule.closeFrame (s : State) (p : Port) (o : FrameOutcome) (bits : Nat) (h : P s) : P (s.closeFrame p o bits) :=
  port _ _ _ (fun _ => ⟨rfl, rfl⟩) h

theorem PortRule.selectFalls (s : State) (p : Port) (h : P s) : P (s.selectFalls p) := by
  unfold State.selectFalls
  split <;> exact port _ _ _ (fun _ => ⟨rfl, rfl⟩) h

theorem PortRule.endShortFrame (s : State) (p : Port) (bits : Nat) (h : P s) : P (s.endShortFrame p bits) := by
  unfold State.endShortFrame
  split
  · exact port.closeFrame _ _ _ _ h
  · exact port.selectRises _ _ h

theorem PortRule.inFrame {s t : State} {p : Port} {code : Byte} {target : FrameState} {view : List Byte}
    (ht : s.inFrame p code target view = some t) (h : P s) : P t := by
  unfold State.inFrame at ht
  split at ht
  · cases ht; exact port _ _ _ (fun _ => ⟨rfl, rfl⟩) h
  · cases ht
  · split at ht <;> cases ht; exact h
  · split at ht <;> cases ht; exact h

theorem PortRule.shiftBytes (s : State) (p : Port) (body : List Byte) (h : P s) : P (s.shiftBytes p body) := by
  unfold State.shiftBytes
  induction body generalizing s with
  | nil => exact h
  | cons b body ih => exact ih _ (port _ _ _ (fun _ => ⟨rfl, rfl⟩) h)

theorem PortRule.takeRecord (s : State) (p : Port) (h : P s) : P (s.takeRecord p) := by
  refine port _ _ _ (fun ps => ?_) h
  dsimp only
  split
  · exact ⟨rfl, rfl⟩
  · split <;> exact ⟨rfl, rfl⟩

theorem PortRule.shiftEventByte (s : State) (p : Port) (b : Byte) (h : P s) : P (State.shiftEventByte p s b) := by
  unfold State.shiftEventByte State.sendRecordByte
  refine port _ _ _ (fun ps => ?_) (port.takeRecord s p h)
  dsimp only
  split
  · exact ⟨rfl, rfl⟩
  · split <;> exact ⟨rfl, rfl⟩

/-- A frame keeps what its body's bytes and its end keep. -/
theorem PortRule.runFrame (s : State) (p : Port) (code : Byte) (target : FrameState) (view : State → List Byte)
    (shift : State → List Byte → State) (finish : State → Nat → State × FrameOutcome) (st : FrameStage)
    (hshift : ∀ t body, P t → P (shift t body)) (hfinish : ∀ t bits, P t → P (finish t bits).1) (h : P s) :
    P (s.runFrame p code target view shift finish st) := by
  unfold State.runFrame
  cases st with
  | commandByte =>
    cases ht : s.inFrame p code target (view s) with
    | none => exact h
    | some t => exact port.inFrame ht h
  | bytes body =>
    dsimp only
    split
    · exact h
    · rename_i t ht
      exact hshift _ _ (port.inFrame ht h)
  | selectHigh body bits =>
    dsimp only
    split
    · exact port.selectRises _ _ h
    · rename_i t ht
      exact port.closeFrame _ _ _ _ (hfinish _ _ (hshift _ _ (port.inFrame ht (port.openIfWhole _ _ h))))

/-- A command's frame keeps what the command's own action keeps. -/
theorem PortRule.runCommand (s : State) (p : Port) (code : Byte) (act : State → List Byte → State × FrameOutcome) (st : FrameStage)
    (hact : ∀ t body, P t → P (act t body).1) (h : P s) : P (s.runCommand p code act st) := by
  refine port.runFrame s p code _ _ _ _ st (fun t body => port.shiftBytes t p body) (fun t bits ht => ?_) h
  split
  · exact hact _ _ ht
  · exact ht

theorem PortRule.runRead (s : State) (p : Port) (code : Byte) (view : State → List Byte) (st : FrameStage) (h : P s) :
    P (s.runRead p code view st) :=
  port.runFrame s p code _ _ _ _ st (fun t body => port.shiftBytes t p body) (fun _ _ ht => ht) h

theorem PortRule.runReadEvents (s : State) (p : Port) (st : FrameStage) (h : P s) : P (s.runReadEvents p st) := by
  refine port.runFrame s p _ _ _ _ _ st (fun t body ht => ?_) (fun t bits ht => ?_) h
  · induction body generalizing t with
    | nil => exact ht
    | cons b body ih => exact ih _ (port.shiftEventByte t p b ht)
  · dsimp only
    split
    · exact ht
    · exact port.takeRecord t p ht

theorem PortRule.shiftRecord (p : Port) (n : Nat) (s : State) (h : P s) : P (State.shiftRecord p n s) := by
  induction n generalizing s with
  | zero => exact h
  | succ n ih => exact ih _ (port.shiftEventByte s p 0 h)

end frames

/-! ## Operands -/

/-- A LOAD TILE that R200 can spell names one of the eight tiles (R79). -/
def tileInRange (parsed : Option QueuedFrame) : Prop := ∀ q t, parsed = some q → q.op = .loadTile t → t < 8

theorem tileInRange_parseFill (body : List Byte) : tileInRange (parseFill body) := by
  intro q t hq ht
  unfold parseFill at hq
  split at hq
  · cases hq
  · split at hq <;> cases hq; cases ht

theorem tileInRange_parsePutBits (body : List Byte) : tileInRange (parsePutBits body) := by
  intro q t hq ht
  unfold parsePutBits at hq
  split at hq <;> cases hq; cases ht

theorem tileInRange_parseCopy (body : List Byte) : tileInRange (parseCopy body) := by
  intro q t hq ht
  unfold parseCopy at hq
  split at hq <;> cases hq; cases ht

theorem tileInRange_parseLoadTile (body : List Byte) : tileInRange (parseLoadTile body) := by
  intro q t hq ht
  unfold parseLoadTile at hq
  split at hq
  · rename_i hok
    cases hq; cases ht
    simp only [Bool.and_eq_true, decide_eq_true_eq] at hok
    exact hok.2
  · cases hq

theorem tileInRange_parseCloseBand (body : List Byte) : tileInRange (parseCloseBand body) := by
  intro q t hq ht
  unfold parseCloseBand at hq
  split at hq <;> cases hq; cases ht

theorem tileInRange_parseSumBand (body : List Byte) : tileInRange (parseSumBand body) := by
  intro q t hq ht
  unfold parseSumBand at hq
  split at hq <;> cases hq; cases ht

theorem tileInRange_parseLeavePage (body : List Byte) : tileInRange (parseLeavePage body) := by
  intro q t hq ht
  unfold parseLeavePage at hq
  split at hq <;> cases hq; cases ht

theorem tileInRange_parseMark (body : List Byte) : tileInRange (parseMark body) := by
  intro q t hq ht
  unfold parseMark at hq
  split at hq <;> cases hq; cases ht

/-! ## Commands and steps -/

/-- What a property needs for every command to keep it: that each action of the part keeps it. -/
structure KeptByActions (P : State → Prop) : Prop where
  port : PortRule P
  signals : ∀ (s : State) pins resetHeld engine prdyLow tail vdat lineOut, P s → P { s with
    pins := pins, resetHeld := resetHeld, engine := engine, prdyLow := prdyLow, tail := tail, vdat := vdat, lineOut := lineOut }
  deviceReset : ∀ s, P s → P s.deviceReset
  accept : ∀ s p parsed, tileInRange parsed → P s → P (s.acceptFrame p parsed).1
  openPage : ∀ s p o, o.ok p = true → s.pageOfTag o.tag = none → P s → P (s.appendPage p o)
  abortPage : ∀ s q tag, s.pageOfTag tag = some q → P s → P (s.abortRecord q)
  portReset : ∀ s p, P s → P (s.resetPort p)
  consider : ∀ s, P s → P s.consider
  endCommand : ∀ s, s.addressesExist = true → P s → P s.endCommand
  endClear : ∀ s, P s → P s.endClear
  takeTop : ∀ s, P s → P s.takeTop
  takeLreq : ∀ s, P s → P s.takeLreq
  takeLack : ∀ s, P s → P s.takeLack
  takeHeld : ∀ s k, P s → P (s.takeHeld k)
  takeHoldLow : ∀ s, P s → P s.takeHoldLow
  takeLastBit : ∀ s, P s → P s.takeLastBit
  takeEarlyEnd : ∀ s, P s → P s.takeEarlyEnd
  takeWindowExpiry : ∀ s, P s → P s.takeWindowExpiry
  takeStarvationExpiry : ∀ s, P s → P s.takeStarvationExpiry

namespace KeptByActions

variable {P : State → Prop} (h : KeptByActions P)
include h

theorem withPins (s : State) (pins : Pins) (hs : P s) : P { s with pins := pins } :=
  h.signals s pins s.resetHeld s.engine s.prdyLow s.tail s.vdat s.lineOut hs

theorem takeTailSent (s : State) (hs : P s) : P s.takeTailSent := by
  unfold State.takeTailSent
  split
  · exact hs
  · exact h.signals s s.pins s.resetHeld s.engine s.prdyLow none _ _ hs

theorem openPageAct (s : State) (p : Port) (body : List Byte) (hs : P s) : P (State.openPageAct p s body).1 := by
  unfold State.openPageAct
  split
  · exact hs
  · rename_i hok
    split
    · exact hs
    · rename_i htag
      split
      · exact hs
      · simp only [Bool.not_eq_true', Bool.not_eq_false, Bool.and_eq_true] at hok
        exact h.openPage _ _ _ hok.2 (by simpa [pageOperandsOf] using htag) hs

theorem abortPageAct (s : State) (p : Port) (body : List Byte) (hs : P s) : P (State.abortPageAct p s body).1 := by
  unfold State.abortPageAct
  split
  · exact hs
  · rename_i q hq
    split
    · exact hs
    · exact h.abortPage _ _ _ hq hs

theorem setEngineAct (s : State) (body : List Byte) (hs : P s) : P (s.setEngineAct body).1 := by
  unfold State.setEngineAct
  split
  · exact hs
  · split
    · exact h.signals s s.pins s.resetHeld _ s.prdyLow s.tail s.vdat s.lineOut hs
    · exact hs

theorem setPortAct (s : State) (p : Port) (body : List Byte) (hs : P s) : P (State.setPortAct p s body).1 := by
  unfold State.setPortAct
  split
  · exact h.port s p (fun ps => { ps with interruptEnable := (byteAt body 0).getLsbD 0 }) (fun _ => ⟨rfl, rfl⟩) hs
  · exact hs

/-- A queued command's frame, whose operands `parse` reads. -/
theorem queued (s : State) (p : Port) (code : Byte) (parse : List Byte → Option QueuedFrame) (st : FrameStage)
    (hparse : ∀ body, tileInRange (parse body)) (hs : P s) :
    P (s.runCommand p code (fun t body => t.acceptFrame p (parse body)) st) :=
  h.port.runCommand s p code _ st (fun t body ht => h.accept t p _ (hparse body) ht) hs

/-- An engine input that `take` answers when it is an assertion (R134). -/
theorem asserted (s : State) (pins : Pins) (b : Bool) (take : State → State) (htake : ∀ t, P t → P (take t)) (hs : P s) :
    P (if b then take { s with pins := pins } else { s with pins := pins }) := by
  split
  · exact htake _ (h.withPins s pins hs)
  · exact h.withPins s pins hs

/-- Every command keeps what each action keeps. -/
theorem exec (c : Instr) (s : State) (hs : P s) : Answer.Keeps P (exec c s) := by
  cases c with
  | deviceReset => exact h.deviceReset s hs
  | frameResultByte p => exact h.port.selectFalls s p hs
  | badFrame p bits => exact h.port.endShortFrame _ p bits (h.port.openIfWhole s p hs)
  | unknownCommand p code st =>
    exact h.port.runFrame s p code _ _ _ _ st (fun t body => h.port.shiftBytes t p body) (fun _ _ ht => ht) hs
  | nop p st => exact h.port.runCommand s p _ _ st (fun _ _ ht => ht) hs
  | readStatus p st => exact h.port.runRead s p _ _ st hs
  | readEvents p st => exact h.port.runReadEvents s p st hs
  | eventRecordRemoval p =>
    show P (if s.readingEvents p then State.shiftRecord p (s.recordBytesLeft p) s else s)
    split
    · exact h.port.shiftRecord p _ s hs
    · exact hs
  | readPages p st => exact h.port.runRead s p _ _ st hs
  | readBands p st => exact h.port.runRead s p _ _ st hs
  | openPage p st => exact h.port.runCommand s p _ _ st (fun t body => h.openPageAct t p body) hs
  | abortPage p st => exact h.port.runCommand s p _ _ st (fun t body => h.abortPageAct t p body) hs
  | setEngine p st => exact h.port.runCommand s p _ _ st h.setEngineAct hs
  | setPort p st => exact h.port.runCommand s p _ _ st (fun t body => h.setPortAct t p body) hs
  | portReset p st => exact h.port.runCommand s p _ _ st (fun t _ => h.portReset t p) hs
  | fill p st => exact h.queued s p _ parseFill st tileInRange_parseFill hs
  | putBits p st => exact h.queued s p _ parsePutBits st tileInRange_parsePutBits hs
  | copy p st => exact h.queued s p _ parseCopy st tileInRange_parseCopy hs
  | loadTile p st => exact h.queued s p _ parseLoadTile st tileInRange_parseLoadTile hs
  | closeBand p st => exact h.queued s p _ parseCloseBand st tileInRange_parseCloseBand hs
  | leavePage p st => exact h.queued s p _ parseLeavePage st tileInRange_parseLeavePage hs
  | mark p st => exact h.queued s p _ parseMark st tileInRange_parseMark hs
  | sumBand p st => exact h.queued s p _ parseSumBand st tileInRange_parseSumBand hs
  | consideration => exact h.consider s hs
  | commandEnd =>
    show Answer.Keeps P (if s.addressesExist then .next s.endCommand else .fault .bandRamAddress)
    split
    · rename_i hadr
      exact h.endCommand s hadr hs
    · trivial
  | clearCompletion =>
    show Answer.Keeps P (if s.addressesExist then .next s.endClear else .fault .bandRamAddress)
    split
    · exact h.endClear s hs
    · trivial
  | prdyReassert => exact h.signals s s.pins s.resetHeld s.engine none s.tail s.vdat s.lineOut hs
  | top level => exact h.asserted s _ _ _ h.takeTop hs
  | lreq level => exact h.asserted s _ _ _ h.takeLreq hs
  | held moment =>
    cases moment with
    | rises => exact h.withPins s _ hs
    | wordEnd k => exact h.takeHeld s k hs
  | holdLow => exact h.takeHoldLow _ (h.withPins s _ hs)
  | lastBitSent => exact h.takeLastBit s hs
  | lack level => exact h.asserted s _ _ _ h.takeLack hs
  | earlyLackWordEnd => exact h.takeEarlyEnd s hs
  | acknowledgeWindowExpiry => exact h.takeWindowExpiry s hs
  | starvationTimerExpiry => exact h.takeStarvationExpiry s hs
  | resetnRises => exact h.signals s s.pins false s.engine s.prdyLow s.tail s.vdat s.lineOut hs
  | wordInFlightSent => exact h.takeTailSent s hs

/-- Every step keeps what each action and the clock keep, where the queue of commands and the names of the waiting completions do not matter. -/
theorem step (queue : ∀ (s : State) pending claims count, P s → P { s with pending := pending, clearClaims := claims, freeCount := count })
    (tick : ∀ s, P s → P s.tick) (s : State) (hs : P s) : Answer.Keeps P (step s) := by
  unfold Machine.step
  split
  · rename_i c rest hpend
    exact h.exec c _ (queue s rest s.clearClaims s.freeCount hs)
  · unfold State.idle
    split
    · exact hs
    · split
      · rename_i c rest hdue
        show P (s.postDue c rest)
        unfold State.postDue
        rw [State.settleClaim_eq]
        split
        · exact queue s _ _ s.freeCount hs
        · exact queue s _ _ _ hs
      · split
        · exact tick s hs
        · trivial

end KeptByActions

end Sys2Proof.Machine
end

