-- ==== Sys2Proof/Proofs/Updates.lean ====
section
/-! SUPPORT. The updates that the part's operations are made of: a property that each of them keeps is kept by every command and every step. -/

namespace Sys2Proof.Machine

/-! ## The updates -/

/-- From `s` to `t` nothing changes but levels, counters and the Streamer: the memories, slots, pages, ports, the clear order, the execution and the queue
of commands stay. -/
def State.SameStore (s t : State) : Prop :=
  t = { s with resetHeld := t.resetHeld, pins := t.pins, clearPos := t.clearPos, clearClaims := t.clearClaims, nextInstance := t.nextInstance,
               tileLoaded := t.tileLoaded, pointer := t.pointer, streamer := t.streamer, engine := t.engine, prdyLow := t.prdyLow, tail := t.tail,
               videoPhase := t.videoPhase, vdat := t.vdat, lineOut := t.lineOut, freeCount := t.freeCount }

/-- The bands of two page records have the same size. -/
def PageRecord.SameSize (p q : PageRecord) : Prop :=
  q.bandHeight = p.bandHeight ∧ q.lastBandHeight = p.lastBandHeight ∧ q.width = p.width

/-- Two execution records are of the same command on the same words. -/
def ExecRecord.SameWork (x y : ExecRecord) : Prop :=
  y.op = x.op ∧ y.slot = x.slot ∧ y.clip = x.clip ∧ y.rows = x.rows ∧ y.rowWords = x.rowWords

/-- The words of a command's rows lie in the band `k` (R74). -/
def BandRecord.Covers (k : BandRecord) (clip : Option Clip) (rows rowWords : Nat) : Prop :=
  match clip with
  | none => rows ≤ k.lines ∧ rowWords ≤ k.width
  | some c => c.rect.y + rows ≤ k.lines ∧ c.rect.x / 16 + rowWords ≤ k.width

/-- Every update that the part's operations are made of keeps the property `P`. -/
structure KeptByUpdates (P : State → Prop) : Prop where
  sameStore : ∀ s t, s.SameStore t → P s → P t
  port : PortRule P
  pop : ∀ s p, P s → P (s.popEntry p)
  life : ∀ s p life, P s → P (s.setHeadLife p life)
  append : ∀ s p q page, (∀ t, q.op = .loadTile t → t < 8) → P s → P (s.appendEntry p q page)
  emptyPort : ∀ s p, P s → P (s.updPort p fun ps => { ps with queue := [], events := [], interruptEnable := false, outcome := .ok })
  pages : ∀ (s : State) (l : List PageRecord), (∀ q ∈ l, ∃ p ∈ s.pages, p.SameSize q) → P s → P { s with pages := l }
  newPage : ∀ (s : State) (p : Port) (o : PageOperands), o.ok p = true → P s → P { s with pages := s.pages ++ [o.record p s.nextInstance], nextInstance := s.nextInstance + 1 }
  slot : ∀ s i st k st' k', s.slot i = .held st k → st ≠ .clearing → st' ≠ .clearing → (st' = .opened → st = .opened) → k'.lines = k.lines →
    k'.width = k.width → P s → P (s.setSlot i (.held st' k'))
  unstream : ∀ s i k, s.slot i = .held .streaming k → P s → P (s.setSlot i .free)
  allocate : ∀ s t, s.allocateOne = some t → P s → P t
  release : ∀ s r keep i, P s → P (State.releaseSlot r keep s i)
  opens : ∀ s i k rest, s.clearOrder = i :: rest → s.slot i = .held .clearing k → P s →
    P { (s.setSlot i (.held .opened k)) with clearOrder := rest, clearPos := 0 }
  band : ∀ s a v, P s → P (s.writeBand a v)
  tile : ∀ s a v, P s → P { s with tileRam := ramWrite s.tileRam a v }
  execution : ∀ s x y, s.execution = some x → x.SameWork y → P s → P { s with execution := some y }
  draws : ∀ s p e i k clip rows rowWords line, s.slot i = .held .opened k → (∀ t, e.op ≠ .loadTile t) → k.Covers clip rows rowWords → P s →
    P (s.startExecution p e (some i) clip rows rowWords line)
  loads : ∀ s p e t, s.headEntry p = some e → e.op = .loadTile t → P s → P (s.startExecution p e none none Config.tileRows 1 0)
  ends : ∀ s, P s → P { s with inFlight := none, execution := none }
  deviceReset : ∀ s, P s → P s.deviceReset

theorem PageRecord.SameSize.refl (p : PageRecord) : p.SameSize p := ⟨rfl, rfl, rfl⟩

/-! ## The Raster Unit's records -/

theorem ExecRecord.SameWork.trans {x y z : ExecRecord} (h : x.SameWork y) (g : y.SameWork z) : x.SameWork z := by
  obtain ⟨h1, h2, h3, h4, h5⟩ := h
  obtain ⟨g1, g2, g3, g4, g5⟩ := g
  exact ⟨g1.trans h1, g2.trans h2, g3.trans h3, g4.trans h4, g5.trans h5⟩

/-- The place of the next word is another place in the same work. -/
theorem ExecRecord.advance_sameWork (x : ExecRecord) : x.SameWork x.advance := by
  unfold ExecRecord.advance
  split
  · exact ⟨rfl, rfl, rfl, rfl, rfl⟩
  · split <;> exact ⟨rfl, rfl, rfl, rfl, rfl⟩

/-- One word of a command's work writes a word of band RAM, or one of the tile store, or nothing. -/
theorem State.touchWord_state (s : State) (x : ExecRecord) :
    (s.touchWord x).1 = s ∨ (∃ a v, (s.touchWord x).1 = s.writeBand a v) ∨
      ∃ a v, (s.touchWord x).1 = { s with tileRam := ramWrite s.tileRam a v } := by
  unfold State.touchWord State.touchBandWord
  split
  · exact .inr (.inr ⟨_, _, rfl⟩)
  · repeat' split
    all_goals first
      | exact .inl rfl
      | exact .inr (.inl ⟨_, _, rfl⟩)

@[simp] theorem State.touchWord_execution (s : State) (x : ExecRecord) : (s.touchWord x).1.execution = s.execution := by
  rcases s.touchWord_state x with h | ⟨_, _, h⟩ | ⟨_, _, h⟩ <;> rw [h]
  rfl

theorem State.touchWord_sameWork (s : State) (x : ExecRecord) : x.SameWork (s.touchWord x).2 := by
  unfold State.touchWord State.touchBandWord State.withRowBuffer
  repeat' split
  all_goals exact ⟨rfl, rfl, rfl, rfl, rfl⟩

/-- A rectangle inside a band takes words of the band's lines alone (R75). -/
theorem Rect.rowWords_le {r : Rect} {width : Nat} (hw : 0 < r.w) (h : r.x + r.w ≤ width * 16) : r.x / 16 + r.rowWords ≤ width := by
  unfold Rect.rowWords
  rw [if_neg (by omega)]
  omega

/-- What remains of a rectangle lies in the band, unless nothing remains (R74, R83). -/
theorem clipOf_covers {op : Operation} {k : BandRecord} {c : Clip} (h : clipOf op k.width k.lines = some c) (hne : c.rect.isEmpty = false) :
    k.Covers (some c) c.rect.h c.rect.rowWords := by
  simp only [Rect.isEmpty, Bool.or_eq_false_iff, decide_eq_false_iff_not] at hne
  have inside : c.rect.x + c.rect.w ≤ k.width * 16 ∧ c.rect.y + c.rect.h ≤ k.lines := by
    cases op with
    | fill | putBits =>
      cases h
      simp only [clipRect] at hne ⊢
      omega
    | copy =>
      cases h
      simp only [clipCopy] at hne ⊢
      omega
    | _ => cases h
  exact ⟨inside.2, Rect.rowWords_le (Nat.pos_of_ne_zero hne.1) inside.1⟩

/-- A command may run on an OPEN slot alone (R66). -/
theorem State.executionCheck_run {s : State} {p : Port} {r : PageRef} {b i : Nat} (h : s.executionCheck p r b = .run i) :
    ∃ k, s.slot i = .held .opened k := by
  have opened : ∀ j, checkSlot (s.slot j) j p = .run i → ∃ k, s.slot i = .held .opened k := by
    intro j hj
    unfold checkSlot at hj
    repeat' split at hj
    all_goals first
      | cases hj; exact ⟨_, ‹_›⟩
      | cases hj
  unfold State.executionCheck at h
  repeat' split at h
  all_goals first
    | exact opened _ h
    | cases h

namespace KeptByUpdates

variable {P : State → Prop} (h : KeptByUpdates P)
include h

/-! ## Postings, queues and pages -/

theorem postTo (s : State) (p : Port) (e : Event) (hs : P s) : P (s.postTo p e) := h.port s p _ (fun _ => ⟨rfl, rfl⟩) hs

theorem postAll (s : State) (ps : PortSet) (e : Event) (hs : P s) : P (s.postAll ps e) := by
  unfold State.postAll
  have ha : P (if ps.a then s.postTo .a e else s) := by
    split
    · exact h.postTo s .a e hs
    · exact hs
  dsimp only
  split
  · exact h.postTo _ .b e ha
  · exact ha

theorem postMaybe (s : State) (p : Port) (e : Option Event) (hs : P s) : P (s.postMaybe p e) := by
  cases e with
  | none => exact hs
  | some e => exact h.postTo s p e hs

theorem mapPage (s : State) (r : PageRef) (f : PageRecord → PageRecord) (hf : ∀ p, PageRecord.SameSize p (f p)) (hs : P s) : P (s.mapPage r f) := by
  refine h.pages s _ (fun q hq => ?_) hs
  obtain ⟨p, hp, rfl⟩ := List.mem_map.1 hq
  refine ⟨p, hp, ?_⟩
  split
  · exact hf p
  · exact .refl p

theorem filterPages (s : State) (f : PageRecord → Bool) (hs : P s) : P { s with pages := s.pages.filter f } :=
  h.pages s _ (fun q hq => ⟨q, (List.mem_filter.1 hq).1, .refl q⟩) hs

theorem recheck (s : State) (r : PageRef) (hs : P s) : P (s.recheck r) := by
  have one : ∀ (t : State) p, P t → P (t.recheckPort r p) := by
    intro t p ht
    rcases t.recheckPort_cases r p with h' | ⟨_, _, _, h'⟩ <;> rw [h']
    · exact ht
    · exact h.life t p _ ht
  exact one _ _ (one _ _ hs)

theorem abortWaiting (s : State) (r : PageRef) (hs : P s) : P (s.abortWaiting r) := by
  have one : ∀ (t : State) p, P t → P (t.abortWaitingPort r p) := by
    intro t p ht
    rcases t.abortWaitingPort_cases r p with h' | ⟨_, _, _, _, h'⟩ <;> rw [h']
    · exact ht
    · exact h.postTo _ p _ (h.pop t p ht)
  exact one _ _ (one _ _ hs)

/-! ## Allocation, release and the line -/

theorem evaluateAllocation (s : State) (hs : P s) : P s.evaluateAllocation :=
  State.evaluateAllocation_induct (fun s t hs ht => h.allocate s t ht hs) s hs

theorem requestStop (s : State) (r : PageRef) (hs : P s) : P (s.requestStop r) := by
  unfold State.requestStop
  cases hx : s.execution with
  | none =>
    have : ({ s with execution := none } : State) = s := by rw [← hx]
    simpa [this] using hs
  | some x =>
    refine h.execution s x _ hx ?_ hs
    dsimp only
    split <;> exact ⟨rfl, rfl, rfl, rfl, rfl⟩

theorem releaseSlots (s : State) (r : PageRef) (keep : Option Nat) (hs : P s) : P (s.releaseSlots r keep) :=
  State.releaseSlots_induct (fun s i hs => h.release s r keep i hs) (fun s hs => h.requestStop s r hs) s hs

theorem beginLine (s : State) (r : PageRef) (source : LineSource) (hs : P s) : P (s.beginLine r source) := h.sameStore s _ rfl hs

theorem startBand {s t : State} {r : PageRef} {b : Nat} (ht : s.startBand r b = some t) (hs : P s) : P t := by
  obtain ⟨i, k, -, hk, rfl⟩ := State.startBand_some ht
  exact h.beginLine _ _ _ (h.slot s i _ k _ k hk (by decide) (by decide) (by simp) rfl rfl hs)

theorem readyNotice (s : State) (r : PageRef) (b : Nat) (hs : P s) : P (s.readyNotice r b) := by
  rcases s.readyNotice_cases r b with h' | ⟨_, _, _, h'⟩
  · rwa [h']
  · exact h.startBand h' hs

theorem openToReady (s : State) (i : Nat) (force : Bool) (hs : P s) : P (s.openToReady i force) := by
  unfold State.openToReady
  split
  · rename_i k hk
    exact h.readyNotice _ _ _ (h.slot s i _ k _ _ hk (by decide) (by decide) (by simp) (by simp) (by simp) hs)
  · exact hs

theorem evaluateOffer (s : State) (w : Bool) (hs : P s) : P (s.evaluateOffer w) := by
  rcases s.evaluateOffer_cases w with h' | ⟨p, rest, hp, -, h'⟩ <;> rw [h']
  · exact hs
  · refine h.sameStore { s with pages := { p with state := .offered } :: rest } _ rfl (h.pages s _ (fun q hq => ?_) hs)
    rcases List.mem_cons.1 hq with rfl | hq
    · exact ⟨p, by simp [hp], rfl, rfl, rfl⟩
    · exact ⟨q, by simp [hp, hq], .refl q⟩

theorem offerIfHead (s : State) (r : PageRef) (hs : P s) : P (s.offerIfHead r) := by
  unfold State.offerIfHead
  split
  · exact h.evaluateOffer s _ hs
  · exact hs

theorem participantChange (s : State) (r : PageRef) (hs : P s) : P (s.participantChange r) := by
  have fold : ∀ (l : List Nat) (t : State), P t → P (l.foldl (fun t i => t.openToReady i false) t) := by
    intro l
    induction l with
    | nil => exact fun _ ht => ht
    | cons i l ih => exact fun t ht => ih _ (h.openToReady t i false ht)
  unfold State.participantChange
  split
  · exact hs
  · exact h.offerIfHead _ r (fold _ _ hs)

/-! ## Pages leaving the queue -/

theorem removePage (s : State) (r : PageRef) (hs : P s) : P (s.removePage r) := by
  have stop : P s.stopServing := by
    rcases s.stopServing_cases with ⟨_, _, _, h'⟩ | ⟨_, h'⟩ <;> rw [h'] <;> exact h.sameStore s _ rfl hs
  unfold State.removePage
  split
  · have hp : s.stopServing.pages = s.pages := by
      rcases s.stopServing_cases with ⟨_, _, _, h'⟩ | ⟨_, h'⟩ <;> rw [h']
    simpa [hp] using h.filterPages _ (fun p => decide (p.ref ≠ r)) stop
  · exact h.filterPages _ _ hs

theorem blankPage (s : State) (p : PageRecord) (cause : SpoilCause) (e : Event) (hs : P s) : P (s.blankPage p cause e) := by
  have released : P (((((s.postAll p.participants e).mapPage p.ref fun q =>
      { q with spoilCause := some cause, copiesRemaining := 1, state := .blanking }).releaseSlots p.ref
        s.lineSlot).evaluateAllocation).abortWaiting p.ref) :=
    h.abortWaiting _ _ (h.evaluateAllocation _ (h.releaseSlots _ _ _ (h.mapPage _ _ _ (fun _ => ⟨rfl, rfl, rfl⟩) (h.postAll _ _ _ hs))))
  unfold State.blankPage
  extract_lets s1 s2 s3 s4
  split
  · split
    · exact h.beginLine _ _ _ released
    · exact released
  · exact released

theorem removeUnprinted (s : State) (p : PageRecord) (hs : P s) : P (s.removeUnprinted p) := by
  have removed : P ((((s.postAll p.participants (Event.ofPage .pageAborted p.ref.tag SpoilCause.aborted.code)).releaseSlots p.ref
      none).removePage p.ref).evaluateAllocation) :=
    h.evaluateAllocation _ (h.removePage _ _ (h.releaseSlots _ _ _ (h.postAll _ _ _ hs)))
  unfold State.removeUnprinted
  extract_lets s1 s2 s3 s4
  refine h.abortWaiting _ _ ?_
  show P (if s.isHead p.ref then s3.evaluateOffer _ else s3)
  split
  · exact h.evaluateOffer _ _ removed
  · exact removed

theorem removeBlanking (s : State) (p : PageRecord) (hs : P s) : P (s.removeBlanking p) := by
  have removed : P (((s.removePage p.ref).releaseSlots p.ref none).evaluateAllocation) :=
    h.evaluateAllocation _ (h.releaseSlots _ _ _ (h.removePage _ _ hs))
  unfold State.removeBlanking
  extract_lets s1 s2 s3
  refine h.abortWaiting _ _ ?_
  show P (if s.isHead p.ref then s2.evaluateOffer _ else s2)
  split
  · exact h.evaluateOffer _ _ removed
  · exact removed

theorem abortRecord (s : State) (p : PageRecord) (hs : P s) : P (s.abortRecord p) := by
  unfold State.abortRecord
  split
  · exact h.removeUnprinted s p hs
  · exact h.removeUnprinted s p hs
  · exact h.blankPage s p _ _ hs
  · exact h.removeBlanking s p hs

theorem spoil (s : State) (r : PageRef) (cause : SpoilCause) (hs : P s) : P (s.spoil r cause) := by
  unfold State.spoil
  split
  · exact hs
  · split
    · exact h.blankPage s _ _ _ hs
    · exact h.postAll s _ _ hs
    · exact hs

/-! ## Ends of bands, copies and lines -/

theorem finishPage (s : State) (r : PageRef) (hs : P s) : P (s.finishPage r) := by
  refine h.recheck _ _ (h.evaluateOffer _ _ ?_)
  exact h.sameStore { s with pages := s.pages.filter fun p => decide (p.ref ≠ r) } _ rfl (h.filterPages s _ hs)

theorem bandEnd (s : State) (p : PageRecord) (i : Nat) (hs : P s) : P (s.bandEnd p i) := by
  unfold State.bandEnd
  split
  · rename_i k hk
    split
    · split
      · exact h.evaluateAllocation _ (h.unstream s i k hk hs)
      · split
        · exact h.mapPage _ _ _ (fun _ => ⟨rfl, rfl, rfl⟩) (h.slot s i _ k _ k hk (by decide) (by decide) (by simp) rfl rfl hs)
        · exact h.evaluateAllocation _ (h.mapPage _ _ _ (fun _ => ⟨rfl, rfl, rfl⟩) (h.unstream s i k hk hs))
    · exact hs
  · exact hs

theorem copyEnd (s : State) (p : PageRecord) (hs : P s) : P (s.copyEnd p) := by
  unfold State.copyEnd
  split
  · exact h.sameStore (s.mapPage p.ref _) _ rfl (h.mapPage s p.ref _ (fun _ => ⟨rfl, rfl, rfl⟩) hs)
  · exact h.finishPage _ _ (h.postAll _ _ _ hs)

theorem endLine (s : State) (r : PageRef) (source : LineSource) (hs : P s) : P (s.endLine r source) := by
  unfold State.endLine
  split
  · exact hs
  · rename_i p hp
    extract_lets s1 s2
    have h1 : P s1 := h.mapPage s r _ (fun _ => ⟨rfl, rfl, rfl⟩) hs
    have h2 : P s2 := by
      cases source with
      | background => exact h1
      | slot i =>
        show P (if s.lastOfBand p i || decide (p.state = PageState.blanking) then s1.bandEnd p i else s1)
        split
        · exact h.bandEnd _ _ _ h1
        · exact h1
    split
    · split
      · exact h.finishPage _ _ h2
      · exact h.copyEnd _ _ h2
    · exact h.sameStore s2 _ rfl h2

/-! ## PORT RESET -/

theorem leaveRecord (s : State) (q : PageRecord) (p : Port) (hs : P s) : P (s.leaveRecord q p) :=
  h.recheck _ _ (h.participantChange _ _ (h.postAll _ _ _ (h.mapPage _ _ _ (fun _ => ⟨rfl, rfl, rfl⟩) hs)))

theorem resetRecord (s : State) (p : Port) (r : PageRef) (hs : P s) : P (State.resetRecord p s r) := by
  unfold State.resetRecord
  split
  · exact hs
  · split
    · split
      · exact h.abortRecord _ _ (h.mapPage _ _ _ (fun _ => ⟨rfl, rfl, rfl⟩) hs)
      · exact h.leaveRecord _ _ _ hs
    · exact hs

theorem resetPort (s : State) (p : Port) (hs : P s) : P (s.resetPort p) := by
  refine State.resetPort_induct s (h.emptyPort _ p ?_) (fun t r => h.resetRecord t p r) (fun t => h.sameStore t _ rfl)
  cases hx : s.execution with
  | none =>
    have : ({ s with execution := none } : State) = s := by rw [← hx]
    simpa [this] using hs
  | some x =>
    refine h.execution s x _ hx ?_ hs
    dsimp only
    split <;> exact ⟨rfl, rfl, rfl, rfl, rfl⟩

/-! ## The Raster Unit -/

theorem finishEntry (s : State) (p : Port) (e : Option Event) (hs : P s) : P (s.finishEntry p e) :=
  h.sameStore ((s.popEntry p).postMaybe p e) _ rfl (h.postMaybe _ _ _ (h.pop _ _ hs))

theorem startBandCommand (s : State) (p : Port) (e : Entry) (i : Nat) (k : BandRecord) (hk : s.slot i = .held .opened k)
    (he : ∀ t, e.op ≠ .loadTile t) (hs : P s) : P (s.beginBandCommand p e i k) := by
  unfold State.beginBandCommand
  split
  · exact h.finishEntry s p _ hs
  · split
    · exact h.draws s p e i k none _ _ _ hk he ⟨le_rfl, le_rfl⟩ hs
    · rename_i c hc
      split
      · exact h.finishEntry s p _ hs
      · rename_i hne
        exact h.draws s p e i k (some c) _ _ _ hk he (clipOf_covers hc (by simpa using hne)) hs

theorem closeClaim (s : State) (p : Port) (i : Nat) (k : BandRecord) (hk : s.slot i = .held .opened k) (hs : P s) : P (s.closeClaim p i) := by
  have closed : P (s.setSlot i (.held .opened { k with closedBy := k.closedBy.add p })) :=
    h.slot s i _ k _ _ hk (by decide) (by decide) (by simp) rfl rfl hs
  unfold State.closeClaim
  rw [hk]
  dsimp only
  split
  · exact h.offerIfHead _ _ (h.openToReady _ i _ closed)
  · exact closed

theorem grantBand (s : State) (p : Port) (e : Entry) (r : PageRef) (b : Nat) (he : ∀ t, e.op ≠ .loadTile t) (hs : P s) :
    P (s.grantBand p e r b) := by
  unfold State.grantBand
  split
  · exact h.finishEntry s p _ hs
  · exact h.life s p _ hs
  · rename_i i hrun
    obtain ⟨k, hk⟩ := State.executionCheck_run hrun
    rw [hk]
    split
    · exact h.finishEntry _ p _ (h.closeClaim s p i k hk hs)
    · exact h.startBandCommand s p e i k hk he hs

theorem grantLeave (s : State) (p : Port) (e : Entry) (r : PageRef) (hs : P s) : P (s.grantLeave p e r) := by
  unfold State.grantLeave
  split
  · exact h.finishEntry s p _ hs
  · rename_i q hq
    split
    · exact h.finishEntry s p _ hs
    · split
      · exact h.finishEntry s p _ hs
      · split
        · exact h.finishEntry s p _ hs
        · exact h.finishEntry _ p _ (h.leaveRecord s q p hs)

theorem grant (s : State) (p : Port) (e : Entry) (he : s.headEntry p = some e) (hs : P s) : P (s.grant p e) := by
  unfold State.grant
  cases hop : e.op with
  | mark v => exact h.finishEntry s p _ hs
  | loadTile t => exact h.loads s p e t he hop hs
  | leavePage =>
    cases e.page with
    | none => exact hs
    | some r => exact h.grantLeave s p e r hs
  | fill | putBits | copy | closeBand | sumBand =>
    cases e.page with
    | none => exact hs
    | some r =>
      cases e.band with
      | none => exact hs
      | some b => exact h.grantBand s p e r b (by simp [hop]) hs

theorem consider (s : State) (hs : P s) : P s.consider := by
  unfold State.consider
  split
  · exact hs
  · split
    · exact hs
    · rename_i e he
      exact h.grant s _ e he hs

theorem rasterWord (s : State) (hs : P s) : P s.rasterWord := by
  unfold State.rasterWord
  split
  · exact hs
  · rename_i x hx
    split
    · exact hs
    · have touched : P (s.touchWord x).1 := by
        rcases s.touchWord_state x with h' | ⟨a, v, h'⟩ | ⟨a, v, h'⟩ <;> rw [h']
        · exact hs
        · exact h.band s a v hs
        · exact h.tile s a v hs
      refine h.execution _ x _ ?_ ((s.touchWord_sameWork x).trans (ExecRecord.advance_sameWork _)) touched
      rw [State.touchWord_execution, hx]

theorem finishWork (s : State) (hs : P s) : P s.finishWork := by
  have words : ∀ (n : Nat) (t : State), P t → P (State.rasterWords n t) := by
    intro n
    induction n with
    | zero => exact fun _ ht => ht
    | succ n ih => exact fun t ht => ih _ (h.rasterWord t ht)
  unfold State.finishWork
  split
  · exact hs
  · exact words _ s hs

theorem takeEndedSlot (s : State) (i : Nat) (hs : P s) : P (s.takeEndedSlot i) := by
  unfold State.takeEndedSlot
  split
  · exact h.evaluateAllocation s hs
  · split
    · exact h.offerIfHead _ _ (h.openToReady s i _ hs)
    · split
      · exact h.offerIfHead _ _ (h.openToReady s i _ hs)
      · exact hs
  · exact hs

theorem commandEndClaim (s : State) (x : ExecRecord) (hs : P s) : P (s.commandEndClaim x) := by
  unfold State.commandEndClaim
  extract_lets s1 s2 s3
  have h2 : P s2 := by
    show P (s1.markLoaded x.op)
    unfold State.markLoaded
    split
    · exact h.sameStore s1 _ rfl (h.ends s hs)
    · exact h.ends s hs
  have h3 : P s3 := by
    show P (match x.slot with | none => s2 | some i => s2.takeEndedSlot i)
    split
    · exact h2
    · exact h.takeEndedSlot s2 _ h2
  unfold State.popExecuting
  split
  · exact h.postMaybe _ _ _ h3
  · exact h.pop _ _ (h.postMaybe _ _ _ h3)

theorem endCommand (s : State) (hs : P s) : P s.endCommand := by
  unfold State.endCommand
  split
  · exact hs
  · exact h.commandEndClaim _ _ (h.finishWork s hs)

/-! ## The Clear Unit -/

theorem clearWords (i : Nat) (v : Word) (n w : Nat) (s : State) (hs : P s) : P (State.clearWords i v n w s) := by
  induction n generalizing w s with
  | zero => exact hs
  | succ n ih => exact ih _ _ (h.band s _ v hs)

theorem clearDone (s : State) (i : Nat) (k : BandRecord) (rest : List Nat) (ho : s.clearOrder = i :: rest) (hk : s.slot i = .held .clearing k)
    (hs : P s) : P (s.clearDone i k) := by
  unfold State.clearDone
  rw [ho]
  exact h.recheck _ _ (h.postAll _ _ _ (h.opens s i k rest ho hk hs))

theorem endClear (s : State) (hs : P s) : P s.endClear := by
  unfold State.endClear
  extract_lets t
  have ht : P t := h.sameStore s t rfl hs
  split
  · exact ht
  · rename_i c hc
    rcases t.takeClearClaim_cases c with h' | ⟨k, hk, hc, h'⟩ <;> rw [h']
    · exact ht
    · obtain ⟨rest, -, ho, -⟩ := State.clearUnderWay_some hc
      refine h.clearDone _ _ k rest ?_ ?_ (h.clearWords _ _ _ _ t ht)
      · rw [State.clearWords_eq]; exact ho
      · rw [State.clearWords_eq]; exact hk

/-! ## The Streamer -/

theorem takeTop (s : State) (hs : P s) : P s.takeTop := by
  unfold State.takeTop
  split
  · rename_i r hst
    split
    · exact hs
    · rename_i p hp
      have started : P { (s.mapPage r fun q => { q with state := .printing, linesServed := 0, nextToStream := 0 }) with
          streamer := .betweenLines r, prdyLow := none } :=
        h.sameStore (s.mapPage r _) _ rfl (h.mapPage s r _ (fun _ => ⟨rfl, rfl, rfl⟩) hs)
      dsimp only
      split
      · exact h.postAll _ _ _ started
      · exact started
  · exact h.postAll s _ _ hs

theorem notReady (s : State) (p : PageRecord) (hs : P s) : P (s.notReady p) := by
  unfold State.notReady
  split
  · exact h.beginLine _ _ _ (h.blankPage s p _ _ hs)
  · exact h.sameStore s _ rfl hs

theorem nextLine (s : State) (p : PageRecord) (hs : P s) : P (s.nextLine p) := by
  unfold State.nextLine
  split
  · cases hb : s.startBand p.ref p.nextToStream with
    | none => exact h.notReady s p hs
    | some t => exact h.startBand hb hs
  · split
    · exact h.beginLine s _ _ hs
    · exact h.notReady s p hs

theorem takeLreq (s : State) (hs : P s) : P s.takeLreq := by
  unfold State.takeLreq State.requestLine
  repeat' split
  all_goals first
    | exact hs
    | exact h.postAll s _ _ hs
    | exact h.beginLine s _ _ hs
    | exact h.nextLine s _ hs
    | exact h.spoil s _ _ hs

theorem takeLack (s : State) (hs : P s) : P s.takeLack := by
  have mark : ∀ t : State, P t → P t.markEarly := by
    intro t ht
    unfold State.markEarly
    split
    · exact h.sameStore t _ rfl ht
    · exact ht
  unfold State.takeLack
  split
  · exact mark _ (h.spoil s _ _ hs)
  · exact h.endLine _ _ _ (h.spoil s _ _ hs)
  · exact h.endLine s _ _ hs
  · exact h.postAll s _ _ hs

theorem takeHeld (s : State) (k : Nat) (hs : P s) : P (s.takeHeld k) := by
  unfold State.takeHeld
  split
  · split
    · exact h.sameStore s _ rfl hs
    · exact hs
  · exact hs

theorem takeHoldLow (s : State) (hs : P s) : P s.takeHoldLow := by
  unfold State.takeHoldLow
  split
  · exact h.sameStore s _ rfl hs
  · exact hs

theorem takeLastBit (s : State) (hs : P s) : P s.takeLastBit := by
  unfold State.takeLastBit
  split
  · split
    · exact hs
    · exact h.sameStore s _ rfl hs
  · exact hs

theorem takeEarlyEnd (s : State) (hs : P s) : P s.takeEarlyEnd := by
  unfold State.takeEarlyEnd
  split
  · split
    · exact h.endLine _ _ _ (h.sameStore s _ rfl hs)
    · exact hs
  · exact hs

theorem takeWindowExpiry (s : State) (hs : P s) : P s.takeWindowExpiry := by
  unfold State.takeWindowExpiry
  split
  · exact h.endLine _ _ _ (h.spoil s _ _ hs)
  · exact hs

theorem forceClose (s : State) (p : PageRecord) (i : Nat) (k : BandRecord) (hk : s.slot i = .held .opened k) (hs : P s) :
    P (s.forceClose p i k) := by
  unfold State.forceClose
  split
  · exact hs
  · split
    · exact h.postAll _ _ _ (h.slot s i _ k _ _ hk (by decide) (by decide) (by simp) rfl rfl hs)
    · exact h.openToReady _ i _ (h.postAll s _ _ hs)

theorem takeStarvationExpiry (s : State) (hs : P s) : P s.takeStarvationExpiry := by
  unfold State.takeStarvationExpiry
  split
  · rename_i r b n hst
    split
    · exact hs
    · rename_i p hp
      have ht : P { s with streamer := .starved r b s.starvationPeriods true } := h.sameStore s _ rfl hs
      unfold State.expiryClaim
      split
      · exact h.spoil _ _ _ ht
      · split
        · rename_i k hk
          exact h.forceClose _ p _ k hk ht
        · exact h.spoil _ _ _ ht
        · exact ht
  · exact hs

/-! ## Every command, every period and every step -/

/-- What every update keeps, every action keeps. -/
theorem actions : KeptByActions P where
  port := h.port
  signals s _ _ _ _ _ _ _ hs := h.sameStore s _ rfl hs
  deviceReset := h.deviceReset
  accept s p parsed hp hs := by
    unfold State.acceptFrame
    repeat' split
    all_goals first
      | exact hs
      | exact h.append s p _ _ (fun t => hp _ t rfl) hs
  openPage s p o ho _ hs := by
    unfold State.appendPage
    exact h.offerIfHead _ _ (h.evaluateAllocation _ (h.newPage s p o ho hs))
  abortPage s q _ _ hs := h.abortRecord s q hs
  portReset := h.resetPort
  consider := h.consider
  endCommand s _ hs := h.endCommand s hs
  endClear := h.endClear
  takeTop := h.takeTop
  takeLreq := h.takeLreq
  takeLack := h.takeLack
  takeHeld := h.takeHeld
  takeHoldLow := h.takeHoldLow
  takeLastBit := h.takeLastBit
  takeEarlyEnd := h.takeEarlyEnd
  takeWindowExpiry := h.takeWindowExpiry
  takeStarvationExpiry := h.takeStarvationExpiry

theorem tick (s : State) (hs : P s) : P s.tick := by
  have clear : P s.clearTick := by
    unfold State.clearTick
    split
    · exact hs
    · split
      · split
        · exact h.sameStore (s.writeBand _ _) _ rfl (h.band s _ _ hs)
        · exact hs
      · exact hs
  have raster : P s.clearTick.rasterTick := by
    rcases s.clearTick.rasterTick_cases with h' | ⟨x, hx, h'⟩ | h' <;> rw [h']
    · exact clear
    · exact h.execution _ x _ hx ⟨rfl, rfl, rfl, rfl, rfl⟩ clear
    · exact h.rasterWord _ clear
  have video : P s.clearTick.rasterTick.videoTick := by
    obtain ⟨_, _, _, _, _, h'⟩ := s.clearTick.rasterTick.videoTick_eq
    rw [h']
    exact h.sameStore _ _ rfl raster
  have starvation : P s.clearTick.rasterTick.videoTick.starvationTick := by
    rw [State.starvationTick_eq]
    exact h.sameStore s.clearTick.rasterTick.videoTick _ rfl video
  exact h.sameStore s.clearTick.rasterTick.videoTick.starvationTick _ rfl starvation

/-- What every update keeps, every step keeps, where the queue of commands does not matter. -/
theorem step (queue : ∀ (s : State) pending, P s → P { s with pending := pending }) (s : State) (hs : P s) : Answer.Keeps P (step s) :=
  h.actions.step (fun s pending _ _ hs => h.sameStore { s with pending := pending } _ rfl (queue s pending hs)) h.tick s hs

end KeptByUpdates

end Sys2Proof.Machine
end

