-- ==== Sys2Proof/Proofs/UpdateLaws.lean ====
section
/-! SUPPORT. Laws that every update keeps: the queue of commands, the canonical form of the memories (log 5), the clear order (R10), and that every word
that can be touched exists (R1, R15, R74; log 11). -/

namespace Sys2Proof.Machine

/-! ## What an update leaves -/

namespace State.SameStore

variable {s t : State} (h : s.SameStore t)
include h

theorem pending : t.pending = s.pending := by rw [show t = _ from h]
theorem slots : t.slots = s.slots := by rw [show t = _ from h]
theorem inFlight : t.inFlight = s.inFlight := by rw [show t = _ from h]
theorem clearOrder : t.clearOrder = s.clearOrder := by rw [show t = _ from h]
theorem bandRam : t.bandRam = s.bandRam := by rw [show t = _ from h]
theorem tileRam : t.tileRam = s.tileRam := by rw [show t = _ from h]
theorem pages : t.pages = s.pages := by rw [show t = _ from h]
theorem ports : t.ports = s.ports := by rw [show t = _ from h]
theorem execution : t.execution = s.execution := by rw [show t = _ from h]

end State.SameStore

/-- The freeing of one slot changes the slots and the clear order, its place and its claims alone. -/
theorem State.releaseSlot_eq (r : PageRef) (keep : Option Nat) (s : State) (i : Nat) :
    State.releaseSlot r keep s i = { s with
      slots := (State.releaseSlot r keep s i).slots, clearOrder := (State.releaseSlot r keep s i).clearOrder,
      clearPos := (State.releaseSlot r keep s i).clearPos, clearClaims := (State.releaseSlot r keep s i).clearClaims } := by
  rcases State.releaseSlot_cases r keep s i with h | ⟨-, -, l, h⟩ <;> rw [h]
  rfl

/-- One allocation changes the pages, the slots and the clear order alone. -/
theorem State.allocateOne_eq {s t : State} (h : s.allocateOne = some t) :
    t = { s with pages := t.pages, slots := t.slots, clearOrder := t.clearOrder, clearPos := t.clearPos } := by
  obtain ⟨p, i, -, -, rfl⟩ := State.allocateOne_some h
  rfl

/-- The slot an allocation takes is FREE, and is not the slot in flight (R7). -/
theorem State.freeSlot_some {s : State} {i : Nat} (h : s.freeSlot = some i) :
    i < s.slots.length ∧ s.slot i = .free ∧ s.inFlight ≠ some i := by
  have hmem := List.mem_of_find?_eq_some h
  have hp := List.find?_some h
  simp only [Bool.and_eq_true, decide_eq_true_eq] at hp
  exact ⟨List.mem_range.1 hmem, hp.1, hp.2⟩

/-- A slot that holds a band is one of the slots. -/
theorem State.lt_of_slot_held {s : State} {i : Nat} {st : HeldState} {k : BandRecord} (h : s.slot i = .held st k) : i < s.slots.length := by
  by_contra hlt
  simp [State.slot, List.getD_eq_getElem?_getD, List.getElem?_eq_none (Nat.le_of_not_lt hlt)] at h

theorem State.slot_mem {s : State} {i : Nat} (h : i < s.slots.length) : s.slot i ∈ s.slots := by
  simp [State.slot, List.getD_eq_getElem?_getD, h]

/-- Device reset leaves every slot FREE (R23). -/
theorem State.deviceReset_slot (s : State) (i : Nat) : s.deviceReset.slot i = .free := by
  show (List.replicate 8 Slot.free).getD i .free = .free
  rw [List.getD_eq_getElem?_getD, List.getElem?_replicate]
  split <;> rfl

/-! ## The queue of commands -/

/-- Every update leaves the queue of commands. -/
theorem keptByUpdates_pending (l : List Instr) : KeptByUpdates fun t => t.pending = l where
  sameStore _ _ h hs := h.pending.trans hs
  port _ _ _ _ hs := hs
  pop _ _ hs := hs
  life _ _ _ hs := hs
  append _ _ _ _ _ hs := hs
  emptyPort _ _ hs := hs
  pages _ _ _ hs := hs
  newPage _ _ _ _ hs := hs
  slot _ _ _ _ _ _ _ _ _ _ _ _ hs := hs
  unstream _ _ _ _ hs := hs
  allocate s t ht hs := by rw [State.allocateOne_eq ht]; exact hs
  release s r keep i hs := by rw [State.releaseSlot_eq]; exact hs
  opens _ _ _ _ _ _ hs := hs
  band _ _ _ hs := hs
  tile _ _ _ hs := hs
  execution _ _ _ _ _ hs := hs
  draws _ _ _ _ _ _ _ _ _ _ _ _ hs := hs
  loads _ _ _ _ _ _ hs := hs
  ends _ hs := hs
  deviceReset _ hs := hs

/-- A command is refused by the check of the words alone (log 11). -/
theorem exec_takes (c : Instr) (s : State) (h : (c ≠ .commandEnd ∧ c ≠ .clearCompletion) ∨ s.addressesExist = true) :
    ∃ t, exec c s = .next t := by
  cases c with
  | commandEnd =>
    have ha : s.addressesExist = true := by simpa using h
    exact ⟨s.endCommand, if_pos ha⟩
  | clearCompletion =>
    have ha : s.addressesExist = true := by simpa using h
    exact ⟨s.endClear, if_pos ha⟩
  | held moment => cases moment <;> exact ⟨_, rfl⟩
  | _ => exact ⟨_, rfl⟩

/-- Settles O2: every update leaves the queue, and only the two checks of log 11 can stop a command. -/
theorem commandsAreTakenAndLeaveTheQueue : Obligations.CommandsAreTakenAndLeaveTheQueue :=
  ⟨fun c s _ ht => ((keptByUpdates_pending s.pending).actions.exec c s rfl).of_next ht, exec_takes⟩

/-! ## The memories -/

/-- A property of the memories follows them from one state to another. -/
theorem State.memoriesCanonical_congr {s t : State} (hb : t.bandRam = s.bandRam) (ht : t.tileRam = s.tileRam)
    (hp : ∀ p, (t.port p).staging = (s.port p).staging) (h : s.memoriesCanonical) : t.memoriesCanonical := by
  obtain ⟨h1, h2, h3, h4⟩ := h
  exact ⟨hb ▸ h1, ht ▸ h2, by rwa [hp], by rwa [hp]⟩

theorem State.memoriesCanonical_updPort (s : State) (p : Port) (f : PortState → PortState) (hf : (f (s.port p)).staging = (s.port p).staging)
    (h : s.memoriesCanonical) : (s.updPort p f).memoriesCanonical := by
  refine State.memoriesCanonical_congr (s := s) rfl rfl (fun z => ?_) h
  by_cases hz : z = p
  · rw [hz, State.updPort_port_same, hf]
  · rw [State.updPort_port_ne _ _ _ _ hz]

theorem keptByUpdates_memoriesCanonical : KeptByUpdates State.memoriesCanonical where
  sameStore s t h hs := State.memoriesCanonical_congr h.bandRam h.tileRam (fun p => by rw [State.port, State.port, h.ports]) hs
  port s p f hf hs := s.memoriesCanonical_updPort p f (hf _).2 hs
  pop s p hs := s.memoriesCanonical_updPort p _ rfl hs
  life s p _ hs := s.memoriesCanonical_updPort p _ rfl hs
  append s p q page _ hs := by
    obtain ⟨hb, ht, h1, h2⟩ := hs
    cases p with
    | a => exact ⟨hb, ht, stagingPlace_wf h1 _ _, h2⟩
    | b => exact ⟨hb, ht, h1, stagingPlace_wf h2 _ _⟩
  emptyPort s p hs := s.memoriesCanonical_updPort p _ rfl hs
  pages _ _ _ hs := hs
  newPage _ _ _ _ hs := hs
  slot _ _ _ _ _ _ _ _ _ _ _ _ hs := hs
  unstream _ _ _ _ hs := hs
  allocate s t ht hs := by rw [State.allocateOne_eq ht]; exact hs
  release s r keep i hs := by rw [State.releaseSlot_eq]; exact hs
  opens _ _ _ _ _ _ hs := hs
  band s a v hs := ⟨ramWrite_wf hs.1 a v, hs.2⟩
  tile s a v hs := ⟨hs.1, ramWrite_wf hs.2.1 a v, hs.2.2⟩
  execution _ _ _ _ _ hs := hs
  draws s p _ _ _ _ _ _ _ _ _ _ hs :=
    show (s.setHeadLife p .executing).memoriesCanonical from s.memoriesCanonical_updPort p _ rfl hs
  loads s p _ _ _ _ hs :=
    show (s.setHeadLife p .executing).memoriesCanonical from s.memoriesCanonical_updPort p _ rfl hs
  ends _ hs := hs
  deviceReset _ _ := ⟨WordRam.wf_nil, WordRam.wf_nil, WordRam.wf_nil, WordRam.wf_nil⟩

/-- Settles O53. -/
theorem stepsKeepMemoriesCanonical : Obligations.StepsKeepMemoriesCanonical := fun s _ hs ht =>
  (keptByUpdates_memoriesCanonical.step (fun _ _ hs => hs) s hs).of_next ht

/-! ## The clear order -/

theorem State.isClearing_setSlot_ne {s : State} {i j : Nat} (x : Slot) (h : j ≠ i) : (s.setSlot i x).isClearing j = s.isClearing j := by
  unfold State.isClearing State.slot
  simp [List.getD_eq_getElem?_getD, List.getElem?_set_ne h.symm]

theorem State.isClearing_of_clearing {s : State} {i : Nat} {k : BandRecord} (h : s.slot i = .held .clearing k) : s.isClearing i = true := by
  simp [State.isClearing, h]

theorem State.isClearing_of_free {s : State} {i : Nat} (h : s.slot i = .free) : s.isClearing i = false := by
  simp [State.isClearing, h]

theorem State.isClearing_of_held {s : State} {i : Nat} {st : HeldState} {k : BandRecord} (h : s.slot i = .held st k) (hst : st ≠ .clearing) :
    s.isClearing i = false := by
  unfold State.isClearing
  rw [h]
  cases st with
  | clearing => exact absurd rfl hst
  | _ => rfl

theorem State.slot_setSlot_same {s : State} {i : Nat} (x : Slot) (hi : i < s.slots.length) : (s.setSlot i x).slot i = x := by
  rw [State.slot_setSlot _ _ _ _ hi, if_pos rfl]

theorem State.isClearing_congr {s t : State} (h : t.slots = s.slots) (i : Nat) : t.isClearing i = s.isClearing i := by
  unfold State.isClearing State.slot
  rw [h]

theorem State.clearOrderLawful_congr {s t : State} (hs : t.slots = s.slots) (ho : t.clearOrder = s.clearOrder) (h : s.clearOrderLawful) :
    t.clearOrderLawful := by
  obtain ⟨h1, h2, h3, h4⟩ := h
  refine ⟨by rw [hs, h1], by rwa [ho], by rwa [ho], fun i hi => ?_⟩
  rw [ho, State.isClearing_congr hs]
  exact h4 i hi

/-- A slot that is not CLEARING and does not become so: the order stays. -/
theorem State.clearOrderLawful_setSlot {s : State} {i : Nat} {x : Slot} (hold : s.isClearing i = false)
    (hnew : (s.setSlot i x).isClearing i = false) (h : s.clearOrderLawful) : (s.setSlot i x).clearOrderLawful := by
  obtain ⟨h1, h2, h3, h4⟩ := h
  refine ⟨by simp [h1], h2, h3, fun j hj => ?_⟩
  have same : (s.setSlot i x).isClearing j = s.isClearing j := by
    by_cases hji : j = i
    · rw [hji, hnew, hold]
    · exact State.isClearing_setSlot_ne x hji
  rw [same]
  exact h4 j hj

/-- A slot leaves the order and is CLEARING no more (R10). -/
theorem State.clearOrderLawful_leave {s t : State} {i : Nat} {x : Slot} (hx : (s.setSlot i x).isClearing i = false)
    (hs : t.slots = (s.setSlot i x).slots) (ho : t.clearOrder = s.clearOrder.filter fun j => decide (j ≠ i)) (h : s.clearOrderLawful) :
    t.clearOrderLawful := by
  obtain ⟨h1, h2, h3, h4⟩ := h
  refine ⟨by simp [hs, h1], ho ▸ h2.filter _, fun j hj => h3 j ?_, fun j hj => ?_⟩
  · rw [ho] at hj
    exact (List.mem_filter.1 hj).1
  · rw [State.isClearing_congr hs, ho]
    by_cases hji : j = i
    · subst hji; simp [hx]
    · rw [State.isClearing_setSlot_ne x hji, ← h4 j hj]
      simp [hji]

/-- A FREE slot joins the order and is CLEARING (R8, R10). -/
theorem State.clearOrderLawful_join {s t : State} {i : Nat} {k : BandRecord} (hi : i < s.slots.length) (hfree : s.slot i = .free)
    (hs : t.slots = (s.setSlot i (.held .clearing k)).slots) (ho : t.clearOrder = s.clearOrder ++ [i]) (h : s.clearOrderLawful) :
    t.clearOrderLawful := by
  obtain ⟨h1, h2, h3, h4⟩ := h
  have hout : i ∉ s.clearOrder := by
    rw [h4 i (h1 ▸ hi), State.isClearing_of_free hfree]
    simp
  refine ⟨by simp [hs, h1], ?_, fun j hj => ?_, fun j hj => ?_⟩
  · rw [ho]
    exact h2.append (by simp) (by simpa using hout)
  · rw [ho, List.mem_append, List.mem_singleton] at hj
    rcases hj with hj | rfl
    · exact h3 j hj
    · exact h1 ▸ hi
  · rw [State.isClearing_congr hs, ho, List.mem_append, List.mem_singleton]
    by_cases hji : j = i
    · simp [hji, State.isClearing_of_clearing (State.slot_setSlot_same (.held .clearing k) hi)]
    · simp [hji, State.isClearing_setSlot_ne _ hji, h4 j hj]

/-- The slot at the front of the order leaves it by the front: it stands there once. -/
theorem filter_front {i : Nat} {rest : List Nat} (h : (i :: rest).Nodup) : (i :: rest).filter (fun j => decide (j ≠ i)) = rest := by
  rw [List.nodup_cons] at h
  rw [List.filter_cons_of_neg (by simp)]
  exact List.filter_eq_self.2 fun j hj => by simpa using fun hji : j = i => h.1 (hji ▸ hj)

theorem keptByUpdates_clearOrderLawful : KeptByUpdates State.clearOrderLawful where
  sameStore s t h hs := State.clearOrderLawful_congr h.slots h.clearOrder hs
  port _ _ _ _ hs := hs
  pop _ _ hs := hs
  life _ _ _ hs := hs
  append _ _ _ _ _ hs := hs
  emptyPort _ _ hs := hs
  pages _ _ _ hs := hs
  newPage _ _ _ _ hs := hs
  slot s i st k st' k' hk hst hst' _ _ _ hs :=
    have hi := State.lt_of_slot_held hk
    State.clearOrderLawful_setSlot (State.isClearing_of_held hk hst) (State.isClearing_of_held (State.slot_setSlot_same _ hi) hst') hs
  unstream s i k hk hs :=
    have hi := State.lt_of_slot_held hk
    State.clearOrderLawful_setSlot (State.isClearing_of_held hk (by decide)) (State.isClearing_of_free (State.slot_setSlot_same _ hi)) hs
  allocate s t ht hs := by
    obtain ⟨p, i, -, hi, rfl⟩ := State.allocateOne_some ht
    obtain ⟨hlt, hfree, -⟩ := State.freeSlot_some hi
    exact State.clearOrderLawful_join (k := p.nextBand) hlt hfree rfl rfl hs
  release s r keep i hs := by
    rcases State.releaseSlot_cases r keep s i with h | ⟨hof, -, l, h⟩ <;> rw [h]
    · exact hs
    · obtain ⟨st, k, hk, -⟩ := Slot.held_of_ofPage hof
      have hi := State.lt_of_slot_held hk
      exact State.clearOrderLawful_leave (State.isClearing_of_free (State.slot_setSlot_same _ hi)) rfl rfl hs
  opens s i k rest ho hk hs := by
    have hi := State.lt_of_slot_held hk
    have hx := State.isClearing_of_held (State.slot_setSlot_same (.held .opened k) hi) (by decide)
    refine State.clearOrderLawful_leave hx rfl ?_ hs
    rw [ho, filter_front (ho ▸ hs.2.1)]
  band _ _ _ hs := hs
  tile _ _ _ hs := hs
  execution _ _ _ _ _ hs := hs
  draws _ _ _ _ _ _ _ _ _ _ _ _ hs := hs
  loads _ _ _ _ _ _ hs := hs
  ends _ hs := hs
  deviceReset s _ := by
    have ho : s.deviceReset.clearOrder = [] := rfl
    refine ⟨rfl, List.nodup_nil, by simp [ho], fun i _ => ?_⟩
    simp [ho, State.isClearing_of_free (s.deviceReset_slot i)]

/-- Settles O58. -/
theorem stepsKeepTheClearOrder : Obligations.StepsKeepTheClearOrder := fun s _ hs ht =>
  (keptByUpdates_clearOrderLawful.step (fun _ _ hs => hs) s hs).of_next ht

end Sys2Proof.Machine
end

