-- ==== Sys2Proof/Proofs/Accesses.lean ====
section
/-! SUPPORT. No step reaches a word that does not exist (R1, R15, R28, R74; log 11): the law of the accesses, update by update. -/

namespace Sys2Proof.Machine

/-! ## What the law says of each part of the state -/

/-- The words of a command's work lie in its tile, or in the band of its slot while that is OPEN (R74, R79). -/
def ExecRecord.Fits (x : ExecRecord) (s : State) : Prop :=
  (∀ t, x.op = .loadTile t → t < 8 ∧ x.rows ≤ 16) ∧
    ((∀ t, x.op ≠ .loadTile t) → ∀ i k, x.slot = some i → s.slot i = .held .opened k → k.Covers x.clip x.rows x.rowWords)

theorem State.executionFits_iff (s : State) : s.executionFits = true ↔ ∀ x, s.execution = some x → x.Fits s := by
  unfold State.executionFits ExecRecord.Fits BandRecord.Covers
  cases s.execution with
  | none => simp
  | some x =>
    simp only [Option.some.injEq, forall_eq']
    split
    · rename_i t ht
      rw [Bool.and_eq_true, decide_eq_true_eq, decide_eq_true_eq]
      exact ⟨fun h => ⟨fun u hu => (Operation.loadTile.inj (ht.symm.trans hu)) ▸ h, fun hno => absurd ht (hno t)⟩, fun h => h.1 t ht⟩
    · rename_i hop
      have hno : ∀ t, x.op ≠ .loadTile t := hop
      cases x.slot with
      | none => simp [hno]
      | some i =>
        simp only [Option.some.injEq]
        split
        · rename_i k hk
          refine ⟨fun hc => ⟨fun t ht => absurd ht (hno t), fun _ j k' hj hk' => ?_⟩, fun hf => ?_⟩
          · cases hj
            cases hk.symm.trans hk'
            revert hc
            cases x.clip <;> simp
          · have hc := hf.2 hno i k rfl hk
            revert hc
            cases x.clip <;> simp
        · rename_i hk
          simp only [true_iff]
          exact ⟨fun t ht => absurd ht (hno t), fun _ j k hj hkj => absurd (hj ▸ hkj) (hk k)⟩

theorem State.addressesExist_iff (s : State) :
    s.addressesExist = true ↔ s.slots.length ≤ 8 ∧ (∀ x ∈ s.slots, x.fits = true) ∧ ∀ x, s.execution = some x → x.Fits s := by
  unfold State.addressesExist
  rw [Bool.and_eq_true, Bool.and_eq_true, State.executionFits_iff, decide_eq_true_eq, List.all_eq_true, and_assoc]
  rfl

theorem State.markAgrees_iff (s : State) :
    s.markAgrees = true ↔ s.inFlight = s.execution.bind ExecRecord.slot ∧ ∀ i, s.inFlight = some i → s.isClearing i = false := by
  unfold State.markAgrees
  rw [Bool.and_eq_true, decide_eq_true_eq]
  cases s.inFlight <;> simp

/-- The law of the accesses, part by part. -/
structure State.Accesses (s : State) : Prop where
  pages : ∀ p ∈ s.pages, p.bandHeight * p.width ≤ 32768 ∧ p.lastBandHeight * p.width ≤ 32768
  tiles : ∀ p, ∀ e ∈ (s.port p).queue, ∀ t, e.op = .loadTile t → t < 8
  mark : s.inFlight = s.execution.bind ExecRecord.slot
  marked : ∀ i, s.inFlight = some i → s.isClearing i = false
  slots : s.slots.length ≤ 8
  fits : ∀ x ∈ s.slots, x.fits = true
  work : ∀ x, s.execution = some x → x.Fits s

theorem State.accessLawful_iff (s : State) : s.accessLawful ↔ s.Accesses := by
  unfold State.accessLawful
  rw [State.markAgrees_iff, State.addressesExist_iff]
  exact ⟨fun ⟨h1, h2, ⟨h3, h4⟩, h5, h6, h7⟩ => ⟨h1, h2, h3, h4, h5, h6, h7⟩, fun ⟨h1, h2, h3, h4, h5, h6, h7⟩ => ⟨h1, h2, ⟨h3, h4⟩, h5, h6, h7⟩⟩

/-! ## What keeps each part -/

theorem ExecRecord.Fits.congr {x : ExecRecord} {s t : State} (h : t.slots = s.slots) (hx : x.Fits s) : x.Fits t := by
  refine ⟨hx.1, fun hop i k hi hk => hx.2 hop i k hi ?_⟩
  unfold State.slot at hk ⊢
  rwa [← h]

/-- The same work fits where the other did. -/
theorem ExecRecord.Fits.sameWork {x y : ExecRecord} {s : State} (h : x.SameWork y) (hx : x.Fits s) : y.Fits s := by
  obtain ⟨h1, h2, h3, h4, h5⟩ := h
  unfold ExecRecord.Fits
  rw [h1, h2, h3, h4, h5]
  exact hx

/-- The law follows the fields it reads. -/
theorem State.Accesses.congr {s t : State} (h : s.Accesses) (hp : t.pages = s.pages) (hq : ∀ p, (t.port p).queue = (s.port p).queue)
    (hm : t.inFlight = s.inFlight) (hx : t.execution = s.execution) (hs : t.slots = s.slots) : t.Accesses where
  pages := hp ▸ h.pages
  tiles p := by rw [hq]; exact h.tiles p
  mark := by rw [hm, hx]; exact h.mark
  marked i hi := by rw [State.isClearing_congr hs]; exact h.marked i (hm ▸ hi)
  slots := hs ▸ h.slots
  fits := hs ▸ h.fits
  work x hxx := (h.work x (hx ▸ hxx)).congr hs

/-- A port's queue may lose entries and change their life states. -/
theorem State.Accesses.updPort {s : State} (p : Port) (f : PortState → PortState)
    (hf : ∀ e ∈ (f (s.port p)).queue, ∃ e' ∈ (s.port p).queue, e.op = e'.op) (h : s.Accesses) : (s.updPort p f).Accesses where
  pages := h.pages
  tiles z e he t ht := by
    by_cases hz : z = p
    · rw [hz, State.updPort_port_same] at he
      obtain ⟨e', he', hop⟩ := hf e he
      exact h.tiles p e' he' t (hop ▸ ht)
    · rw [State.updPort_port_ne _ _ _ _ hz] at he
      exact h.tiles z e he t ht
  mark := h.mark
  marked := h.marked
  slots := h.slots
  fits := h.fits
  work x hx := (h.work x hx).congr rfl

theorem State.Accesses.setHeadLife {s : State} (p : Port) (life : LifeState) (h : s.Accesses) : (s.setHeadLife p life).Accesses := by
  refine h.updPort p _ fun e he => ?_
  dsimp only at he
  cases hq : (s.port p).queue with
  | nil => simp [hq] at he
  | cons e' es =>
    rw [hq] at he
    rcases List.mem_cons.1 he with rfl | he
    · exact ⟨e', by simp, rfl⟩
    · exact ⟨e, by simp [he], rfl⟩

/-- A slot takes a record that fits; if that is CLEARING the slot is not in flight, and if it is OPEN the command on the slot fits it. -/
theorem State.Accesses.setSlot {s : State} {i : Nat} {x : Slot} (hi : i < s.slots.length) (hfits : x.fits = true)
    (hclear : s.inFlight = some i → (s.setSlot i x).isClearing i = false)
    (hopen : ∀ k y, x = .held .opened k → s.execution = some y → y.slot = some i → (∀ t, y.op ≠ .loadTile t) → k.Covers y.clip y.rows y.rowWords)
    (h : s.Accesses) : (s.setSlot i x).Accesses where
  pages := h.pages
  tiles := h.tiles
  mark := h.mark
  marked j hj := by
    by_cases hji : j = i
    · subst hji; exact hclear hj
    · rw [State.isClearing_setSlot_ne x hji]; exact h.marked j hj
  slots := by simpa using h.slots
  fits y hy := by
    rcases List.mem_or_eq_of_mem_set hy with hy | rfl
    · exact h.fits y hy
    · exact hfits
  work y hy := by
    refine ⟨(h.work y hy).1, fun hop j k hj hk => ?_⟩
    rw [State.slot_setSlot _ _ _ _ hi] at hk
    split at hk
    · rename_i hji
      exact hopen k y hk hy (hji ▸ hj) hop
    · exact (h.work y hy).2 hop j k hj hk

theorem Slot.fits_congr {st st' : HeldState} {k k' : BandRecord} (hl : k'.lines = k.lines) (hw : k'.width = k.width)
    (h : (Slot.held st k).fits = true) : (Slot.held st' k').fits = true := by
  simpa [Slot.fits, hl, hw] using h

theorem BandRecord.Covers.congr {k k' : BandRecord} {clip : Option Clip} {rows rowWords : Nat} (hl : k'.lines = k.lines) (hw : k'.width = k.width)
    (h : k.Covers clip rows rowWords) : k'.Covers clip rows rowWords := by
  unfold BandRecord.Covers at h ⊢
  rwa [hl, hw]

/-- The band that an allocation takes fits its slot (R28). -/
theorem State.Accesses.nextBand_fits {s : State} (h : s.Accesses) {p : PageRecord} (hp : p ∈ s.pages) :
    (Slot.held .clearing p.nextBand).fits = true := by
  have hsize := h.pages p hp
  have hlines : (if p.nextToAllocate + 1 = p.bandCount then p.lastBandHeight else p.bandHeight) * p.width ≤ 32768 := by
    split
    · exact hsize.2
    · exact hsize.1
  exact decide_eq_true hlines

/-- A page's ranges as OPEN PAGE checks them (R28). -/
theorem PageOperands.fits_of_ok {o : PageOperands} {p : Port} (h : o.ok p = true) :
    o.bandHeight * o.width ≤ 32768 ∧ o.lastBandHeight * o.width ≤ 32768 := by
  simp only [PageOperands.ok, Bool.and_eq_true] at h
  obtain ⟨⟨⟨⟨⟨⟨⟨⟨⟨-, hband⟩, hlast⟩, -⟩, -⟩, -⟩, -⟩, -⟩, -⟩, -⟩ := h
  exact ⟨of_decide_eq_true hband, of_decide_eq_true hlast⟩

/-! ## Every update -/

theorem keptByUpdates_accesses : KeptByUpdates State.Accesses where
  sameStore s t h hs :=
    hs.congr h.pages (fun p => by rw [State.port, State.port, h.ports]) h.inFlight h.execution h.slots
  port s p f hf hs := hs.updPort p f fun e he => ⟨e, (hf _).1 ▸ he, rfl⟩
  pop s p hs := hs.updPort p _ fun e he => ⟨e, List.mem_of_mem_tail he, rfl⟩
  life s p life hs := hs.setHeadLife p life
  append s p q page hq hs := by
    refine ⟨hs.pages, fun z e he t ht => ?_, hs.mark, hs.marked, hs.slots, hs.fits, fun x hx => (hs.work x hx).congr rfl⟩
    by_cases hz : z = p
    · rw [hz, State.appendEntry, State.updPort_port_same] at he
      rcases List.mem_append.1 he with he | he
      · exact hs.tiles p e he t ht
      · rw [List.mem_singleton.1 he] at ht
        exact hq t ht
    · rw [State.appendEntry, State.updPort_port_ne _ _ _ _ hz] at he
      exact hs.tiles z e he t ht
  emptyPort s p hs := hs.updPort p _ fun e he => by simp at he
  pages s l hl hs := by
    refine ⟨fun q hq => ?_, hs.tiles, hs.mark, hs.marked, hs.slots, hs.fits, fun x hx => (hs.work x hx).congr rfl⟩
    obtain ⟨p, hp, h1, h2, h3⟩ := hl q hq
    rw [h1, h2, h3]
    exact hs.pages p hp
  newPage s p o ho hs := by
    refine ⟨fun q hq => ?_, hs.tiles, hs.mark, hs.marked, hs.slots, hs.fits, fun x hx => (hs.work x hx).congr rfl⟩
    rcases List.mem_append.1 hq with hq | hq
    · exact hs.pages q hq
    · rw [List.mem_singleton.1 hq]
      exact PageOperands.fits_of_ok ho
  slot s i st k st' k' hk hst hst' hop hl hw hs := by
    have hi := State.lt_of_slot_held hk
    refine hs.setSlot hi (Slot.fits_congr (st := st) hl hw ?_) (fun _ => ?_) (fun k'' y hx hy hyi hyo => ?_)
    · exact hk ▸ hs.fits _ (State.slot_mem hi)
    · exact State.isClearing_of_held (State.slot_setSlot_same _ hi) hst'
    · cases hx
      rw [hop rfl] at hk
      exact ((hs.work y hy).2 hyo i k hyi hk).congr hl hw
  unstream s i k hk hs := by
    have hi := State.lt_of_slot_held hk
    exact hs.setSlot hi rfl (fun _ => State.isClearing_of_free (State.slot_setSlot_same _ hi)) (fun _ _ hx => nomatch hx)
  allocate s t ht hs := by
    obtain ⟨p, i, hp, hfree, rfl⟩ := State.allocateOne_some ht
    obtain ⟨hlt, -, hmark⟩ := State.freeSlot_some hfree
    have hset : (s.setSlot i (.held .clearing p.nextBand)).Accesses :=
      hs.setSlot hlt (hs.nextBand_fits (List.mem_of_find?_eq_some hp)) (fun h => absurd h hmark) (fun _ _ hx => nomatch hx)
    refine { hset with pages := fun q hq => ?_, work := fun x hx => (hset.work x hx).congr rfl }
    obtain ⟨p', hp', rfl⟩ := List.mem_map.1 hq
    split <;> exact hs.pages p' hp'
  release s r keep i hs := by
    rcases State.releaseSlot_cases r keep s i with h | ⟨hof, -, l, h⟩ <;> rw [h]
    · exact hs
    · obtain ⟨st, k, hk, -⟩ := Slot.held_of_ofPage hof
      have hi := State.lt_of_slot_held hk
      have hset : (s.setSlot i .free).Accesses :=
        hs.setSlot hi rfl (fun _ => State.isClearing_of_free (State.slot_setSlot_same _ hi)) (fun _ _ hx => nomatch hx)
      exact hset.congr rfl (fun _ => rfl) rfl rfl rfl
  opens s i k rest _ hk hs := by
    have hi := State.lt_of_slot_held hk
    have hset : (s.setSlot i (.held .opened k)).Accesses := by
      refine hs.setSlot hi (Slot.fits_congr (st := .clearing) rfl rfl (hk ▸ hs.fits _ (State.slot_mem hi))) (fun _ => ?_) (fun _ y _ hy hyi => ?_)
      · exact State.isClearing_of_held (State.slot_setSlot_same _ hi) (by decide)
      · have hmark : s.inFlight = some i := by rw [hs.mark, hy]; exact hyi
        exact absurd (hs.marked i hmark) (by simp [State.isClearing_of_clearing hk])
    exact hset.congr rfl (fun _ => rfl) rfl rfl rfl
  band s _ _ hs := hs.congr rfl (fun _ => rfl) rfl rfl rfl
  tile s _ _ hs := hs.congr rfl (fun _ => rfl) rfl rfl rfl
  execution s x y hx hw hs := by
    refine { hs with mark := ?_, work := fun z hz => ?_ }
    · rw [hs.mark, hx]; exact hw.2.1.symm
    · cases hz
      exact ((hs.work x hx).sameWork hw).congr rfl
  draws s p e i k clip rows rowWords line hk he hc hs := by
    refine { hs.setHeadLife p .executing with
      mark := rfl, marked := fun j hj => ?_, work := fun x hx => ?_ }
    · cases hj; exact State.isClearing_of_held hk (by decide)
    · cases hx
      refine ⟨fun t ht => absurd ht (he t), fun _ j k' hj hk' => ?_⟩
      cases hj
      cases hk.symm.trans hk'
      exact hc
  loads s p e t he hop hs := by
    refine { hs.setHeadLife p .executing with
      mark := rfl, marked := fun j hj => (nomatch hj), work := fun x hx => ?_ }
    cases hx
    refine ⟨fun t' ht' => ⟨?_, le_rfl⟩, fun hno => absurd hop (hno t)⟩
    exact hs.tiles p e (List.mem_of_mem_head? he) t' ht'
  ends s hs := { hs with mark := rfl, marked := fun j hj => (nomatch hj), work := fun x hx => (nomatch hx) }
  deviceReset s _ := by
    refine ⟨fun p hp => (nomatch hp), fun p e he => ?_, rfl, fun i hi => (nomatch hi), le_rfl, fun x hx => ?_, fun x hx => (nomatch hx)⟩
    · cases p <;> cases he
    · rw [List.eq_of_mem_replicate hx]; rfl

/-! ## The step -/

/-- A state with its queue of commands changed is lawful as before. -/
theorem State.Accesses.withPending {s : State} (l : List Instr) (h : s.Accesses) : ({ s with pending := l } : State).Accesses :=
  h.congr rfl (fun _ => rfl) rfl rfl rfl

theorem State.Accesses.addressesExist {s : State} (h : s.Accesses) : s.addressesExist = true :=
  s.addressesExist_iff.2 ⟨h.slots, h.fits, h.work⟩

/-- Where every word exists the part's own time does not fault. -/
theorem State.idle_answers {s : State} (h : s.addressesExist = true) : ∃ t, s.idle = .next t := by
  unfold State.idle
  split
  · exact ⟨_, rfl⟩
  · split
    · exact ⟨_, rfl⟩
    · exact ⟨_, rfl⟩

/-- A step from a lawful state answers a next state (log 11). -/
theorem step_answers {s : State} (h : s.Accesses) : ∃ t, step s = .next t := by
  unfold step
  split
  · rename_i c rest _
    exact exec_takes c _ (.inr (h.withPending rest).addressesExist)
  · exact State.idle_answers h.addressesExist

/-- Settles O59. -/
theorem noStepFaults : Obligations.NoStepFaults := by
  intro s hs
  have ha := s.accessLawful_iff.1 hs
  obtain ⟨t, ht⟩ := step_answers ha
  have hkept := keptByUpdates_accesses.step (fun _ pending h => h.withPending pending) s ha
  exact ⟨t, ht, t.accessLawful_iff.2 (hkept.of_next ht)⟩

end Sys2Proof.Machine
end

