-- ==== Sys2Proof/Proofs/DeviceReset.lean ====
section
/-! The reset of the part (R198). -/

namespace Sys2Proof.Machine

/-- After device reset a port has its reset values and the level of its select (R133, R183, R186; log 16). -/
theorem State.deviceReset_port (s : State) (p : Port) :
    s.deviceReset.port p = { PortState.reset with selectHigh := (s.port p).selectHigh } := by
  cases p <;> rfl

/-- Settles O3. -/
theorem deviceResetState : Obligations.DeviceResetState := by
  intro s
  refine ⟨s.deviceReset, rfl, rfl, rfl, rfl, rfl, rfl, rfl, rfl, rfl, rfl, rfl, rfl, rfl, rfl, rfl, rfl, rfl, fun p => ?_, rfl, rfl, fun _ => rfl⟩
  have hport := s.deviceReset_port p
  have hx : s.deviceReset.execution = none := rfl
  have hpin : s.deviceReset.asdoPin p = none := State.asdoPin_of_resetHeld rfl p
  simp [hpin, hport, hx, PortState.reset, State.interruptAsserted, State.stagingFree, State.payloadHeld, State.detachedPayload, State.stagingNext,
    Config.stagingWords]

end Sys2Proof.Machine
end

