-- ==== Sys2Proof/Proofs/PagesAndSlots.lean ====
section
/-! SUPPORT. Pages by their names, slots by their numbers, and what a release and an evaluation of allocation make of them (R6 to R8, R19 to R21, R26). -/

namespace Sys2Proof.Machine

/-! ## Pages by their names -/

theorem State.findPage_some {s : State} {r : PageRef} {p : PageRecord} (h : s.findPage r = some p) : p ∈ s.pages ∧ p.ref = r :=
  ⟨List.mem_of_find?_eq_some h, of_decide_eq_true (List.find?_some h :)⟩

theorem State.findPage_eq_none {s : State} {r : PageRef} : s.findPage r = none ↔ ∀ p ∈ s.pages, p.ref ≠ r := by
  simp [State.findPage]

theorem State.findPage_congr {s t : State} (h : t.pages = s.pages) (r : PageRef) : t.findPage r = s.findPage r := by
  unfold State.findPage
  rw [h]

/-- With no two pages of one tag, no two have one name (R26, R27). -/
theorem State.ref_injective {s : State} (h : (s.pages.map fun p => p.ref.tag).Nodup) {p q : PageRecord} (hp : p ∈ s.pages) (hq : q ∈ s.pages)
    (hr : p.ref = q.ref) : p = q :=
  List.inj_on_of_nodup_map h hp hq (by rw [hr])

theorem State.findPage_of_mem {s : State} (h : (s.pages.map fun p => p.ref.tag).Nodup) {p : PageRecord} (hp : p ∈ s.pages) :
    s.findPage p.ref = some p := by
  cases hf : s.findPage p.ref with
  | none => exact absurd rfl (State.findPage_eq_none.1 hf p hp)
  | some q =>
    obtain ⟨hq, hr⟩ := State.findPage_some hf
    rw [State.ref_injective h hq hp hr]

theorem State.pageOfTag_some {s : State} {tag : Byte} {p : PageRecord} (h : s.pageOfTag tag = some p) : p ∈ s.pages ∧ p.ref.tag = tag :=
  ⟨List.mem_of_find?_eq_some h, of_decide_eq_true (List.find?_some h :)⟩

/-- A change of one record leaves the tags. -/
theorem State.mapPage_tags (s : State) (r : PageRef) (f : PageRecord → PageRecord) (hf : ∀ p, (f p).ref = p.ref) :
    ((s.mapPage r f).pages.map fun p => p.ref.tag) = s.pages.map fun p => p.ref.tag := by
  rw [State.mapPage_pages, List.map_map]
  refine List.map_congr_left fun p _ => ?_
  simp only [Function.comp_apply]
  split
  · rw [hf]
  · rfl

/-- The record of the page that is changed. -/
theorem State.findPage_mapPage_same (s : State) (r : PageRef) (f : PageRecord → PageRecord) (hf : ∀ p, (f p).ref = p.ref) :
    (s.mapPage r f).findPage r = (s.findPage r).map f := by
  unfold State.findPage
  rw [State.mapPage_pages]
  induction s.pages with
  | nil => rfl
  | cons p l ih =>
    by_cases hp : p.ref = r
    · simp [hp, hf]
    · simp only [List.map_cons, hp, if_false, List.find?_cons, decide_false]
      exact ih

/-- The records of the others. -/
theorem State.findPage_mapPage_ne (s : State) {r r' : PageRef} (f : PageRecord → PageRecord) (hf : ∀ p, (f p).ref = p.ref) (h : r' ≠ r) :
    (s.mapPage r f).findPage r' = s.findPage r' := by
  unfold State.findPage
  rw [State.mapPage_pages]
  induction s.pages with
  | nil => rfl
  | cons p l ih =>
    by_cases hp : p.ref = r
    · have : p.ref ≠ r' := fun h' => h (h'.symm.trans hp)
      simp only [List.map_cons, hp, if_true, List.find?_cons, hf, Ne.symm h, decide_false]
      exact ih
    · simp only [List.map_cons, hp, if_false, List.find?_cons]
      split
      · rfl
      · exact ih

/-! ## Slots by their numbers -/

theorem State.slot_congr {s t : State} (h : t.slots = s.slots) (i : Nat) : t.slot i = s.slot i := by
  unfold State.slot
  rw [h]

theorem State.slot_setSlot_ne {s : State} {i j : Nat} (x : Slot) (h : j ≠ i) : (s.setSlot i x).slot j = s.slot j := by
  unfold State.slot
  simp [List.getD_eq_getElem?_getD, List.getElem?_set_ne h.symm]

/-- Beyond the slots there is none. -/
theorem State.slot_of_le {s : State} {i : Nat} (h : s.slots.length ≤ i) : s.slot i = .free := by
  simp [State.slot, List.getD_eq_getElem?_getD, List.getElem?_eq_none h]

/-- What holds of a FREE slot holds of every record of the band table if it holds of every slot by its number. -/
theorem State.forall_slots {s : State} {Q : Slot → Prop} (hfree : Q .free) : (∀ x ∈ s.slots, Q x) ↔ ∀ i, Q (s.slot i) := by
  constructor
  · intro h i
    by_cases hi : i < s.slots.length
    · exact h _ (State.slot_mem hi)
    · rw [State.slot_of_le (Nat.le_of_not_lt hi)]; exact hfree
  · intro h x hx
    obtain ⟨i, hi, rfl⟩ := List.mem_iff_getElem.1 hx
    have := h i
    rwa [State.slot, List.getD_eq_getElem _ _ hi] at this

/-- At most one record of a list satisfies `f` exactly if its place is unique. -/
theorem countP_le_one_iff {f : Slot → Bool} (hf : f .free = false) (l : List Slot) :
    l.countP f ≤ 1 ↔ ∀ i j, f (l.getD i .free) = true → f (l.getD j .free) = true → i = j := by
  induction l with
  | nil => simp [hf]
  | cons x l ih =>
    by_cases hx : f x = true
    · rw [List.countP_cons_of_pos hx]
      constructor
      · intro h
        have hnone : ∀ j, f (l.getD j .free) = false := by
          have h0 : l.countP f = 0 := by omega
          intro j
          by_cases hj : j < l.length
          · rw [List.getD_eq_getElem _ _ hj]
            simpa using List.countP_eq_zero.1 h0 _ (List.getElem_mem hj)
          · rw [List.getD_eq_default _ _ (Nat.le_of_not_lt hj), hf]
        intro i j hi hj
        cases i with
        | zero =>
          cases j with
          | zero => rfl
          | succ j => rw [List.getD_cons_succ, hnone] at hj; cases hj
        | succ i => rw [List.getD_cons_succ, hnone] at hi; cases hi
      · intro h
        have h0 : l.countP f = 0 := by
          refine List.countP_eq_zero.2 fun y hy hfy => ?_
          obtain ⟨j, hj, rfl⟩ := List.mem_iff_getElem.1 hy
          have := h 0 (j + 1) (by simpa using hx) (by simpa [List.getD_eq_getElem, hj] using hfy)
          cases this
        omega
    · rw [List.countP_cons_of_neg hx, ih]
      constructor
      · intro h i j hi hj
        cases i with
        | zero => exact absurd (by simpa using hi) hx
        | succ i =>
          cases j with
          | zero => exact absurd (by simpa using hj) hx
          | succ j => rw [h i j (by simpa using hi) (by simpa using hj)]
      · intro h i j hi hj
        exact Nat.succ.inj (h (i + 1) (j + 1) (by simpa using hi) (by simpa using hj))

/-- Exactly one record satisfies `f` exactly if one place does and no other. -/
theorem countP_eq_one_iff {f : Slot → Bool} (hf : f .free = false) (l : List Slot) :
    l.countP f = 1 ↔ (∃ i, f (l.getD i .free) = true) ∧ ∀ i j, f (l.getD i .free) = true → f (l.getD j .free) = true → i = j := by
  rw [← countP_le_one_iff hf]
  have hpos : 0 < l.countP f ↔ ∃ i, f (l.getD i .free) = true := by
    rw [List.countP_pos_iff]
    constructor
    · rintro ⟨x, hx, hfx⟩
      obtain ⟨i, hi, rfl⟩ := List.mem_iff_getElem.1 hx
      exact ⟨i, by rwa [List.getD_eq_getElem _ _ hi]⟩
    · rintro ⟨i, hi⟩
      by_cases hlt : i < l.length
      · exact ⟨_, List.getElem_mem hlt, by rwa [List.getD_eq_getElem _ _ hlt] at hi⟩
      · rw [List.getD_eq_default _ _ (Nat.le_of_not_lt hlt), hf] at hi
        cases hi
  rw [← hpos]
  omega

/-- The slot that a page's band is in (R66). -/
theorem State.slotOfBand_some {s : State} {r : PageRef} {b i : Nat} (h : s.slotOfBand r b = some i) :
    ∃ st k, s.slot i = .held st k ∧ k.page = r ∧ k.band = b := by
  have hp : (s.slot i).holds r b = true := (List.find?_some h :)
  cases hx : s.slot i with
  | free => simp [hx, Slot.holds] at hp
  | held st k =>
    simp only [hx, Slot.holds, Bool.and_eq_true, decide_eq_true_eq] at hp
    exact ⟨st, k, rfl, hp⟩

theorem State.slotOfBand_congr {s t : State} (h : t.slots = s.slots) (r : PageRef) (b : Nat) : t.slotOfBand r b = s.slotOfBand r b := by
  unfold State.slotOfBand State.slotNumbers State.slot
  rw [h]

/-! ## Release -/

/-- The freeing of one slot, slot by slot (R19). -/
theorem State.releaseSlot_slot (r : PageRef) (keep : Option Nat) (s : State) (i j : Nat) :
    (State.releaseSlot r keep s i).slot j = if j = i ∧ (s.slot i).ofPage r = true ∧ keep ≠ some i then .free else s.slot j := by
  rcases State.releaseSlot_cases r keep s i with h | ⟨hof, hk, l, h⟩
  · rw [h]
    split
    · rename_i hc
      obtain ⟨rfl, hof, hk⟩ := hc
      obtain ⟨st, k, hx, -⟩ := Slot.held_of_ofPage hof
      have hi := State.lt_of_slot_held hx
      have hfreed : (State.releaseSlot r keep s j).slot j = .free := by
        unfold State.releaseSlot
        rw [if_pos ⟨hof, hk⟩]
        exact State.slot_setSlot_same (s := s.cancelClear j) .free (by simpa using hi)
      rwa [h] at hfreed
    · rfl
  · obtain ⟨st, k, hx, -⟩ := Slot.held_of_ofPage hof
    have hi := State.lt_of_slot_held hx
    rw [h]
    show (s.setSlot i .free).slot j = _
    rw [State.slot_setSlot _ _ _ _ hi]
    simp [hof, hk]

/-- A release of a list of slots, slot by slot. -/
theorem State.foldl_releaseSlot_slot (r : PageRef) (keep : Option Nat) (l : List Nat) (s : State) (j : Nat) :
    (l.foldl (State.releaseSlot r keep) s).slot j = if j ∈ l ∧ (s.slot j).ofPage r = true ∧ keep ≠ some j then .free else s.slot j := by
  induction l generalizing s with
  | nil => simp
  | cons i l ih =>
    rw [List.foldl_cons, ih, State.releaseSlot_slot]
    by_cases hji : j = i
    · subst hji
      by_cases hrel : (s.slot j).ofPage r = true ∧ keep ≠ some j
      · simp [hrel]
      · simp [hrel]
    · simp [hji]

/-- A release frees the page's slots but for the one kept, and no other (R19, R20, R21). -/
theorem State.releaseSlots_slot (s : State) (r : PageRef) (keep : Option Nat) (j : Nat) :
    (s.releaseSlots r keep).slot j = if (s.slot j).ofPage r = true ∧ keep ≠ some j then .free else s.slot j := by
  show (s.slotNumbers.foldl (State.releaseSlot r keep) s).slot j = _
  rw [State.foldl_releaseSlot_slot]
  by_cases hj : j < s.slots.length
  · simp [State.slotNumbers, hj]
  · simp [State.slot_of_le (Nat.le_of_not_lt hj)]

/-- A release changes the slots, the clear order with its place and claims, and the executing command's mark alone (R13, R19, R104). -/
theorem State.releaseSlots_eq (s : State) (r : PageRef) (keep : Option Nat) :
    s.releaseSlots r keep = { s with
      slots := (s.releaseSlots r keep).slots, clearOrder := (s.releaseSlots r keep).clearOrder,
      clearPos := (s.releaseSlots r keep).clearPos, clearClaims := (s.releaseSlots r keep).clearClaims,
      execution := (s.releaseSlots r keep).execution } := by
  refine State.releaseSlots_induct (P := fun t => t = { s with
    slots := t.slots, clearOrder := t.clearOrder, clearPos := t.clearPos, clearClaims := t.clearClaims, execution := t.execution }) ?_ ?_ s rfl
  · intro t i ht
    rw [State.releaseSlot_eq, ht]
  · intro t ht
    unfold State.requestStop
    rw [ht]

@[simp] theorem State.releaseSlots_pages (s : State) (r : PageRef) (keep : Option Nat) : (s.releaseSlots r keep).pages = s.pages := by
  rw [State.releaseSlots_eq]

@[simp] theorem State.releaseSlots_streamer (s : State) (r : PageRef) (keep : Option Nat) : (s.releaseSlots r keep).streamer = s.streamer := by
  rw [State.releaseSlots_eq]

@[simp] theorem State.releaseSlots_ports (s : State) (r : PageRef) (keep : Option Nat) : (s.releaseSlots r keep).ports = s.ports := by
  rw [State.releaseSlots_eq]

@[simp] theorem State.releaseSlots_inFlight (s : State) (r : PageRef) (keep : Option Nat) : (s.releaseSlots r keep).inFlight = s.inFlight := by
  rw [State.releaseSlots_eq]

/-- The executing command of the released page is marked (R104). -/
theorem State.releaseSlots_execution (s : State) (r : PageRef) (keep : Option Nat) : (s.releaseSlots r keep).execution = s.stoppedFor r := by
  have fold : ∀ (l : List Nat) (t : State), (l.foldl (State.releaseSlot r keep) t).execution = t.execution := by
    intro l
    induction l with
    | nil => exact fun _ => rfl
    | cons i l ih =>
      intro t
      rw [List.foldl_cons, ih, State.releaseSlot_eq]
  show ((s.slotNumbers.foldl (State.releaseSlot r keep) s).execution.map fun x => if x.page = some r then { x with stopRequested := true } else x) = _
  rw [fold, State.stoppedFor]
  cases s.execution with
  | none => rfl
  | some x =>
    simp only [Option.map_some]
    split
    · rename_i h; simp [h]
    · rename_i h; simp [h]

/-! ## Allocation -/

/-- The record without what allocation changes of it (R8). -/
def PageRecord.unallocated (p : PageRecord) : PageRecord := { p with nextToAllocate := 0 }

/-- From `s` to `t` bands have been allocated: the pages stay but for next to allocate, a slot that was held stays, one that was FREE is FREE or
CLEARING (R8). -/
structure State.Allocates (s t : State) : Prop where
  pages : t.pages.map PageRecord.unallocated = s.pages.map PageRecord.unallocated
  kept : ∀ i, s.slot i ≠ .free → t.slot i = s.slot i
  fresh : ∀ i, s.slot i = .free → t.slot i = .free ∨ ∃ k, t.slot i = .held .clearing k

namespace State.Allocates

variable {s t u : State}

theorem refl (s : State) : s.Allocates s := ⟨rfl, fun _ _ => rfl, fun _ h => .inl h⟩

theorem trans (h : s.Allocates t) (g : t.Allocates u) : s.Allocates u where
  pages := g.pages.trans h.pages
  kept i hi := by rw [g.kept i (by rwa [h.kept i hi]), h.kept i hi]
  fresh i hi := by
    rcases h.fresh i hi with hf | ⟨k, hk⟩
    · exact g.fresh i hf
    · exact .inr ⟨k, by rw [g.kept i (by simp [hk]), hk]⟩

/-- What a page record says besides next to allocate, each record of the later queue says too. -/
theorem forall_pages (h : s.Allocates t) {Q : PageRecord → Prop} (hQ : ∀ p, Q p.unallocated ↔ Q p) (hs : ∀ p ∈ s.pages, Q p) :
    ∀ p ∈ t.pages, Q p := by
  intro p hp
  have hmem : p.unallocated ∈ s.pages.map PageRecord.unallocated := h.pages ▸ List.mem_map_of_mem hp
  obtain ⟨q, hq, heq⟩ := List.mem_map.1 hmem
  rw [← hQ, ← heq, hQ]
  exact hs q hq

theorem head (h : s.Allocates t) : t.pages.head?.map PageRecord.unallocated = s.pages.head?.map PageRecord.unallocated := by
  rw [← List.head?_map, h.pages, List.head?_map]

theorem held (h : s.Allocates t) {i : Nat} {st : HeldState} {k : BandRecord} (hi : s.slot i = .held st k) : t.slot i = .held st k := by
  rw [h.kept i (by simp [hi]), hi]

/-- A slot that holds a band in another state than CLEARING held it before. -/
theorem held_before (h : s.Allocates t) {i : Nat} {st : HeldState} {k : BandRecord} (hi : t.slot i = .held st k) (hst : st ≠ .clearing) :
    s.slot i = .held st k := by
  cases hs : s.slot i with
  | free =>
    rcases h.fresh i hs with hf | ⟨k', hk⟩
    · simp [hf] at hi
    · rw [hk] at hi; cases hi; exact absurd rfl hst
  | held st' k' => rw [← h.held hs]; exact hi

end State.Allocates

theorem State.allocateOne_allocates {s t : State} (h : s.allocateOne = some t) : s.Allocates t := by
  obtain ⟨p, i, -, hfree, rfl⟩ := State.allocateOne_some h
  obtain ⟨hlt, hf, -⟩ := State.freeSlot_some hfree
  have hslot : ∀ j, State.slot { (s.mapPage p.ref fun q => { q with nextToAllocate := q.nextToAllocate + 1 }) with
      slots := s.slots.set i (.held .clearing p.nextBand), clearOrder := s.clearOrder ++ [i],
      clearPos := if s.clearOrder.isEmpty then 0 else s.clearPos } j = (s.setSlot i (.held .clearing p.nextBand)).slot j := fun _ => rfl
  refine ⟨?_, fun j hj => ?_, fun j hj => ?_⟩
  · show (s.pages.map fun q => if q.ref = p.ref then { q with nextToAllocate := q.nextToAllocate + 1 } else q).map PageRecord.unallocated = _
    rw [List.map_map]
    refine List.map_congr_left fun q _ => ?_
    simp only [Function.comp_apply]
    split <;> rfl
  · rw [hslot, State.slot_setSlot_ne]
    rintro rfl
    exact hj hf
  · rw [hslot, State.slot_setSlot _ _ _ _ hlt]
    split
    · exact .inr ⟨_, rfl⟩
    · exact .inl hj

/-- An evaluation of allocation allocates (R6). -/
theorem State.evaluateAllocation_allocates (s : State) : s.Allocates s.evaluateAllocation :=
  State.evaluateAllocation_induct (P := s.Allocates) (fun _ _ h ht => h.trans (State.allocateOne_allocates ht)) s (.refl s)

@[simp] theorem State.evaluateAllocation_streamer (s : State) : s.evaluateAllocation.streamer = s.streamer := by
  rw [State.evaluateAllocation_eq]

@[simp] theorem State.evaluateAllocation_ports (s : State) : s.evaluateAllocation.ports = s.ports := by rw [State.evaluateAllocation_eq]

@[simp] theorem State.evaluateAllocation_execution (s : State) : s.evaluateAllocation.execution = s.execution := by
  rw [State.evaluateAllocation_eq]

@[simp] theorem State.evaluateAllocation_inFlight (s : State) : s.evaluateAllocation.inFlight = s.inFlight := by
  rw [State.evaluateAllocation_eq]

end Sys2Proof.Machine
end

