-- ==== Sys2Proof/Proofs/RingParts.lean ====
section
/-! SUPPORT. The law of the ring of bands, taken apart: what a page accepts in a slot, the bands, the copies, and the page that the Streamer serves
(R3, R9, R16, R20, R26, R54, R139, R143). -/

namespace Sys2Proof.Machine

/-! ## The parts -/

/-- The page accepts the band `k` in a slot in state `st` (R3, R8, R9, R16, R54). -/
structure PageRecord.Accepts (p : PageRecord) (st : HeldState) (k : BandRecord) : Prop where
  lines : k.lines = p.linesOf k.band
  blanking : p.state = .blanking → st = .streaming
  inRun : p.state ≠ .blanking → p.lowBand ≤ k.band ∧ k.band < p.nextToAllocate ∧ (st = .streaming → k.band = p.nextToStream)
  streams : st = .streaming → p.state = .printing ∨ p.state = .blanking
  closed : st = .ready ∨ st = .streaming → k.forced = true ∨ p.participants.within k.closedBy = true

/-- Next to stream, next to allocate and band count are in order (R9). -/
def PageRecord.Ordered (p : PageRecord) : Prop := p.nextToStream ≤ p.nextToAllocate ∧ p.nextToAllocate ≤ p.bandCount

/-- What a page record says of its copies and lines (R25, R35, R37, R143). -/
structure PageRecord.Prints (p : PageRecord) : Prop where
  bandCount : 1 ≤ p.bandCount
  bandHeight : 1 ≤ p.bandHeight
  lastBandHeight : 1 ≤ p.lastBandHeight
  copies : 1 ≤ p.copiesRemaining
  single : p.resident = false → p.copiesRemaining = 1
  waiting : p.state = .pending ∨ p.state = .offered → p.nextToStream = 0 ∧ p.linesServed = 0
  printing : p.state = .printing → p.nextToStream < p.bandCount ∧ p.nextToStream * p.bandHeight ≤ p.linesServed ∧
    p.linesServed < p.nextToStream * p.bandHeight + p.linesOf p.nextToStream

/-- The bands in the slots and the pages that they belong to (R3, R9, R54). -/
structure State.Bands (s : State) : Prop where
  tags : (s.pages.map fun p => p.ref.tag).Nodup
  ordered : ∀ p ∈ s.pages, p.Ordered
  held : ∀ i st k, s.slot i = .held st k → ∃ p ∈ s.pages, p.ref = k.page ∧ p.Accepts st k
  once : ∀ i j st st' k k', s.slot i = .held st k → s.slot j = .held st' k' → k.page = k'.page → k.band = k'.band → i = j
  stream : ∀ i j k k', s.slot i = .held .streaming k → s.slot j = .held .streaming k' → i = j
  run : ∀ p ∈ s.pages, p.state ≠ .blanking → ∀ b, p.lowBand ≤ b → b < p.nextToAllocate →
    ∃ i st k, s.slot i = .held st k ∧ k.page = p.ref ∧ k.band = b

/-- The page and the source of the line in flight (R138). -/
def StreamerState.line : StreamerState → Option (PageRef × LineSource)
  | .sending r line => some (r, line.source)
  | .held r source _ => some (r, source)
  | .ackWait r source _ => some (r, source)
  | _ => none

/-- The page whose lines the Streamer sends, but for a starvation wait (R138). -/
def StreamerState.served : StreamerState → Option PageRef
  | .betweenLines r => some r
  | .sending r _ => some r
  | .held r _ _ => some r
  | .ackWait r _ _ => some r
  | _ => none

/-- The page and the band that a starvation wait is for (R138, R159). -/
def StreamerState.awaits : StreamerState → Option (PageRef × Nat)
  | .starved r b _ _ => some (r, b)
  | _ => none

/-- The pages and slots of the part are those that the Streamer in state `st` serves (R20, R26, R139, R143, R159). -/
structure State.Serves (s : State) (st : StreamerState) : Prop where
  behind : ∀ p ∈ s.pages.tail, p.state = .pending
  idle : st = .idle → ∀ p, s.pages.head? = some p → p.state = .pending
  offered : ∀ r, st = .offered r → ∃ p, s.pages.head? = some p ∧ p.ref = r ∧ p.state = .offered
  served : ∀ r, st.served = some r → ∃ p, s.pages.head? = some p ∧ p.ref = r ∧ (p.state = .printing ∨ p.state = .blanking)
  starved : ∀ r b, st.awaits = some (r, b) → ∃ p, s.pages.head? = some p ∧ p.ref = r ∧ p.state = .printing ∧ p.nextToStream = b
  lineSlot : ∀ r i, st.line = some (r, .slot i) → ∃ k, s.slot i = .held .streaming k ∧ k.page = r
  lineBackground : ∀ r, st.line = some (r, .background) → ∃ p, s.pages.head? = some p ∧ p.ref = r ∧ p.state = .blanking
  blanking : ∀ i k p, s.slot i = .held .streaming k → p ∈ s.pages → p.ref = k.page → p.state = .blanking → ∃ r, st.line = some (r, .slot i)

/-- The law of the ring of bands. -/
structure State.Ring (s : State) : Prop where
  bands : s.Bands
  prints : ∀ p ∈ s.pages, p.Prints
  serves : s.Serves s.streamer

/-! ## The parts are the law -/

theorem State.lineInFlight_eq (s : State) : s.lineInFlight = s.streamer.line := by
  unfold State.lineInFlight StreamerState.line
  cases s.streamer <;> rfl

theorem State.lineSlot_eq_some {s : State} {i : Nat} : s.lineSlot = some i ↔ ∃ r, s.streamer.line = some (r, .slot i) := by
  unfold State.lineSlot StreamerState.line
  cases s.streamer with
  | sending r line => cases h : line.source <;> simp [h]
  | held r source _ => cases source <;> simp
  | ackWait r source _ => cases source <;> simp
  | _ => simp

theorem PageRecord.progressLawful_iff (p : PageRecord) : p.progressLawful ↔ p.Ordered ∧ p.Prints := by
  constructor
  · rintro ⟨h1, h2, h3, h4, h5, h6, h7, h8, h9⟩
    exact ⟨⟨h4, h5⟩, ⟨h1, h2, h3, h6, h7, h8, h9⟩⟩
  · rintro ⟨⟨h4, h5⟩, ⟨h1, h2, h3, h6, h7, h8, h9⟩⟩
    exact ⟨h1, h2, h3, h4, h5, h6, h7, h8, h9⟩

/-- The Streamer agrees with the head page (R26, R138, R139), case by case. -/
theorem streamerAgrees_iff (st : StreamerState) (head : Option PageRecord) :
    streamerAgrees st head = true ↔
      (st = .idle → ∀ p, head = some p → p.state = .pending) ∧
      (∀ r, st = .offered r → ∃ p, head = some p ∧ p.ref = r ∧ p.state = .offered) ∧
      (∀ r, st.served = some r → ∃ p, head = some p ∧ p.ref = r ∧ (p.state = .printing ∨ p.state = .blanking)) ∧
      ∀ r b, st.awaits = some (r, b) → ∃ p, head = some p ∧ p.ref = r ∧ p.state = .printing := by
  unfold streamerAgrees StreamerState.served StreamerState.awaits
  cases st <;> cases head <;> simp

/-- The slots' laws, slot by slot: what the page of a slot accepts in it. -/
theorem State.slot_lawful_iff {s : State} (htags : (s.pages.map fun p => p.ref.tag).Nodup) (x : Slot) :
    (s.slotHasPage x = true ∧ s.streamsItsPage x = true ∧ s.readyIsClosed x = true ∧ ∀ p ∈ s.pages, x.inRun p = true) ↔
      ∀ st k, x = .held st k → ∃ p ∈ s.pages, p.ref = k.page ∧ p.Accepts st k := by
  cases x with
  | free => simp
  | held st k =>
    constructor
    · rintro ⟨hpage, hstream, hclosed, hrun⟩ _ _ ⟨⟩
      obtain ⟨p, hp⟩ := Option.isSome_iff_exists.1 (show (s.findPage k.page).isSome = true from hpage)
      obtain ⟨hmem, href⟩ := State.findPage_some hp
      have hin := hrun p hmem
      simp only [Slot.inRun, href, ne_eq, not_true, decide_false, Bool.false_or, Bool.and_eq_true, decide_eq_true_eq] at hin
      refine ⟨p, hmem, href, hin.1, fun hb => ?_, fun hb => ?_, fun hs => ?_, fun hs => ?_⟩
      · simpa [hb] using hin.2
      · have := hin.2
        simp only [hb, if_false, Bool.and_eq_true, Bool.or_eq_true, decide_eq_true_eq] at this
        exact ⟨this.1.1, this.1.2, fun hst => this.2.resolve_left fun hne => hne hst⟩
      · subst hs
        simpa [State.streamsItsPage, hp] using hstream
      · have hst : st ≠ .clearing ∧ st ≠ .opened := by rcases hs with rfl | rfl <;> decide
        simpa [State.readyIsClosed, hp, hst.1, hst.2] using hclosed
    · intro h
      obtain ⟨p, hmem, href, hacc⟩ := h st k rfl
      have hp : s.findPage k.page = some p := href ▸ State.findPage_of_mem htags hmem
      refine ⟨by simp [State.slotHasPage, hp], ?_, ?_, fun q hq => ?_⟩
      · cases st with
        | streaming => simpa [State.streamsItsPage, hp] using hacc.streams rfl
        | _ => rfl
      · cases st with
        | ready => simpa [State.readyIsClosed, hp] using hacc.closed (.inl rfl)
        | streaming => simpa [State.readyIsClosed, hp] using hacc.closed (.inr rfl)
        | _ => simp
      · by_cases hq' : k.page = q.ref
        · cases State.ref_injective htags hmem hq (href.trans hq')
          simp only [Slot.inRun, hq', ne_eq, not_true, decide_false, Bool.false_or, Bool.and_eq_true, decide_eq_true_eq]
          refine ⟨hacc.lines, ?_⟩
          split
          · rename_i hb
            simpa using hacc.blanking hb
          · rename_i hb
            obtain ⟨h1, h2, h3⟩ := hacc.inRun hb
            simp only [Bool.and_eq_true, Bool.or_eq_true, decide_eq_true_eq]
            exact ⟨⟨h1, h2⟩, (Classical.em (st = .streaming)).elim (fun hst => .inr (h3 hst)) .inl⟩
        · simp [Slot.inRun, hq']

theorem Slot.holds_iff {x : Slot} {r : PageRef} {b : Nat} : x.holds r b = true ↔ ∃ st k, x = .held st k ∧ k.page = r ∧ k.band = b := by
  cases x <;> simp [Slot.holds]

theorem Slot.isStreaming_iff {x : Slot} : x.isStreaming = true ↔ ∃ k, x = .held .streaming k := by
  cases x with
  | free => simp [Slot.isStreaming]
  | held st k => cases st <;> simp [Slot.isStreaming]

theorem State.countP_streaming_iff (s : State) :
    s.slots.countP Slot.isStreaming ≤ 1 ↔ ∀ i j k k', s.slot i = .held .streaming k → s.slot j = .held .streaming k' → i = j := by
  rw [countP_le_one_iff rfl]
  constructor
  · exact fun h i j k k' hi hj => h i j (Slot.isStreaming_iff.2 ⟨k, hi⟩) (Slot.isStreaming_iff.2 ⟨k', hj⟩)
  · intro h i j hi hj
    obtain ⟨k, hk⟩ := Slot.isStreaming_iff.1 hi
    obtain ⟨k', hk'⟩ := Slot.isStreaming_iff.1 hj
    exact h i j k k' hk hk'

theorem State.countP_holds_iff (s : State) (r : PageRef) (b : Nat) :
    s.slots.countP (fun x => x.holds r b) = 1 ↔ (∃ i st k, s.slot i = .held st k ∧ k.page = r ∧ k.band = b) ∧
      ∀ i j st st' k k', s.slot i = .held st k → s.slot j = .held st' k' → k.page = r → k.band = b → k'.page = r → k'.band = b → i = j := by
  rw [countP_eq_one_iff (f := fun x => x.holds r b) rfl]
  refine and_congr (exists_congr fun i => Slot.holds_iff) ⟨?_, ?_⟩
  · exact fun h i j st st' k k' hi hj hp hb hp' hb' => h i j (Slot.holds_iff.2 ⟨st, k, hi, hp, hb⟩) (Slot.holds_iff.2 ⟨st', k', hj, hp', hb'⟩)
  · intro h i j hi hj
    obtain ⟨st, k, hk, hp, hb⟩ := Slot.holds_iff.1 hi
    obtain ⟨st', k', hk', hp', hb'⟩ := Slot.holds_iff.1 hj
    exact h i j st st' k k' hk hk' hp hb hp' hb'

/-- The law of the band table and of the runs is that of the bands (R3, R9, R54). -/
theorem State.bands_iff (s : State) :
    s.Bands ↔ (s.pages.map fun p => p.ref.tag).Nodup ∧ s.bandTableLawful ∧ (∀ p ∈ s.pages, p.Ordered ∧ s.holdsRun p) ∧
      ∀ x ∈ s.slots, s.readyIsClosed x = true := by
  constructor
  · rintro ⟨htags, hord, hheld, honce, hstream, hrun⟩
    have hslot : ∀ x ∈ s.slots, _ := fun x hx => (State.slot_lawful_iff htags x).2 <|
      (State.forall_slots (Q := fun x => ∀ st k, x = .held st k → ∃ p ∈ s.pages, p.ref = k.page ∧ p.Accepts st k)
        (fun _ _ h => nomatch h)).2 hheld x hx
    refine ⟨htags, ⟨fun x hx => (hslot x hx).1, s.countP_streaming_iff.2 hstream, fun x hx => (hslot x hx).2.1⟩, fun p hp => ?_,
      fun x hx => (hslot x hx).2.2.1⟩
    refine ⟨hord p hp, fun x hx => (hslot x hx).2.2.2 p hp, fun hb b hb' hlow => ?_⟩
    exact (s.countP_holds_iff p.ref b).2 ⟨hrun p hp hb b hlow hb',
      fun i j st st' k k' hi hj h1 h2 h3 h4 => honce i j st st' k k' hi hj (h1.trans h3.symm) (h2.trans h4.symm)⟩
  · rintro ⟨htags, ⟨hpage, hone, hits⟩, hpages, hclosed⟩
    have hheld : ∀ i st k, s.slot i = .held st k → ∃ p ∈ s.pages, p.ref = k.page ∧ p.Accepts st k := by
      intro i st k hi
      have hx : s.slot i ∈ s.slots := State.slot_mem (State.lt_of_slot_held hi)
      exact (State.slot_lawful_iff htags (s.slot i)).1 ⟨hpage _ hx, hits _ hx, hclosed _ hx, fun p hp => (hpages p hp).2.1 _ hx⟩ st k hi
    have hstream := s.countP_streaming_iff.1 hone
    refine ⟨htags, fun p hp => (hpages p hp).1, hheld, fun i j st st' k k' hi hj hp hb => ?_, hstream, fun p hp hb b hlow hlt => ?_⟩
    · obtain ⟨p, hmem, href, hacc⟩ := hheld i st k hi
      obtain ⟨p', hmem', href', hacc'⟩ := hheld j st' k' hj
      cases State.ref_injective htags hmem hmem' (by rw [href, href', hp])
      by_cases hbl : p.state = .blanking
      · cases hacc.blanking hbl
        cases hacc'.blanking hbl
        exact hstream i j k k' hi hj
      · obtain ⟨h1, h2, -⟩ := hacc.inRun hbl
        exact ((s.countP_holds_iff p.ref k.band).1 ((hpages p hmem).2.2 hbl _ h2 h1)).2 i j st st' k k' hi hj href.symm rfl href'.symm hb.symm
    · exact ((s.countP_holds_iff p.ref b).1 ((hpages p hp).2.2 hb b hlt hlow)).1

/-- A STREAMING slot of a BLANKING page is that of the line in flight (R20), slot by slot. -/
theorem State.blankingStreams_iff {s : State} (h : s.Bands) :
    s.blankingStreams = true ↔ ∀ i k p, s.slot i = .held .streaming k → p ∈ s.pages → p.ref = k.page → p.state = .blanking →
      ∃ r, s.streamer.line = some (r, .slot i) := by
  unfold State.blankingStreams
  rw [List.all_eq_true]
  constructor
  · intro hall i k p hi hp href hb
    have := hall i (List.mem_range.2 (State.lt_of_slot_held hi))
    rw [hi] at this
    simp only [← href, State.findPage_of_mem h.tags hp, hb, ne_eq, not_true, decide_false, Bool.false_or, decide_eq_true_eq] at this
    exact State.lineSlot_eq_some.1 this
  · intro hall i _
    split
    · rename_i k hi
      obtain ⟨p, hp, href, -⟩ := h.held i _ k hi
      rw [← href, State.findPage_of_mem h.tags hp]
      by_cases hb : p.state = .blanking
      · simpa [hb] using State.lineSlot_eq_some.2 (hall i k p hi hp href hb)
      · simp [hb]
    · rfl

/-- The line in flight comes from its slot, or is a background line (R20, R146, R166). -/
theorem State.lineHasSlot_iff (s : State) :
    s.lineHasSlot = true ↔
      (∀ r i, s.streamer.line = some (r, .slot i) → ∃ k, s.slot i = .held .streaming k ∧ k.page = r) ∧
      ∀ r, s.streamer.line = some (r, .background) → ∃ p, s.pages.head? = some p ∧ p.ref = r ∧ p.state = .blanking := by
  unfold State.lineHasSlot
  rw [State.lineInFlight_eq]
  rcases hl : s.streamer.line with _ | ⟨r, _ | i⟩
  · simp
  · rename_i i
    simp only [Option.some.injEq, Prod.mk.injEq, LineSource.slot.injEq, reduceCtorEq, and_false, false_implies, implies_true, and_true]
    constructor
    · rintro h _ _ ⟨rfl, rfl⟩
      split at h
      · rename_i k hk
        exact ⟨k, hk, by simpa using h⟩
      · cases h
    · intro h
      obtain ⟨k, hk, hp⟩ := h r i ⟨rfl, rfl⟩
      simp [hk, hp]
  · cases s.pages.head? <;> simp

theorem State.awaitsNextBand_iff (s : State) :
    s.awaitsNextBand = true ↔ ∀ r b, s.streamer.awaits = some (r, b) → ∃ p, s.pages.head? = some p ∧ p.nextToStream = b := by
  unfold State.awaitsNextBand StreamerState.awaits
  cases s.streamer <;> cases s.pages.head? <;> simp

/-- The law of the ring of bands, part by part. -/
theorem State.ringLawful_iff (s : State) : s.ringLawful ↔ s.Ring := by
  constructor
  · rintro ⟨⟨htags, hbehind, hagrees⟩, htable, hpages, hclosed, hline, hblank, hawait⟩
    have hbands : s.Bands := s.bands_iff.2 ⟨htags, htable, fun p hp => ⟨(p.progressLawful_iff.1 (hpages p hp).1).1, (hpages p hp).2⟩, hclosed⟩
    obtain ⟨h1, h2, h3, h4⟩ := (streamerAgrees_iff _ _).1 hagrees
    obtain ⟨h5, h6⟩ := s.lineHasSlot_iff.1 hline
    refine ⟨hbands, fun p hp => (p.progressLawful_iff.1 (hpages p hp).1).2, hbehind, h1, h2, h3, fun r b hst => ?_, h5, h6,
      (State.blankingStreams_iff hbands).1 hblank⟩
    obtain ⟨p, hp, href, hstate⟩ := h4 r b hst
    obtain ⟨p', hp', hb⟩ := s.awaitsNextBand_iff.1 hawait r b hst
    cases hp.symm.trans hp'
    exact ⟨p, hp, href, hstate, hb⟩
  · rintro ⟨hbands, hprints, hbehind, h1, h2, h3, h4, h5, h6, h7⟩
    obtain ⟨htags, htable, hpages, hclosed⟩ := s.bands_iff.1 hbands
    refine ⟨⟨htags, hbehind, (streamerAgrees_iff _ _).2 ⟨h1, h2, h3, fun r b hst => ?_⟩⟩, htable,
      fun p hp => ⟨p.progressLawful_iff.2 ⟨(hpages p hp).1, hprints p hp⟩, (hpages p hp).2⟩, hclosed, s.lineHasSlot_iff.2 ⟨h5, h6⟩,
      (State.blankingStreams_iff hbands).2 h7, s.awaitsNextBand_iff.2 fun r b hst => ?_⟩
    · obtain ⟨p, hp, href, hstate, -⟩ := h4 r b hst
      exact ⟨p, hp, href, hstate⟩
    · obtain ⟨p, hp, -, -, hb⟩ := h4 r b hst
      exact ⟨p, hp, hb⟩

end Sys2Proof.Machine
end

