-- ==== Sys2Proof/Proofs/RingUpdates.lean ====
section
/-! SUPPORT. What each update makes of the parts of the law of the ring of bands: the bands, the copies and the page served (R3, R9, R20, R26, R54). -/

namespace Sys2Proof.Machine

/-! ## The bands -/

namespace State.Bands

variable {s t : State}

theorem congr (h : s.Bands) (hp : t.pages = s.pages) (hs : t.slots = s.slots) : t.Bands := by
  have hslot := State.slot_congr hs
  obtain ⟨h1, h2, h3, h4, h5, h6⟩ := h
  exact ⟨by rwa [hp], by rwa [hp], by simpa only [hslot, hp] using h3, by simpa only [hslot] using h4, by simpa only [hslot] using h5,
    by simpa only [hslot, hp] using h6⟩

/-- The page that a slot belongs to. -/
theorem page_of_slot (h : s.Bands) {i : Nat} {st : HeldState} {k : BandRecord} (hi : s.slot i = .held st k) {p : PageRecord} (hp : p ∈ s.pages)
    (hr : p.ref = k.page) : p.Accepts st k := by
  obtain ⟨q, hq, hqr, hacc⟩ := h.held i st k hi
  cases State.ref_injective h.tags hq hp (hqr.trans hr.symm)
  exact hacc

/-- No slot comes to hold a band that it did not hold, and none begins to stream: what is left to show is of the pages. -/
theorem of_inherited (h : s.Bands) (tags : (t.pages.map fun p => p.ref.tag).Nodup) (ordered : ∀ p ∈ t.pages, p.Ordered)
    (held : ∀ i st k, t.slot i = .held st k → ∃ p ∈ t.pages, p.ref = k.page ∧ p.Accepts st k)
    (inherited : ∀ i st k, t.slot i = .held st k → ∃ st' k', s.slot i = .held st' k' ∧ k'.page = k.page ∧ k'.band = k.band ∧
      (st = .streaming → st' = .streaming))
    (run : ∀ p ∈ t.pages, p.state ≠ .blanking → ∀ b, p.lowBand ≤ b → b < p.nextToAllocate →
      ∃ i st k, t.slot i = .held st k ∧ k.page = p.ref ∧ k.band = b) : t.Bands where
  tags := tags
  ordered := ordered
  held := held
  once i j st st' k k' hi hj hp hb := by
    obtain ⟨_, k0, h0, hp0, hb0, -⟩ := inherited i st k hi
    obtain ⟨_, k1, h1, hp1, hb1, -⟩ := inherited j st' k' hj
    exact h.once i j _ _ k0 k1 h0 h1 (by rw [hp0, hp1, hp]) (by rw [hb0, hb1, hb])
  stream i j k k' hi hj := by
    obtain ⟨_, k0, h0, -, -, hs0⟩ := inherited i _ k hi
    obtain ⟨_, k1, h1, -, -, hs1⟩ := inherited j _ k' hj
    cases hs0 rfl
    cases hs1 rfl
    exact h.stream i j k0 k1 h0 h1
  run := run

/-- One page record changes, and slots of that page may be freed: what is left to show is of that page. -/
theorem change (h : s.Bands) {r : PageRef} {f : PageRecord → PageRecord} (hf : ∀ p, (f p).ref = p.ref) (hp : t.pages = (s.mapPage r f).pages)
    (hslot : ∀ i, t.slot i = s.slot i ∨ t.slot i = .free ∧ (s.slot i).ofPage r = true)
    (ordered : ∀ p ∈ s.pages, p.ref = r → p.Ordered → (f p).Ordered)
    (accepts : ∀ p ∈ s.pages, p.ref = r → ∀ i st k, t.slot i = .held st k → k.page = r → p.Accepts st k → (f p).Accepts st k)
    (run : ∀ p ∈ s.pages, p.ref = r → (f p).state ≠ .blanking → ∀ b, (f p).lowBand ≤ b → b < (f p).nextToAllocate →
      ∃ i st k, t.slot i = .held st k ∧ k.page = r ∧ k.band = b) : t.Bands := by
  have hmem : ∀ {q}, q ∈ t.pages → ∃ p ∈ s.pages, (if p.ref = r then f p else p) = q := fun hq => by
    rw [hp, State.mapPage_pages] at hq
    exact List.mem_map.1 hq
  have hheld : ∀ i st k, t.slot i = .held st k → s.slot i = .held st k := by
    intro i st k hi
    rcases hslot i with hsame | ⟨hfree, -⟩
    · rwa [hsame] at hi
    · rw [hfree] at hi; cases hi
  refine h.of_inherited ?_ (fun q hq => ?_) (fun i st k hi => ?_) (fun i st k hi => ⟨st, k, hheld i st k hi, rfl, rfl, id⟩)
    (fun q hq hb b hlow hlt => ?_)
  · rw [hp, State.mapPage_tags s r f hf]
    exact h.tags
  · obtain ⟨p, hpm, rfl⟩ := hmem hq
    split
    · rename_i hr; exact ordered p hpm hr (h.ordered p hpm)
    · exact h.ordered p hpm
  · obtain ⟨p, hpm, href, hacc⟩ := h.held i st k (hheld i st k hi)
    refine ⟨if p.ref = r then f p else p, by rw [hp, State.mapPage_pages]; exact List.mem_map_of_mem hpm, ?_⟩
    split
    · rename_i hr
      exact ⟨(hf p).trans href, accepts p hpm hr i st k hi (href.symm.trans hr) hacc⟩
    · exact ⟨href, hacc⟩
  · obtain ⟨p, hpm, rfl⟩ := hmem hq
    by_cases hr : p.ref = r
    · rw [if_pos hr] at hb hlow hlt
      rw [if_pos hr, hf, hr]
      exact run p hpm hr hb b hlow hlt
    · rw [if_neg hr] at hb hlow hlt
      rw [if_neg hr]
      obtain ⟨i, st, k, hi, hpage, hband⟩ := h.run p hpm hb b hlow hlt
      refine ⟨i, st, k, ?_, hpage, hband⟩
      rcases hslot i with hsame | ⟨-, hof⟩
      · rwa [hsame]
      · rw [hi] at hof
        exact absurd (hpage.symm.trans (of_decide_eq_true hof)) hr

/-- One page record changes, the slots stay, and the page's run does not grow. -/
theorem mapPage (h : s.Bands) {r : PageRef} {f : PageRecord → PageRecord} (hf : ∀ p, (f p).ref = p.ref)
    (ordered : ∀ p ∈ s.pages, p.ref = r → p.Ordered → (f p).Ordered)
    (accepts : ∀ p ∈ s.pages, p.ref = r → ∀ i st k, s.slot i = .held st k → k.page = r → p.Accepts st k → (f p).Accepts st k)
    (run : ∀ p ∈ s.pages, p.ref = r → (f p).state ≠ .blanking → p.state ≠ .blanking ∧ p.lowBand ≤ (f p).lowBand ∧
      (f p).nextToAllocate ≤ p.nextToAllocate) : (s.mapPage r f).Bands := by
  refine h.change hf rfl (fun i => .inl rfl) ordered accepts fun p hpm hr hb b hlow hlt => ?_
  obtain ⟨h1, h2, h3⟩ := run p hpm hr hb
  obtain ⟨i, st, k, hi, hpage, hband⟩ := h.run p hpm h1 b (h2.trans hlow) (hlt.trans_le h3)
  exact ⟨i, st, k, hi, hpage.trans hr, hband⟩

/-- A slot changes its state, or its marks, and its page accepts it so. -/
theorem restate (h : s.Bands) {i : Nat} {st st' : HeldState} {k k' : BandRecord} (hi : s.slot i = .held st k) (hpage : k'.page = k.page)
    (hband : k'.band = k.band) (hacc : ∀ p ∈ s.pages, p.ref = k.page → p.Accepts st k → p.Accepts st' k')
    (hstream : st' = .streaming → ∀ j k0, s.slot j = .held .streaming k0 → j = i) : (s.setSlot i (.held st' k')).Bands := by
  have hlt := State.lt_of_slot_held hi
  have hslot := fun j => State.slot_setSlot s i j (.held st' k') hlt
  have hinherit : ∀ j st0 k0, (s.setSlot i (.held st' k')).slot j = .held st0 k0 →
      ∃ st1 k1, s.slot j = .held st1 k1 ∧ k1.page = k0.page ∧ k1.band = k0.band := by
    intro j st0 k0 hj
    rw [hslot] at hj
    split at hj
    · rename_i hji
      cases hj
      exact ⟨st, k, hji ▸ hi, hpage.symm, hband.symm⟩
    · exact ⟨st0, k0, hj, rfl, rfl⟩
  refine ⟨h.tags, h.ordered, fun j st0 k0 hj => ?_, fun j j' st0 st1 k0 k1 hj hj' hp hb => ?_, fun j j' k0 k1 hj hj' => ?_,
    fun p hp hb b hlow hb' => ?_⟩
  · rw [hslot] at hj
    split at hj
    · cases hj
      obtain ⟨p, hp, href, hacc'⟩ := h.held i st k hi
      exact ⟨p, hp, href.trans hpage.symm, hacc p hp href hacc'⟩
    · exact h.held j st0 k0 hj
  · obtain ⟨_, k2, h2, hp2, hb2⟩ := hinherit j st0 k0 hj
    obtain ⟨_, k3, h3, hp3, hb3⟩ := hinherit j' st1 k1 hj'
    exact h.once j j' _ _ k2 k3 h2 h3 (by rw [hp2, hp3, hp]) (by rw [hb2, hb3, hb])
  · rw [hslot] at hj hj'
    split at hj <;> split at hj'
    · omega
    · rename_i hji _
      cases hj
      rw [hstream rfl j' k1 hj', hji]
    · rename_i _ hji
      cases hj'
      rw [hstream rfl j k0 hj, hji]
    · exact h.stream j j' k0 k1 hj hj'
  · obtain ⟨j, st0, k0, hj, hp0, hb0⟩ := h.run p hp hb b hlow hb'
    by_cases hji : j = i
    · subst hji
      cases hi.symm.trans hj
      exact ⟨j, st', k', by rw [hslot, if_pos rfl], hpage.trans hp0, hband.trans hb0⟩
    · exact ⟨j, st0, k0, by rw [hslot, if_neg hji, hj], hp0, hb0⟩

/-- A page leaves the queue, and its slots are FREE (R19, R26). -/
theorem remove (h : s.Bands) {r : PageRef} (hp : t.pages = s.pages.filter fun p => decide (p.ref ≠ r))
    (hslot : ∀ i, t.slot i = if (s.slot i).ofPage r = true then .free else s.slot i) : t.Bands := by
  have hmem : ∀ {p}, p ∈ t.pages ↔ p ∈ s.pages ∧ p.ref ≠ r := by simp [hp]
  have hheld : ∀ i st k, t.slot i = .held st k → s.slot i = .held st k ∧ k.page ≠ r := by
    intro i st k hi
    rw [hslot] at hi
    split at hi
    · cases hi
    · rename_i hof
      exact ⟨hi, by simpa [hi, Slot.ofPage] using hof⟩
  refine h.of_inherited ?_ (fun p hpm => h.ordered p (hmem.1 hpm).1) (fun i st k hi => ?_)
    (fun i st k hi => ⟨st, k, (hheld i st k hi).1, rfl, rfl, id⟩) (fun p hpm hb b hlow hlt => ?_)
  · rw [hp]
    exact h.tags.sublist (List.filter_sublist.map _)
  · obtain ⟨p, hpm, href, hacc⟩ := h.held i st k (hheld i st k hi).1
    exact ⟨p, hmem.2 ⟨hpm, href ▸ (hheld i st k hi).2⟩, href, hacc⟩
  · obtain ⟨hpm, hne⟩ := hmem.1 hpm
    obtain ⟨i, st, k, hi, hpage, hband⟩ := h.run p hpm hb b hlow hlt
    refine ⟨i, st, k, ?_, hpage, hband⟩
    rw [hslot, hi, if_neg]
    simpa [Slot.ofPage, hpage] using hne

/-- A page without bands joins the queue (R29). -/
theorem append (h : s.Bands) {p : PageRecord} (hp : t.pages = s.pages ++ [p]) (hslots : t.slots = s.slots) (hfresh : ∀ q ∈ s.pages, q.ref.tag ≠ p.ref.tag)
    (hord : p.Ordered) (hnone : p.nextToAllocate = 0) : t.Bands := by
  have hslot := State.slot_congr hslots
  have hmem : ∀ {q}, q ∈ t.pages ↔ q ∈ s.pages ∨ q = p := by simp [hp]
  refine h.of_inherited ?_ (fun q hq => ?_) (fun i st k hi => ?_) (fun i st k hi => ⟨st, k, hslot i ▸ hi, rfl, rfl, id⟩)
    (fun q hq hb b hlow hlt => ?_)
  · rw [hp, List.map_append]
    refine h.tags.append (List.nodup_singleton _) ?_
    simp only [List.map_cons, List.map_nil, List.disjoint_singleton, List.mem_map, not_exists, not_and]
    exact hfresh
  · rcases hmem.1 hq with hq | rfl
    · exact h.ordered q hq
    · exact hord
  · obtain ⟨q, hq, href, hacc⟩ := h.held i st k (hslot i ▸ hi)
    exact ⟨q, hmem.2 (.inl hq), href, hacc⟩
  · rcases hmem.1 hq with hq | rfl
    · simpa only [hslot] using h.run q hq hb b hlow hlt
    · omega

/-- One allocation (R7, R8, R9): the band that follows the page's run joins it. -/
theorem allocateOne (h : s.Bands) (ht : s.allocateOne = some t) : t.Bands := by
  obtain ⟨p, i, hp, hfree, rfl⟩ := State.allocateOne_some ht
  obtain ⟨hlt, hslotfree, -⟩ := State.freeSlot_some hfree
  have hpm := List.mem_of_find?_eq_some hp
  have hwants : p.nextToAllocate < p.bandCount ∧ p.state ≠ .blanking := by
    simpa [PageRecord.wantsBand] using List.find?_some hp
  generalize hu : ({ (s.mapPage p.ref fun q => { q with nextToAllocate := q.nextToAllocate + 1 }) with
    slots := s.slots.set i (.held .clearing p.nextBand), clearOrder := s.clearOrder ++ [i],
    clearPos := if s.clearOrder.isEmpty then 0 else s.clearPos } : State) = u
  have hpages : u.pages = s.pages.map fun q => if q.ref = p.ref then { q with nextToAllocate := q.nextToAllocate + 1 } else q := by rw [← hu]; rfl
  have hslot : ∀ j, u.slot j = if j = i then .held .clearing p.nextBand else s.slot j := by
    intro j
    rw [← State.slot_setSlot _ _ _ _ hlt, ← hu]
    rfl
  have hold : ∀ {j st k}, u.slot j = .held st k → j ≠ i → s.slot j = .held st k := by
    intro j st k hj hji
    rwa [hslot, if_neg hji] at hj
  have hnew : ∀ {st k}, u.slot i = .held st k → st = .clearing ∧ k = p.nextBand := by
    intro st k hi
    rw [hslot, if_pos rfl] at hi
    cases hi
    exact ⟨rfl, rfl⟩
  have hbelow : ∀ {j st k}, s.slot j = .held st k → k.page = p.ref → k.band < p.nextToAllocate := by
    intro j st k hj hk
    exact ((h.page_of_slot hj hpm hk.symm).inRun hwants.2).2.1
  have hmem : ∀ {q}, q ∈ u.pages → ∃ q0 ∈ s.pages, (if q0.ref = p.ref then { q0 with nextToAllocate := q0.nextToAllocate + 1 } else q0) = q :=
    fun hq => List.mem_map.1 (hpages ▸ hq)
  have hpu : ({ p with nextToAllocate := p.nextToAllocate + 1 } : PageRecord) ∈ u.pages := by
    rw [hpages]
    exact List.mem_map.2 ⟨p, hpm, if_pos rfl⟩
  have hord := h.ordered p hpm
  have hord' : p.nextToStream ≤ p.nextToAllocate + 1 ∧ p.nextToAllocate + 1 ≤ p.bandCount := ⟨by have := hord.1; omega, hwants.1⟩
  refine ⟨?_, fun q hq => ?_, fun j st k hj => ?_, fun j j' st st' k k' hj hj' hpk hbk => ?_, fun j j' k k' hj hj' => ?_,
    fun q hq hb b hlow hlt' => ?_⟩
  · rw [hpages]
    exact (State.mapPage_tags s p.ref (fun q => { q with nextToAllocate := q.nextToAllocate + 1 }) fun _ => rfl).symm ▸ h.tags
  · obtain ⟨q0, hq0, rfl⟩ := hmem hq
    split
    · rename_i hr
      cases State.ref_injective h.tags hq0 hpm hr
      exact hord'
    · exact h.ordered q0 hq0
  · by_cases hji : j = i
    · subst hji
      obtain ⟨rfl, rfl⟩ := hnew hj
      refine ⟨_, hpu, rfl, rfl, fun hb => absurd hb hwants.2, fun _ => ⟨?_, Nat.lt_succ_self _, fun hc => nomatch hc⟩, fun hc => (nomatch hc),
        fun hc => by rcases hc with hc | hc <;> cases hc⟩
      show (if _ then 0 else p.nextToStream) ≤ p.nextToAllocate
      split
      · exact Nat.zero_le _
      · exact hord.1
    · obtain ⟨q0, hq0, href, hacc⟩ := h.held j st k (hold hj hji)
      refine ⟨if q0.ref = p.ref then { q0 with nextToAllocate := q0.nextToAllocate + 1 } else q0, hpages ▸ List.mem_map_of_mem hq0, ?_⟩
      split
      · exact ⟨href, hacc.lines, hacc.blanking, fun hb => ⟨(hacc.inRun hb).1, Nat.lt_succ_of_lt (hacc.inRun hb).2.1, (hacc.inRun hb).2.2⟩,
          hacc.streams, hacc.closed⟩
      · exact ⟨href, hacc⟩
  · have new_ne : ∀ {j st k}, s.slot j = .held st k → k.page = p.ref → k.band ≠ p.nextToAllocate := fun h1 h2 => (hbelow h1 h2).ne
    by_cases hji : j = i <;> by_cases hji' : j' = i
    · exact hji.trans hji'.symm
    · subst hji
      obtain ⟨-, rfl⟩ := hnew hj
      exact absurd hbk.symm (new_ne (hold hj' hji') hpk.symm)
    · subst hji'
      obtain ⟨-, rfl⟩ := hnew hj'
      exact absurd hbk (new_ne (hold hj hji) hpk)
    · exact h.once j j' st st' k k' (hold hj hji) (hold hj' hji') hpk hbk
  · have hne : ∀ {j k}, u.slot j = .held .streaming k → j ≠ i := fun hj hji => by
      have := (hnew (hji ▸ hj)).1
      cases this
    exact h.stream j j' k k' (hold hj (hne hj)) (hold hj' (hne hj'))
  · have old : ∀ {q0 b}, q0 ∈ s.pages → q0.state ≠ .blanking → q0.lowBand ≤ b → b < q0.nextToAllocate →
        ∃ j st k, u.slot j = .held st k ∧ k.page = q0.ref ∧ k.band = b := by
      intro q0 b hq0 hb0 hlow0 hlt0
      obtain ⟨j, st, k, hj, hpj, hbj⟩ := h.run q0 hq0 hb0 b hlow0 hlt0
      refine ⟨j, st, k, ?_, hpj, hbj⟩
      rw [hslot, if_neg, hj]
      rintro rfl
      simp [hslotfree] at hj
    obtain ⟨q0, hq0, rfl⟩ := hmem hq
    by_cases hr : q0.ref = p.ref
    · rw [if_pos hr] at hb hlow hlt'
      rw [if_pos hr]
      cases State.ref_injective h.tags hq0 hpm hr
      by_cases hb' : b = p.nextToAllocate
      · exact ⟨i, .clearing, p.nextBand, by rw [hslot, if_pos rfl], rfl, hb'.symm⟩
      · exact old (q0 := p) hpm hwants.2 hlow (by have : b < p.nextToAllocate + 1 := hlt'; omega)
    · rw [if_neg hr] at hb hlow hlt'
      rw [if_neg hr]
      exact old hq0 hb hlow hlt'

theorem evaluateAllocation (h : s.Bands) : s.evaluateAllocation.Bands :=
  State.evaluateAllocation_induct (P := State.Bands) (fun _ _ h ht => h.allocateOne ht) s h

end State.Bands

/-! ## The page served -/

/-- What the Streamer's law reads of a page record. -/
def PageRecord.serving (p : PageRecord) : PageRef × PageState × Nat := (p.ref, p.state, p.nextToStream)

namespace State.Serves

variable {s t : State} {st : StreamerState}

/-- A page that is not PENDING is the head page (R26). -/
theorem head_of_not_pending (h : s.Serves st) {p : PageRecord} (hp : p ∈ s.pages) (hstate : p.state ≠ .pending) : s.pages.head? = some p := by
  cases hl : s.pages with
  | nil => simp [hl] at hp
  | cons q l =>
    rw [hl] at hp
    rcases List.mem_cons.1 hp with rfl | hp
    · rfl
    · exact absurd (h.behind p (by rw [hl]; exact hp)) hstate

/-- The law follows what it reads: the pages' names, states and next to stream, and the STREAMING slots. -/
theorem congr (h : s.Serves st) (hp : t.pages.map PageRecord.serving = s.pages.map PageRecord.serving)
    (hold : ∀ i k, s.slot i = .held .streaming k → ∃ k', t.slot i = .held .streaming k' ∧ k'.page = k.page)
    (hnew : ∀ i k, t.slot i = .held .streaming k → ∃ k', s.slot i = .held .streaming k' ∧ k'.page = k.page) : t.Serves st := by
  have hhead : ∀ q, t.pages.head? = some q → ∃ p, s.pages.head? = some p ∧ p.serving = q.serving := by
    intro q hq
    have := congrArg List.head? hp
    rw [List.head?_map, List.head?_map, hq] at this
    obtain ⟨p, hp, heq⟩ := Option.map_eq_some_iff.1 this.symm
    exact ⟨p, hp, heq⟩
  have hhead' : ∀ p, s.pages.head? = some p → ∃ q, t.pages.head? = some q ∧ q.ref = p.ref ∧ q.state = p.state ∧ q.nextToStream = p.nextToStream := by
    intro p hps
    have := congrArg List.head? hp
    rw [List.head?_map, List.head?_map, hps] at this
    obtain ⟨q, hq, heq⟩ := Option.map_eq_some_iff.1 this
    simp only [PageRecord.serving, Prod.mk.injEq] at heq
    exact ⟨q, hq, heq⟩
  have hmem : ∀ q ∈ t.pages, ∃ p ∈ s.pages, p.ref = q.ref ∧ p.state = q.state := by
    intro q hq
    obtain ⟨p, hpm, heq⟩ := List.mem_map.1 (hp ▸ List.mem_map_of_mem hq)
    simp only [PageRecord.serving, Prod.mk.injEq] at heq
    exact ⟨p, hpm, heq.1, heq.2.1⟩
  refine ⟨fun q hq => ?_, fun hst q hq => ?_, fun r hst => ?_, fun r hst => ?_, fun r b hst => ?_, fun r i hst => ?_, fun r hst => ?_,
    fun i k q hi hq href hb => ?_⟩
  · have := congrArg List.tail hp
    rw [← List.map_tail, ← List.map_tail] at this
    obtain ⟨p, hpm, heq⟩ := List.mem_map.1 (this ▸ List.mem_map_of_mem hq)
    simp only [PageRecord.serving, Prod.mk.injEq] at heq
    exact heq.2.1 ▸ h.behind p hpm
  · obtain ⟨p, hps, heq⟩ := hhead q hq
    simp only [PageRecord.serving, Prod.mk.injEq] at heq
    exact heq.2.1 ▸ h.idle hst p hps
  · obtain ⟨p, hps, h1, h2⟩ := h.offered r hst
    obtain ⟨q, hq, g1, g2, -⟩ := hhead' p hps
    exact ⟨q, hq, g1.trans h1, g2.trans h2⟩
  · obtain ⟨p, hps, h1, h2⟩ := h.served r hst
    obtain ⟨q, hq, g1, g2, -⟩ := hhead' p hps
    exact ⟨q, hq, g1.trans h1, g2 ▸ h2⟩
  · obtain ⟨p, hps, h1, h2, h3⟩ := h.starved r b hst
    obtain ⟨q, hq, g1, g2, g3⟩ := hhead' p hps
    exact ⟨q, hq, g1.trans h1, g2.trans h2, g3.trans h3⟩
  · obtain ⟨k, hk, hkr⟩ := h.lineSlot r i hst
    obtain ⟨k', hk', heq⟩ := hold i k hk
    exact ⟨k', hk', heq.trans hkr⟩
  · obtain ⟨p, hps, h1, h2⟩ := h.lineBackground r hst
    obtain ⟨q, hq, g1, g2, -⟩ := hhead' p hps
    exact ⟨q, hq, g1.trans h1, g2.trans h2⟩
  · obtain ⟨k', hk', heq⟩ := hnew i k hi
    obtain ⟨p, hpm, h1, h2⟩ := hmem q hq
    exact h.blanking i k' p hk' hpm (h1.trans (href.trans heq.symm)) (h2.trans hb)

/-- Allocation touches nothing that the Streamer serves. -/
theorem allocates (h : s.Serves st) (ha : s.Allocates t) : t.Serves st := by
  refine h.congr ?_ (fun i k hi => ⟨k, ha.held hi, rfl⟩) (fun i k hi => ⟨k, ha.held_before hi (by decide), rfl⟩)
  have hserving : ∀ l : List PageRecord, l.map PageRecord.serving = (l.map PageRecord.unallocated).map PageRecord.serving := fun l => by
    rw [List.map_map]; rfl
  rw [hserving, ha.pages, ← hserving]

/-- A page that the Streamer does not serve has no line in flight: only the order of the queue and the head's state matter. -/
theorem of_no_line (hline : st.line = none) (behind : ∀ p ∈ t.pages.tail, p.state = .pending)
    (idle : st = .idle → ∀ p, t.pages.head? = some p → p.state = .pending)
    (offered : ∀ r, st = .offered r → ∃ p, t.pages.head? = some p ∧ p.ref = r ∧ p.state = .offered)
    (served : ∀ r, st.served = some r → ∃ p, t.pages.head? = some p ∧ p.ref = r ∧ (p.state = .printing ∨ p.state = .blanking))
    (starved : ∀ r b, st.awaits = some (r, b) → ∃ p, t.pages.head? = some p ∧ p.ref = r ∧ p.state = .printing ∧ p.nextToStream = b)
    (blanking : ∀ i k p, t.slot i = .held .streaming k → p ∈ t.pages → p.ref = k.page → p.state ≠ .blanking) : t.Serves st :=
  ⟨behind, idle, offered, served, starved, fun r i h => by simp [hline] at h, fun r h => by simp [hline] at h,
    fun i k p hi hp href hb => absurd hb (blanking i k p hi hp href)⟩

end State.Serves

end Sys2Proof.Machine
end

