-- ==== Sys2Proof/Proofs/RingActions.lean ====
section
/-! The law of the ring of bands is kept by every action of the part, and so by every step (R3, R9, R20, R26, R54, R139, R143). -/

namespace Sys2Proof.Machine

/-! ## Small facts -/

/-- A change of the head page's record changes the front of the queue alone. -/
theorem State.mapPage_head {s : State} (htags : (s.pages.map fun p => p.ref.tag).Nodup) {p : PageRecord} {rest : List PageRecord}
    (hp : s.pages = p :: rest) (f : PageRecord → PageRecord) : (s.mapPage p.ref f).pages = f p :: rest := by
  rw [hp, List.map_cons, List.nodup_cons] at htags
  rw [State.mapPage_pages, hp, List.map_cons, if_pos rfl]
  have same : ∀ q ∈ rest, (if q.ref = p.ref then f q else q) = id q := fun q hq =>
    if_neg fun hr => htags.1 (List.mem_map.2 ⟨q, hq, by rw [hr]⟩)
  rw [List.map_congr_left same, List.map_id]

theorem State.isHead_iff (s : State) (r : PageRef) : s.isHead r = true ↔ ∃ p, s.pages.head? = some p ∧ p.ref = r := by
  unfold State.isHead
  cases s.pages <;> simp

theorem PageRecord.unallocated_prints (p : PageRecord) : p.unallocated.Prints ↔ p.Prints :=
  ⟨fun ⟨h1, h2, h3, h4, h5, h6, h7⟩ => ⟨h1, h2, h3, h4, h5, h6, h7⟩, fun ⟨h1, h2, h3, h4, h5, h6, h7⟩ => ⟨h1, h2, h3, h4, h5, h6, h7⟩⟩

/-- A page with fewer participants is closed where it was (R54). -/
theorem PortSet.within_remove {ps qs : PortSet} (p : Port) (h : ps.within qs = true) : (ps.remove p).within qs = true := by
  cases p <;> simp_all [PortSet.within, PortSet.remove]

@[simp] theorem PortSet.within_empty (qs : PortSet) : PortSet.empty.within qs = true := rfl

theorem Slot.isStreaming_of_ne {st : HeldState} (h : st ≠ .streaming) (k : BandRecord) : (Slot.held st k).isStreaming = false := by
  cases st with
  | streaming => exact absurd rfl h
  | _ => rfl

/-- A start claim makes no slot OPEN and changes no page (R16). -/
theorem State.startBand_opened {s t : State} {r : PageRef} {b j : Nat} {k : BandRecord} (h : s.startBand r b = some t)
    (hj : t.slot j = .held .opened k) : s.slot j = .held .opened k := by
  obtain ⟨i, k0, -, hk, rfl⟩ := State.startBand_some h
  have hslot : (s.setSlot i (.held .streaming k0)).slot j = .held .opened k := hj
  rw [State.slot_setSlot _ _ _ _ (State.lt_of_slot_held hk)] at hslot
  split at hslot
  · cases hslot
  · exact hslot

/-- Nor does a slot's going READY (R54, R160). -/
theorem State.openToReady_opened {s : State} {i j : Nat} {force : Bool} {k : BandRecord} (h : (s.openToReady i force).slot j = .held .opened k) :
    s.slot j = .held .opened k := by
  unfold State.openToReady at h
  split at h
  · rename_i k0 hk
    have hset : (s.setSlot i (.held .ready { k0 with forced := k0.forced || force, forcePending := false })).slot j = .held .opened k := by
      rcases State.readyNotice_cases (s.setSlot i (.held .ready { k0 with forced := k0.forced || force, forcePending := false })) k0.page k0.band
        with h' | ⟨_, _, _, h'⟩
      · rwa [h'] at h
      · exact State.startBand_opened h' h
    rw [State.slot_setSlot _ _ _ _ (State.lt_of_slot_held hk)] at hset
    split at hset
    · cases hset
    · exact hset
  · exact h

@[simp] theorem State.readyNotice_pages (s : State) (r : PageRef) (b : Nat) : (s.readyNotice r b).pages = s.pages := by
  rcases s.readyNotice_cases r b with h | ⟨_, _, _, h⟩
  · rw [h]
  · obtain ⟨i, k, -, -, h'⟩ := State.startBand_some h
    rw [h']
    rfl

@[simp] theorem State.openToReady_pages (s : State) (i : Nat) (force : Bool) : (s.openToReady i force).pages = s.pages := by
  unfold State.openToReady
  split
  · simp
  · rfl

/-- A slot closed by all is OPEN, and every participant of its page has closed it (R54). -/
theorem State.closedByAll_iff {s : State} {i : Nat} :
    s.closedByAll i = true ↔ ∃ k p, s.slot i = .held .opened k ∧ s.findPage k.page = some p ∧ p.participants.within k.closedBy = true := by
  unfold State.closedByAll
  split
  · rename_i k hk
    cases hp : s.findPage k.page <;> simp [hk, hp]
  · rename_i hk
    simpa using fun k hk' => absurd hk' (hk k)

namespace State.Serves

variable {s t : State} {st : StreamerState}

/-- The first record of a queue that has a head. -/
theorem cons_of_head (h : s.Serves st) {p : PageRecord} (hp : s.pages.head? = some p) :
    ∃ rest, s.pages = p :: rest ∧ ∀ q ∈ rest, q.state = .pending := by
  cases hl : s.pages with
  | nil => simp [hl] at hp
  | cons q rest =>
    rw [hl] at hp
    cases hp
    exact ⟨rest, rfl, fun q hq => h.behind q (by rw [hl]; exact hq)⟩

/-- A slot that is not STREAMING, before and after, is none that the Streamer serves. -/
theorem setSlot (h : s.Serves st) {i : Nat} {x : Slot} (hlt : i < s.slots.length) (hold : (s.slot i).isStreaming = false)
    (hnew : x.isStreaming = false) : (s.setSlot i x).Serves st := by
  have hslot := fun j => State.slot_setSlot s i j x hlt
  refine h.congr rfl (fun j k hj => ⟨k, ?_, rfl⟩) (fun j k hj => ⟨k, ?_, rfl⟩)
  · rw [hslot, if_neg, hj]
    rintro rfl
    rw [hj] at hold
    cases hold
  · rw [hslot] at hj
    split at hj
    · rw [hj] at hnew
      cases hnew
    · exact hj

/-- With a PRINTING head page no BLANKING page streams. -/
theorem not_blanking_of_printing (h : s.Serves st) {p q : PageRecord} (hp : s.pages.head? = some p) (hprint : p.state = .printing)
    (hq : q ∈ s.pages) : q.state ≠ .blanking := by
  intro hb
  have := h.head_of_not_pending hq (by rw [hb]; decide)
  cases hp.symm.trans this
  rw [hprint] at hb
  cases hb

/-- Between lines the page goes on being served, if no BLANKING page streams (R20). -/
theorem between (behind : ∀ q ∈ t.pages.tail, q.state = .pending) {r : PageRef}
    (head : ∃ p, t.pages.head? = some p ∧ p.ref = r ∧ (p.state = .printing ∨ p.state = .blanking))
    (blanking : ∀ i k p, t.slot i = .held .streaming k → p ∈ t.pages → p.ref = k.page → p.state ≠ .blanking) : t.Serves (.betweenLines r) := by
  refine .of_no_line rfl behind (fun h => (nomatch h)) (fun _ h => (nomatch h)) (fun r' h => ?_) (fun _ _ h => (nomatch h)) blanking
  cases h
  exact head

end State.Serves

namespace State.Ring

variable {s t : State}

theorem congr (h : s.Ring) (hp : t.pages = s.pages) (hs : t.slots = s.slots) (hst : t.streamer = s.streamer) : t.Ring := by
  have hslot := State.slot_congr hs
  refine ⟨h.bands.congr hp hs, by rw [hp]; exact h.prints, ?_⟩
  rw [hst]
  exact h.serves.congr (by rw [hp]) (fun i k hi => ⟨k, hslot i ▸ hi, rfl⟩) (fun i k hi => ⟨k, hslot i ▸ hi, rfl⟩)

/-! ## Allocation, the offer and the start of a band -/

theorem evaluateAllocation (h : s.Ring) : s.evaluateAllocation.Ring := by
  have ha := s.evaluateAllocation_allocates
  refine ⟨h.bands.evaluateAllocation, ha.forall_pages PageRecord.unallocated_prints h.prints, ?_⟩
  rw [State.evaluateAllocation_streamer]
  exact h.serves.allocates ha

theorem offered_head (h : s.Ring) {p : PageRecord} {rest : List PageRecord} (hp : s.pages = p :: rest) (hstate : p.state = .pending)
    (htp : t.pages = { p with state := .offered } :: rest) (hts : t.slots = s.slots) (htst : t.streamer = .offered p.ref) : t.Ring := by
  have hmap := State.mapPage_head h.bands.tags hp fun q => { q with state := .offered }
  have hpm : p ∈ s.pages := by simp [hp]
  have only : ∀ q ∈ s.pages, q.ref = p.ref → q = p := fun q hq hr => State.ref_injective h.bands.tags hq hpm hr
  have hbands : (s.mapPage p.ref fun q => { q with state := .offered }).Bands := by
    refine h.bands.mapPage (fun _ => rfl) (fun q hq _ ho => ho) (fun q hq hr i st k hi hk hacc => ?_) (fun q hq hr _ => ?_)
    · cases only q hq hr
      have hno : p.state ≠ .blanking := by rw [hstate]; decide
      refine ⟨hacc.lines, fun hb => (nomatch hb), fun _ => hacc.inRun hno, fun hs => ?_, hacc.closed⟩
      exact absurd (hacc.streams hs) (by rw [hstate]; decide)
    · cases only q hq hr
      exact ⟨by rw [hstate]; decide, le_rfl, le_rfl⟩
  have hpending : ∀ q ∈ rest, q.state = .pending := fun q hq => h.serves.behind q (by rw [hp]; exact hq)
  refine ⟨hbands.congr (htp.trans hmap.symm) hts, fun q hq => ?_, ?_⟩
  · rw [htp] at hq
    rcases List.mem_cons.1 hq with rfl | hq
    · obtain ⟨h1, h2, h3, h4, h5, h6, -⟩ := h.prints p hpm
      exact ⟨h1, h2, h3, h4, h5, fun _ => h6 (.inl hstate), fun hc => nomatch hc⟩
    · exact h.prints q (by simp [hp, hq])
  · rw [htst]
    refine .of_no_line rfl (by rw [htp]; exact hpending) (fun hc => (nomatch hc)) (fun r hr => ?_) (fun _ hc => (nomatch hc))
      (fun _ _ hc => (nomatch hc)) (fun i k q _ hq _ hb => ?_)
    · cases hr
      exact ⟨{ p with state := .offered }, by rw [htp]; rfl, rfl, rfl⟩
    · rw [htp] at hq
      rcases List.mem_cons.1 hq with rfl | hq
      · cases hb
      · rw [hpending q hq] at hb; cases hb

theorem evaluateOffer (h : s.Ring) (w : Bool) : (s.evaluateOffer w).Ring := by
  rcases s.evaluateOffer_cases w with h' | ⟨p, rest, hp, ho, h'⟩ <;> rw [h']
  · exact h
  · have hstate : p.state = .pending := by
      unfold State.offerHolds at ho
      rw [hp] at ho
      simp only [Bool.and_eq_true, decide_eq_true_eq] at ho
      exact ho.1
    exact h.offered_head hp hstate rfl rfl rfl

theorem offerIfHead (h : s.Ring) (r : PageRef) : (s.offerIfHead r).Ring := by
  unfold State.offerIfHead
  split
  · exact h.evaluateOffer _
  · exact h

/-- A start claim for the band that the PRINTING head page streams next (R16, R143). -/
theorem startBand (h : s.Ring) {r : PageRef} {b : Nat} (ht : s.startBand r b = some t)
    (hhead : ∃ p, s.pages.head? = some p ∧ p.ref = r ∧ p.state = .printing ∧ p.nextToStream = b) : t.Ring := by
  obtain ⟨i, k, hsome, hk, rfl⟩ := State.startBand_some ht
  obtain ⟨p, hp, rfl, hprint, rfl⟩ := hhead
  obtain ⟨st, k', hk', hpage, hband⟩ := State.slotOfBand_some hsome
  cases hk.symm.trans hk'
  have hpm : p ∈ s.pages := List.mem_of_mem_head? hp
  have only : ∀ j k0, s.slot j = .held .streaming k0 → j = i := by
    intro j k0 hj
    obtain ⟨q, hq, href, hacc⟩ := h.bands.held j _ k0 hj
    have hq' : q.state ≠ .pending := fun hc => by rcases hacc.streams rfl with h | h <;> simp [hc] at h
    cases hp.symm.trans (h.serves.head_of_not_pending hq hq')
    have hb := (hacc.inRun (by rw [hprint]; decide)).2.2 rfl
    exact h.bands.once j i _ _ k0 k hj hk (href.symm.trans hpage.symm) (hb.trans hband.symm)
  have hbands : (s.setSlot i (.held .streaming k)).Bands := by
    refine h.bands.restate hk rfl rfl (fun q hq hr hacc => ?_) (fun _ => only)
    cases State.ref_injective h.bands.tags hq hpm (hr.trans hpage)
    have hno : p.state ≠ .blanking := by rw [hprint]; decide
    exact ⟨hacc.lines, fun hc => absurd hc hno, fun hc => ⟨(hacc.inRun hc).1, (hacc.inRun hc).2.1, fun _ => hband⟩, fun _ => .inl hprint,
      fun _ => hacc.closed (.inl rfl)⟩
  refine ⟨hbands.congr rfl rfl, h.prints, ?_⟩
  refine ⟨h.serves.behind, fun hc => (nomatch hc), fun _ hc => (nomatch hc), fun r hr => ?_, fun _ _ hc => (nomatch hc), fun r j hr => ?_,
    fun _ hc => (nomatch hc), fun j k0 q _ hq _ hb => ?_⟩
  · cases hr
    exact ⟨p, hp, rfl, .inl hprint⟩
  · cases hr
    exact ⟨k, State.slot_setSlot_same _ (State.lt_of_slot_held hk), hpage⟩
  · exact absurd hb (h.serves.not_blanking_of_printing hp hprint hq)

theorem readyNotice (h : s.Ring) (r : PageRef) (b : Nat) : (s.readyNotice r b).Ring := by
  rcases s.readyNotice_cases r b with h' | ⟨n, x, hst, h'⟩
  · rwa [h']
  · exact h.startBand h' (h.serves.starved r b (by rw [hst]; rfl))

/-! ## Slots that change their state -/

/-- A slot that does not stream changes its state or its marks, and its page accepts it so. -/
theorem restate (h : s.Ring) {i : Nat} {st st' : HeldState} {k k' : BandRecord} (hi : s.slot i = .held st k) (hst : st ≠ .streaming)
    (hst' : st' ≠ .streaming) (hpage : k'.page = k.page) (hband : k'.band = k.band)
    (hacc : ∀ p ∈ s.pages, p.ref = k.page → p.Accepts st k → p.Accepts st' k') : (s.setSlot i (.held st' k')).Ring := by
  refine ⟨h.bands.restate hi hpage hband hacc fun hc => absurd hc hst', h.prints, ?_⟩
  exact h.serves.setSlot (State.lt_of_slot_held hi) (hi ▸ Slot.isStreaming_of_ne hst k) (Slot.isStreaming_of_ne hst' k')

/-- An OPEN slot goes READY where its readiness holds (R54, R61). -/
theorem openToReady (h : s.Ring) (i : Nat) (force : Bool) (hready : force = true ∨ s.closedByAll i = true) : (s.openToReady i force).Ring := by
  unfold State.openToReady
  split
  · rename_i k hk
    refine (h.restate (st' := .ready) (k' := { k with forced := k.forced || force, forcePending := false }) hk (by decide) (by decide) rfl rfl fun p hp href hacc => ?_).readyNotice _ _
    have hno : p.state ≠ .blanking := fun hb => nomatch hacc.blanking hb
    refine ⟨hacc.lines, fun hb => absurd hb hno, fun hb => ⟨(hacc.inRun hb).1, (hacc.inRun hb).2.1, fun hc => (nomatch hc)⟩, fun hc => (nomatch hc),
      fun _ => ?_⟩
    rcases hready with rfl | hclosed
    · exact .inl (by simp)
    · refine .inr ?_
      unfold State.closedByAll at hclosed
      rw [hk] at hclosed
      simp only [← href, State.findPage_of_mem h.bands.tags hp] at hclosed
      exact hclosed
  · exact h

/-! ## Participants -/

/-- The slots that a participant change makes READY go so one after the other (R58). -/
theorem openAll (h : s.Ring) (l : List Nat) (hl : ∀ i k, i ∈ l → s.slot i = .held .opened k → s.closedByAll i = true) :
    (l.foldl (fun t i => t.openToReady i false) s).Ring := by
  induction l generalizing s with
  | nil => exact h
  | cons i l ih =>
    have hi : (s.openToReady i false).Ring := by
      by_cases hc : s.closedByAll i = true
      · exact h.openToReady i false (.inr hc)
      · have : s.openToReady i false = s := by
          unfold State.openToReady
          split
          · rename_i k hk
            exact absurd (hl i k (by simp) hk) hc
          · rfl
        rwa [this]
    refine ih hi fun j k hj hk => ?_
    have hold := State.openToReady_opened hk
    obtain ⟨k', p, hk', hp, hw⟩ := State.closedByAll_iff.1 (hl j k (by simp [hj]) hold)
    cases hold.symm.trans hk'
    exact State.closedByAll_iff.2 ⟨k, p, hk, by rwa [State.findPage_congr (s.openToReady_pages i false)], hw⟩

theorem participantChange (h : s.Ring) (r : PageRef) : (s.participantChange r).Ring := by
  unfold State.participantChange
  split
  · exact h
  · refine (h.openAll _ fun i k hi _ => ?_).offerIfHead r
    have := List.mem_filter.1 hi
    simp only [Bool.and_eq_true] at this
    exact this.2.1.2

/-- A page has fewer participants: what was closed by all stays so (R42, R54). -/
theorem mapParticipants (h : s.Ring) (r : PageRef) (g : PortSet → PortSet) (hg : ∀ ps qs, ps.within qs = true → (g ps).within qs = true) :
    (s.mapPage r fun x => { x with participants := g x.participants }).Ring := by
  have hmem : ∀ {q}, q ∈ (s.mapPage r fun x => { x with participants := g x.participants }).pages → ∃ p ∈ s.pages, p.Prints → q.Prints := by
    intro q hq
    obtain ⟨p, hp, rfl⟩ := List.mem_map.1 hq
    refine ⟨p, hp, fun hpr => ?_⟩
    split
    · exact ⟨hpr.1, hpr.2, hpr.3, hpr.4, hpr.5, hpr.6, hpr.7⟩
    · exact hpr
  refine ⟨h.bands.mapPage (fun _ => rfl) (fun _ _ _ ho => ho) (fun _ _ _ _ _ _ _ _ hacc => ?_) (fun _ _ _ hb => ⟨hb, le_rfl, le_rfl⟩),
    fun q hq => ?_, h.serves.congr ?_ (fun i k hi => ⟨k, hi, rfl⟩) (fun i k hi => ⟨k, hi, rfl⟩)⟩
  · exact ⟨hacc.lines, hacc.blanking, hacc.inRun, hacc.streams, fun hs => (hacc.closed hs).imp id (hg _ _)⟩
  · obtain ⟨p, hp, himp⟩ := hmem hq
    exact himp (h.prints p hp)
  · rw [State.mapPage_pages, List.map_map]
    refine List.map_congr_left fun p _ => ?_
    simp only [Function.comp_apply]
    split <;> rfl

theorem postAll (h : s.Ring) (ps : PortSet) (e : Event) : (s.postAll ps e).Ring := h.congr (by simp) (by simp) (by simp)

theorem recheck (h : s.Ring) (r : PageRef) : (s.recheck r).Ring := by
  rw [State.recheck_eq]
  exact h.congr rfl rfl rfl

theorem abortWaiting (h : s.Ring) (r : PageRef) : (s.abortWaiting r).Ring := by
  rw [State.abortWaiting_eq]
  exact h.congr rfl rfl rfl

theorem leaveRecord (h : s.Ring) (q : PageRecord) (p : Port) : (s.leaveRecord q p).Ring :=
  (((h.mapParticipants q.ref (·.remove p) fun _ _ => PortSet.within_remove p).postAll _ _).participantChange _).recheck _

/-! ## Pages that leave the queue -/

/-- The head page leaves the queue with its slots, and the Streamer is IDLE (R34, R38, R44). -/
theorem of_head_removed (hb : s.Bands) {p : PageRecord} (hprints : ∀ q ∈ s.pages, q.ref ≠ p.ref → q.Prints)
    (behind : ∀ q ∈ s.pages.tail, q.state = .pending) (hhead : s.pages.head? = some p)
    (hpages : t.pages = s.pages.filter fun q => decide (q.ref ≠ p.ref))
    (hslot : ∀ i, t.slot i = if (s.slot i).ofPage p.ref = true then .free else s.slot i) (hst : t.streamer = .idle) : t.Ring := by
  have hmem : ∀ {q}, q ∈ t.pages → q ∈ s.pages ∧ q.ref ≠ p.ref := fun hq => by simpa [hpages] using hq
  have hpending : ∀ q ∈ t.pages, q.state = .pending := by
    intro q hq
    obtain ⟨hqs, hne⟩ := hmem hq
    refine behind q ?_
    cases hl : s.pages with
    | nil => simp [hl] at hqs
    | cons q0 l =>
      rw [hl] at hqs hhead
      cases hhead
      rcases List.mem_cons.1 hqs with rfl | hqs
      · exact absurd rfl hne
      · exact hqs
  refine ⟨hb.remove hpages hslot, fun q hq => hprints q (hmem hq).1 (hmem hq).2, ?_⟩
  rw [hst]
  refine .of_no_line rfl (fun q hq => hpending q (List.mem_of_mem_tail hq)) (fun _ q hq => hpending q (List.mem_of_mem_head? hq))
    (fun _ hc => (nomatch hc)) (fun _ hc => (nomatch hc)) (fun _ _ hc => (nomatch hc)) (fun i k q _ hq _ hc => ?_)
  rw [hpending q hq] at hc
  cases hc

/-- A page behind the head leaves the queue with its slots (R46). -/
theorem of_behind_removed (h : s.Ring) {r : PageRef} (hnot : s.isHead r = false) (hpages : t.pages = s.pages.filter fun q => decide (q.ref ≠ r))
    (hslot : ∀ i, t.slot i = if (s.slot i).ofPage r = true then .free else s.slot i) (hst : t.streamer = s.streamer) : t.Ring := by
  have hmem : ∀ {q}, q ∈ t.pages → q ∈ s.pages ∧ q.ref ≠ r := fun hq => by simpa [hpages] using hq
  have hne : ∀ p, s.pages.head? = some p → p.ref ≠ r := fun p hp hr => by
    have := (s.isHead_iff r).2 ⟨p, hp, hr⟩
    rw [hnot] at this
    cases this
  have hhead : t.pages.head? = s.pages.head? ∧ ∀ q ∈ t.pages.tail, q ∈ s.pages.tail := by
    rw [hpages]
    cases hl : s.pages with
    | nil => simp
    | cons p l =>
      have := hne p (by rw [hl]; rfl)
      rw [List.filter_cons_of_pos (by simpa using this)]
      exact ⟨rfl, fun q hq => (List.mem_filter.1 hq).1⟩
  have hstream : ∀ i k, t.slot i = .held .streaming k ↔ s.slot i = .held .streaming k := by
    intro i k
    rw [hslot]
    split
    · rename_i hof
      refine ⟨fun hc => (nomatch hc), fun hi => ?_⟩
      obtain ⟨p, hp, href, hacc⟩ := h.bands.held i _ k hi
      have hp' : p.state ≠ .pending := fun hc => by rcases hacc.streams rfl with h | h <;> simp [hc] at h
      rw [hi] at hof
      exact absurd (href.trans (of_decide_eq_true hof)) (hne p (h.serves.head_of_not_pending hp hp'))
    · rfl
  obtain ⟨hbehind, hidle, hoff, hserved, hstarved, hline, hback, hblank⟩ := h.serves
  refine ⟨h.bands.remove hpages hslot, fun q hq => h.prints q (hmem hq).1, ?_⟩
  rw [hst]
  refine ⟨fun q hq => hbehind q (hhead.2 q hq), by rwa [hhead.1], by rwa [hhead.1], by rwa [hhead.1], by rwa [hhead.1], fun r i hr => ?_,
    by rwa [hhead.1], fun i k p hi hp => hblank i k p ((hstream i k).1 hi) (hmem hp).1⟩
  obtain ⟨k, hk, hkr⟩ := hline r i hr
  exact ⟨k, (hstream i k).2 hk, hkr⟩

/-- A page leaves the queue with its slots, and the Streamer with it if it is the head page (R19, R26, R34). -/
theorem of_removed (h : s.Ring) {r : PageRef} (hpages : t.pages = s.pages.filter fun q => decide (q.ref ≠ r))
    (hslot : ∀ i, t.slot i = if (s.slot i).ofPage r = true then .free else s.slot i)
    (hst : t.streamer = if s.isHead r = true then .idle else s.streamer) : t.Ring := by
  by_cases hh : s.isHead r = true
  · obtain ⟨p, hp, rfl⟩ := (s.isHead_iff r).1 hh
    exact of_head_removed h.bands (fun q hq _ => h.prints q hq) h.serves.behind hp hpages hslot (by rw [hst, if_pos hh])
  · exact h.of_behind_removed (by simpa using hh) hpages hslot (by rw [hst, if_neg hh])

end State.Ring

end Sys2Proof.Machine
end

