-- ==== Sys2Proof/Proofs/RingPages.lean ====
section
/-! The law of the ring of bands through the ends of pages and lines: aborts, spoils, band ends and copy ends (R17, R18, R20, R37, R38, R43, R46 to R48). -/

namespace Sys2Proof.Machine

/-! ## What an abort and a spoil leave -/

/-- The record of a page that goes BLANKING (R43). -/
def PageRecord.blanked (cause : SpoilCause) (q : PageRecord) : PageRecord :=
  { q with spoilCause := some cause, copiesRemaining := 1, state := .blanking }

/-- The part with page `p` BLANKING and its slots freed, before allocation is evaluated (R20, R43). -/
def State.blankedStore (s : State) (p : PageRecord) (cause : SpoilCause) (e : Event) : State :=
  ((s.postAll p.participants e).mapPage p.ref (PageRecord.blanked cause)).releaseSlots p.ref s.lineSlot

/-- The Streamer once page `r` goes BLANKING: a starvation wait on it ends with a background line (R164). -/
def StreamerState.afterBlanking (st : StreamerState) (r : PageRef) : StreamerState :=
  match st with
  | .starved r' b n x =>
    if r' = r then .sending r { source := .background, word := 0, bits := 0, wordDone := false, early := false } else .starved r' b n x
  | st => st

/-- A spoil or an abort of a PRINTING page: what changes, in order (R43, R47, R125, R164). -/
theorem State.blankPage_eq (s : State) (p : PageRecord) (cause : SpoilCause) (e : Event) :
    ∃ lineOut, s.blankPage p cause e =
      { ((s.blankedStore p cause e).evaluateAllocation.abortWaiting p.ref) with
        streamer := s.streamer.afterBlanking p.ref, lineOut := lineOut } := by
  have hst : ((s.blankedStore p cause e).evaluateAllocation.abortWaiting p.ref).streamer = s.streamer := by
    rw [State.abortWaiting_eq]
    simp [State.blankedStore]
  unfold State.blankPage
  extract_lets s1 s2 s3 s4
  change s4.streamer = s.streamer at hst
  change ∃ lineOut, _ = { s4 with streamer := s.streamer.afterBlanking p.ref, lineOut := lineOut }
  rw [← hst]
  cases hs : s4.streamer with
  | starved r b n x =>
    by_cases hr : r = p.ref
    · subst hr
      refine ⟨[], ?_⟩
      simp only [StreamerState.afterBlanking, if_true]
      rfl
    · refine ⟨s4.lineOut, ?_⟩
      simp only [StreamerState.afterBlanking, hr, if_false, ← hs]
  | _ => exact ⟨s4.lineOut, by simp only [StreamerState.afterBlanking, ← hs]⟩

theorem State.blankedStore_slot (s : State) (p : PageRecord) (cause : SpoilCause) (e : Event) (i : Nat) :
    (s.blankedStore p cause e).slot i = if (s.slot i).ofPage p.ref = true ∧ s.lineSlot ≠ some i then .free else s.slot i := by
  unfold State.blankedStore
  rw [State.releaseSlots_slot]
  have hslot : ((s.postAll p.participants e).mapPage p.ref (PageRecord.blanked cause)).slot i = s.slot i := State.slot_congr (by simp) i
  rw [hslot]

theorem State.blankedStore_pages (s : State) (p : PageRecord) (cause : SpoilCause) (e : Event) :
    (s.blankedStore p cause e).pages = (s.mapPage p.ref (PageRecord.blanked cause)).pages := by
  simp [State.blankedStore]

/-- A removal takes the page from the queue, and from the Streamer if it is the head page (R26, R34). -/
theorem State.removePage_pages (s : State) (r : PageRef) : (s.removePage r).pages = s.pages.filter fun p => decide (p.ref ≠ r) := rfl

theorem State.stopServing_eq (s : State) : s.stopServing = { s with streamer := .idle, prdyLow := none, tail := s.stopServing.tail } := by
  rcases s.stopServing_cases with ⟨_, _, _, h⟩ | ⟨_, h⟩ <;> rw [h]

theorem State.removePage_eq (s : State) (r : PageRef) : ∃ prdyLow tail, s.removePage r = { s with
    streamer := if s.isHead r = true then .idle else s.streamer, prdyLow := prdyLow, tail := tail,
    pages := s.pages.filter fun p => decide (p.ref ≠ r) } := by
  unfold State.removePage
  split
  · rw [State.stopServing_eq]
    exact ⟨none, _, rfl⟩
  · exact ⟨_, _, rfl⟩

theorem State.isHead_congr {s t : State} (h : t.pages = s.pages) (r : PageRef) : t.isHead r = s.isHead r := by
  unfold State.isHead
  rw [h]

namespace State.Ring

variable {s t u : State} {p : PageRecord} {r : PageRef}

/-! ## Aborts and spoils -/

/-- A page that is not PENDING heads the queue. -/
theorem cons_of_not_pending (h : s.Ring) (hp : p ∈ s.pages) (hstate : p.state ≠ .pending) :
    ∃ rest, s.pages = p :: rest ∧ ∀ q ∈ rest, q.state = .pending :=
  h.serves.cons_of_head (h.serves.head_of_not_pending hp hstate)

/-- The page BLANKING, with its slots freed, is a lawful one for the Streamer as it goes on (R20, R43, R164). -/
theorem blankedStore (h : s.Ring) (hp : p ∈ s.pages) (hprint : p.state = .printing) (cause : SpoilCause) (e : Event) :
    (s.blankedStore p cause e).Bands ∧ (∀ q ∈ (s.blankedStore p cause e).pages, q.Prints) ∧
      (s.blankedStore p cause e).Serves (s.streamer.afterBlanking p.ref) := by
  obtain ⟨rest, hcons, hrest⟩ := h.cons_of_not_pending hp (by rw [hprint]; decide)
  have hhead : s.pages.head? = some p := by rw [hcons]; rfl
  have hslot := s.blankedStore_slot p cause e
  have hpages : (s.blankedStore p cause e).pages = p.blanked cause :: rest :=
    (s.blankedStore_pages p cause e).trans (State.mapPage_head h.bands.tags hcons _)
  have hkept : ∀ i st k, (s.blankedStore p cause e).slot i = .held st k → s.slot i = .held st k ∧ (k.page = p.ref → s.lineSlot = some i) := by
    intro i st k hi
    rw [hslot] at hi
    split at hi
    · cases hi
    · rename_i hno
      refine ⟨hi, fun hk => ?_⟩
      by_contra hc
      exact hno ⟨by simp [hi, Slot.ofPage, hk], hc⟩
  have hstreams : ∀ i st k, (s.blankedStore p cause e).slot i = .held st k → k.page = p.ref → st = .streaming := by
    intro i st k hi hk
    obtain ⟨hi, hl⟩ := hkept i st k hi
    obtain ⟨r, hr⟩ := State.lineSlot_eq_some.1 (hl hk)
    obtain ⟨k', hk', -⟩ := h.serves.lineSlot r i hr
    cases hi.symm.trans hk'
    rfl
  refine ⟨?_, fun q hq => ?_, ?_⟩
  · refine h.bands.change (f := PageRecord.blanked cause) (fun _ => rfl) (s.blankedStore_pages p cause e) (fun i => ?_) (fun _ _ _ ho => ho)
      (fun q hq hr i st k hi hk hacc => ?_) (fun q hq hr hb => (hb rfl).elim)
    · rw [hslot]
      split
      · rename_i hof; exact .inr ⟨rfl, hof.1⟩
      · exact .inl rfl
    · cases hstreams i st k hi hk
      exact ⟨hacc.lines, fun _ => rfl, fun hb => (hb rfl).elim, fun _ => .inr rfl, hacc.closed⟩
  · rw [hpages] at hq
    rcases List.mem_cons.1 hq with rfl | hq
    · obtain ⟨h1, h2, h3, -, -, -, -⟩ := h.prints p hp
      exact ⟨h1, h2, h3, le_rfl, fun _ => rfl, fun hc => (hc.elim (fun hc => nomatch hc) fun hc => nomatch hc), fun hc => (nomatch hc)⟩
    · exact h.prints q (by simp [hcons, hq])
  · have hblank : ∀ i k q, (s.blankedStore p cause e).slot i = .held .streaming k → q ∈ (s.blankedStore p cause e).pages → q.ref = k.page →
        q.state = .blanking → s.lineSlot = some i := by
      intro i k q hi hq href hb
      rw [hpages] at hq
      rcases List.mem_cons.1 hq with rfl | hq
      · exact (hkept i _ k hi).2 href.symm
      · rw [hrest q hq] at hb; cases hb
    have hhead' : (s.blankedStore p cause e).pages.head? = some (p.blanked cause) := by rw [hpages]; rfl
    have hbehind : ∀ q ∈ (s.blankedStore p cause e).pages.tail, q.state = .pending := by rw [hpages]; exact hrest
    have hserved : ∀ r, p.ref = r → ∃ q, (s.blankedStore p cause e).pages.head? = some q ∧ q.ref = r ∧
        (q.state = .printing ∨ q.state = .blanking) := fun r hr => ⟨_, hhead', hr, .inr rfl⟩
    have hstate : ∀ {q}, s.pages.head? = some q → q.state = .printing ∧ q.ref = p.ref := fun hq => by
      cases hhead.symm.trans hq
      exact ⟨hprint, rfl⟩
    have going : s.streamer.awaits = none → (s.blankedStore p cause e).Serves s.streamer := by
      intro hno
      refine ⟨hbehind, fun hc => ?_, fun r hr => ?_, fun r hr => ?_, fun r b hr => by simp [hno] at hr, fun r i hr => ?_, fun r hr => ?_,
        fun i k q hi hq href hb => State.lineSlot_eq_some.1 (hblank i k q hi hq href hb)⟩
      · have := h.serves.idle hc p hhead
        simp [hprint] at this
      · obtain ⟨q, hq, -, hoff⟩ := h.serves.offered r hr
        simp [(hstate hq).1] at hoff
      · obtain ⟨q, hq, href, -⟩ := h.serves.served r hr
        exact hserved r ((hstate hq).2 ▸ href)
      · obtain ⟨k, hk, hkr⟩ := h.serves.lineSlot r i hr
        refine ⟨k, ?_, hkr⟩
        rw [hslot, if_neg, hk]
        exact fun hc => hc.2 (State.lineSlot_eq_some.2 ⟨r, hr⟩)
      · obtain ⟨q, hq, -, hb⟩ := h.serves.lineBackground r hr
        simp [(hstate hq).1] at hb
    cases hst : s.streamer with
    | starved r b n x =>
      obtain ⟨q, hq, href, -, -⟩ := h.serves.starved r b (by rw [hst]; rfl)
      have hr : r = p.ref := href.symm.trans (hstate hq).2
      rw [StreamerState.afterBlanking, if_pos hr]
      refine ⟨hbehind, fun hc => (nomatch hc), fun _ hc => (nomatch hc), fun r' hr' => ?_, fun _ _ hc => (nomatch hc), fun _ _ hc => (nomatch hc),
        fun r' hr' => ?_, fun i k q hi hq href hb => ?_⟩
      · cases hr'; exact hserved _ rfl
      · cases hr'; exact ⟨_, hhead', rfl, rfl⟩
      · have := hblank i k q hi hq href hb
        rw [State.lineSlot, hst] at this
        cases this
    | _ =>
      rw [hst] at going
      exact going rfl

theorem blankPage (h : s.Ring) (hp : p ∈ s.pages) (hprint : p.state = .printing) (cause : SpoilCause) (e : Event) :
    (s.blankPage p cause e).Ring := by
  obtain ⟨hb, hpr, hs⟩ := h.blankedStore hp hprint cause e
  have ha := (s.blankedStore p cause e).evaluateAllocation_allocates
  obtain ⟨lineOut, heq⟩ := s.blankPage_eq p cause e
  have hring : ({ (s.blankedStore p cause e).evaluateAllocation with streamer := s.streamer.afterBlanking p.ref } : State).Ring :=
    ⟨hb.evaluateAllocation.congr rfl rfl, ha.forall_pages PageRecord.unallocated_prints hpr, (hs.allocates ha).congr rfl
      (fun i k hi => ⟨k, hi, rfl⟩) (fun i k hi => ⟨k, hi, rfl⟩)⟩
  rw [heq, State.abortWaiting_eq]
  exact hring.congr rfl rfl rfl

theorem offerIf (h : s.Ring) (b w : Bool) : (if b then s.evaluateOffer w else s).Ring := by
  split
  · exact h.evaluateOffer w
  · exact h

theorem removeUnprinted (h : s.Ring) (p : PageRecord) : (s.removeUnprinted p).Ring := by
  unfold State.removeUnprinted
  extract_lets s1 s2 s3 s4
  have h2 : s2.Ring := by
    obtain ⟨prdyLow, tail, heq⟩ := (s1.releaseSlots p.ref none).removePage_eq p.ref
    have hhead : (s1.releaseSlots p.ref none).isHead p.ref = s.isHead p.ref := State.isHead_congr (by simp [s1]) _
    refine h.of_removed (r := p.ref) ?_ (fun i => ?_) ?_
    · show (s1.releaseSlots p.ref none).pages.filter _ = _
      simp [s1]
    · show ((s1.releaseSlots p.ref none).removePage p.ref).slot i = _
      have hslot : s1.slot i = s.slot i := State.slot_congr (by simp [s1]) i
      rw [heq]
      show (s1.releaseSlots p.ref none).slot i = _
      rw [State.releaseSlots_slot, hslot]
      simp
    · show ((s1.releaseSlots p.ref none).removePage p.ref).streamer = _
      rw [heq, hhead]
      simp [s1]
  exact (h2.evaluateAllocation.offerIf _ _).abortWaiting _

theorem removeBlanking (h : s.Ring) (p : PageRecord) : (s.removeBlanking p).Ring := by
  unfold State.removeBlanking
  extract_lets s1 s2 s3
  have h1 : s1.Ring := by
    obtain ⟨prdyLow, tail, heq⟩ := s.removePage_eq p.ref
    refine h.of_removed (r := p.ref) ?_ (fun i => ?_) ?_
    · show ((s.removePage p.ref).releaseSlots p.ref none).pages = _
      rw [State.releaseSlots_pages, heq]
    · show ((s.removePage p.ref).releaseSlots p.ref none).slot i = _
      have hslot : (s.removePage p.ref).slot i = s.slot i := State.slot_congr (by rw [heq]) i
      rw [State.releaseSlots_slot, hslot]
      simp
    · show ((s.removePage p.ref).releaseSlots p.ref none).streamer = _
      rw [State.releaseSlots_streamer, heq]
  exact (h1.evaluateAllocation.offerIf _ _).abortWaiting _

theorem abortRecord (h : s.Ring) (hp : p ∈ s.pages) : (s.abortRecord p).Ring := by
  unfold State.abortRecord
  split
  · exact h.removeUnprinted p
  · exact h.removeUnprinted p
  · rename_i hstate
    exact h.blankPage hp hstate _ _
  · exact h.removeBlanking p

theorem spoil (h : s.Ring) (r : PageRef) (cause : SpoilCause) : (s.spoil r cause).Ring := by
  unfold State.spoil
  split
  · exact h
  · rename_i p hp
    split
    · rename_i hstate
      exact h.blankPage (State.findPage_some hp).1 hstate _ _
    · exact h.postAll _ _
    · exact h

/-! ## PORT RESET -/

theorem resetRecord (h : s.Ring) (p : Port) (r : PageRef) : (State.resetRecord p s r).Ring := by
  unfold State.resetRecord
  split
  · exact h
  · rename_i q hq
    obtain ⟨hqm, href⟩ := State.findPage_some hq
    split
    · split
      · refine (h.mapParticipants r (fun _ => .empty) fun _ _ _ => PortSet.within_empty _).abortRecord ?_
        rw [State.mapPage_pages]
        exact List.mem_map.2 ⟨q, hqm, if_pos href⟩
      · exact h.leaveRecord q p
    · exact h

theorem resetPort (h : s.Ring) (p : Port) : (s.resetPort p).Ring :=
  State.resetPort_induct s (h.congr rfl rfl rfl) (fun _ r ht => ht.resetRecord p r) (fun _ ht => ht.congr rfl rfl rfl)

end State.Ring

end Sys2Proof.Machine
end

