-- ==== Sys2Proof/Proofs/RingLines.lean ====
section
/-! The law of the ring of bands through the end of a line (R17, R18, R20, R37, R38, R151, R153, R168). -/

namespace Sys2Proof.Machine

/-! ## Lines of a band -/

/-- A line that is not its band's last is not the page's last either (R143, R151). -/
theorem PageRecord.Prints.line_in_band {p : PageRecord} (h : p.Prints) (hs : p.state = .printing) (hl : p.bandLine + 1 ≠ p.linesOf p.nextToStream) :
    p.linesServed + 1 ≠ p.pageLines ∧ ({ p with linesServed := p.linesServed + 1 } : PageRecord).Prints := by
  obtain ⟨h1, h2, h3, h4, h5, h6, h7⟩ := h
  obtain ⟨hn, hlow, hhigh⟩ := h7 hs
  unfold PageRecord.bandLine at hl
  have hnext : p.linesServed + 1 < p.nextToStream * p.bandHeight + p.linesOf p.nextToStream := by omega
  refine ⟨?_, h1, h2, h3, h4, h5, fun hc => absurd hc (by rw [hs]; decide),
    fun _ => ⟨hn, Nat.le_succ_of_le hlow, hnext⟩⟩
  unfold PageRecord.pageLines
  unfold PageRecord.linesOf at hnext
  split at hnext
  · rename_i hlast
    rw [← hlast, Nat.add_sub_cancel]
    omega
  · have : (p.nextToStream + 1) * p.bandHeight ≤ (p.bandCount - 1) * p.bandHeight := Nat.mul_le_mul_right _ (by omega)
    rw [Nat.add_one_mul] at this
    omega

/-- The last line of a band is the page's last exactly where the band is the last one (R17, R37, R143). -/
theorem PageRecord.Prints.line_ends_band {p : PageRecord} (h : p.Prints) (hs : p.state = .printing) (hl : p.bandLine + 1 = p.linesOf p.nextToStream) :
    (p.linesServed + 1 = p.pageLines → p.nextToStream + 1 = p.bandCount) ∧
      (p.linesServed + 1 ≠ p.pageLines →
        ({ p with linesServed := p.linesServed + 1, nextToStream := p.nextToStream + 1 } : PageRecord).Prints) := by
  obtain ⟨h1, h2, h3, h4, h5, h6, h7⟩ := h
  obtain ⟨hn, hlow, hhigh⟩ := h7 hs
  unfold PageRecord.bandLine at hl
  have hnext : p.linesServed + 1 = p.nextToStream * p.bandHeight + p.linesOf p.nextToStream := by omega
  by_cases hlast : p.nextToStream + 1 = p.bandCount
  · refine ⟨fun _ => hlast, fun hne => absurd ?_ hne⟩
    rw [hnext, PageRecord.linesOf, if_pos hlast, PageRecord.pageLines, ← hlast, Nat.add_sub_cancel]
  · rw [PageRecord.linesOf, if_neg hlast, ← Nat.add_one_mul] at hnext
    have hle : (p.nextToStream + 1) * p.bandHeight ≤ (p.bandCount - 1) * p.bandHeight := Nat.mul_le_mul_right _ (by omega)
    refine ⟨fun hc => ?_, fun _ => ⟨h1, h2, h3, h4, h5, fun hc => absurd hc (by rw [hs]; decide),
      fun _ => ⟨by show p.nextToStream + 1 < p.bandCount; omega, by rw [hnext], ?_⟩⟩⟩
    · rw [hnext, PageRecord.pageLines] at hc
      omega
    · have hpos : 1 ≤ p.linesOf (p.nextToStream + 1) := by
        unfold PageRecord.linesOf
        split <;> assumption
      show p.linesServed + 1 < (p.nextToStream + 1) * p.bandHeight + p.linesOf (p.nextToStream + 1)
      rw [hnext]
      omega

/-! ## What follows a line -/

namespace State.Ring

variable {s t u : State} {p : PageRecord} {r : PageRef}

/-- The Streamer waits for the next LREQ (R151). -/
theorem of_between (hb : u.Bands) (hp : ∀ q ∈ u.pages, q.Prints) (hs : u.Serves (.betweenLines r)) :
    ({ u with streamer := .betweenLines r } : State).Ring :=
  ⟨hb.congr rfl rfl, hp, hs.congr rfl (fun _ k hi => ⟨k, hi, rfl⟩) (fun _ k hi => ⟨k, hi, rfl⟩)⟩

/-- The page without bands leaves the queue at its end (R38, R44). -/
theorem finishPage (hb : u.Bands) (hprints : ∀ q ∈ u.pages, q.ref ≠ r → q.Prints) (hs : u.Serves (.betweenLines r))
    (hnone : ∀ i st k, u.slot i = .held st k → k.page ≠ r) : (u.finishPage r).Ring := by
  obtain ⟨p, hp, rfl, -⟩ := hs.served r rfl
  have removed : ({ u with streamer := .idle, prdyLow := none, pages := u.pages.filter fun q => decide (q.ref ≠ p.ref) } : State).Ring := by
    refine of_head_removed hb hprints hs.behind hp rfl (fun i => ?_) rfl
    split
    · rename_i hof
      obtain ⟨st, k, hk, hpage⟩ := Slot.held_of_ofPage hof
      exact absurd hpage (hnone i st k hk)
    · rfl
  exact (removed.evaluateOffer false).recheck p.ref

end State.Ring

/-! ## A line of a BLANKING page -/

/-- At the end of a line of the BLANKING head page `r` it holds no slot (R20, R168). -/
structure State.BlankLineEnds (u : State) (r : PageRef) : Prop where
  bands : u.Bands
  prints : ∀ q ∈ u.pages, q.Prints
  head : ∃ p, u.pages.head? = some p ∧ p.ref = r ∧ p.state = .blanking
  behind : ∀ q ∈ u.pages.tail, q.state = .pending
  none : ∀ i st k, u.slot i = .held st k → k.page ≠ r

namespace State.BlankLineEnds

variable {u : State} {r : PageRef}

theorem serves (h : u.BlankLineEnds r) : u.Serves (.betweenLines r) := by
  obtain ⟨p, hp, href, hstate⟩ := h.head
  refine .between h.behind ⟨p, hp, href, .inr hstate⟩ fun i k q hi hq hqr hb => ?_
  cases hl : u.pages with
  | nil => simp [hl] at hp
  | cons q0 l =>
    rw [hl] at hp hq
    cases hp
    rcases List.mem_cons.1 hq with rfl | hq
    · exact h.none i _ k hi (hqr.symm.trans href)
    · have := h.behind q (by rw [hl]; exact hq)
      rw [hb] at this
      cases this

theorem evaluateAllocation (h : u.BlankLineEnds r) : u.evaluateAllocation.BlankLineEnds r := by
  have ha := u.evaluateAllocation_allocates
  have hs := h.serves.allocates ha
  have hstate : ∀ q ∈ u.evaluateAllocation.pages, q.ref = r → q.state = .blanking := by
    refine ha.forall_pages (Q := fun q => q.ref = r → q.state = .blanking) (fun _ => Iff.rfl) fun q hq hr => ?_
    obtain ⟨p, hp, href, hb⟩ := h.head
    cases State.ref_injective h.bands.tags hq (List.mem_of_mem_head? hp) (hr.trans href.symm)
    exact hb
  refine ⟨h.bands.evaluateAllocation, ha.forall_pages PageRecord.unallocated_prints h.prints, ?_, hs.behind, fun i st k hi hk => ?_⟩
  · obtain ⟨p, hp, href, -⟩ := hs.served r rfl
    exact ⟨p, hp, href, hstate p (List.mem_of_mem_head? hp) href⟩
  · obtain ⟨p, hp, href, hacc⟩ := h.bands.evaluateAllocation.held i st k hi
    cases hacc.blanking (hstate p hp (href.trans hk))
    exact h.none i _ k (ha.held_before hi (by decide)) hk

/-- The page goes on with the next line, or leaves the queue (R168). -/
theorem ring (h : u.BlankLineEnds r) (b : Prop) [Decidable b] :
    (if b then u.finishPage r else { u with streamer := .betweenLines r }).Ring := by
  split
  · exact State.Ring.finishPage h.bands (fun q hq _ => h.prints q hq) h.serves h.none
  · exact State.Ring.of_between h.bands h.prints h.serves

end State.BlankLineEnds

/-- The record after one more line (R151). -/
def PageRecord.lineOn (q : PageRecord) : PageRecord := { q with linesServed := q.linesServed + 1 }

/-- A line of a BLANKING page ends: counted, and its slot FREE (R20, R151). -/
theorem State.Ring.blankLineEnds {s u : State} {p : PageRecord} {source : LineSource} (h : s.Ring) (hhead : s.pages.head? = some p)
    (hblank : p.state = .blanking) (hline : s.streamer.line = some (p.ref, source)) (hpages : u.pages = (s.mapPage p.ref PageRecord.lineOn).pages)
    (hslot : ∀ i, u.slot i = if source = .slot i then .free else s.slot i) : u.BlankLineEnds p.ref := by
  obtain ⟨rest, hcons, hrest⟩ := h.serves.cons_of_head hhead
  have hpm : p ∈ s.pages := List.mem_of_mem_head? hhead
  have hpages' : u.pages = p.lineOn :: rest := hpages.trans (State.mapPage_head h.bands.tags hcons _)
  have hkept : ∀ i st k, u.slot i = .held st k → s.slot i = .held st k ∧ source ≠ .slot i := by
    intro i st k hi
    rw [hslot] at hi
    split at hi
    · cases hi
    · exact ⟨hi, ‹_›⟩
  refine ⟨?_, fun q hq => ?_, ⟨p.lineOn, by rw [hpages']; rfl, rfl, hblank⟩, by rw [hpages']; exact hrest, fun i st k hi hk => ?_⟩
  · refine h.bands.change (f := PageRecord.lineOn) (fun _ => rfl) hpages (fun i => ?_) (fun _ _ _ ho => ho)
      (fun q _ _ i st k _ _ hacc => ⟨hacc.1, hacc.2, hacc.3, hacc.4, hacc.5⟩) (fun q hq hr hb => ?_)
    · rw [hslot]
      split
      · rename_i hsrc
        subst hsrc
        obtain ⟨k, hk, hkr⟩ := h.serves.lineSlot _ _ hline
        exact .inr ⟨rfl, by simp [hk, Slot.ofPage, hkr]⟩
      · exact .inl rfl
    · cases State.ref_injective h.bands.tags hq hpm hr
      exact absurd hblank hb
  · rw [hpages'] at hq
    rcases List.mem_cons.1 hq with rfl | hq
    · obtain ⟨h1, h2, h3, h4, h5, -, -⟩ := h.prints p hpm
      exact ⟨h1, h2, h3, h4, h5, fun hc => by simp [PageRecord.lineOn, hblank] at hc, fun hc => by simp [PageRecord.lineOn, hblank] at hc⟩
    · exact h.prints q (by simp [hcons, hq])
  · obtain ⟨hi, hne⟩ := hkept i st k hi
    have hacc := h.bands.page_of_slot hi hpm hk.symm
    cases hacc.blanking hblank
    obtain ⟨r, hr⟩ := h.serves.blanking i k p hi hpm hk.symm hblank
    cases hline.symm.trans hr
    exact hne rfl

/-! ## A line of a PRINTING page -/

/-- The record after the last line of a band (R17, R151). -/
def PageRecord.bandOn (q : PageRecord) : PageRecord := { q with linesServed := q.linesServed + 1, nextToStream := q.nextToStream + 1 }

/-- The record of a page offered for its next copy (R37). -/
def PageRecord.nextCopy (q : PageRecord) : PageRecord :=
  { q with copiesRemaining := q.copiesRemaining - 1, state := .offered, linesServed := 0, nextToStream := 0 }

/-- The line in flight is one of the PRINTING head page `p`, from slot `i`, which streams its band `k` (R143). -/
structure State.SendsBand (s : State) (p : PageRecord) (i : Nat) (k : BandRecord) : Prop where
  ring : s.Ring
  head : s.pages.head? = some p
  printing : p.state = .printing
  slot : s.slot i = .held .streaming k
  page : k.page = p.ref

namespace State.SendsBand

variable {s u : State} {p : PageRecord} {i : Nat} {k : BandRecord}

theorem mem (h : s.SendsBand p i k) : p ∈ s.pages := List.mem_of_mem_head? h.head

theorem accepts (h : s.SendsBand p i k) : p.Accepts .streaming k := h.ring.bands.page_of_slot h.slot h.mem h.page.symm

theorem not_blanking (h : s.SendsBand p i k) : p.state ≠ .blanking := by rw [h.printing]; decide

theorem band (h : s.SendsBand p i k) : k.band = p.nextToStream := (h.accepts.inRun h.not_blanking).2.2 rfl

theorem lines (h : s.SendsBand p i k) : k.lines = p.linesOf p.nextToStream := by rw [h.accepts.lines, h.band]

theorem nextToStream_lt (h : s.SendsBand p i k) : p.nextToStream < p.nextToAllocate := h.band ▸ (h.accepts.inRun h.not_blanking).2.1

theorem only (h : s.SendsBand p i k) {q : PageRecord} (hq : q ∈ s.pages) (hr : q.ref = p.ref) : q = p :=
  State.ref_injective h.ring.bands.tags hq h.mem hr

theorem pages (h : s.SendsBand p i k) (f : PageRecord → PageRecord) :
    ∃ rest, (s.mapPage p.ref f).pages = f p :: rest ∧ s.pages = p :: rest ∧ ∀ q ∈ rest, q.state = .pending := by
  obtain ⟨rest, hcons, hrest⟩ := h.ring.serves.cons_of_head h.head
  exact ⟨rest, State.mapPage_head h.ring.bands.tags hcons f, hcons, hrest⟩

/-- With the head page PRINTING as before, and no new STREAMING slot, the Streamer goes on between lines (R151). -/
theorem between (h : s.SendsBand p i k) {f : PageRecord → PageRecord} (hf : (f p).ref = p.ref) (hstate : (f p).state = .printing)
    (hpages : u.pages = (s.mapPage p.ref f).pages) : u.Serves (.betweenLines p.ref) := by
  obtain ⟨rest, hmap, -, hrest⟩ := h.pages f
  have hcons := hpages.trans hmap
  refine .between (by rw [hcons]; exact hrest) ⟨f p, by rw [hcons]; rfl, hf, .inl hstate⟩ fun j k0 q _ hq _ hb => ?_
  rw [hcons] at hq
  rcases List.mem_cons.1 hq with rfl | hq
  · rw [hstate] at hb; cases hb
  · rw [hrest q hq] at hb; cases hb

theorem prints (h : s.SendsBand p i k) {f : PageRecord → PageRecord} (hpages : u.pages = (s.mapPage p.ref f).pages) (hf : (f p).Prints) :
    ∀ q ∈ u.pages, q.Prints := by
  obtain ⟨rest, hmap, hs, -⟩ := h.pages f
  intro q hq
  rw [hpages.trans hmap] at hq
  rcases List.mem_cons.1 hq with rfl | hq
  · exact hf
  · exact h.ring.prints q (by simp [hs, hq])

theorem prints_others (h : s.SendsBand p i k) {f : PageRecord → PageRecord} (hf : (f p).ref = p.ref) (hpages : u.pages = (s.mapPage p.ref f).pages) :
    ∀ q ∈ u.pages, q.ref ≠ p.ref → q.Prints := by
  obtain ⟨rest, hmap, hs, -⟩ := h.pages f
  intro q hq hne
  rw [hpages.trans hmap] at hq
  rcases List.mem_cons.1 hq with rfl | hq
  · exact absurd hf hne
  · exact h.ring.prints q (by simp [hs, hq])

/-- A line within its band (R151). -/
theorem line_counted (h : s.SendsBand p i k) : (s.mapPage p.ref PageRecord.lineOn).Bands :=
  h.ring.bands.mapPage (fun _ => rfl) (fun _ _ _ ho => ho) (fun _ _ _ _ _ _ _ _ hacc => ⟨hacc.1, hacc.2, hacc.3, hacc.4, hacc.5⟩)
    (fun _ _ _ hb => ⟨hb, le_rfl, le_rfl⟩)

/-- The last line of a band of a page with copies left: the slot goes back to READY (R18). -/
theorem band_kept (h : s.SendsBand p i k) (hcopies : p.resident = true ∧ p.copiesRemaining ≠ 1)
    (hpages : u.pages = (s.mapPage p.ref PageRecord.bandOn).pages) (hslots : u.slots = s.slots.set i (.held .ready k)) : u.Bands := by
  have hlt := State.lt_of_slot_held h.slot
  have hready : (s.setSlot i (.held .ready k)).Bands := by
    refine h.ring.bands.restate h.slot rfl rfl (fun q hq hr hacc => ?_) (fun hc => nomatch hc)
    cases h.only hq (hr.trans h.page)
    exact ⟨hacc.lines, fun hb => absurd hb h.not_blanking, fun hb => ⟨(hacc.inRun hb).1, (hacc.inRun hb).2.1, fun hc => (nomatch hc)⟩,
      fun hc => (nomatch hc), fun _ => hacc.closed (.inr rfl)⟩
  have hstep : ((s.setSlot i (.held .ready k)).mapPage p.ref PageRecord.bandOn).Bands := by
    refine hready.mapPage (fun _ => rfl) (fun q hq hr ho => ?_) (fun q hq hr j st k0 hj hk hacc => ?_) (fun q hq hr hb => ⟨hb, ?_, le_rfl⟩)
    · cases h.only hq hr
      exact ⟨h.nextToStream_lt, ho.2⟩
    · cases h.only hq hr
      have hno : st ≠ .streaming := by
        rintro rfl
        rw [State.slot_setSlot _ _ _ _ hlt] at hj
        split at hj
        · cases hj
        · rename_i hji
          exact hji (h.ring.bands.stream j i k0 k hj h.slot)
      refine ⟨hacc.lines, fun hb => absurd hb h.not_blanking, fun hb => ⟨?_, (hacc.inRun hb).2.1, fun hc => absurd hc hno⟩,
        fun hc => absurd hc hno, hacc.closed⟩
      show (if p.resident = true ∧ p.copiesRemaining ≠ 1 then 0 else _) ≤ _
      rw [if_pos hcopies]
      exact Nat.zero_le _
    · cases h.only hq hr
      show (if p.resident = true ∧ p.copiesRemaining ≠ 1 then 0 else _) ≤ _
      rw [if_pos hcopies]
      exact Nat.zero_le _
  exact hstep.congr hpages hslots

/-- The lowest band that a page without another copy holds once it has streamed a band (R9, R17). -/
theorem lowBand_bandOn {p : PageRecord} (hcopies : ¬ (p.resident = true ∧ p.copiesRemaining ≠ 1)) :
    p.lowBand = p.nextToStream ∧ p.bandOn.lowBand = p.nextToStream + 1 :=
  ⟨if_neg hcopies, if_neg hcopies⟩

/-- The last line of a band that no copy needs again: the slot is FREE (R17). -/
theorem band_freed (h : s.SendsBand p i k) (hcopies : ¬ (p.resident = true ∧ p.copiesRemaining ≠ 1))
    (hpages : u.pages = (s.mapPage p.ref PageRecord.bandOn).pages) (hslots : u.slots = s.slots.set i .free) : u.Bands := by
  obtain ⟨hlow, hlow'⟩ := lowBand_bandOn hcopies
  have hslot : ∀ j, u.slot j = if j = i then .free else s.slot j := fun j =>
    (State.slot_congr (s := s.setSlot i .free) hslots j).trans (State.slot_setSlot _ _ _ _ (State.lt_of_slot_held h.slot))
  have hband : ∀ j st k0, u.slot j = .held st k0 → k0.page = p.ref → s.slot j = .held st k0 ∧ k0.band ≠ p.nextToStream ∧ st ≠ .streaming := by
    intro j st k0 hj hk
    rw [hslot] at hj
    split at hj
    · cases hj
    · rename_i hji
      refine ⟨hj, fun hb => hji ?_, fun hst => hji ?_⟩
      · exact h.ring.bands.once j i _ _ k0 k hj h.slot (hk.trans h.page.symm) (hb.trans h.band.symm)
      · subst hst
        exact h.ring.bands.stream j i k0 k hj h.slot
  refine h.ring.bands.change (f := PageRecord.bandOn) (fun _ => rfl) hpages (fun j => ?_) (fun q hq hr ho => ?_)
    (fun q hq hr j st k0 hj hk hacc => ?_) (fun q hq hr hb b hb1 hb2 => ?_)
  · rw [hslot]
    split
    · rename_i hji
      exact .inr ⟨rfl, by simp [hji, h.slot, Slot.ofPage, h.page]⟩
    · exact .inl rfl
  · cases h.only hq hr
    exact ⟨h.nextToStream_lt, ho.2⟩
  · cases h.only hq hr
    obtain ⟨-, hne, hst⟩ := hband j st k0 hj hk
    refine ⟨hacc.lines, fun hb => absurd hb h.not_blanking, fun hb => ⟨?_, (hacc.inRun hb).2.1, fun hc => absurd hc hst⟩,
      fun hc => absurd hc hst, hacc.closed⟩
    have := (hacc.inRun hb).1
    omega
  · cases h.only hq hr
    have hb2' : b < p.nextToAllocate := hb2
    obtain ⟨j, st, k0, hj, hk, hbb⟩ := h.ring.bands.run p h.mem h.not_blanking b (by omega) hb2'
    refine ⟨j, st, k0, ?_, hk, hbb⟩
    rw [hslot, if_neg, hj]
    rintro rfl
    cases h.slot.symm.trans hj
    have := h.band
    omega

/-- A page offered for its next copy holds the bands it held (R37). -/
theorem copy_offered (h : s.SendsBand p i k) (hcopies : p.resident = true ∧ p.copiesRemaining ≠ 1) (hb : u.Bands)
    (hpages : u.pages = (s.mapPage p.ref PageRecord.bandOn).pages) (hslots : u.slots = s.slots.set i (.held .ready k)) :
    ({ (u.mapPage p.ref PageRecord.nextCopy) with streamer := .offered p.ref, prdyLow := none } : State).Ring := by
  obtain ⟨rest, hmap, hs, hrest⟩ := h.pages PageRecord.bandOn
  have hcons : u.pages = p.bandOn :: rest := hpages.trans hmap
  have hslot : ∀ j, u.slot j = if j = i then .held .ready k else s.slot j := fun j =>
    (State.slot_congr (s := s.setSlot i (.held .ready k)) hslots j).trans (State.slot_setSlot _ _ _ _ (State.lt_of_slot_held h.slot))
  have hnoStream : ∀ j k0, u.slot j ≠ .held .streaming k0 := by
    intro j k0 hj
    rw [hslot] at hj
    split at hj
    · cases hj
    · rename_i hji
      exact hji (h.ring.bands.stream j i k0 k hj h.slot)
  have honly : ∀ q ∈ u.pages, q.ref = p.ref → q = p.bandOn := fun q hq hr =>
    State.ref_injective hb.tags hq (by simp [hcons]) hr
  have hlow : p.bandOn.lowBand = 0 := if_pos hcopies
  have hlow' : p.bandOn.nextCopy.lowBand = 0 := by
    unfold PageRecord.lowBand
    split <;> rfl
  have hbands : (u.mapPage p.ref PageRecord.nextCopy).Bands := by
    refine hb.mapPage (fun _ => rfl) (fun q _ _ ho => ⟨Nat.zero_le _, ho.2⟩) (fun q hq hr j st k0 hj hk hacc => ?_) (fun q hq hr _ => ?_)
    · cases honly q hq hr
      have hst : st ≠ .streaming := fun hc => hnoStream j k0 (hc ▸ hj)
      refine ⟨hacc.lines, fun hc => (nomatch hc), fun _ => ⟨by rw [hlow']; exact Nat.zero_le _, (hacc.inRun h.not_blanking).2.1, fun hc => absurd hc hst⟩,
        fun hc => absurd hc hst, hacc.closed⟩
    · cases honly q hq hr
      exact ⟨h.not_blanking, by rw [hlow]; exact Nat.zero_le _, le_rfl⟩
  have hpages' : (u.mapPage p.ref PageRecord.nextCopy).pages = p.bandOn.nextCopy :: rest := State.mapPage_head hb.tags hcons _
  refine ⟨hbands.congr rfl rfl, fun q hq => ?_, ?_⟩
  · rw [show ({ (u.mapPage p.ref PageRecord.nextCopy) with streamer := .offered p.ref, prdyLow := none } : State).pages = _ from hpages'] at hq
    rcases List.mem_cons.1 hq with rfl | hq
    · obtain ⟨h1, h2, h3, h4, -, -, -⟩ := h.ring.prints p h.mem
      have hc : 1 ≤ p.copiesRemaining - 1 := by have := hcopies.2; omega
      exact ⟨h1, h2, h3, hc, fun hr => absurd (hcopies.1.symm.trans hr) (by decide), fun _ => ⟨rfl, rfl⟩, fun hc => (nomatch hc)⟩
    · exact h.ring.prints q (by simp [hs, hq])
  · refine .of_no_line rfl (by rw [show State.pages _ = _ from hpages']; exact hrest) (fun hc => (nomatch hc)) (fun r hr => ?_)
      (fun _ hc => (nomatch hc)) (fun _ _ hc => (nomatch hc)) (fun j k0 _ hj => absurd hj (hnoStream j k0))
    cases hr
    exact ⟨p.bandOn.nextCopy, by rw [show State.pages _ = _ from hpages']; rfl, rfl, rfl⟩

/-- The page that has sent the last line of its last copy holds no slot (R9, R37). -/
theorem no_slot_left (h : s.SendsBand p i k) (hcopies : ¬ (p.resident = true ∧ p.copiesRemaining ≠ 1)) (hlast : p.nextToStream + 1 = p.bandCount)
    (hb : u.Bands) (hpages : u.pages = (s.mapPage p.ref PageRecord.bandOn).pages) :
    ∀ j st k0, u.evaluateAllocation.slot j = .held st k0 → k0.page ≠ p.ref := by
  have ha := u.evaluateAllocation_allocates
  have hpage : ∀ q ∈ u.evaluateAllocation.pages, q.ref = p.ref → q.state ≠ .blanking ∧ q.lowBand = q.bandCount := by
    refine ha.forall_pages (Q := fun q => q.ref = p.ref → q.state ≠ .blanking ∧ q.lowBand = q.bandCount) (fun _ => Iff.rfl) fun q hq hr => ?_
    obtain ⟨rest, hmap, -, -⟩ := h.pages PageRecord.bandOn
    cases State.ref_injective hb.tags hq (q := p.bandOn) (by simp [hpages.trans hmap]) hr
    exact ⟨h.not_blanking, (lowBand_bandOn hcopies).2.trans hlast⟩
  intro j st k0 hj hk
  obtain ⟨q, hq, href, hacc⟩ := hb.evaluateAllocation.held j st k0 hj
  obtain ⟨hstate, hlow⟩ := hpage q hq (href.trans hk)
  have hrun := hacc.inRun hstate
  have := (hb.evaluateAllocation.ordered q hq).2
  omega

end State.SendsBand

/-! ## The end of a line -/

namespace State.Ring

variable {s : State} {r : PageRef} {source : LineSource}

theorem endLine_blanking (h : s.Ring) {p : PageRecord} (hhead : s.pages.head? = some p) (hblank : p.state = .blanking)
    (hline : s.streamer.line = some (p.ref, source)) : (s.endLine p.ref source).Ring := by
  unfold State.endLine
  rw [State.findPage_of_mem h.bands.tags (List.mem_of_mem_head? hhead)]
  simp only [hblank, decide_true, Bool.or_true, if_true]
  cases source with
  | background =>
    have ends : (s.mapPage p.ref PageRecord.lineOn).BlankLineEnds p.ref := h.blankLineEnds hhead hblank hline rfl fun i => by simp; rfl
    exact ends.ring (p.linesServed + 1 = p.pageLines)
  | slot i =>
    obtain ⟨k, hk, hkr⟩ := h.serves.lineSlot _ _ hline
    have hk' : (s.mapPage p.ref PageRecord.lineOn).slot i = .held .streaming k := hk
    have hend : (s.mapPage p.ref PageRecord.lineOn).bandEnd p i = ((s.mapPage p.ref PageRecord.lineOn).setSlot i .free).evaluateAllocation := by
      unfold State.bandEnd
      rw [hk']
      simp only [hkr, if_true, hblank]
    have ends : ((s.mapPage p.ref PageRecord.lineOn).setSlot i .free).BlankLineEnds p.ref := by
      refine h.blankLineEnds hhead hblank hline rfl fun j => ?_
      rw [State.slot_setSlot _ _ _ _ (State.lt_of_slot_held hk')]
      simp only [LineSource.slot.injEq, eq_comm]
      rfl
    dsimp only
    rw [show (fun q : PageRecord => { q with linesServed := q.linesServed + 1 }) = PageRecord.lineOn from rfl, hend]
    exact ends.evaluateAllocation.ring (p.linesServed + 1 = p.pageLines)

theorem endLine_printing (h : s.Ring) {p : PageRecord} {i : Nat} {k : BandRecord} (hs : s.SendsBand p i k) : (s.endLine p.ref (.slot i)).Ring := by
  have hprints := h.prints p hs.mem
  have hlast : s.lastOfBand p i = decide (p.bandLine + 1 = p.linesOf p.nextToStream) := by
    unfold State.lastOfBand
    rw [hs.slot, ← hs.lines]
  have hk' : (s.mapPage p.ref PageRecord.lineOn).slot i = .held .streaming k := hs.slot
  have hon : ((s.mapPage p.ref PageRecord.lineOn).mapPage p.ref fun q => { q with nextToStream := q.nextToStream + 1 }).pages =
      (s.mapPage p.ref PageRecord.bandOn).pages := by
    rw [State.mapPage_pages, State.mapPage_pages, State.mapPage_pages, List.map_map]
    refine List.map_congr_left fun q _ => ?_
    simp only [Function.comp_apply]
    by_cases hq : q.ref = p.ref
    · simp [hq, PageRecord.lineOn, PageRecord.bandOn]
    · simp [hq]
  unfold State.endLine
  rw [State.findPage_of_mem h.bands.tags hs.mem]
  dsimp only
  rw [show (fun q : PageRecord => { q with linesServed := q.linesServed + 1 }) = PageRecord.lineOn from rfl]
  simp only [hs.not_blanking, decide_false, Bool.or_false, if_false, hlast, decide_eq_true_eq]
  by_cases hl : p.bandLine + 1 = p.linesOf p.nextToStream
  · obtain ⟨hdone, hmore⟩ := hprints.line_ends_band hs.printing hl
    rw [if_pos hl]
    by_cases hcopies : p.resident = true ∧ p.copiesRemaining ≠ 1
    · have hend : (s.mapPage p.ref PageRecord.lineOn).bandEnd p i =
          ((s.mapPage p.ref PageRecord.lineOn).setSlot i (.held .ready k)).mapPage p.ref fun q => { q with nextToStream := q.nextToStream + 1 } := by
        unfold State.bandEnd
        rw [hk']
        simp only [hs.page, if_true, hs.not_blanking, if_false]
        rw [if_pos hcopies]
      rw [hend]
      have hb := hs.band_kept hcopies (u := ((s.mapPage p.ref PageRecord.lineOn).setSlot i (.held .ready k)).mapPage p.ref _) hon rfl
      split
      · unfold State.copyEnd
        rw [if_pos (by have := hprints.copies; have := hcopies.2; omega)]
        exact hs.copy_offered hcopies hb hon rfl
      · rename_i hne
        exact of_between hb (hs.prints hon (hmore hne)) (hs.between (f := PageRecord.bandOn) rfl hs.printing hon)
    · have hend : (s.mapPage p.ref PageRecord.lineOn).bandEnd p i =
          (((s.mapPage p.ref PageRecord.lineOn).setSlot i .free).mapPage p.ref fun q =>
            { q with nextToStream := q.nextToStream + 1 }).evaluateAllocation := by
        unfold State.bandEnd
        rw [hk']
        simp only [hs.page, if_true, hs.not_blanking, if_false]
        rw [if_neg hcopies]
      rw [hend]
      generalize hu : ((s.mapPage p.ref PageRecord.lineOn).setSlot i .free).mapPage p.ref (fun q => { q with nextToStream := q.nextToStream + 1 }) = u
      have hpages : u.pages = (s.mapPage p.ref PageRecord.bandOn).pages := by rw [← hu]; exact hon
      have hslots : u.slots = s.slots.set i .free := by rw [← hu]; rfl
      have hb := hs.band_freed hcopies hpages hslots
      have ha := u.evaluateAllocation_allocates
      have hserves := (hs.between (f := PageRecord.bandOn) rfl hs.printing hpages).allocates ha
      split
      · rename_i hpl
        have hone : ¬ 2 ≤ p.copiesRemaining := by
          have := hprints.single
          intro hc
          have hr : p.resident ≠ true := fun hr => hcopies ⟨hr, by omega⟩
          have := this (by simpa using hr)
          omega
        unfold State.copyEnd
        rw [if_neg hone]
        have hnone := hs.no_slot_left hcopies (hdone hpl) hb hpages
        have hothers := ha.forall_pages (Q := fun q => q.ref ≠ p.ref → q.Prints)
          (fun q => imp_congr_right fun _ => q.unallocated_prints) (hs.prints_others (f := PageRecord.bandOn) rfl hpages)
        have hslot := State.slot_congr (u.evaluateAllocation.postAll_slots p.participants (.ofPage .pageDone p.ref.tag 0))
        refine finishPage (hb.evaluateAllocation.congr (by simp) (by simp)) (by simpa using hothers) ?_
          (fun j st k0 hj => hnone j st k0 ((hslot j).symm.trans hj))
        exact hserves.congr (by simp) (fun j k0 hj => ⟨k0, (hslot j).trans hj, rfl⟩) (fun j k0 hj => ⟨k0, (hslot j).symm.trans hj, rfl⟩)
      · rename_i hne
        exact of_between hb.evaluateAllocation (ha.forall_pages PageRecord.unallocated_prints (hs.prints hpages (hmore hne))) hserves
  · obtain ⟨hne, hp'⟩ := hprints.line_in_band hs.printing hl
    rw [if_neg hl, if_neg hne]
    exact of_between hs.line_counted (hs.prints rfl hp') (hs.between rfl hs.printing rfl)

/-- The end of the line in flight (R151). -/
theorem endLine (h : s.Ring) (hline : s.streamer.line = some (r, source)) : (s.endLine r source).Ring := by
  have hserved : s.streamer.served = some r := by
    revert hline
    cases s.streamer <;> simp [StreamerState.line, StreamerState.served] <;> intros <;> assumption
  obtain ⟨p, hp, rfl, hstate⟩ := h.serves.served r hserved
  rcases hstate with hprint | hblank
  · cases source with
    | background =>
      obtain ⟨q, hq, -, hb⟩ := h.serves.lineBackground _ hline
      cases hp.symm.trans hq
      rw [hprint] at hb
      cases hb
    | slot i =>
      obtain ⟨k, hk, hkr⟩ := h.serves.lineSlot _ _ hline
      exact h.endLine_printing ⟨h, hp, hprint, hk, hkr⟩
  · exact h.endLine_blanking hp hblank hline

end State.Ring

end Sys2Proof.Machine
end

