-- ==== Sys2Proof/Proofs/RingSteps.lean ====
section
/-! Every step keeps the law of the ring of bands (R1 to R9, R15 to R20, R26, R54, R138, R143, R159). -/

namespace Sys2Proof.Machine

/-! ## The Streamer within a line and within a wait -/

/-- What of the Streamer's state the pages and the slots are bound to: not the place in a line, nor the time of a wait. -/
def StreamerState.bound : StreamerState → StreamerState
  | .sending r line => .sending r { source := line.source, word := 0, bits := 0, wordDone := false, early := false }
  | .held r source _ => .sending r { source := source, word := 0, bits := 0, wordDone := false, early := false }
  | .ackWait r source _ => .sending r { source := source, word := 0, bits := 0, wordDone := false, early := false }
  | .starved r b _ _ => .starved r b 0 false
  | st => st

theorem StreamerState.line_bound (st : StreamerState) : st.bound.line = st.line := by cases st <;> rfl

theorem StreamerState.served_bound (st : StreamerState) : st.bound.served = st.served := by cases st <;> rfl

theorem StreamerState.awaits_bound (st : StreamerState) : st.bound.awaits = st.awaits := by cases st <;> rfl

theorem StreamerState.bound_eq_idle {st : StreamerState} : st.bound = .idle ↔ st = .idle := by cases st <;> simp [StreamerState.bound]

theorem StreamerState.bound_eq_offered {st : StreamerState} {r : PageRef} : st.bound = .offered r ↔ st = .offered r := by
  cases st <;> simp [StreamerState.bound]

theorem State.Serves.of_bound {s : State} {st st' : StreamerState} (h : s.Serves st) (hst : st'.bound = st.bound) : s.Serves st' := by
  have hline : st'.line = st.line := by rw [← st'.line_bound, hst, st.line_bound]
  have hserved : st'.served = st.served := by rw [← st'.served_bound, hst, st.served_bound]
  have hawaits : st'.awaits = st.awaits := by rw [← st'.awaits_bound, hst, st.awaits_bound]
  have hidle : st' = .idle ↔ st = .idle := by rw [← StreamerState.bound_eq_idle, hst, StreamerState.bound_eq_idle]
  have hoffered : ∀ r, st' = .offered r ↔ st = .offered r := fun r => by
    rw [← StreamerState.bound_eq_offered, hst, StreamerState.bound_eq_offered]
  exact ⟨h.behind, fun hi => h.idle (hidle.1 hi), fun r hr => h.offered r ((hoffered r).1 hr), hserved ▸ h.served, hawaits ▸ h.starved,
    hline ▸ h.lineSlot, hline ▸ h.lineBackground, hline ▸ h.blanking⟩

/-- From `s` to `t` neither a page nor a slot changes, and the Streamer stays in its line or its wait. -/
structure State.SameRing (s t : State) : Prop where
  pages : t.pages = s.pages
  slots : t.slots = s.slots
  streamer : t.streamer.bound = s.streamer.bound

namespace State.SameRing

variable {s t u : State}

theorem refl (s : State) : s.SameRing s := ⟨rfl, rfl, rfl⟩

theorem trans (h : s.SameRing t) (g : t.SameRing u) : s.SameRing u :=
  ⟨g.pages.trans h.pages, g.slots.trans h.slots, g.streamer.trans h.streamer⟩

theorem ring (h : s.SameRing t) (hs : s.Ring) : t.Ring := by
  refine ⟨hs.bands.congr h.pages h.slots, by rw [h.pages]; exact hs.prints, (hs.serves.of_bound h.streamer).congr (by rw [h.pages]) ?_ ?_⟩
  · exact fun i k hi => ⟨k, by rwa [State.slot_congr h.slots], rfl⟩
  · exact fun i k hi => ⟨k, by rwa [State.slot_congr h.slots] at hi, rfl⟩

end State.SameRing

/-! ## The clock and the work that writes words alone -/

section sameRing

variable (s : State)

theorem State.rasterWord_sameRing : s.SameRing s.rasterWord := by
  unfold State.rasterWord
  split
  · exact .refl s
  · rename_i x _
    split
    · exact .refl s
    · rcases s.touchWord_state x with h | ⟨_, _, h⟩ | ⟨_, _, h⟩ <;> rw [h] <;> exact ⟨rfl, rfl, rfl⟩

theorem State.rasterWords_sameRing (n : Nat) : s.SameRing (State.rasterWords n s) := by
  induction n generalizing s with
  | zero => exact .refl s
  | succ n ih => exact s.rasterWord_sameRing.trans (ih _)

theorem State.finishWork_sameRing : s.SameRing s.finishWork := by
  unfold State.finishWork
  split
  · exact .refl s
  · exact s.rasterWords_sameRing _

theorem State.clearTick_sameRing : s.SameRing s.clearTick := by
  unfold State.clearTick
  repeat' split
  all_goals exact ⟨rfl, rfl, rfl⟩

theorem State.rasterTick_sameRing : s.SameRing s.rasterTick := by
  unfold State.rasterTick
  repeat' split
  case h_2.isFalse.isFalse => exact s.rasterWord_sameRing
  all_goals exact ⟨rfl, rfl, rfl⟩

theorem State.followOn_sameRing {r : PageRef} {line : LineInFlight} (h : s.streamer = .sending r line) : s.SameRing (s.followOn r line) :=
  ⟨rfl, rfl, by rw [h]; rfl⟩

theorem State.lineBoundary_sameRing {r : PageRef} {line : LineInFlight} (h : s.streamer = .sending r line) :
    s.SameRing (s.lineBoundary r line) := by
  unfold State.lineBoundary
  split
  · exact ⟨rfl, rfl, by rw [h]; rfl⟩
  · split
    · exact ⟨rfl, rfl, by rw [h]; rfl⟩
    · exact s.followOn_sameRing h

theorem State.streamerBoundary_sameRing : s.SameRing s.streamerBoundary := by
  unfold State.streamerBoundary
  split
  · rename_i h
    split
    · exact .refl s
    · exact s.lineBoundary_sameRing h
  · rename_i h
    exact ⟨rfl, rfl, by rw [h]; rfl⟩
  · exact .refl s

theorem State.tailBoundary_sameRing : s.SameRing s.tailBoundary := by
  unfold State.tailBoundary
  repeat' split
  all_goals exact ⟨rfl, rfl, rfl⟩

theorem State.resumeWord_sameRing : s.SameRing s.resumeWord := by
  unfold State.resumeWord
  split
  · rename_i h
    split
    · exact s.followOn_sameRing h
    · exact .refl s
  · exact .refl s

theorem State.videoTick_sameRing : s.SameRing s.videoTick := by
  refine s.resumeWord_sameRing.trans ?_
  unfold State.videoTick
  generalize s.resumeWord = t
  dsimp only
  split
  · have zero : t.SameRing { t with videoPhase := 0 } := ⟨rfl, rfl, rfl⟩
    exact (zero.trans (State.streamerBoundary_sameRing _)).trans (State.tailBoundary_sameRing _)
  · exact ⟨rfl, rfl, rfl⟩

theorem State.starvationTick_sameRing : s.SameRing s.starvationTick := by
  unfold State.starvationTick
  split
  · rename_i h
    split
    · exact .refl s
    · exact ⟨rfl, rfl, by rw [h]; rfl⟩
  · exact .refl s

theorem State.tick_sameRing : s.SameRing s.tick :=
  (((s.clearTick_sameRing.trans (State.rasterTick_sameRing _)).trans (State.videoTick_sameRing _)).trans
    (State.starvationTick_sameRing _)).trans ⟨rfl, rfl, rfl⟩

theorem State.finishEntry_sameRing (p : Port) (e : Option Event) : s.SameRing (s.finishEntry p e) := by
  cases e <;> exact ⟨rfl, rfl, rfl⟩

theorem State.postMaybe_sameRing (p : Port) (e : Option Event) : s.SameRing (s.postMaybe p e) := by
  cases e <;> exact ⟨rfl, rfl, rfl⟩

theorem State.popExecuting_sameRing (x : ExecRecord) : s.SameRing (s.popExecuting x) := by
  unfold State.popExecuting
  split <;> exact ⟨rfl, rfl, rfl⟩

theorem State.markLoaded_sameRing (op : Operation) : s.SameRing (s.markLoaded op) := by
  unfold State.markLoaded
  split <;> exact ⟨rfl, rfl, rfl⟩

theorem State.takeHeld_sameRing (k : Nat) : s.SameRing (s.takeHeld k) := by
  unfold State.takeHeld
  split
  · rename_i h
    split
    · exact ⟨rfl, rfl, by rw [h]; rfl⟩
    · exact .refl s
  · exact .refl s

theorem State.takeHoldLow_sameRing : s.SameRing s.takeHoldLow := by
  unfold State.takeHoldLow
  split
  · rename_i h
    exact ⟨rfl, rfl, by rw [h]; rfl⟩
  · exact .refl s

theorem State.takeLastBit_sameRing : s.SameRing s.takeLastBit := by
  unfold State.takeLastBit
  split
  · rename_i h
    split
    · exact .refl s
    · exact ⟨rfl, rfl, by rw [h]; rfl⟩
  · exact .refl s

theorem State.markEarly_sameRing : s.SameRing s.markEarly := by
  unfold State.markEarly
  split
  · rename_i h
    exact ⟨rfl, rfl, by rw [h]; rfl⟩
  · exact .refl s

end sameRing

/-- A spoil leaves the Streamer in its line (R145, R149). -/
theorem State.spoil_streamer (s : State) (r : PageRef) (cause : SpoilCause) (h : s.streamer.awaits = none) :
    (s.spoil r cause).streamer = s.streamer := by
  unfold State.spoil
  split
  · rfl
  · rename_i p _
    split
    · obtain ⟨lineOut, hb⟩ := s.blankPage_eq p cause (Event.ofPage .pageSpoiled p.ref.tag cause.code)
      rw [hb]
      revert h
      cases hst : s.streamer <;> simp [StreamerState.awaits, StreamerState.afterBlanking]
    · exact s.postAll_streamer _ _
    · rfl

namespace State.Ring

variable {s t : State} {p : PageRecord}

/-! ## Pages -/

/-- A new record joins the page queue (R29). -/
theorem append (h : s.Ring) (hp : t.pages = s.pages ++ [p]) (hslots : t.slots = s.slots) (hst : t.streamer = s.streamer)
    (hfresh : ∀ q ∈ s.pages, q.ref.tag ≠ p.ref.tag) (hord : p.Ordered) (hnone : p.nextToAllocate = 0) (hprints : p.Prints)
    (hpending : p.state = .pending) : t.Ring := by
  have hhead : ∀ q, s.pages.head? = some q → t.pages.head? = some q := fun q hq => by rw [hp, List.head?_append, hq]; rfl
  have hslot := State.slot_congr hslots
  refine ⟨h.bands.append hp hslots hfresh hord hnone, fun q hq => ?_, ?_⟩
  · rcases List.mem_append.1 (hp ▸ hq) with hq | hq
    · exact h.prints q hq
    · rw [List.mem_singleton.1 hq]
      exact hprints
  · rw [hst]
    refine ⟨fun q hq => ?_, fun hi q hq => ?_, fun r hr => ?_, fun r hr => ?_, fun r b hr => ?_, fun r i hr => ?_, fun r hr => ?_,
      fun i k q hi hq hqr hb => ?_⟩
    · cases hs : s.pages with
      | nil => simp [hp, hs] at hq
      | cons q0 l =>
        simp only [hp, hs, List.cons_append, List.tail_cons, List.mem_append, List.mem_singleton] at hq
        rcases hq with hq | rfl
        · exact h.serves.behind q (by simp [hs, hq])
        · exact hpending
    · cases hs : s.pages.head? with
      | none =>
        rw [hp, List.head?_append, hs] at hq
        cases hq
        exact hpending
      | some q0 =>
        cases (hhead q0 hs).symm.trans hq
        exact h.serves.idle hi q hs
    · obtain ⟨q, hq, hrest⟩ := h.serves.offered r hr
      exact ⟨q, hhead q hq, hrest⟩
    · obtain ⟨q, hq, hrest⟩ := h.serves.served r hr
      exact ⟨q, hhead q hq, hrest⟩
    · obtain ⟨q, hq, hrest⟩ := h.serves.starved r b hr
      exact ⟨q, hhead q hq, hrest⟩
    · obtain ⟨k, hk, hkr⟩ := h.serves.lineSlot r i hr
      exact ⟨k, (hslot i).trans hk, hkr⟩
    · obtain ⟨q, hq, hrest⟩ := h.serves.lineBackground r hr
      exact ⟨q, hhead q hq, hrest⟩
    · rcases List.mem_append.1 (hp ▸ hq) with hq | hq
      · exact h.serves.blanking i k q ((hslot i).symm.trans hi) hq hqr hb
      · rw [List.mem_singleton.1 hq, hpending] at hb
        cases hb

/-- OPEN PAGE (R28, R29). -/
theorem appendPage (h : s.Ring) (q : Port) (o : PageOperands) (hok : o.ok q = true) (htag : s.pageOfTag o.tag = none) :
    (s.appendPage q o).Ring := by
  simp only [PageOperands.ok, Bool.and_eq_true, decide_eq_true_eq, Bool.or_eq_true, Bool.not_eq_true'] at hok
  have hprints : (o.record q s.nextInstance).Prints :=
    ⟨by simp only [PageOperands.record]; omega, by simp only [PageOperands.record]; omega, by simp only [PageOperands.record]; omega,
      by simp only [PageOperands.record]; omega, fun hr => by simp only [PageOperands.record] at hr ⊢; simp only [hr, Bool.false_eq_true, or_false] at hok; omega,
      fun _ => ⟨rfl, rfl⟩, fun hc => (nomatch hc)⟩
  have hfresh : ∀ x ∈ s.pages, x.ref.tag ≠ o.tag := by simpa [State.pageOfTag, List.find?_eq_none] using htag
  have appended : ({ s with pages := s.pages ++ [o.record q s.nextInstance], nextInstance := s.nextInstance + 1 } : State).Ring :=
    h.append rfl rfl rfl hfresh ⟨le_rfl, Nat.zero_le _⟩ rfl hprints rfl
  exact appended.evaluateAllocation.offerIfHead _

/-- A TOP starts the offered page (R35, R142). -/
theorem takeTop (h : s.Ring) : s.takeTop.Ring := by
  unfold State.takeTop
  split
  · rename_i r hst
    obtain ⟨p, hp, rfl, hoffered⟩ := h.serves.offered r hst
    have hpm := List.mem_of_mem_head? hp
    rw [State.findPage_of_mem h.bands.tags hpm]
    obtain ⟨rest, hcons, hrest⟩ := h.serves.cons_of_head hp
    have hprints := h.prints p hpm
    obtain ⟨hnext, hlines⟩ := hprints.waiting (.inr hoffered)
    have hstart : ({ p with state := .printing, linesServed := 0, nextToStream := 0 } : PageRecord) = { p with state := .printing } := by
      simp only [hnext, hlines]
    have hmap : (s.mapPage p.ref fun q => { q with state := .printing, linesServed := 0, nextToStream := 0 }).pages =
        { p with state := .printing } :: rest := (State.mapPage_head h.bands.tags hcons _).trans (by rw [hstart])
    have hno : ∀ i k, s.slot i = .held .streaming k → ∀ q ∈ s.pages, q.ref ≠ k.page := by
      intro i k hi q hq hqr
      have hstate : q.state = .pending ∨ q.state = .offered := by
        rw [hcons] at hq
        rcases List.mem_cons.1 hq with rfl | hq
        · exact .inr hoffered
        · exact .inl (hrest q hq)
      rcases (h.bands.page_of_slot hi hq hqr).streams rfl with hc | hc <;> rcases hstate with hd | hd <;> rw [hc] at hd <;> cases hd
    have started : ({ (s.mapPage p.ref fun q => { q with state := .printing, linesServed := 0, nextToStream := 0 }) with
        streamer := .betweenLines p.ref, prdyLow := none } : State).Ring := by
      refine ⟨(h.bands.mapPage (r := p.ref) (f := fun q => { q with state := .printing, linesServed := 0, nextToStream := 0 }) (fun _ => rfl)
          (fun q hq hr ho => ?_) (fun q hq hr i st k hi hk hacc => ?_) (fun q hq hr _ => ?_)).congr rfl rfl, fun q hq => ?_, ?_⟩
      · exact ⟨Nat.zero_le _, ho.2⟩
      · cases State.ref_injective h.bands.tags hq hpm hr
        have hst : st ≠ .streaming := by
          rintro rfl
          exact hno i k hi p hpm hk.symm
        rw [hstart]
        exact ⟨hacc.lines, fun hc => (nomatch hc), fun _ => ⟨(hacc.inRun (by rw [hoffered]; decide)).1, (hacc.inRun (by rw [hoffered]; decide)).2.1,
          fun hc => absurd hc hst⟩, fun hc => absurd hc hst, hacc.closed⟩
      · cases State.ref_injective h.bands.tags hq hpm hr
        rw [hstart]
        exact ⟨by rw [hoffered]; decide, le_rfl, le_rfl⟩
      · rw [show State.pages _ = _ from hmap] at hq
        rcases List.mem_cons.1 hq with rfl | hq
        · obtain ⟨h1, h2, h3, h4, h5, -, -⟩ := hprints
          refine ⟨h1, h2, h3, h4, h5, fun hc => by simp at hc, fun _ => ?_⟩
          have hpos : 1 ≤ p.linesOf 0 := by unfold PageRecord.linesOf; split <;> assumption
          show p.nextToStream < p.bandCount ∧ p.nextToStream * p.bandHeight ≤ p.linesServed ∧
            p.linesServed < p.nextToStream * p.bandHeight + p.linesOf p.nextToStream
          rw [hnext, hlines]
          omega
        · exact h.prints q (by simp [hcons, hq])
      · refine .between (by rw [show State.pages _ = _ from hmap]; exact hrest)
          ⟨{ p with state := .printing }, by rw [show State.pages _ = _ from hmap]; rfl, rfl, .inl rfl⟩ fun i k q hi hq hqr => ?_
        rw [show State.pages _ = _ from hmap] at hq
        rcases List.mem_cons.1 hq with rfl | hq
        · exact absurd hqr (hno i k hi p hpm)
        · exact absurd hqr (hno i k hi q (by simp [hcons, hq]))
    dsimp only
    split
    · exact started.postAll _ _
    · exact started
  · exact h.postAll _ _

/-! ## The beginning of a line -/

/-- A line begins from the slot that streams a band of the PRINTING head page (R143). -/
theorem beginLine_slot (h : s.Ring) {i : Nat} {k : BandRecord} (hhead : s.pages.head? = some p) (hprint : p.state = .printing)
    (hi : s.slot i = .held .streaming k) (hk : k.page = p.ref) : (s.beginLine p.ref (.slot i)).Ring := by
  refine ⟨h.bands.congr rfl rfl, h.prints, h.serves.behind, fun hc => (nomatch hc), fun _ hc => (nomatch hc), fun r hr => ?_,
    fun _ _ hc => (nomatch hc), fun r j hr => ?_, fun r hr => ?_, fun j k0 q hj hq hqr hb => ?_⟩
  · cases hr
    exact ⟨p, hhead, rfl, .inl hprint⟩
  · cases hr
    exact ⟨k, hi, hk⟩
  · cases hr
  · exact absurd hb (h.serves.not_blanking_of_printing hhead hprint hq)

/-- A line of background begins for the BLANKING head page, of which no slot streams (R164, R166). -/
theorem beginLine_background (h : s.Ring) (hhead : s.pages.head? = some p) (hblank : p.state = .blanking) (hline : s.streamer.line = none) :
    (s.beginLine p.ref .background).Ring := by
  refine ⟨h.bands.congr rfl rfl, h.prints, h.serves.behind, fun hc => (nomatch hc), fun _ hc => (nomatch hc), fun r hr => ?_,
    fun _ _ hc => (nomatch hc), fun r j hr => ?_, fun r hr => ?_, fun j k0 q hj hq hqr hb => ?_⟩
  · cases hr
    exact ⟨p, hhead, rfl, .inr hblank⟩
  · cases hr
  · cases hr
    exact ⟨p, hhead, rfl, hblank⟩
  · obtain ⟨r, hr⟩ := h.serves.blanking j k0 q hj hq hqr hb
    rw [hline] at hr
    cases hr

/-- A page that goes BLANKING is the BLANKING head page (R43). -/
theorem head_blankPage (h : s.Ring) (hp : p ∈ s.pages) (hprint : p.state = .printing) (cause : SpoilCause) (e : Event)
    (hst : s.streamer = .betweenLines p.ref) :
    ∃ q, (s.blankPage p cause e).pages.head? = some q ∧ q.ref = p.ref ∧ q.state = .blanking ∧ (s.blankPage p cause e).streamer.line = none := by
  have hring := h.blankPage hp hprint cause e
  obtain ⟨lineOut, hb⟩ := s.blankPage_eq p cause e
  have hstreamer : (s.blankPage p cause e).streamer = .betweenLines p.ref := by rw [hb, hst]; rfl
  have hblank : ∀ q ∈ (s.blankPage p cause e).pages, q.ref = p.ref → q.state = .blanking := by
    rw [hb, State.abortWaiting_eq]
    refine (State.evaluateAllocation_allocates _).forall_pages (Q := fun q => q.ref = p.ref → q.state = .blanking) (fun _ => Iff.rfl) ?_
    rw [State.blankedStore_pages, State.mapPage_pages]
    intro q hq hr
    obtain ⟨q0, -, rfl⟩ := List.mem_map.1 hq
    split at hr
    · rename_i h0
      rw [if_pos h0]
      rfl
    · rename_i h0
      exact absurd hr h0
  obtain ⟨q, hq, hr, -⟩ := hring.serves.served p.ref (by rw [hstreamer]; rfl)
  exact ⟨q, hq, hr, hblank q (List.mem_of_mem_head? hq) hr, by rw [hstreamer]; rfl⟩

theorem notReady (h : s.Ring) (hhead : s.pages.head? = some p) (hprint : p.state = .printing) (hst : s.streamer = .betweenLines p.ref) :
    (s.notReady p).Ring := by
  have hp := List.mem_of_mem_head? hhead
  unfold State.notReady
  split
  · obtain ⟨q, hq, hr, hb, hline⟩ := h.head_blankPage hp hprint .underrun (Event.ofPage .pageSpoiled p.ref.tag SpoilCause.underrun.code) hst
    have begun := (h.blankPage hp hprint _ _).beginLine_background hq hb hline
    rwa [hr] at begun
  · refine ⟨h.bands.congr rfl rfl, h.prints, .of_no_line rfl h.serves.behind (fun hc => (nomatch hc)) (fun _ hc => (nomatch hc))
      (fun _ hc => (nomatch hc)) (fun r b hr => ?_) (fun i k q _ hq _ => h.serves.not_blanking_of_printing hhead hprint hq)⟩
    cases hr
    exact ⟨p, hhead, rfl, hprint, rfl⟩

theorem nextLine (h : s.Ring) (hhead : s.pages.head? = some p) (hprint : p.state = .printing) (hst : s.streamer = .betweenLines p.ref) :
    (s.nextLine p).Ring := by
  unfold State.nextLine
  split
  · cases hb : s.startBand p.ref p.nextToStream with
    | none => exact h.notReady hhead hprint hst
    | some t => exact h.startBand hb ⟨p, hhead, rfl, hprint, rfl⟩
  · split
    · rename_i i hi
      unfold State.streamingSlot at hi
      split at hi
      · cases hi
      · rename_i j hj
        split at hi
        · rename_i k hk
          cases hi
          obtain ⟨_, k', hk', hpage, -⟩ := State.slotOfBand_some hj
          cases hk.symm.trans hk'
          exact h.beginLine_slot hhead hprint hk hpage
        · cases hi
    · exact h.notReady hhead hprint hst

theorem takeLreq (h : s.Ring) : s.takeLreq.Ring := by
  unfold State.takeLreq
  split
  · exact h.postAll _ _
  · exact h.postAll _ _
  · rename_i r hst
    obtain ⟨p, hp, rfl, hstate⟩ := h.serves.served r (by rw [hst]; rfl)
    unfold State.requestLine
    rw [State.findPage_of_mem h.bands.tags (List.mem_of_mem_head? hp)]
    dsimp only
    split
    · rename_i hb
      exact h.beginLine_background hp hb (by rw [hst]; rfl)
    · rename_i hb
      exact h.nextLine hp (hstate.resolve_right hb) hst
  · exact h.spoil _ _
  · exact h.spoil _ _
  · exact h.spoil _ _
  · exact h

/-! ## The end of a line and of a wait -/

/-- A line whose page is spoiled ends as it would (R149, R150, R152). -/
theorem spoil_endLine (h : s.Ring) {r : PageRef} {source : LineSource} (hline : s.streamer.line = some (r, source)) (hst : s.streamer.awaits = none) :
    ((s.spoil r .slip).endLine r source).Ring :=
  (h.spoil r .slip).endLine (by rw [s.spoil_streamer _ _ hst, hline])

theorem takeLack (h : s.Ring) : s.takeLack.Ring := by
  unfold State.takeLack
  split
  · exact (State.markEarly_sameRing _).ring (h.spoil _ _)
  · rename_i hst
    exact h.spoil_endLine (by rw [hst]; rfl) (by rw [hst]; rfl)
  · rename_i hst
    exact h.endLine (by rw [hst]; rfl)
  · exact h.postAll _ _

theorem takeEarlyEnd (h : s.Ring) : s.takeEarlyEnd.Ring := by
  unfold State.takeEarlyEnd
  split
  · rename_i r line hst
    split
    · have sent : (s.sendWords r line.source line.word line.word).Ring := h.congr rfl rfl rfl
      exact sent.endLine (show s.streamer.line = _ by rw [hst]; rfl)
    · exact h
  · exact h

theorem takeWindowExpiry (h : s.Ring) : s.takeWindowExpiry.Ring := by
  unfold State.takeWindowExpiry
  split
  · rename_i hst
    exact h.spoil_endLine (by rw [hst]; rfl) (by rw [hst]; rfl)
  · exact h

/-- An OPEN slot stays OPEN with the same band (R57, R62). -/
theorem reopen (h : s.Ring) {i : Nat} {k k' : BandRecord} (hi : s.slot i = .held .opened k) (hpage : k'.page = k.page) (hband : k'.band = k.band)
    (hlines : k'.lines = k.lines) : (s.setSlot i (.held .opened k')).Ring :=
  h.restate hi (by decide) (by decide) hpage hband fun p _ _ hacc =>
    ⟨by rw [hlines, hband]; exact hacc.lines, hacc.blanking, fun hb => by rw [hband]; exact hacc.inRun hb, fun hc => (nomatch hc),
      fun hc => absurd hc (by decide)⟩

theorem forceClose (h : s.Ring) {i : Nat} {k : BandRecord} (hi : s.slot i = .held .opened k) (p : PageRecord) : (s.forceClose p i k).Ring := by
  unfold State.forceClose
  split
  · exact h
  · split
    · exact (h.reopen (k' := { k with forcePending := true }) hi rfl rfl rfl).postAll _ _
    · exact (h.postAll _ _).openToReady i true (.inl rfl)

theorem takeStarvationExpiry (h : s.Ring) : s.takeStarvationExpiry.Ring := by
  unfold State.takeStarvationExpiry
  split
  · rename_i r b n hst
    split
    · exact h
    · rename_i p _
      have same : s.SameRing { s with streamer := .starved r b s.starvationPeriods true } := ⟨rfl, rfl, by rw [hst]; rfl⟩
      have expired := same.ring h
      unfold State.expiryClaim
      split
      · exact expired.spoil _ _
      · split
        · rename_i hk
          exact expired.forceClose hk p
        · exact expired.spoil _ _
        · exact expired
  · exact h

/-! ## Clears and commands -/

/-- The clear completion claim (R12). -/
theorem clearDone (h : s.Ring) {i : Nat} {k : BandRecord} (hi : s.slot i = .held .clearing k) : (s.clearDone i k).Ring := by
  have opened : (s.setSlot i (.held .opened k)).Ring :=
    h.restate hi (by decide) (by decide) rfl rfl fun p _ _ hacc =>
      ⟨hacc.lines, fun hb => absurd (hacc.blanking hb) (by decide), fun hb => ⟨(hacc.inRun hb).1, (hacc.inRun hb).2.1, fun hc => (nomatch hc)⟩,
        fun hc => (nomatch hc), fun hc => absurd hc (by decide)⟩
  have left : ({ (s.setSlot i (.held .opened k)) with clearOrder := s.clearOrder.tail, clearPos := 0 } : State).Ring := opened.congr rfl rfl rfl
  exact (left.postAll _ _).recheck _

theorem endClear (h : s.Ring) : s.endClear.Ring := by
  have ht : ({ s with clearClaims := s.clearClaims.tail } : State).Ring := h.congr rfl rfl rfl
  unfold State.endClear
  dsimp only
  split
  · exact ht
  · rename_i c _
    rcases State.takeClearClaim_cases { s with clearClaims := s.clearClaims.tail } c with h' | ⟨k, hk, -, h'⟩ <;> rw [h']
    · exact ht
    · unfold State.completeClear
      refine clearDone (k := k) ?_ ?_ <;> rw [State.clearWords_eq]
      · exact ht.congr rfl rfl rfl
      · exact hk

theorem takeEndedSlot (h : s.Ring) (i : Nat) : (s.takeEndedSlot i).Ring := by
  unfold State.takeEndedSlot
  split
  · exact h.evaluateAllocation
  · split
    · exact (h.openToReady i true (.inl rfl)).offerIfHead _
    · split
      · rename_i hc
        exact (h.openToReady i false (.inr hc)).offerIfHead _
      · exact h
  · exact h

theorem endCommand (h : s.Ring) : s.endCommand.Ring := by
  have hf := s.finishWork_sameRing.ring h
  unfold State.endCommand
  split
  · exact h
  · rename_i x _
    have freed : ({ s.finishWork with inFlight := none, execution := none } : State).Ring := hf.congr rfl rfl rfl
    have loaded := (State.markLoaded_sameRing _ x.op).ring freed
    unfold State.commandEndClaim
    refine ((State.postMaybe_sameRing _ _ _).trans (State.popExecuting_sameRing _ _)).ring ?_
    split
    · exact loaded
    · exact loaded.takeEndedSlot _

/-- The close claim (R57). -/
theorem closeClaim (h : s.Ring) (q : Port) {i : Nat} {k : BandRecord} (hi : s.slot i = .held .opened k) : (s.closeClaim q i).Ring := by
  have closed : (s.setSlot i (.held .opened { k with closedBy := k.closedBy.add q })).Ring := h.reopen hi rfl rfl rfl
  unfold State.closeClaim
  rw [hi]
  dsimp only
  split
  · rename_i hc
    exact (closed.openToReady i false (.inr hc)).offerIfHead _
  · exact closed

theorem beginBandCommand (h : s.Ring) (q : Port) (e : Entry) (i : Nat) (k : BandRecord) : (s.beginBandCommand q e i k).Ring := by
  unfold State.beginBandCommand
  split
  · exact (s.finishEntry_sameRing q _).ring h
  · split
    · exact h.congr rfl rfl rfl
    · split
      · exact (s.finishEntry_sameRing q _).ring h
      · exact h.congr rfl rfl rfl

theorem grantBand (h : s.Ring) (q : Port) (e : Entry) (r : PageRef) (b : Nat) : (s.grantBand q e r b).Ring := by
  unfold State.grantBand
  split
  · exact (s.finishEntry_sameRing q _).ring h
  · exact h.congr rfl rfl rfl
  · rename_i i hrun
    obtain ⟨k, hk⟩ := State.executionCheck_run hrun
    split
    · exact (State.finishEntry_sameRing _ q _).ring (h.closeClaim q hk)
    · rw [hk]
      exact h.beginBandCommand q e i k

theorem grantLeave (h : s.Ring) (q : Port) (e : Entry) (r : PageRef) : (s.grantLeave q e r).Ring := by
  have finished : ∀ e, (s.finishEntry q e).Ring := fun e => (s.finishEntry_sameRing q e).ring h
  unfold State.grantLeave
  split
  · exact finished _
  · rename_i x _
    have left := h.leaveRecord x q
    split
    · exact finished _
    · split
      · exact finished _
      · split
        · exact finished _
        · exact ((s.leaveRecord x q).finishEntry_sameRing q _).ring left

theorem grant (h : s.Ring) (q : Port) (e : Entry) : (s.grant q e).Ring := by
  unfold State.grant
  cases e.op with
  | mark v => exact (s.finishEntry_sameRing q _).ring h
  | loadTile t => exact h.congr rfl rfl rfl
  | leavePage =>
    cases e.page with
    | none => exact h
    | some r => exact h.grantLeave q e r
  | fill | putBits | copy | closeBand | sumBand =>
    cases e.page with
    | none => exact h
    | some r =>
      cases e.band with
      | none => exact h
      | some b => exact h.grantBand q e r b

theorem consider (h : s.Ring) : s.consider.Ring := by
  unfold State.consider
  split
  · exact h
  · split
    · exact h
    · exact h.grant _ _

theorem deviceReset (s : State) : s.deviceReset.Ring := by
  have hfree : ∀ i, s.deviceReset.slot i = .free := fun i => State.deviceReset_slot s i
  refine ⟨⟨List.nodup_nil, fun _ hc => (nomatch hc), fun i st k hi => ?_, fun i j st st' k k' hi => ?_, fun i j k k' hi => ?_,
    fun _ hc => (nomatch hc)⟩, fun _ hc => (nomatch hc), .of_no_line rfl (fun _ hc => (nomatch hc)) (fun _ _ hc => (nomatch hc))
    (fun _ hc => (nomatch hc)) (fun _ hc => (nomatch hc)) (fun _ _ hc => (nomatch hc)) (fun i k q hi => ?_)⟩
  all_goals
    rw [hfree] at hi
    cases hi

/-! ## Every step -/

theorem acceptFrame (h : s.Ring) (q : Port) (parsed : Option QueuedFrame) : (s.acceptFrame q parsed).1.Ring := by
  unfold State.acceptFrame
  repeat' split
  all_goals first
    | exact h
    | exact h.congr rfl rfl rfl

theorem actions : KeptByActions State.Ring where
  port _ _ _ _ h := h.congr rfl rfl rfl
  signals _ _ _ _ _ _ _ _ h := h.congr rfl rfl rfl
  deviceReset s _ := deviceReset s
  accept _ p parsed _ h := h.acceptFrame p parsed
  openPage _ p o hok htag h := h.appendPage p o hok htag
  abortPage _ _ _ hq h := h.abortRecord (State.pageOfTag_some hq).1
  portReset _ p h := h.resetPort p
  consider _ h := h.consider
  endCommand _ _ h := h.endCommand
  endClear _ h := h.endClear
  takeTop _ h := h.takeTop
  takeLreq _ h := h.takeLreq
  takeLack _ h := h.takeLack
  takeHeld s k h := (s.takeHeld_sameRing k).ring h
  takeHoldLow s h := s.takeHoldLow_sameRing.ring h
  takeLastBit s h := s.takeLastBit_sameRing.ring h
  takeEarlyEnd _ h := h.takeEarlyEnd
  takeWindowExpiry _ h := h.takeWindowExpiry
  takeStarvationExpiry _ h := h.takeStarvationExpiry

end State.Ring

/-- Settles O60: the law in terms of pages, slots and Streamer (`State.Ring`) is kept by every action and by the clock. -/
theorem stepsKeepTheRingOfBands : Obligations.StepsKeepTheRingOfBands := by
  intro s t hs hstep
  have kept := State.Ring.actions.step (fun _ _ _ _ h => h.congr rfl rfl rfl) (fun s h => s.tick_sameRing.ring h) s ((State.ringLawful_iff s).1 hs)
  rw [hstep] at kept
  exact (State.ringLawful_iff t).2 kept

end Sys2Proof.Machine
end

