-- ==== Sys2Proof/Proofs/LineRequests.lean ====
section
/-! An LREQ that asks for a line (R16, R143, R146, R157, R166). -/

namespace Sys2Proof.Machine

/-- An LREQ's rise with reset high is taken (R134). -/
theorem exec_lreq_rises {s : State} (hlow : s.pins.lreq = false) (hreset : s.resetHeld = false) :
    exec (.lreq true) s = .next (s.withLreq true).takeLreq := by
  have taken : s.asserted s.pins.lreq true = true := by simp [State.asserted, hlow, hreset]
  show Host.Outcome.next (if s.asserted s.pins.lreq true then (s.withLreq true).takeLreq else s.withLreq true) = _
  rw [if_pos taken]

theorem State.startBand_ready {s : State} {r : PageRef} {b i : Nat} {k : BandRecord} (hi : s.slotOfBand r b = some i)
    (hk : s.slot i = .held .ready k) : s.startBand r b = some ((s.setSlot i (.held .streaming k)).beginLine r (.slot i)) := by
  simp only [State.startBand, hi, hk]

theorem State.streamingSlot_of_slotOfBand {s : State} {r : PageRef} {b i : Nat} {k : BandRecord} (hi : s.slotOfBand r b = some i)
    (hk : s.slot i = .held .streaming k) : s.streamingSlot r b = some i := by
  simp only [State.streamingSlot, hi, hk]

theorem State.takeLreq_between {s : State} {r : PageRef} {q : PageRecord} (hst : s.streamer = .betweenLines r) (hq : s.findPage r = some q) :
    s.takeLreq = if q.state = .blanking then s.beginLine r .background else s.nextLine q := by
  simp only [State.takeLreq, hst, State.requestLine, hq]

/-- The first line of a READY band (R16, R143). -/
theorem State.nextLine_first {s : State} {q : PageRecord} {i : Nat} {k : BandRecord} (hline : q.bandLine = 0)
    (hi : s.slotOfBand q.ref q.nextToStream = some i) (hk : s.slot i = .held .ready k) :
    s.nextLine q = (s.setSlot i (.held .streaming k)).beginLine q.ref (.slot i) := by
  rw [State.nextLine, if_pos hline, State.startBand_ready hi hk]
  rfl

/-- A later line of the STREAMING band (R143). -/
theorem State.nextLine_later {s : State} {q : PageRecord} {i : Nat} {k : BandRecord} (hline : q.bandLine ≠ 0)
    (hi : s.slotOfBand q.ref q.nextToStream = some i) (hk : s.slot i = .held .streaming k) : s.nextLine q = s.beginLine q.ref (.slot i) := by
  rw [State.nextLine, if_neg hline, State.streamingSlot_of_slotOfBand hi hk]

/-- Settles O41, by the cases of `nextLine`. -/
theorem lreqSendsALine : Obligations.LreqSendsALine := by
  rintro s r q hlow hreset hst hq rfl sends
  have taken : exec (.lreq true) s =
      .next (if q.state = .blanking then (s.withLreq true).beginLine q.ref .background else (s.withLreq true).nextLine q) := by
    rw [exec_lreq_rises hlow hreset, State.takeLreq_between (s := s.withLreq true) hst hq]
  refine ⟨fun hb => ?_, fun hb i k hi => ⟨fun hline hk => ?_, fun hline hk => ?_⟩⟩
  · rw [if_pos hb] at taken
    exact taken
  · rw [if_neg hb, State.nextLine_first (s := s.withLreq true) hline hi hk] at taken
    exact taken
  · rw [if_neg hb, State.nextLine_later (s := s.withLreq true) hline hi hk] at taken
    exact taken

end Sys2Proof.Machine
end

