-- ==== Sys2Proof/Proofs/AllocationLaws.lean ====
section
/-! An evaluation of allocation gives what it can (R6, R7, R8). -/

namespace Sys2Proof.Machine

/-! ## How often it allocates -/

/-- The number of FREE slots, which bounds the allocations (R6). -/
def State.freeCountOfSlots (s : State) : Nat := s.slots.countP fun x => decide (x = .free)

theorem State.allocateOne_eq_none {s : State} : s.allocateOne = none ↔ s.pages.find? PageRecord.wantsBand = none ∨ s.freeSlot = none := by
  unfold State.allocateOne
  cases s.pages.find? PageRecord.wantsBand <;> cases s.freeSlot <;> simp

theorem State.freeSlot_of_free {s : State} (h : s.freeCountOfSlots = 0) : s.freeSlot = none := by
  cases hi : s.freeSlot with
  | none => rfl
  | some i =>
    obtain ⟨hlt, hfree, -⟩ := State.freeSlot_some hi
    have := List.countP_eq_zero.1 h (s.slot i) (State.slot_mem hlt)
    simp [hfree] at this

/-- An allocation takes one FREE slot. -/
theorem State.allocateOne_slots {s t : State} (h : s.allocateOne = some t) :
    t.freeCountOfSlots + 1 = s.freeCountOfSlots ∧ t.slots.length = s.slots.length := by
  obtain ⟨p, i, -, hfree, rfl⟩ := State.allocateOne_some h
  obtain ⟨hlt, hf, -⟩ := State.freeSlot_some hfree
  have hpos : 0 < s.freeCountOfSlots := List.countP_pos_iff.2 ⟨s.slot i, State.slot_mem hlt, by simp [hf]⟩
  have hget : s.slots[i] = .free := by simpa [State.slot, List.getD_eq_getElem?_getD, hlt] using hf
  refine ⟨?_, List.length_set⟩
  show (s.slots.set i (.held .clearing p.nextBand)).countP _ + 1 = _
  rw [List.countP_set hlt]
  simp only [hget, decide_true, if_true, reduceCtorEq, decide_false, Bool.false_eq_true, if_false]
  exact Nat.sub_add_cancel hpos

theorem State.allocateUpTo_of_none {s : State} (h : s.allocateOne = none) (n : Nat) : State.allocateUpTo n s = s := by
  cases n with
  | zero => rfl
  | succ n => simp only [State.allocateUpTo, h]

/-- As many allocations as there are FREE slots are enough. -/
theorem State.allocateUpTo_enough (n m : Nat) (s : State) (hn : s.freeCountOfSlots ≤ n) (hm : s.freeCountOfSlots ≤ m) :
    State.allocateUpTo n s = State.allocateUpTo m s := by
  induction n generalizing m s with
  | zero => exact (State.allocateUpTo_of_none (State.allocateOne_eq_none.2 (.inr (State.freeSlot_of_free (Nat.le_zero.1 hn)))) m).symm
  | succ n ih =>
    cases hone : s.allocateOne with
    | none => rw [State.allocateUpTo_of_none hone, State.allocateUpTo_of_none hone]
    | some t =>
      have hcount := (State.allocateOne_slots hone).1
      cases m with
      | zero => omega
      | succ m =>
        simp only [State.allocateUpTo, hone]
        exact ih m t (by omega) (by omega)

theorem State.allocateUpTo_ends (n : Nat) (s : State) (hn : s.freeCountOfSlots ≤ n) : (State.allocateUpTo n s).allocateOne = none := by
  induction n generalizing s with
  | zero => exact State.allocateOne_eq_none.2 (.inr (State.freeSlot_of_free (Nat.le_zero.1 hn)))
  | succ n ih =>
    cases hone : s.allocateOne with
    | none => rw [State.allocateUpTo_of_none hone, hone]
    | some t =>
      have hcount := (State.allocateOne_slots hone).1
      simp only [State.allocateUpTo, hone]
      exact ih t (by omega)

theorem State.evaluateAllocation_of_none {s : State} (h : s.allocateOne = none) : s.evaluateAllocation = s := State.allocateUpTo_of_none h _

theorem State.evaluateAllocation_ends (s : State) : s.evaluateAllocation.allocateOne = none := State.allocateUpTo_ends _ s List.countP_le_length

theorem State.evaluateAllocation_of_some {s t : State} (h : s.allocateOne = some t) : s.evaluateAllocation = t.evaluateAllocation := by
  obtain ⟨hcount, hlen⟩ := State.allocateOne_slots h
  have hle : s.freeCountOfSlots ≤ s.slots.length := List.countP_le_length
  unfold State.evaluateAllocation
  rw [State.allocateUpTo_enough s.slots.length (t.slots.length + 1) s hle (by omega)]
  simp only [State.allocateUpTo, h]

/-! ## What it gives -/

/-- From `s` to `t` slots have been given to bands that pages of `s` wanted (R7, R8). -/
structure State.Gives (s t : State) : Prop where
  pages : ∀ p ∈ t.pages, ∃ q ∈ s.pages, q.nextToAllocate ≤ p.nextToAllocate ∧ p = { q with nextToAllocate := p.nextToAllocate }
  inFlight : t.inFlight = s.inFlight
  order : ∃ l, t.clearOrder = s.clearOrder ++ l
  slot : ∀ i, t.slot i = s.slot i ∨ s.inFlight ≠ some i ∧ i ∈ t.clearOrder ∧ ∃ q ∈ s.pages, ∃ b, q.nextToAllocate ≤ b ∧ b < q.bandCount ∧
    q.state ≠ .blanking ∧ t.slot i = .held .clearing ({ q with nextToAllocate := b } : PageRecord).nextBand

theorem State.Gives.step {s t u : State} (h : s.Gives t) (hu : t.allocateOne = some u) : s.Gives u := by
  obtain ⟨p, i, hfind, hfree, rfl⟩ := State.allocateOne_some hu
  obtain ⟨hlt, -, hmark⟩ := State.freeSlot_some hfree
  obtain ⟨q, hq, hle, hpq⟩ := h.pages p (List.mem_of_find?_eq_some hfind)
  have hwants := List.find?_some hfind
  simp only [PageRecord.wantsBand, Bool.and_eq_true, decide_eq_true_eq] at hwants
  obtain ⟨l, hl⟩ := h.order
  refine ⟨fun p' hp' => ?_, h.inFlight, ⟨l ++ [i], by rw [← List.append_assoc, ← hl]⟩, fun j => ?_⟩
  · obtain ⟨p0, hp0, rfl⟩ := List.mem_map.1 hp'
    obtain ⟨q0, hq0, hle0, hpq0⟩ := h.pages p0 hp0
    refine ⟨q0, hq0, ?_⟩
    split
    · exact ⟨Nat.le_succ_of_le hle0, by rw [hpq0]⟩
    · exact ⟨hle0, hpq0⟩
  · show (t.setSlot i (.held .clearing p.nextBand)).slot j = _ ∨ _
    by_cases hj : j = i
    · subst hj
      refine .inr ⟨by rw [← h.inFlight]; exact hmark, List.mem_append_right _ (List.mem_singleton_self _), q, hq, p.nextToAllocate, hle, ?_, ?_, ?_⟩
      · rw [hpq] at hwants
        exact hwants.1
      · rw [hpq] at hwants
        exact hwants.2
      · rw [← hpq]
        exact State.slot_setSlot_same _ hlt
    · rw [State.slot_setSlot_ne _ hj]
      refine (h.slot j).imp_right fun ⟨hf, hmem, hrest⟩ => ⟨hf, List.mem_append_left _ hmem, ?_⟩
      obtain ⟨q0, hq0, b, hb, hb', hs, hk⟩ := hrest
      exact ⟨q0, hq0, b, hb, hb', hs, (State.slot_setSlot_ne _ hj).trans hk⟩

theorem State.evaluateAllocation_gives (s : State) : s.Gives s.evaluateAllocation :=
  State.evaluateAllocation_induct (P := s.Gives) (fun _ _ h hu => h.step hu) s
    ⟨fun p hp => ⟨p, hp, le_rfl, rfl⟩, rfl, ⟨[], by simp⟩, fun _ => .inl rfl⟩

/-! ## One allocation -/

theorem PageRecord.not_wantsBand {p : PageRecord} : p.wantsBand = false ↔ p.bandCount ≤ p.nextToAllocate ∨ p.state = .blanking := by
  rw [← not_lt]
  simp only [PageRecord.wantsBand, Bool.and_eq_false_iff, decide_eq_false_iff_not, not_not, ne_eq]

/-- The lowest slot that is FREE without the in-flight mark (R7). -/
theorem State.freeSlot_eq_some {s : State} {i : Nat} (hlt : i < s.slots.length) (hfree : s.slot i = .free) (hmark : s.inFlight ≠ some i)
    (hlow : ∀ j, j < i → s.slot j ≠ .free ∨ s.inFlight = some j) : s.freeSlot = some i := by
  refine List.find?_range_eq_some.2 ⟨by simp [hfree, hmark], List.mem_range.2 hlt, fun j hj => ?_⟩
  rcases hlow j hj with h | h <;> simp [h]

/-- The allocation to that page and slot (R8). -/
theorem State.allocateOne_of_some {s : State} {p : PageRecord} {i : Nat} (hp : s.pages.find? PageRecord.wantsBand = some p)
    (hi : s.freeSlot = some i) : s.allocateOne = some { (s.mapPage p.ref fun q => { q with nextToAllocate := q.nextToAllocate + 1 }) with
      slots := s.slots.set i (.held .clearing p.nextBand), clearOrder := s.clearOrder ++ [i],
      clearPos := if s.clearOrder.isEmpty then 0 else s.clearPos } := by
  unfold State.allocateOne
  rw [hp, hi]

/-- Only the record of that page changes. -/
theorem map_record_append {older newer : List PageRecord} {q : PageRecord} (f : PageRecord → PageRecord)
    (hnodup : ((older ++ q :: newer).map PageRecord.ref).Nodup) :
    ((older ++ q :: newer).map fun p => if p.ref = q.ref then f p else p) = older ++ f q :: newer := by
  have hne : ∀ p, p ∈ older ∨ p ∈ newer → p.ref ≠ q.ref := by
    rw [List.map_append, List.map_cons] at hnodup
    obtain ⟨-, hcons, hdisj⟩ := List.nodup_append.1 hnodup
    rintro p (hp | hp)
    · exact hdisj _ (List.mem_map_of_mem hp) _ List.mem_cons_self
    · exact fun heq => (List.nodup_cons.1 hcons).1 (heq ▸ List.mem_map_of_mem hp)
  have unchanged : ∀ l : List PageRecord, (∀ p ∈ l, p.ref ≠ q.ref) → (l.map fun p => if p.ref = q.ref then f p else p) = l := fun l hl =>
    (List.map_congr_left fun p hp => if_neg (hl p hp)).trans (List.map_id l)
  rw [List.map_append, List.map_cons, if_pos rfl, unchanged older fun p hp => hne p (.inl hp), unchanged newer fun p hp => hne p (.inr hp)]

/-- Settles O15: an evaluation allocates until nothing is left to give, for each allocation takes a FREE slot. -/
theorem allocationGivesWhatItCan : Obligations.AllocationGivesWhatItCan := by
  refine ⟨fun s older newer q i hpages holder hmore hstate hnodup hlt hfree hmark hlow => ?_, fun s => ⟨fun hno => ?_, ?_, fun i hi => ?_, fun i hi => ?_, ?_⟩⟩
  · have hwants : s.pages.find? PageRecord.wantsBand = some q :=
      List.find?_eq_some_iff_append.2 ⟨by simp [PageRecord.wantsBand, hmore, hstate], older, newer, hpages, fun p hp => by
        rw [PageRecord.not_wantsBand.2 (holder p hp)]; rfl⟩
    have hone := State.allocateOne_of_some hwants (State.freeSlot_eq_some hlt hfree hmark hlow)
    refine ⟨_, hone, State.evaluateAllocation_of_some hone, ?_, rfl, rfl, rfl⟩
    show (s.pages.map _) = _
    rw [hpages] at hnodup ⊢
    exact map_record_append (fun p => { p with nextToAllocate := p.nextToAllocate + 1 }) hnodup
  · refine State.evaluateAllocation_of_none (State.allocateOne_eq_none.2 (hno.imp (fun h => ?_) (fun h => ?_)))
    · exact List.find?_eq_none.2 fun p hp => by simp [PageRecord.not_wantsBand.2 (h p hp)]
    · refine List.find?_range_eq_none.2 fun i hi => ?_
      rcases h i hi with h | h <;> simp [h]
  · exact State.allocateOne_eq_none.1 s.evaluateAllocation_ends
  · exact s.evaluateAllocation_allocates.kept i hi
  · exact (s.evaluateAllocation_gives.slot i).imp_left fun h => h.trans hi
  · exact s.evaluateAllocation_gives.order

end Sys2Proof.Machine
end

