-- ==== Sys2Proof/Proofs/WaitingHeads.lean ====
section
/-! Waiting heads: what the repeated check and the release of their page do to each port (R68, R125). -/

namespace Sys2Proof.Machine

/-! ## The repeated check -/

theorem State.executionCheck_congr {s t : State} (hp : t.pages = s.pages) (hs : t.slots = s.slots) (z : Port) (r : PageRef) (b : Nat) :
    t.executionCheck z r b = s.executionCheck z r b := by
  unfold State.executionCheck
  simp only [State.findPage_congr hp, State.slotOfBand_congr hs, State.slot_congr hs]

/-- The queue after the repeated check depends on the port's queue and on the pages and slots that are checked. -/
theorem State.queueAfterRecheck_congr {s s' t t' : State} {z : Port} (hq : (s'.port z).queue = (s.port z).queue) (hp : t'.pages = t.pages)
    (hs : t'.slots = t.slots) (r : PageRef) : s'.queueAfterRecheck t' r z = s.queueAfterRecheck t r z := by
  unfold State.queueAfterRecheck
  rw [hq]
  split
  · rfl
  · rw [State.executionCheck_congr hp hs]

theorem State.recheckPort_port_same (s : State) (r : PageRef) (z : Port) :
    (s.recheckPort r z).port z = { s.port z with queue := s.queueAfterRecheck s r z } := by
  unfold State.recheckPort State.headEntry State.queueAfterRecheck
  cases hq : (s.port z).queue with
  | nil =>
    show s.port z = { s.port z with queue := [] }
    rw [← hq]
  | cons e es =>
    simp only [List.head?_cons]
    by_cases hw : e.life = .waiting ∧ e.page = some r
    · by_cases hc : s.executionCheck z r (e.band.getD 0) = .wait
      · simp [hw, hc, ← hq]
      · simp [hw, hc, State.setHeadLife, hq]
    · rw [if_neg hw, if_neg fun h => hw ⟨h.1, h.2.1⟩, ← hq]

theorem State.recheckPort_port_other (s : State) (r : PageRef) (z : Port) : (s.recheckPort r z).port z.other = s.port z.other := by
  rcases s.recheckPort_cases r z with h | ⟨e, -, -, h⟩ <;> rw [h]
  exact State.updPort_port_other _ _ _

theorem State.recheckPort_store (s : State) (r : PageRef) (z : Port) :
    (s.recheckPort r z).pages = s.pages ∧ (s.recheckPort r z).slots = s.slots := by
  rcases s.recheckPort_cases r z with h | ⟨e, -, -, h⟩ <;> rw [h] <;> exact ⟨rfl, rfl⟩

/-- The repeated check for page `r` changes the queue alone of each port (R125). -/
theorem State.recheck_port (s : State) (r : PageRef) (z : Port) :
    (s.recheck r).port z = { s.port z with queue := s.queueAfterRecheck s r z } := by
  obtain ⟨hp, hs⟩ := s.recheckPort_store r .a
  unfold State.recheck
  cases z with
  | a => exact (State.recheckPort_port_other _ r .b).trans (s.recheckPort_port_same r .a)
  | b =>
    have hb : (s.recheckPort r .a).port .b = s.port .b := s.recheckPort_port_other r .a
    rw [State.recheckPort_port_same, State.queueAfterRecheck_congr (s := s) (t := s) (by rw [hb]) hp hs, hb]

/-! ## The release of the page -/

theorem State.abortWaitingPort_port_same (s : State) (r : PageRef) (z : Port) :
    (s.abortWaitingPort r z).port z =
      { s.port z with queue := s.queueAfterAbort r z, events := s.eventsAfterAbort r z (s.port z).events } := by
  unfold State.abortWaitingPort State.queueAfterAbort State.eventsAfterAbort State.waitsOn
  cases he : s.headEntry z with
  | none => rfl
  | some e =>
    by_cases hw : e.life = .waiting ∧ e.page = some r
    · simp [hw, State.popEntry, Event.ofCommand, ExecError.code]
    · have hnot : (decide (e.life = .waiting) && decide (e.page = some r)) = false := by simpa using hw
      simp only [if_neg hw, hnot, Bool.false_eq_true, if_false]

theorem State.abortWaitingPort_port_other (s : State) (r : PageRef) (z : Port) : (s.abortWaitingPort r z).port z.other = s.port z.other := by
  rcases s.abortWaitingPort_cases r z with h | ⟨e, -, -, -, h⟩ <;> rw [h]
  rw [State.postTo_port_other]
  exact State.updPort_port_other _ _ _

theorem State.headEntry_congr {s t : State} {z : Port} (hq : (t.port z).queue = (s.port z).queue) : t.headEntry z = s.headEntry z := by
  rw [State.headEntry, hq]
  rfl

theorem State.waitsOn_congr {s t : State} {z : Port} (hq : (t.port z).queue = (s.port z).queue) (r : PageRef) : t.waitsOn z r = s.waitsOn z r := by
  rw [State.waitsOn, State.headEntry_congr hq]
  rfl

/-- What an abort of page `r` does to a port depends on its queue. -/
theorem State.queueAfterAbort_congr {s t : State} {z : Port} (hq : (t.port z).queue = (s.port z).queue) (r : PageRef) :
    t.queueAfterAbort r z = s.queueAfterAbort r z := by
  rw [State.queueAfterAbort, State.waitsOn_congr hq, hq]
  rfl

theorem State.eventsAfterAbort_congr {s t : State} {z : Port} (hq : (t.port z).queue = (s.port z).queue) (r : PageRef) (events : List Event) :
    t.eventsAfterAbort r z events = s.eventsAfterAbort r z events := by
  rw [State.eventsAfterAbort, State.headEntry_congr hq, State.waitsOn_congr hq]
  rfl

/-- The release of page `r` changes the queue and the events of each port (R125). -/
theorem State.abortWaiting_port (s : State) (r : PageRef) (z : Port) :
    (s.abortWaiting r).port z =
      { s.port z with queue := s.queueAfterAbort r z, events := s.eventsAfterAbort r z (s.port z).events } := by
  unfold State.abortWaiting
  cases z with
  | a => exact (State.abortWaitingPort_port_other _ r .b).trans (s.abortWaitingPort_port_same r .a)
  | b =>
    have hb : (s.abortWaitingPort r .a).port .b = s.port .b := s.abortWaitingPort_port_other r .a
    rw [State.abortWaitingPort_port_same, State.queueAfterAbort_congr (s := s) (by rw [hb]), State.eventsAfterAbort_congr (s := s) (by rw [hb]), hb]

@[simp] theorem State.abortWaiting_slots (s : State) (r : PageRef) : (s.abortWaiting r).slots = s.slots := by rw [State.abortWaiting_eq]

@[simp] theorem State.abortWaiting_pages (s : State) (r : PageRef) : (s.abortWaiting r).pages = s.pages := by rw [State.abortWaiting_eq]

@[simp] theorem State.recheck_pages (s : State) (r : PageRef) : (s.recheck r).pages = s.pages := by rw [State.recheck_eq]

end Sys2Proof.Machine
end

