-- ==== Sys2Proof/Proofs/ClearCompletion.lean ====
section
/-! The clear completion: claims that are discarded, claims that a release names, and the claim of the clear under way (R5, R10 to R13, R125). -/

namespace Sys2Proof.Machine

theorem exec_clearCompletion {s : State} (h : s.addressesExist = true) : exec .clearCompletion s = .next s.endClear := if_pos h

/-! ## What the waiting completions name -/

theorem State.clearUnderWay_eq {s : State} {i : Nat} {rest : List Nat} {k : BandRecord} (ho : s.clearOrder = i :: rest)
    (hk : s.slot i = .held .clearing k) : s.clearUnderWay = some { slot := i, page := k.page, band := k.band } := by
  simp only [State.clearUnderWay, ho, hk]

/-- The completion of a clear that is not under way is discarded (R5, R13; log 3). -/
theorem State.takeClearClaim_discarded {s : State} {c : ClearClaim} (h : s.clearUnderWay ≠ some c) : s.takeClearClaim c = s := by
  rcases s.takeClearClaim_cases c with hc | ⟨_, _, hc, _⟩
  · exact hc
  · exact absurd hc h

theorem State.releaseSlot_clearClaims (r : PageRef) (keep : Option Nat) (s : State) (i : Nat) :
    s.clearClaims <+: (State.releaseSlot r keep s i).clearClaims := by
  rcases State.releaseSlot_cases r keep s i with h | ⟨-, -, l, h⟩ <;> rw [h]
  exact ⟨l, rfl⟩

theorem State.foldl_releaseSlot_clearClaims (r : PageRef) (keep : Option Nat) (l : List Nat) (s : State) :
    s.clearClaims <+: (l.foldl (State.releaseSlot r keep) s).clearClaims := by
  induction l generalizing s with
  | nil => exact List.prefix_rfl
  | cons i l ih => exact (State.releaseSlot_clearClaims r keep s i).trans (ih _)

/-- The freeing of a slot that is not being cleared leaves the clear under way, and what the completions name. -/
theorem State.releaseSlot_other {s : State} {i j : Nat} {rest : List Nat} (ho : s.clearOrder = i :: rest) (hj : j ≠ i) (r : PageRef)
    (keep : Option Nat) :
    (State.releaseSlot r keep s j).slot i = s.slot i ∧ (∃ rest', (State.releaseSlot r keep s j).clearOrder = i :: rest') ∧
      (State.releaseSlot r keep s j).clearClaims = s.clearClaims ∧ (State.releaseSlot r keep s j).pending = s.pending := by
  unfold State.releaseSlot
  split
  · have hcancel : s.cancelClear j = s := if_neg (by simp [ho, Ne.symm hj])
    rw [hcancel]
    refine ⟨State.slot_setSlot_ne _ (Ne.symm hj), ⟨rest.filter fun n => decide (n ≠ j), ?_⟩, rfl, rfl⟩
    show s.clearOrder.filter _ = _
    rw [ho, List.filter_cons_of_pos (by simpa using Ne.symm hj)]
  · exact ⟨rfl, ⟨rest, ho⟩, rfl, rfl⟩

/-- The freeing of the slot being cleared makes the first completion that names nothing name it (R13; log 33). -/
theorem State.releaseSlot_claims {s : State} {i : Nat} {rest : List Nat} {k : BandRecord} {keep : Option Nat} (ho : s.clearOrder = i :: rest)
    (hk : s.slot i = .held .clearing k) (hkeep : keep ≠ some i) (hwait : s.clearClaims.length < s.pending.count .clearCompletion) :
    (State.releaseSlot k.page keep s i).clearClaims = s.clearClaims ++ [{ slot := i, page := k.page, band := k.band }] := by
  have hof : (s.slot i).ofPage k.page = true := by simp [hk, Slot.ofPage]
  have hcancel : s.cancelClear i = s.settleClaim := if_pos (by simp [ho])
  unfold State.releaseSlot
  rw [if_pos ⟨hof, hkeep⟩, hcancel]
  show s.settleClaim.clearClaims = _
  rw [State.settleClaim, if_pos hwait, State.clearUnderWay_eq ho hk]
  rfl

theorem State.foldl_releaseSlot_claims {i : Nat} {k : BandRecord} {keep : Option Nat} (hkeep : keep ≠ some i) (l : List Nat) (hl : i ∈ l) (s : State)
    (rest : List Nat) (ho : s.clearOrder = i :: rest) (hk : s.slot i = .held .clearing k)
    (hwait : s.clearClaims.length < s.pending.count .clearCompletion) :
    s.clearClaims ++ [{ slot := i, page := k.page, band := k.band }] <+: (l.foldl (State.releaseSlot k.page keep) s).clearClaims := by
  induction l generalizing s rest with
  | nil => cases hl
  | cons j l ih =>
    rw [List.foldl_cons]
    by_cases hj : j = i
    · subst hj
      rw [← State.releaseSlot_claims ho hk hkeep hwait]
      exact State.foldl_releaseSlot_clearClaims k.page keep l _
    · obtain ⟨hslot, ⟨rest', ho'⟩, hclaims, hpend⟩ := State.releaseSlot_other ho hj k.page keep
      rw [← hclaims]
      exact ih ((List.mem_cons.1 hl).resolve_left (Ne.symm hj)) _ rest' ho' (hslot.trans hk) (by rwa [hclaims, hpend])

/-! ## The completion -/

/-- The slot is OPEN and leaves the clear order (R12). -/
def State.cleared (s : State) (i : Nat) (k : BandRecord) : State :=
  { (s.setSlot i (.held .opened k)) with clearOrder := s.clearOrder.tail, clearPos := 0 }

theorem State.clearDone_of_page {s : State} {k : BandRecord} {q : PageRecord} (hq : s.findPage k.page = some q) (i : Nat) :
    s.clearDone i k = ((s.cleared i k).postAll q.participants (Event.ofBand .bandAvailable k.page.tag k.band)).recheck k.page := by
  unfold State.clearDone
  rw [hq]
  rfl

/-- The clear completion claim changes the slot, the clear order and the ports alone (R12). -/
theorem State.clearDone_eq (s : State) (i : Nat) (k : BandRecord) : s.clearDone i k = { s.cleared i k with ports := (s.clearDone i k).ports } := by
  unfold State.clearDone
  rw [State.recheck_eq, State.postAll_eq]
  rfl

/-- BAND AVAILABLE to the participants, and the repeated check (R12, R125). -/
theorem State.clearDone_port {s : State} {i : Nat} {k : BandRecord} {q : PageRecord} (hq : s.findPage k.page = some q) (z : Port) :
    ((s.clearDone i k).port z).events =
        (if q.participants.has z = true then enqueueEvent (s.port z).events (Event.ofBand .bandAvailable k.page.tag k.band)
        else (s.port z).events) ∧
      ((s.clearDone i k).port z).queue = s.queueAfterRecheck (s.clearDone i k) k.page z := by
  have hpages : (s.clearDone i k).pages = (s.cleared i k).pages := by rw [State.clearDone_eq]
  have hslots : (s.clearDone i k).slots = (s.cleared i k).slots := by rw [State.clearDone_eq]
  have hport : (s.cleared i k).port z = s.port z := rfl
  have hcheck := fun u : State => State.queueAfterRecheck_congr (s := u) (s' := s) (t := u) (t' := s.clearDone i k) (z := z) (r := k.page)
  rw [State.clearDone_of_page hq] at hcheck hpages hslots ⊢
  rw [State.recheck_port, ← hcheck _ ?_ (by rw [hpages]; simp) (by rw [hslots]; simp)]
  · refine ⟨?_, rfl⟩
    rw [State.postAll_port, hport]
    split <;> rfl
  · rw [State.postAll_port, hport]
    split <;> rfl

/-- The completion of the clear under way (R5, R12). -/
theorem State.endClear_eq {s : State} {i : Nat} {rest : List Nat} {k : BandRecord} (ho : s.clearOrder = i :: rest) (hk : s.slot i = .held .clearing k)
    (hclaims : s.clearClaims = [] ∨ s.clearClaims.head? = some { slot := i, page := k.page, band := k.band }) :
    s.endClear = ({ s with clearClaims := s.clearClaims.tail } : State).completeClear i k := by
  have hunder := State.clearUnderWay_eq ho hk
  have hclaim : s.clearClaims.head?.or s.clearUnderWay = some { slot := i, page := k.page, band := k.band } := by
    rcases hclaims with h | h
    · rw [h, hunder]; rfl
    · rw [h]; rfl
  have hunder' : ({ s with clearClaims := s.clearClaims.tail } : State).clearUnderWay = some { slot := i, page := k.page, band := k.band } :=
    State.clearUnderWay_eq ho hk
  unfold State.endClear
  simp only [hclaim]
  unfold State.takeClearClaim
  rw [show ({ s with clearClaims := s.clearClaims.tail } : State).slot i = _ from hk]
  exact if_pos hunder'

/-- Settles O37. -/
theorem clearOpensTheSlot : Obligations.ClearOpensTheSlot := by
  refine ⟨fun s hadr => ⟨fun c rest hc hout => ?_, fun hc ho => ?_⟩, fun s r keep i rest k ho hk hr hkeep => ?_,
    fun s i rest k q ho hk hclaims hq hadr hpos => ?_⟩
  · have hnot : ({ s with clearClaims := rest } : State).clearUnderWay ≠ some c := by
      intro hu
      obtain ⟨rest', k, ho, hk, hp, hb⟩ := State.clearUnderWay_some hu
      rcases hout with hout | hout
      · rcases hout k hk with h | h
        · exact h hp.symm
        · exact h hb.symm
      · exact hout (by rw [show s.clearOrder = _ from ho]; rfl)
    rw [exec_clearCompletion hadr, State.endClear, hc]
    exact congrArg _ (State.takeClearClaim_discarded hnot)
  · have hunder : s.clearUnderWay = none := by simp only [State.clearUnderWay, ho]
    rw [exec_clearCompletion hadr, State.endClear, hunder, hc]
    exact congrArg Host.Outcome.next (by show { s with clearClaims := [] } = s; rw [← hc])
  · subst hr
    have hlt := State.lt_of_slot_held hk
    refine ⟨?_, fun hwait => ?_, ?_⟩
    · rw [State.releaseSlots_slot, if_pos ⟨by simp [hk, Slot.ofPage], hkeep⟩]
    · exact State.foldl_releaseSlot_claims hkeep _ (List.mem_range.2 hlt) s rest ho hk hwait
    · exact State.foldl_releaseSlot_clearClaims k.page keep _ s
  · refine ⟨_, exec_clearCompletion hadr, ?_⟩
    rw [State.endClear_eq ho hk hclaims]
    unfold State.completeClear
    generalize hcleared : State.clearWords i k.fillWord _ _ _ = u
    have hu : u = { s with clearClaims := s.clearClaims.tail, bandRam := u.bandRam } := by
      rw [← hcleared]
      exact State.clearWords_eq _ _ _ _ _
    have hport : ∀ z, u.port z = s.port z := fun z => by rw [hu]; rfl
    have hdone := u.clearDone_eq i k
    have hfind : u.findPage k.page = some q := by rw [hu]; exact hq
    refine ⟨?_, ?_, ?_, ?_, fun a => ?_, fun z => ?_, fun z => ?_, ?_, ?_, ?_, ?_, ?_⟩
    · rw [hdone, hu]; rfl
    · rw [hdone, hu]; show s.clearOrder.tail = rest; rw [ho]; rfl
    · rw [hdone]; rfl
    · rw [hdone, hu]; rfl
    · have hread : (u.clearDone i k).readBand a = u.readBand a := by rw [hdone]; rfl
      rw [hread, ← hcleared, State.readBand_clearWords, Nat.add_sub_cancel' hpos]
      rfl
    · rw [(State.clearDone_port hfind z).1, hport]
      rfl
    · rw [(State.clearDone_port hfind z).2]
      exact State.queueAfterRecheck_congr (by rw [hport]) rfl rfl _
    all_goals
      rw [hdone, hu]
      rfl

end Sys2Proof.Machine
end

