-- ==== Sys2Proof/Proofs/BlankingClaims.lean ====
section
/-! A page that goes BLANKING: what the claim leaves of the page, its slots, the ports and the Streamer; an LREQ out of place (R20, R43, R47, R104, R125,
R145, R164, R167). -/

namespace Sys2Proof.Machine

/-! ## The record of a BLANKING page -/

/-- Allocation gives a BLANKING page no band (R6). -/
theorem State.findPage_evaluateAllocation {s : State} (htags : (s.pages.map fun p => p.ref.tag).Nodup) {r : PageRef} {p : PageRecord}
    (hp : s.findPage r = some p) (hblank : p.state = .blanking) : s.evaluateAllocation.findPage r = some p := by
  refine (State.evaluateAllocation_induct (P := fun t => (t.pages.map fun p => p.ref.tag).Nodup ∧ t.findPage r = some p) ?_ s ⟨htags, hp⟩).2
  rintro t u ⟨ht, hf⟩ hu
  obtain ⟨p0, i, hwants, -, rfl⟩ := State.allocateOne_some hu
  obtain ⟨hpm, rfl⟩ := State.findPage_some hf
  have hne : p.ref ≠ p0.ref := by
    intro heq
    cases State.ref_injective ht (List.mem_of_find?_eq_some hwants) hpm heq.symm
    have := List.find?_some hwants
    simp [PageRecord.wantsBand, hblank] at this
  exact ⟨(congrArg List.Nodup (State.mapPage_tags t p0.ref (fun q => { q with nextToAllocate := q.nextToAllocate + 1 }) fun _ => rfl)).mpr ht,
    (State.findPage_mapPage_ne t (fun q => { q with nextToAllocate := q.nextToAllocate + 1 }) (fun _ => rfl) hne).trans hf⟩

section blankPage

variable (s : State) (p : PageRecord) (cause : SpoilCause) (e : Event)

theorem State.blankedStore_frame : s.blankedStore p cause e = { s with
    pages := (s.blankedStore p cause e).pages, slots := (s.blankedStore p cause e).slots, clearOrder := (s.blankedStore p cause e).clearOrder,
    clearPos := (s.blankedStore p cause e).clearPos, clearClaims := (s.blankedStore p cause e).clearClaims, execution := s.stoppedFor p.ref,
    ports := (s.postAll p.participants e).ports } := by
  have hexec : (s.blankedStore p cause e).execution = s.stoppedFor p.ref := by
    simp [State.blankedStore, State.releaseSlots_execution, State.stoppedFor, State.mapPage]
  rw [← hexec]
  unfold State.blankedStore
  generalize hposted : (s.postAll p.participants e).mapPage p.ref (PageRecord.blanked cause) = t
  have ht : t = { s with pages := t.pages, ports := (s.postAll p.participants e).ports } := by
    rw [← hposted, State.postAll_eq]
    rfl
  have hreleased := t.releaseSlots_eq p.ref s.lineSlot
  generalize t.releaseSlots p.ref s.lineSlot = u at hreleased ⊢
  rw [hreleased, ht]

/-- What the claim that turns a page BLANKING changes. -/
theorem State.blankPage_frame : ∃ clearOrder clearPos clearClaims lineOut, s.blankPage p cause e = { s with
    pages := (s.blankedStore p cause e).evaluateAllocation.pages, slots := (s.blankedStore p cause e).evaluateAllocation.slots,
    clearOrder := clearOrder, clearPos := clearPos, clearClaims := clearClaims, execution := s.stoppedFor p.ref,
    ports := (s.blankPage p cause e).ports, streamer := s.streamer.afterBlanking p.ref, lineOut := lineOut } := by
  obtain ⟨lineOut, h⟩ := s.blankPage_eq p cause e
  have hstore := s.blankedStore_frame p cause e
  have hgiven := (s.blankedStore p cause e).evaluateAllocation_eq
  have hports := (s.blankedStore p cause e).evaluateAllocation.abortWaiting_eq p.ref
  refine ⟨(s.blankedStore p cause e).evaluateAllocation.clearOrder, (s.blankedStore p cause e).evaluateAllocation.clearPos,
    (s.blankedStore p cause e).clearClaims, lineOut, ?_⟩
  rw [h]
  generalize (s.blankedStore p cause e).evaluateAllocation.abortWaiting p.ref = v at hports ⊢
  generalize (s.blankedStore p cause e).evaluateAllocation = u at hgiven hports ⊢
  generalize s.blankedStore p cause e = t at hstore hgiven ⊢
  rw [hports, hgiven, hstore]

@[simp] theorem State.blankPage_streamer : (s.blankPage p cause e).streamer = s.streamer.afterBlanking p.ref := by
  obtain ⟨_, _, _, _, h⟩ := s.blankPage_frame p cause e
  rw [h]

@[simp] theorem State.blankPage_execution : (s.blankPage p cause e).execution = s.stoppedFor p.ref := by
  obtain ⟨_, _, _, _, h⟩ := s.blankPage_frame p cause e
  rw [h]

theorem State.blankPage_pages : (s.blankPage p cause e).pages = (s.blankedStore p cause e).evaluateAllocation.pages := by
  obtain ⟨_, _, _, _, h⟩ := s.blankPage_frame p cause e
  rw [h]

theorem State.blankPage_slots : (s.blankPage p cause e).slots = (s.blankedStore p cause e).evaluateAllocation.slots := by
  obtain ⟨_, _, _, _, h⟩ := s.blankPage_frame p cause e
  rw [h]

/-- What the claim leaves of a port: the event to a participant, and a WAITING head that names the page leaves (R43, R125). -/
theorem State.blankPage_port (z : Port) :
    (s.blankPage p cause e).port z =
      { s.port z with
        queue := s.queueAfterAbort p.ref z,
        events := s.eventsAfterAbort p.ref z
          (if p.participants.has z = true then enqueueEvent (s.port z).events e else (s.port z).events) } := by
  have hport : (s.blankedStore p cause e).evaluateAllocation.port z = (s.postAll p.participants e).port z :=
    congrArg (fun ports => Both.get ports z) (by simp [State.blankedStore, State.mapPage])
  have hqueue : ((s.blankedStore p cause e).evaluateAllocation.port z).queue = (s.port z).queue := by
    rw [hport, State.postAll_port]
    split <;> rfl
  obtain ⟨lineOut, h⟩ := s.blankPage_eq p cause e
  rw [h]
  show ((s.blankedStore p cause e).evaluateAllocation.abortWaiting p.ref).port z = _
  rw [State.abortWaiting_port, State.queueAfterAbort_congr hqueue, State.eventsAfterAbort_congr hqueue, hport, State.postAll_port]
  split <;> rfl

/-- Of its slots the BLANKING page keeps the one whose line is in flight (R20). -/
theorem State.blankPage_slot_of_page {i : Nat} (hi : ((s.blankPage p cause e).slot i).ofPage p.ref = true) :
    s.lineSlot = some i ∧ (s.blankPage p cause e).slot i = s.slot i := by
  have hblank : ∀ q ∈ (s.blankedStore p cause e).pages, q.ref = p.ref → q.state = .blanking := by
    rw [State.blankedStore_pages, State.mapPage_pages]
    intro q hq hr
    obtain ⟨q0, -, rfl⟩ := List.mem_map.1 hq
    by_cases h0 : q0.ref = p.ref
    · rw [if_pos h0]
      rfl
    · rw [if_neg h0] at hr
      exact absurd hr h0
  rw [State.slot_congr (s.blankPage_slots p cause e)] at hi ⊢
  rcases (s.blankedStore p cause e).evaluateAllocation_gives.slot i with h | ⟨-, -, q, hq, b, -, -, hstate, h⟩
  · rw [h, State.blankedStore_slot] at hi ⊢
    split at hi
    · cases hi
    · rename_i hnot
      rw [if_neg hnot]
      exact ⟨by_contra fun hl => hnot ⟨hi, hl⟩, rfl⟩
  · rw [h] at hi
    exact absurd (hblank q hq (of_decide_eq_true hi)) hstate

theorem State.blankPage_slot_of_line {i : Nat} (hl : s.lineSlot = some i) (hi : (s.slot i).ofPage p.ref = true) :
    (s.blankPage p cause e).slot i = s.slot i := by
  have hkeep : (s.blankedStore p cause e).slot i = s.slot i := by rw [State.blankedStore_slot, if_neg fun h => h.2 hl]
  rw [State.slot_congr (s.blankPage_slots p cause e), ← hkeep]
  refine (s.blankedStore p cause e).evaluateAllocation_allocates.kept i fun hfree => ?_
  rw [hkeep] at hfree
  rw [hfree] at hi
  cases hi

variable {s p}

theorem State.blankedStore_tags (htags : (s.pages.map fun p => p.ref.tag).Nodup) :
    ((s.blankedStore p cause e).pages.map fun p => p.ref.tag).Nodup := by
  rw [State.blankedStore_pages, State.mapPage_tags s p.ref (PageRecord.blanked cause) fun _ => rfl]
  exact htags

theorem State.blankPage_findPage (htags : (s.pages.map fun p => p.ref.tag).Nodup) (hp : s.findPage p.ref = some p) :
    (s.blankPage p cause e).findPage p.ref = some (p.blanked cause) := by
  rw [State.findPage_congr (s.blankPage_pages p cause e)]
  refine State.findPage_evaluateAllocation (State.blankedStore_tags cause e htags) ?_ rfl
  rw [State.findPage_congr (s.blankedStore_pages p cause e), State.findPage_mapPage_same s p.ref (PageRecord.blanked cause) fun _ => rfl, hp]
  rfl

end blankPage

/-- No record joins or leaves the queue (R43). -/
theorem State.blankPage_refs (s : State) (p : PageRecord) (cause : SpoilCause) (e : Event) :
    (s.blankPage p cause e).pages.map PageRecord.ref = s.pages.map PageRecord.ref := by
  have hall := congrArg (List.map PageRecord.ref) (s.blankedStore p cause e).evaluateAllocation_allocates.pages
  rw [List.map_map, List.map_map] at hall
  rw [State.blankPage_pages]
  refine hall.trans ?_
  rw [State.blankedStore_pages, State.mapPage_pages, List.map_map]
  refine List.map_congr_left fun q _ => ?_
  simp only [Function.comp_apply]
  split <;> rfl

/-! ## An LREQ out of place -/

theorem StreamerState.afterBlanking_of_line {st : StreamerState} (h : st.awaits = none) (r : PageRef) : st.afterBlanking r = st := by
  cases st with
  | starved => cases h
  | _ => rfl

theorem exec_lreq_fault {s : State} (hlow : s.pins.lreq = false) (hreset : s.resetHeld = false) {d : Nat}
    (h : (s.withLreq true).takeLreq = (s.withLreq true).postFault d) :
    ∃ t, exec (.lreq true) s = .next t ∧ t = { (s.withLreq true) with ports := t.ports } ∧
      ∀ z, t.port z = { s.port z with events := enqueueEvent (s.port z).events (Event.engineFault d) } :=
  ⟨_, (exec_lreq_rises hlow hreset).trans (congrArg _ h), State.postFault_eq _ _, fun z => State.postFault_port _ _ z⟩

/-- Settles O43: the spoil of `takeLreq`, and what a page that goes BLANKING leaves. -/
theorem lreqOutOfPlace : Obligations.LreqOutOfPlace := by
  intro s hlow hreset faults
  refine ⟨fun hst => ?_, fun r hst => ?_, fun r b n x hst => ?_, fun r q hst hq => ?_⟩
  · exact exec_lreq_fault hlow hreset (by simp only [State.takeLreq, State.withLreq, hst])
  · exact exec_lreq_fault hlow hreset (by simp only [State.takeLreq, State.withLreq, hst])
  · rw [exec_lreq_rises hlow hreset]
    simp only [State.takeLreq, State.withLreq, hst]
  · have spoils : (s.withLreq true).takeLreq = (s.withLreq true).spoil r .slip := by
      rcases hst with ⟨_, hst⟩ | ⟨_, _, hst⟩ | ⟨_, _, hst⟩ <;> simp only [State.takeLreq, State.withLreq, hst]
    have hline : s.streamer.awaits = none := by
      rcases hst with ⟨_, hst⟩ | ⟨_, _, hst⟩ | ⟨_, _, hst⟩ <;> rw [hst] <;> rfl
    have hfind : (s.withLreq true).findPage r = some q := hq
    refine ⟨fun hb => exec_lreq_fault hlow hreset (by rw [spoils]; simp only [State.spoil, hfind, hb]), fun hprint htags => ?_⟩
    obtain ⟨-, rfl⟩ := State.findPage_some hq
    have blanks : (s.withLreq true).takeLreq = (s.withLreq true).blankPage q .slip (Event.ofPage .pageSpoiled q.ref.tag SpoilCause.slip.code) := by
      rw [spoils]
      simp only [State.spoil, hfind, hprint]
    refine ⟨_, (exec_lreq_rises hlow hreset).trans (congrArg _ blanks), ?_, State.blankPage_findPage _ _ htags hq,
      fun i hi => (State.blankPage_slot_of_page _ _ _ _ hi).1, fun i hl hi => State.blankPage_slot_of_line _ _ _ _ hl hi, fun z => ?_,
      State.blankPage_execution _ _ _ _, fun z => ?_⟩
    · rw [State.blankPage_streamer]
      exact StreamerState.afterBlanking_of_line hline _
    · rw [State.blankPage_port]
      rfl
    · rw [State.blankPage_port]
      rfl

end Sys2Proof.Machine
end

