-- ==== Sys2Proof/Proofs/FramesAndAborts.lean ====
section
/-! Whole frames of a command, and ABORT PAGE of a PRINTING page (R20, R47, R104, R125, R164, R186, R188). -/

namespace Sys2Proof.Machine

/-! ## Whole frames -/

/-- A frame of port `p` with command byte `code` once its body has been shifted, in a state with no frame in progress (R186). -/
def State.shifted (s : State) (p : Port) (code : Byte) (body : List Byte) : State :=
  ((s.openFrame p).takeCommandByte p code .body []).shiftBytes p body

/-- From `s` to `t` the wires and the frame assembler of port `p` alone have changed. -/
def State.SameButFrame (s t : State) (p : Port) : Prop :=
  ∃ select assembler asdo bits, t = s.updPort p fun ps => { ps with selectHigh := select, assembler := assembler, asdo := asdo, asdoBits := bits }

theorem State.SameButFrame.trans {s t u : State} {p : Port} (h : s.SameButFrame t p) (g : t.SameButFrame u p) : s.SameButFrame u p := by
  obtain ⟨_, _, _, _, rfl⟩ := h
  obtain ⟨a, b, c, d, rfl⟩ := g
  exact ⟨a, b, c, d, by rw [State.updPort_updPort]⟩

theorem State.sameButFrame_of_port {s : State} {p : Port} {f : PortState → PortState} (h : f (s.port p) = { s.port p with
    selectHigh := (f (s.port p)).selectHigh, assembler := (f (s.port p)).assembler, asdo := (f (s.port p)).asdo, asdoBits := (f (s.port p)).asdoBits }) :
    s.SameButFrame (s.updPort p f) p :=
  ⟨_, _, _, _, show { s with ports := s.ports.set p (f (s.port p)) } = _ by rw [h]; rfl⟩

theorem State.shiftBytes_sameButFrame (s : State) (p : Port) (body : List Byte) : s.SameButFrame (s.shiftBytes p body) p := by
  induction body generalizing s with
  | nil => exact ⟨_, _, _, _, (s.updPort_id p).symm⟩
  | cons b body ih => exact (State.sameButFrame_of_port rfl).trans (ih (State.shiftByte p s b))

theorem State.shifted_sameButFrame (s : State) (p : Port) (code : Byte) (body : List Byte) : s.SameButFrame (s.shifted p code body) p :=
  ((State.sameButFrame_of_port rfl).trans (State.sameButFrame_of_port rfl)).trans (State.shiftBytes_sameButFrame _ p body)

/-- A whole frame of a command, in the form its command has, is the command's action on the bytes of its body (R186, R188). -/
theorem State.runCommand_whole {s : State} {p : Port} {code : Byte} {body : List Byte} (act : State → List Byte → State × FrameOutcome)
    (h : s.canOpen p = true) (hform : (s.shifted p code body).formOk p code 0 = true)
    (hstored : ((s.shifted p code body).port p).assembler.stored = body) :
    s.runCommand p code act (.selectHigh body 0) =
      (act (s.shifted p code body) body).1.closeFrame p (act (s.shifted p code body) body).2 0 := by
  have hin : (s.openFrame p).inFrame p code .body [] = some ((s.openFrame p).takeCommandByte p code .body []) := by
    have hstate : ((s.openFrame p).port p).assembler.state = .command := by simp [State.openFrame]
    simp only [State.inFrame, hstate]
  unfold State.runCommand State.runFrame
  simp only [State.openIfWhole_of_canOpen h, hin]
  rw [show ((s.openFrame p).takeCommandByte p code .body []).shiftBytes p body = s.shifted p code body from rfl, hform, hstored]
  rfl

section sameButFrame

variable {s t : State} {p : Port} (h : s.SameButFrame t p)
include h

theorem State.SameButFrame.eq : t = { s with ports := t.ports } := by
  obtain ⟨_, _, _, _, rfl⟩ := h
  rfl

theorem State.SameButFrame.events (z : Port) : (t.port z).events = (s.port z).events := by
  obtain ⟨_, _, _, _, rfl⟩ := h
  cases p <;> cases z <;> rfl

theorem State.SameButFrame.queue (z : Port) : (t.port z).queue = (s.port z).queue := by
  obtain ⟨_, _, _, _, rfl⟩ := h
  cases p <;> cases z <;> rfl

theorem State.SameButFrame.other : t.port p.other = s.port p.other := by
  obtain ⟨_, _, _, _, rfl⟩ := h
  exact State.updPort_port_other _ _ _

end sameButFrame

theorem State.closeFrame_events (s : State) (p : Port) (o : FrameOutcome) (bits : Nat) (z : Port) :
    ((s.closeFrame p o bits).port z).events = (s.port z).events := by cases p <;> cases z <;> rfl

theorem State.closeFrame_queue (s : State) (p : Port) (o : FrameOutcome) (bits : Nat) (z : Port) :
    ((s.closeFrame p o bits).port z).queue = (s.port z).queue := by cases p <;> cases z <;> rfl

theorem State.closeFrame_outcome (s : State) (p : Port) (o : FrameOutcome) (bits : Nat) : ((s.closeFrame p o bits).port p).outcome = o := by
  cases p <;> rfl

/-! ## ABORT PAGE -/

theorem State.shifted_abortPage (s : State) (p : Port) (tag : Byte) :
    ((s.shifted p 0x31 [tag]).port p).assembler.stored = [tag] ∧ (s.shifted p 0x31 [tag]).formOk p 0x31 0 = true := by
  cases p <;> exact ⟨rfl, rfl⟩

/-- ABORT PAGE by a participant, or of a page without one, aborts the record (R45). -/
theorem State.abortPageAct_of_page {s : State} {p : Port} {tag : Byte} {q : PageRecord} (hq : s.pageOfTag tag = some q)
    (hp : q.participants.isEmpty = true ∨ q.participants.has p = true) : State.abortPageAct p s [tag] = (s.abortRecord q, .ok) := by
  unfold State.abortPageAct
  rw [show byteAt [tag] 0 = tag from rfl, hq]
  rcases hp with hp | hp <;> simp [hp]

/-- Settles O18: what a page that goes BLANKING leaves, behind the frame. -/
theorem abortBlanksAPrintingPage : Obligations.AbortBlanksAPrintingPage := by
  intro p tag s q hopen htags hq hpart hprint
  obtain ⟨hstored, hform⟩ := s.shifted_abortPage p tag
  have hframe := s.shifted_sameButFrame p 0x31 [tag]
  have hrun := State.runCommand_whole (State.abortPageAct p) hopen hform hstored
  generalize s.shifted p 0x31 [tag] = t at hframe hrun
  have hts := hframe.eq
  have htq : t.pageOfTag tag = some q := by rw [hts]; exact hq
  have hqs := State.findPage_of_mem htags (State.pageOfTag_some hq).1
  have hfind : t.findPage q.ref = some q := by rw [hts]; exact hqs
  have htags' : (t.pages.map fun p => p.ref.tag).Nodup := by rw [hts]; exact htags
  rw [State.abortPageAct_of_page htq hpart] at hrun
  have habort : t.abortRecord q = t.blankPage q .aborted (Event.ofPage .pageAborted q.ref.tag SpoilCause.aborted.code) := by
    unfold State.abortRecord
    rw [hprint]
  rw [habort] at hrun
  have hexec : exec (.abortPage p (.selectHigh [tag] 0)) s =
      .next ((t.blankPage q .aborted (Event.ofPage .pageAborted q.ref.tag SpoilCause.aborted.code)).closeFrame p .ok 0) := congrArg _ hrun
  obtain ⟨_, _, _, _, hrest⟩ := t.blankPage_frame q .aborted (Event.ofPage .pageAborted q.ref.tag SpoilCause.aborted.code)
  refine ⟨_, hexec, State.closeFrame_outcome _ _ _ _, ?_, State.blankPage_findPage _ _ htags' hfind, fun i hi => ?_, fun i hl hi => ?_, fun z => ?_,
    fun z => ?_, ?_, fun b n x hst => ?_, fun hst => ?_, ?_, ?_, ?_, ?_⟩
  · exact (State.blankPage_refs _ _ _ _).trans (by rw [hts])
  · obtain ⟨hl, hslot⟩ := State.blankPage_slot_of_page _ _ _ _ hi
    rw [hts] at hl
    exact ⟨hl, hslot.trans (by rw [hts]; rfl)⟩
  · exact (State.blankPage_slot_of_line t q _ _ (by rw [hts]; exact hl) (by rw [hts]; exact hi)).trans (by rw [hts]; rfl)
  · rw [State.closeFrame_events, State.blankPage_port, hframe.events z]
    exact State.eventsAfterAbort_congr (hframe.queue z) _ _
  · rw [State.closeFrame_queue, State.blankPage_port]
    exact State.queueAfterAbort_congr (hframe.queue z) _
  · exact (State.blankPage_execution _ _ _ _).trans (by rw [hts]; rfl)
  · refine (State.blankPage_streamer _ _ _ _).trans ?_
    rw [hts]
    simp only [hst, StreamerState.afterBlanking, if_true]
  · refine (State.blankPage_streamer _ _ _ _).trans ?_
    rw [hts]
    show s.streamer.afterBlanking q.ref = s.streamer
    cases hs : s.streamer with
    | starved r b n x =>
      have hne : r ≠ q.ref := fun hr => hst b n x (hr ▸ hs)
      simp only [StreamerState.afterBlanking, hne, if_false]
    | _ => rfl
  · exact (congrArg State.bandRam hrest).trans (by rw [hts])
  · exact (congrArg State.tileRam hrest).trans (by rw [hts])
  · exact (congrArg State.engine hrest).trans (by rw [hts])
  · exact (congrArg State.nextInstance hrest).trans (by rw [hts])

end Sys2Proof.Machine
end

