-- ==== Sys2Proof/Proofs/EndOfALine.lean ====
section
/-! The offer's condition, and the end of a line (R17, R18, R20, R33, R34, R37, R38, R125, R139, R151, R153, R168). -/

namespace Sys2Proof.Machine

/-! ## READY bands and the offer -/

/-- A slot holds band `b` of page `r` and is READY. -/
def State.HasReady (s : State) (r : PageRef) (b : Nat) : Prop := ∃ i k, s.slot i = .held .ready k ∧ k.page = r ∧ k.band = b

theorem State.hasReady_iff_mem {s : State} {r : PageRef} {b : Nat} : s.HasReady r b ↔ ∃ k, Slot.held .ready k ∈ s.slots ∧ k.page = r ∧ k.band = b := by
  constructor
  · rintro ⟨i, k, hi, hk⟩
    exact ⟨k, hi ▸ State.slot_mem (State.lt_of_slot_held hi), hk⟩
  · rintro ⟨k, hmem, hk⟩
    obtain ⟨i, hlt, hi⟩ := List.mem_iff_getElem.1 hmem
    exact ⟨i, k, by simp [State.slot, List.getD_eq_getElem?_getD, hlt, hi], hk⟩

theorem State.leadReady_iff {s : State} {q : PageRecord} : s.leadReady q ↔ ∀ b, b < q.lead → s.HasReady q.ref b := by
  simp only [State.hasReady_iff_mem]
  exact Iff.rfl

theorem Slot.isReady_iff {x : Slot} {r : PageRef} {b : Nat} : x.isReady r b = true ↔ ∃ k, x = .held .ready k ∧ k.page = r ∧ k.band = b := by
  cases x with
  | free => simp [Slot.isReady]
  | held st k => cases st <;> simp [Slot.isReady]

/-- The offer condition: the head page is PENDING and its lead bands are READY (R33). -/
theorem State.offerHolds_iff {s : State} {q : PageRecord} {rest : List PageRecord} (h : s.pages = q :: rest) :
    s.offerHolds = true ↔ q.state = .pending ∧ s.leadReady q := by
  unfold State.offerHolds
  rw [h]
  simp only [Bool.and_eq_true, decide_eq_true_eq, List.all_eq_true, List.mem_range, List.any_eq_true, Slot.isReady_iff, State.leadReady]
  refine and_congr_right fun _ => forall₂_congr fun b _ => ⟨?_, ?_⟩
  · rintro ⟨x, hx, k, rfl, hk⟩
    exact ⟨k, hx, hk⟩
  · rintro ⟨k, hx, hk⟩
    exact ⟨_, hx, k, rfl, hk⟩

theorem State.evaluateOffer_refs (s : State) (w : Bool) : (s.evaluateOffer w).pages.map PageRecord.ref = s.pages.map PageRecord.ref := by
  rcases s.evaluateOffer_cases w with h | ⟨p, rest, hp, -, h⟩ <;> rw [h]
  rw [hp]
  rfl

theorem State.evaluateOffer_ports (s : State) (w : Bool) : (s.evaluateOffer w).ports = s.ports := by
  rcases s.evaluateOffer_cases w with h | ⟨p, rest, hp, -, h⟩ <;> rw [h]

/-! ## What is behind the page of the line -/

/-- From `s` to `u` the records of other pages than `r` stay, but for next to allocate, and so do their READY bands. -/
structure State.SameBehind (s u : State) (r : PageRef) : Prop where
  pages : (u.pages.filter fun p => decide (p.ref ≠ r)).map PageRecord.unallocated = (s.pages.filter fun p => decide (p.ref ≠ r)).map PageRecord.unallocated
  ready : ∀ r', r' ≠ r → ∀ b, u.HasReady r' b ↔ s.HasReady r' b

namespace State.SameBehind

variable {s t u : State} {r : PageRef}

theorem trans (h : s.SameBehind t r) (g : t.SameBehind u r) : s.SameBehind u r :=
  ⟨g.pages.trans h.pages, fun r' hr b => (g.ready r' hr b).trans (h.ready r' hr b)⟩

theorem of_slots (hslots : t.slots = s.slots)
    (hpages : (t.pages.filter fun p => decide (p.ref ≠ r)).map PageRecord.unallocated =
      (s.pages.filter fun p => decide (p.ref ≠ r)).map PageRecord.unallocated) : s.SameBehind t r :=
  ⟨hpages, fun r' _ b => by simp only [State.HasReady, State.slot_congr hslots]⟩

theorem refl (s : State) (r : PageRef) : s.SameBehind s r := of_slots rfl rfl

theorem mapPage (s : State) (r : PageRef) (f : PageRecord → PageRecord) (hf : ∀ p, (f p).ref = p.ref) : s.SameBehind (s.mapPage r f) r := by
  refine of_slots rfl (congrArg _ ?_)
  rw [State.mapPage_pages, List.filter_map]
  have hfilter : (fun p => decide (p.ref ≠ r)) ∘ (fun p : PageRecord => if p.ref = r then f p else p) = fun p => decide (p.ref ≠ r) := by
    funext p
    by_cases hp : p.ref = r <;> simp [hp, hf]
  rw [hfilter]
  refine (List.map_congr_left fun p hp => ?_).trans (List.map_id _)
  exact if_neg (by simpa using (List.mem_filter.1 hp).2)

theorem setSlot {i : Nat} {st : HeldState} {k : BandRecord} (hi : s.slot i = .held st k) (hk : k.page = r) {x : Slot}
    (hx : ∀ k', x = .held .ready k' → k'.page = r) : s.SameBehind (s.setSlot i x) r := by
  refine ⟨rfl, fun r' hr b => ?_⟩
  have hlt := State.lt_of_slot_held hi
  constructor
  · rintro ⟨j, k', hj, hk', hb⟩
    rw [State.slot_setSlot _ _ _ _ hlt] at hj
    split at hj
    · exact absurd (hk'.symm.trans (hx k' hj)) hr
    · exact ⟨j, k', hj, hk', hb⟩
  · rintro ⟨j, k', hj, hk', hb⟩
    refine ⟨j, k', ?_, hk', hb⟩
    rw [State.slot_setSlot_ne, hj]
    rintro rfl
    cases hi.symm.trans hj
    exact hr (hk'.symm.trans hk)

theorem evaluateAllocation (s : State) (r : PageRef) : s.SameBehind s.evaluateAllocation r := by
  have ha := s.evaluateAllocation_allocates
  refine ⟨?_, fun r' _ b => ⟨?_, ?_⟩⟩
  · have hfilter : ∀ l : List PageRecord, (l.filter fun p => decide (p.ref ≠ r)).map PageRecord.unallocated =
        (l.map PageRecord.unallocated).filter fun p => decide (p.ref ≠ r) := fun l => by rw [List.filter_map]; rfl
    rw [hfilter, hfilter, ha.pages]
  · rintro ⟨i, k, hi, hk⟩
    exact ⟨i, k, ha.held_before hi (by decide), hk⟩
  · rintro ⟨i, k, hi, hk⟩
    exact ⟨i, k, ha.held hi, hk⟩

theorem bandEnd (s : State) {p : PageRecord} (i : Nat) (hp : p.ref = r) : s.SameBehind (s.bandEnd p i) r := by
  unfold State.bandEnd
  split
  · rename_i k hk
    split
    · rename_i hpage
      have freed : s.SameBehind (s.setSlot i .free) r := setSlot hk (hpage.trans hp) (fun _ hc => (nomatch hc))
      split
      · exact freed.trans (evaluateAllocation _ r)
      · rw [hp]
        have streamed : ∀ t : State, t.SameBehind (t.mapPage r fun q => { q with nextToStream := q.nextToStream + 1 }) r :=
          fun t => mapPage t r _ fun _ => rfl
        split
        · exact (setSlot hk (hpage.trans hp) (by rintro _ ⟨⟩; exact hpage.trans hp)).trans (streamed _)
        · exact (freed.trans (streamed _)).trans (evaluateAllocation _ r)
    · exact refl s r
  · exact refl s r

end State.SameBehind

/-! ## The end of a page -/

/-- The part with page `r` out of the queue and the Streamer IDLE, before the next head is evaluated (R34, R38). -/
def State.withoutHead (s : State) (r : PageRef) : State :=
  { s with streamer := .idle, prdyLow := none, pages := s.pages.filter fun p => decide (p.ref ≠ r) }

theorem State.finishPage_eq (s : State) (r : PageRef) : s.finishPage r = ((s.withoutHead r).evaluateOffer false).recheck r := rfl

theorem State.finishPage_pages (s : State) (r : PageRef) : (s.finishPage r).pages = ((s.withoutHead r).evaluateOffer false).pages := by
  rw [State.finishPage_eq, State.recheck_pages]

theorem State.finishPage_streamer (s : State) (r : PageRef) : (s.finishPage r).streamer = ((s.withoutHead r).evaluateOffer false).streamer := by
  rw [State.finishPage_eq, State.recheck_eq]

theorem State.finishPage_port (s : State) (r : PageRef) (z : Port) :
    (s.finishPage r).port z = { s.port z with queue := s.queueAfterRecheck (s.finishPage r) r z } := by
  have hport : ((s.withoutHead r).evaluateOffer false).port z = s.port z := by
    unfold State.port
    rw [State.evaluateOffer_ports]
    rfl
  have hcheck : ((s.withoutHead r).evaluateOffer false).queueAfterRecheck ((s.withoutHead r).evaluateOffer false) r z =
      s.queueAfterRecheck (s.finishPage r) r z :=
    State.queueAfterRecheck_congr (by rw [hport]) (s.finishPage_pages r).symm (by simp [State.finishPage_eq]) r
  rw [← hcheck, ← hport, State.finishPage_eq, State.recheck_port]

theorem State.finishPage_findPage (s : State) (r : PageRef) : (s.finishPage r).findPage r = none := by
  rw [State.findPage_congr (s.finishPage_pages r), State.findPage_eq_none]
  intro p hp hr
  have hmem : p.ref ∈ (s.withoutHead r).pages.map PageRecord.ref := by
    rw [← State.evaluateOffer_refs _ false]
    exact List.mem_map_of_mem hp
  obtain ⟨q, hq, hqr⟩ := List.mem_map.1 hmem
  exact of_decide_eq_true (List.mem_filter.1 hq).2 (hqr.trans hr)

/-- The Streamer is handed the new offer with PRDY high (R139). -/
theorem State.finishPage_prdyLow (s : State) (r : PageRef) : (s.finishPage r).prdyLow = none := by
  rw [State.finishPage_eq, State.recheck_eq]
  rcases (s.withoutHead r).evaluateOffer_cases false with h | ⟨_, _, _, _, h⟩ <;> rw [h] <;> rfl

/-- The page behind the head is evaluated by what the part held before the line ended (R34). -/
theorem State.SameBehind.nextHeadEvaluated {s u : State} {q : PageRecord} {rest : List PageRecord} (h : s.SameBehind u q.ref)
    (hpages : s.pages = q :: rest) (hrest : pendingBehind q.ref rest) : s.nextHeadEvaluated (u.finishPage q.ref) rest := by
  have hfilter : (s.pages.filter fun p => decide (p.ref ≠ q.ref)) = rest := by
    rw [hpages, List.filter_cons_of_neg (by simp)]
    exact List.filter_eq_self.2 fun p hp => by simpa using (hrest p hp).2
  have hbehind := h.pages
  rw [hfilter] at hbehind
  have hu : (u.withoutHead q.ref).pages.map PageRecord.unallocated = rest.map PageRecord.unallocated := hbehind
  unfold State.nextHeadEvaluated
  rw [State.finishPage_pages, State.finishPage_streamer]
  cases rest with
  | nil =>
    have hnil : (u.withoutHead q.ref).pages = [] := List.map_eq_nil_iff.1 hu
    unfold State.evaluateOffer
    simp only [hnil]
    exact ⟨trivial, rfl⟩
  | cons q1 rest =>
    obtain ⟨q1', rest', hcons, hq1, -⟩ := List.map_eq_cons_iff.1 hu
    obtain ⟨hpending, hne⟩ := hrest q1 List.mem_cons_self
    have href : q1'.ref = q1.ref := (congrArg PageRecord.ref hq1 :)
    have hlead : q1'.lead = q1.lead := (congrArg PageRecord.lead hq1 :)
    have hsame : q1'.state = q1.state := (congrArg PageRecord.state hq1 :)
    have hstate : q1'.state = .pending := hsame.trans hpending
    have hready : (u.withoutHead q.ref).leadReady q1' ↔ s.leadReady q1 := by
      rw [State.leadReady_iff, State.leadReady_iff, href, hlead]
      exact forall₂_congr fun b _ => h.ready q1.ref hne b
    have hoffer := State.offerHolds_iff hcons
    unfold State.evaluateOffer
    simp only [hcons]
    constructor
    · intro hs
      rw [if_pos (hoffer.2 ⟨hstate, hready.2 hs⟩), href]
      exact ⟨rfl, by simp⟩
    · intro hs
      rw [if_neg fun hc => hs (hready.1 (hoffer.1 hc).2)]
      exact ⟨rfl, by simp [hcons, href, hstate]⟩

/-! ## The end of a line -/

/-- The part once the line of page `q` from `source` has been counted and its band's end taken (R17, R18, R20, R151). -/
def State.lineCounted (s : State) (q : PageRecord) (source : LineSource) : State :=
  match source with
  | .background => s.mapPage q.ref PageRecord.lineOn
  | .slot i =>
    if s.lastOfBand q i || decide (q.state = .blanking) then (s.mapPage q.ref PageRecord.lineOn).bandEnd q i else s.mapPage q.ref PageRecord.lineOn

theorem State.endLine_eq {s : State} {q : PageRecord} (hq : s.findPage q.ref = some q) (source : LineSource) :
    s.endLine q.ref source =
      if q.linesServed + 1 = q.pageLines then
        if q.state = .blanking then (s.lineCounted q source).finishPage q.ref else (s.lineCounted q source).copyEnd q
      else { s.lineCounted q source with streamer := .betweenLines q.ref } := by
  unfold State.endLine State.lineCounted
  rw [hq]
  cases source <;> rfl

theorem State.lineCounted_sameBehind (s : State) (q : PageRecord) (source : LineSource) : s.SameBehind (s.lineCounted q source) q.ref := by
  have counted := State.SameBehind.mapPage s q.ref PageRecord.lineOn fun _ => rfl
  unfold State.lineCounted
  split
  · exact counted
  · split
    · exact counted.trans (State.SameBehind.bandEnd _ _ rfl)
    · exact counted

/-- Allocation changes next to allocate of a record alone (R8). -/
theorem State.findPage_evaluateAllocation_some {s : State} {r : PageRef} {p : PageRecord} (hp : s.findPage r = some p) :
    ∃ n, s.evaluateAllocation.findPage r = some { p with nextToAllocate := n } := by
  refine State.evaluateAllocation_induct (P := fun t => ∃ n, t.findPage r = some { p with nextToAllocate := n }) ?_ s ⟨_, hp⟩
  rintro t u ⟨n, hn⟩ hu
  obtain ⟨p0, i, -, -, rfl⟩ := State.allocateOne_some hu
  by_cases hr : r = p0.ref
  · subst hr
    exact ⟨n + 1, (State.findPage_mapPage_same t p0.ref (fun q => { q with nextToAllocate := q.nextToAllocate + 1 }) fun _ => rfl).trans (by rw [hn]; rfl)⟩
  · exact ⟨n, (State.findPage_mapPage_ne t (fun q => { q with nextToAllocate := q.nextToAllocate + 1 }) (fun _ => rfl) hr).trans hn⟩

/-- The record of the line's page: one more line served, and one more band streamed at the end of a band that is not a BLANKING page's. -/
theorem State.lineCounted_findPage {s : State} {q : PageRecord} (hq : s.findPage q.ref = some q) (source : LineSource) :
    ∃ n m, (s.lineCounted q source).findPage q.ref =
      some { q with linesServed := q.linesServed + 1, nextToAllocate := n, nextToStream := m } ∧ (q.state = .blanking → m = q.nextToStream) := by
  have hline : (s.mapPage q.ref PageRecord.lineOn).findPage q.ref = some q.lineOn := by
    rw [State.findPage_mapPage_same s q.ref PageRecord.lineOn fun _ => rfl, hq]
    rfl
  have stays : ∀ t : State, t.findPage q.ref = some q.lineOn → ∃ n m, t.findPage q.ref =
      some { q with linesServed := q.linesServed + 1, nextToAllocate := n, nextToStream := m } ∧ (q.state = .blanking → m = q.nextToStream) :=
    fun t ht => ⟨_, _, ht, fun _ => rfl⟩
  have steps : ∀ t : State, t.findPage q.ref = some q.lineOn →
      (t.mapPage q.ref fun x => { x with nextToStream := x.nextToStream + 1 }).findPage q.ref = some q.bandOn := by
    intro t ht
    rw [State.findPage_mapPage_same t q.ref (fun x => { x with nextToStream := x.nextToStream + 1 }) fun _ => rfl, ht]
    rfl
  unfold State.lineCounted
  split
  · exact stays _ hline
  · split
    · unfold State.bandEnd
      split
      · split
        · split
          · obtain ⟨n, hn⟩ := State.findPage_evaluateAllocation_some (s := (s.mapPage q.ref PageRecord.lineOn).setSlot _ .free) hline
            exact ⟨n, _, hn, fun _ => rfl⟩
          · rename_i hb
            split
            · exact ⟨_, _, steps _ hline, fun h => absurd h hb⟩
            · obtain ⟨n, hn⟩ := State.findPage_evaluateAllocation_some (steps ((s.mapPage q.ref PageRecord.lineOn).setSlot _ .free) hline)
              exact ⟨n, _, hn, fun h => absurd h hb⟩
        · exact stays _ hline
      · exact stays _ hline
    · exact stays _ hline

theorem State.endLine_slots {s : State} {q : PageRecord} (hq : s.findPage q.ref = some q) (source : LineSource) :
    (s.endLine q.ref source).slots = (s.lineCounted q source).slots := by
  rw [State.endLine_eq hq]
  split
  · split <;> simp
  · rfl

theorem State.lineCounted_slot {s : State} {q : PageRecord} {i : Nat} (hlast : s.lastOfBand q i = false) (hb : q.state ≠ .blanking) :
    s.lineCounted q (.slot i) = s.mapPage q.ref PageRecord.lineOn := by
  simp only [State.lineCounted, hlast, hb, decide_false, Bool.or_false, Bool.false_eq_true, if_false]

theorem State.lineCounted_last {s : State} {q : PageRecord} {i : Nat} (h : s.lastOfBand q i = true ∨ q.state = .blanking) :
    s.lineCounted q (.slot i) = (s.mapPage q.ref PageRecord.lineOn).bandEnd q i := by
  have hor : (s.lastOfBand q i || decide (q.state = .blanking)) = true := by simpa using h
  simp only [State.lineCounted, hor, if_true]

theorem State.lastOfBand_held {s : State} {q : PageRecord} {i : Nat} {st : HeldState} {k : BandRecord} (hi : s.slot i = .held st k) :
    s.lastOfBand q i = decide (q.bandLine + 1 = k.lines) := by
  simp only [State.lastOfBand, hi]

section bandEnd

variable {s : State} {q : PageRecord} {i : Nat} {k : BandRecord} (hi : s.slot i = .held .streaming k) (hk : k.page = q.ref)
include hi hk

theorem State.bandEnd_blanking (hb : q.state = .blanking) : s.bandEnd q i = (s.setSlot i .free).evaluateAllocation := by
  simp only [State.bandEnd, hi, hk, hb, if_true]

theorem State.bandEnd_kept (hb : q.state ≠ .blanking) (hcopies : q.resident = true ∧ q.copiesRemaining ≠ 1) :
    s.bandEnd q i = (s.setSlot i (.held .ready k)).mapPage q.ref fun x => { x with nextToStream := x.nextToStream + 1 } := by
  simp only [State.bandEnd, hi, hk, hb, if_true, if_false]
  exact if_pos hcopies

theorem State.bandEnd_freed (hb : q.state ≠ .blanking) (hcopies : ¬ (q.resident = true ∧ q.copiesRemaining ≠ 1)) :
    s.bandEnd q i = ((s.setSlot i .free).mapPage q.ref fun x => { x with nextToStream := x.nextToStream + 1 }).evaluateAllocation := by
  simp only [State.bandEnd, hi, hk, hb, if_true, if_false]
  exact if_neg hcopies

end bandEnd

/-- The slot of a line at the end of its band, or of a line of a BLANKING page (R17, R18, R20). -/
theorem State.endLine_slots_of_slot {s : State} {q : PageRecord} {i : Nat} {k : BandRecord} (hq : s.findPage q.ref = some q)
    (hi : s.slot i = .held .streaming k) (hk : k.page = q.ref) :
    (q.state ≠ .blanking → q.bandLine + 1 ≠ k.lines → (s.endLine q.ref (.slot i)).slots = s.slots) ∧
    (q.state ≠ .blanking → q.bandLine + 1 = k.lines → q.resident = true → q.copiesRemaining ≠ 1 →
      (s.endLine q.ref (.slot i)).slots = s.slots.set i (.held .ready k)) ∧
    (q.state = .blanking ∨ q.bandLine + 1 = k.lines ∧ (q.resident = false ∨ q.copiesRemaining = 1) →
      ∃ u : State, u.slots = s.slots.set i .free ∧ u.inFlight = s.inFlight ∧ u.clearOrder = s.clearOrder ∧
        u.pages = (s.pages.map fun p => if p.ref = q.ref then
          { p with linesServed := p.linesServed + 1,
                   nextToStream := if q.state = .blanking then p.nextToStream else p.nextToStream + 1 } else p) ∧
        (s.endLine q.ref (.slot i)).slots = u.evaluateAllocation.slots) := by
  have hlast := s.lastOfBand_held (q := q) hi
  have hi' : (s.mapPage q.ref PageRecord.lineOn).slot i = .held .streaming k := hi
  rw [State.endLine_slots hq]
  refine ⟨fun hb hl => ?_, fun hb hl hres hcop => ?_, fun h => ?_⟩
  · rw [State.lineCounted_slot (by rw [hlast, decide_eq_false hl]) hb]
    rfl
  · rw [State.lineCounted_last (.inl (by rw [hlast, decide_eq_true hl])), State.bandEnd_kept hi' hk hb ⟨hres, hcop⟩]
    rfl
  · by_cases hb : q.state = .blanking
    · refine ⟨(s.mapPage q.ref PageRecord.lineOn).setSlot i .free, rfl, rfl, rfl, ?_, ?_⟩
      · simp only [hb, if_true]
        rfl
      · rw [State.lineCounted_last (.inr hb), State.bandEnd_blanking hi' hk hb]
    · obtain ⟨hl, hcop⟩ := h.resolve_left hb
      have hnot : ¬ (q.resident = true ∧ q.copiesRemaining ≠ 1) := by
        rintro ⟨hres, hne⟩
        rcases hcop with hcop | hcop
        · rw [hres] at hcop; cases hcop
        · exact hne hcop
      refine ⟨((s.mapPage q.ref PageRecord.lineOn).setSlot i .free).mapPage q.ref fun x => { x with nextToStream := x.nextToStream + 1 },
        rfl, rfl, rfl, ?_, ?_⟩
      · simp only [hb, if_false]
        show (s.pages.map _).map _ = _
        rw [List.map_map]
        refine List.map_congr_left fun p _ => ?_
        simp only [Function.comp_apply]
        by_cases hp : p.ref = q.ref <;> simp [hp, PageRecord.lineOn]
      · rw [State.lineCounted_last (.inl (by rw [hlast, decide_eq_true hl])), State.bandEnd_freed hi' hk hb hnot]

theorem State.lineCounted_ports (s : State) (q : PageRecord) (source : LineSource) : (s.lineCounted q source).ports = s.ports := by
  have banded : ∀ (t : State) (i : Nat), (t.bandEnd q i).ports = t.ports := by
    intro t i
    unfold State.bandEnd
    repeat' split
    all_goals simp [State.setSlot, State.mapPage]
  unfold State.lineCounted
  split
  · rfl
  · split
    · exact banded _ _
    · rfl

theorem State.copyEnd_done {s : State} {p : PageRecord} (h : p.copiesRemaining < 2) :
    s.copyEnd p = (s.postAll p.participants (Event.ofPage .pageDone p.ref.tag 0)).finishPage p.ref := if_neg (Nat.not_le.2 h)

theorem State.copyEnd_again {s : State} {p : PageRecord} (h : 2 ≤ p.copiesRemaining) :
    s.copyEnd p = { s.mapPage p.ref PageRecord.nextCopy with streamer := .offered p.ref, prdyLow := none } := if_pos h

/-- The claim that takes page `q` from the queue, where `u` is the part by then (R38, R44, R168). -/
theorem State.SameBehind.finishPage {s u : State} {q : PageRecord} (h : s.SameBehind u q.ref) (hqueue : ∀ z, (u.port z).queue = (s.port z).queue) :
    (∀ rest, s.pages = q :: rest → pendingBehind q.ref rest → s.nextHeadEvaluated (u.finishPage q.ref) rest) ∧
      ∀ z, ((u.finishPage q.ref).port z).queue = s.queueAfterRecheck (u.finishPage q.ref) q.ref z := by
  refine ⟨fun rest => h.nextHeadEvaluated, fun z => ?_⟩
  rw [State.finishPage_port]
  exact State.queueAfterRecheck_congr (hqueue z) rfl rfl _

/-- Settles O46: the cases of `endLine`. -/
theorem endOfALine : Obligations.EndOfALine := by
  rintro s r source q htags hq
  obtain ⟨-, rfl⟩ := State.findPage_some hq
  have hline := State.endLine_eq hq source
  have hbehind := s.lineCounted_sameBehind q source
  refine ⟨fun hne => ?_, ?_, ?_, fun hlast => ?_⟩
  · rw [hline, if_neg hne]
    obtain ⟨n, m, hfind, hm⟩ := State.lineCounted_findPage hq source
    exact ⟨rfl, _, hfind, rfl, rfl, hm⟩
  · rintro rfl
    rw [State.endLine_slots hq]
    rfl
  · rintro i k rfl hi hk
    exact State.endLine_slots_of_slot hq hi hk
  · rw [if_pos hlast] at hline
    have hport : ∀ z, (s.lineCounted q source).port z = s.port z := fun z => congrArg (fun ports => Both.get ports z) (s.lineCounted_ports q source)
    have hposted : ∀ z, ((s.lineCounted q source).postAll q.participants (Event.ofPage .pageDone q.ref.tag 0)).port z =
        { s.port z with events := if q.participants.has z = true then enqueueEvent (s.port z).events (Event.ofPage .pageDone q.ref.tag 0)
          else (s.port z).events } := by
      intro z
      rw [State.postAll_port, hport]
      split <;> rfl
    have hdone : q.state ≠ .blanking → q.copiesRemaining < 2 → s.endLine q.ref source =
        ((s.lineCounted q source).postAll q.participants (Event.ofPage .pageDone q.ref.tag 0)).finishPage q.ref := fun hb hc => by
      rw [hline, if_neg hb, State.copyEnd_done hc]
    have hagain : q.state ≠ .blanking → 2 ≤ q.copiesRemaining → s.endLine q.ref source =
        { (s.lineCounted q source).mapPage q.ref PageRecord.nextCopy with streamer := .offered q.ref, prdyLow := none } := fun hb hc => by
      rw [hline, if_neg hb, State.copyEnd_again hc]
    have hblank : q.state = .blanking → s.endLine q.ref source = (s.lineCounted q source).finishPage q.ref := fun hb => by
      rw [hline, if_pos hb]
    have hne : q.state = .printing → q.state ≠ .blanking := fun h => by rw [h]; decide
    refine ⟨fun r' hr' => ?_, fun hb => ?_, fun hp hc => ?_, fun hp hc => ?_, fun h => ?_⟩
    · have hlow : (s.endLine q.ref source).prdyLow = none := by
        by_cases hb : q.state = .blanking
        · rw [hblank hb, State.finishPage_prdyLow]
        · by_cases hc : q.copiesRemaining < 2
          · rw [hdone hb hc, State.finishPage_prdyLow]
          · rw [hagain hb (Nat.le_of_not_lt hc)]
      simp only [State.prdy, hr', hlow, Option.isNone_none]
    · rw [hblank hb]
      refine ⟨State.finishPage_findPage _ _, fun z => ?_⟩
      rw [State.finishPage_port, hport]
    · obtain ⟨n, m, hfind, -⟩ := State.lineCounted_findPage hq source
      rw [hagain (hne hp) hc]
      refine ⟨rfl, _, (State.findPage_mapPage_same (s.lineCounted q source) q.ref PageRecord.nextCopy fun _ => rfl).trans (congrArg _ hfind), rfl,
        Nat.sub_add_cancel (Nat.le_of_succ_le hc), rfl, rfl⟩
    · rw [hdone (hne hp) hc]
      refine ⟨State.finishPage_findPage _ _, fun z => ?_⟩
      rw [State.finishPage_port, hposted]
      rfl
    · rcases h with hb | ⟨hp, hc⟩
      · rw [hblank hb]
        exact hbehind.finishPage fun z => by rw [hport]
      · rw [hdone (hne hp) hc]
        have posted : s.SameBehind ((s.lineCounted q source).postAll q.participants (Event.ofPage .pageDone q.ref.tag 0)) q.ref :=
          hbehind.trans (.of_slots (by simp) (by simp))
        exact posted.finishPage fun z => by rw [hposted]

end Sys2Proof.Machine
end

