-- ==== Sys2Proof/Proofs/ClockPeriod.lean ====
section
/-! One period of the internal clock, and a step with no command waiting (R5, R11, R88, R135, R139, R146, R147, R149, R159, R169). -/

namespace Sys2Proof.Machine

/-! ## A step with no command waiting -/

theorem step_of_no_pending {s : State} (h : s.pending = []) : step s = s.idle := by
  unfold step
  rw [h]

theorem State.idle_of_reset {s : State} (h : s.resetHeld = true) : s.idle = .next s := if_pos h

theorem State.idle_of_due {s : State} {c : Instr} {rest : List Instr} (h : s.resetHeld = false) (hdue : s.dueEvents = c :: rest) :
    s.idle = .next (s.postDue c rest) := by
  simp only [State.idle, h, hdue, Bool.false_eq_true, if_false]

theorem State.idle_of_period {s : State} (h : s.resetHeld = false) (hdue : s.dueEvents = []) (hadr : s.addressesExist = true) :
    s.idle = .next s.tick := by
  simp only [State.idle, h, hdue, hadr, Bool.false_eq_true, if_false, if_true]

/-- One of the events that are due goes to the queue (R5; log 7). -/
theorem State.postDue_eq (s : State) (c : Instr) (rest : List Instr) :
    ∃ c' ∈ c :: rest, ∃ n, s.postDue c rest = ({ s with pending := [c'], freeCount := n } : State).settleClaim := by
  unfold State.postDue
  split
  · exact ⟨c, List.mem_cons_self, s.freeCount, rfl⟩
  · have hlt : Config.raceOrder s.freeCount % (c :: rest).length < (c :: rest).length := Nat.mod_lt _ (Nat.succ_pos _)
    refine ⟨_, ?_, s.freeCount + 1, rfl⟩
    rw [List.getD_eq_getElem _ _ hlt]
    exact List.getElem_mem hlt

/-- A clear that is done is under way (R10, R12). -/
theorem State.clearUnderWay_of_done {s : State} (h : s.clearIsDone = true) : ∃ c, s.clearUnderWay = some c := by
  unfold State.clearIsDone at h
  split at h
  · cases h
  · rename_i i rest ho
    split at h
    · rename_i k hk
      exact ⟨_, State.clearUnderWay_eq ho hk⟩
    · cases h

theorem mem_dueWhen {b : Bool} {c c' : Instr} : c' ∈ dueWhen b c ↔ b = true ∧ c' = c := by
  cases b <;> simp [dueWhen]

theorem State.streamerDue_no_clear (s : State) : Instr.clearCompletion ∉ s.streamerDue := by
  unfold State.streamerDue
  split
  · repeat' split
    all_goals simp
  · simp [mem_dueWhen]
  · simp [mem_dueWhen]
  · simp

theorem State.clearIsDone_of_due {s : State} (h : Instr.clearCompletion ∈ s.dueEvents) : s.clearIsDone = true := by
  simp only [State.dueEvents, List.mem_append, mem_dueWhen, s.streamerDue_no_clear, reduceCtorEq, and_false, or_false, and_true] at h
  exact h

/-- The claims once the event `c` alone waits (R5; log 33). -/
theorem State.settleClaim_of_one {s : State} {c : Instr} (hp : s.pending = [c]) :
    (c ≠ .clearCompletion ∨ s.clearClaims ≠ [] → s.settleClaim.clearClaims = s.clearClaims) ∧
      (c = .clearCompletion → s.clearClaims = [] → s.settleClaim.clearClaims = s.clearUnderWay.toList) := by
  unfold State.settleClaim
  rw [hp]
  refine ⟨fun h => ?_, fun hc hn => ?_⟩
  · rw [if_neg]
    rcases h with h | h
    · simp [h]
    · have := List.length_pos_of_ne_nil h
      have : [c].count .clearCompletion ≤ [c].length := List.count_le_length
      simp only [List.length_singleton] at this
      omega
  · rw [if_pos (by simp [hc, hn])]
    simp [hn]

/-! ## The Clear Unit's and the Raster Unit's shares -/

theorem State.rasterWord_eq (s : State) : s.rasterWord = { s with
    bandRam := s.rasterWord.bandRam, tileRam := s.rasterWord.tileRam, execution := s.rasterWord.execution } := by
  unfold State.rasterWord
  split
  · rfl
  · rename_i x _
    split
    · rfl
    · rcases s.touchWord_state x with h | ⟨_, _, h⟩ | ⟨_, _, h⟩ <;> simp only [h, State.writeBand]

theorem State.rasterTick_eq (s : State) : s.rasterTick = { s with
    bandRam := s.rasterTick.bandRam, tileRam := s.rasterTick.tileRam, execution := s.rasterTick.execution } := by
  rcases s.rasterTick_cases with h | ⟨x, -, h⟩ | h <;> rw [h]
  exact s.rasterWord_eq

/-- The part after the Clear Unit's and the Raster Unit's shares of a period. -/
def State.worked (s : State) : State := s.clearTick.rasterTick

theorem State.worked_eq (s : State) : s.worked = { s with
    bandRam := s.worked.bandRam, clearPos := s.worked.clearPos, tileRam := s.worked.tileRam, execution := s.worked.execution } := by
  have hraster := s.clearTick.rasterTick_eq
  have hclear := s.clearTick_eq
  unfold State.worked
  generalize s.clearTick.rasterTick = u at hraster ⊢
  generalize s.clearTick = t at hraster hclear
  rw [hraster, hclear]

theorem State.worked_clearPos (s : State) : s.worked.clearPos = s.clearTick.clearPos := by
  unfold State.worked
  rw [State.rasterTick_eq]

@[simp] theorem State.clearTick_execution (s : State) : s.clearTick.execution = s.execution := by rw [State.clearTick_eq]

@[simp] theorem State.clearTick_tileRam (s : State) : s.clearTick.tileRam = s.tileRam := by rw [State.clearTick_eq]

/-- A clear under way that is not done writes its next word (R11). -/
theorem State.clearTick_under_way {s : State} {i : Nat} {rest : List Nat} {k : BandRecord} (ho : s.clearOrder = i :: rest)
    (hk : s.slot i = .held .clearing k) (hmore : s.clearIsDone = false) :
    s.clearTick = { (s.writeBand (slotAddress i s.clearPos) k.fillWord) with clearPos := s.clearPos + 1 } := by
  have hlt : s.clearPos < k.lines * k.width := by simpa [State.clearIsDone, ho, hk] using hmore
  simp only [State.clearTick, ho, hk, hlt, if_true]

theorem State.clearTick_idle {s : State} (ho : s.clearOrder = []) : s.clearTick = s := by
  simp only [State.clearTick, ho]

theorem State.rasterTick_idle {s : State} (h : s.execution = none) : s.rasterTick = s := by
  simp only [State.rasterTick, h]

section execution

variable {s : State} {x : ExecRecord} (hx : s.execution = some x) (hmore : x.finished = false)
include hx hmore

theorem State.rasterTick_waits (hp : x.period + 1 < x.op.wordPeriods) :
    s.rasterTick = { s with execution := some { x with period := x.period + 1 } } := by
  simp only [State.rasterTick, hx, hmore, hp, if_true, Bool.false_eq_true, if_false]

theorem State.rasterTick_word (hp : x.op.wordPeriods ≤ x.period + 1) : s.rasterTick = s.rasterWord := by
  simp only [State.rasterTick, hx, hmore, Nat.not_lt.2 hp, Bool.false_eq_true, if_false]

theorem State.rasterWord_of_execution : s.rasterWord = { (s.touchWord x).1 with execution := some (s.touchWord x).2.advance } := by
  simp only [State.rasterWord, hx, hmore, Bool.false_eq_true, if_false]

end execution

/-- Of the execution record a word changes the sum and the row buffer (R84, R102). -/
theorem State.touchWord_record (s : State) (x : ExecRecord) :
    (s.touchWord x).2 = { x with runningSum := (s.touchWord x).2.runningSum, rowBuffer := (s.touchWord x).2.rowBuffer } := by
  unfold State.touchWord State.touchBandWord State.withRowBuffer
  repeat' split
  all_goals rfl

/-- The tile store after a word does not depend on band RAM. -/
theorem State.touchWord_tileRam {s t : State} (ht : t.tileRam = s.tileRam) (hp : t.ports = s.ports) (he : t.ramEpoch = s.ramEpoch) (x : ExecRecord) :
    (t.touchWord x).1.tileRam = (s.touchWord x).1.tileRam := by
  have hword : ∀ z n, t.stagingWord z n = s.stagingWord z n := fun z n => by simp only [State.stagingWord, State.port, hp, he]
  have band : ∀ (u : State) i w, (u.touchBandWord x i w).1.tileRam = u.tileRam := fun u i w => by
    unfold State.touchBandWord
    split <;> rfl
  have other : ∀ u : State, (∀ n, x.op ≠ .loadTile n) → (u.touchWord x).1.tileRam = u.tileRam := by
    intro u hop
    unfold State.touchWord
    split
    · rename_i n hn
      exact absurd hn (hop n)
    · repeat' split
      all_goals first
        | rfl
        | exact band _ _ _
  by_cases hop : ∃ n, x.op = .loadTile n
  · obtain ⟨n, hn⟩ := hop
    simp only [State.touchWord, hn, ht, hword]
  · have hop' : ∀ n, x.op ≠ .loadTile n := fun n hn => hop ⟨n, hn⟩
    rw [other t hop', other s hop', ht]

theorem ExecRecord.advance_eq (x : ExecRecord) :
    x.advance = { x with row := x.advance.row, rowWord := x.advance.rowWord, period := 0, finished := x.advance.finished } := by
  unfold ExecRecord.advance
  repeat' split
  all_goals rfl

/-- The place after a word: in the row, in the next row, or at the end (R85, R89). -/
theorem ExecRecord.advance_place (x : ExecRecord) (hmore : x.finished = false) :
    (x.rowWord + 1 < x.rowWords → x.advance.row = x.row ∧ x.advance.rowWord = x.rowWord + 1 ∧ x.advance.finished = false) ∧
    (x.rowWords ≤ x.rowWord + 1 → x.row + 1 < x.rows → x.stopRequested = false →
      x.advance.row = x.row + 1 ∧ x.advance.rowWord = 0 ∧ x.advance.finished = false) ∧
    (x.rowWords ≤ x.rowWord + 1 → x.rows ≤ x.row + 1 ∨ x.stopRequested = true → x.advance.finished = true) := by
  unfold ExecRecord.advance
  refine ⟨fun h => ?_, fun h hr hs => ?_, fun h hr => ?_⟩
  · rw [if_pos h]
    exact ⟨rfl, rfl, hmore⟩
  · rw [if_neg (Nat.not_lt.2 h), if_pos ⟨hr, hs⟩]
    exact ⟨rfl, rfl, hmore⟩
  · rw [if_neg (Nat.not_lt.2 h), if_neg]
    rintro ⟨h1, h2⟩
    rcases hr with hr | hr
    · omega
    · rw [h2] at hr
      cases hr

/-! ## The video clock's share -/

theorem State.resumeWord_of_running {s : State} {r : PageRef} {line : LineInFlight} (hst : s.streamer = .sending r line) (h : line.wordDone = false) :
    s.resumeWord = s := by
  simp only [State.resumeWord, hst, h, Bool.false_and, Bool.false_eq_true, if_false]

theorem State.resumeWord_of_no_line {s : State} (h : ∀ r line, s.streamer ≠ .sending r line) : s.resumeWord = s := by
  unfold State.resumeWord
  split
  · rename_i hst
    exact absurd hst (h _ _)
  · rfl

theorem State.resumeWord_phase (s : State) : s.resumeWord.videoPhase = s.videoPhase ∧ s.resumeWord.engine = s.engine ∧ s.resumeWord.tail = s.tail := by
  rw [State.resumeWord_eq]
  exact ⟨rfl, rfl, rfl⟩

theorem State.videoTick_within {s : State} (h : s.videoPhase + 1 < s.engine.videoDivisor) :
    s.videoTick = { s.resumeWord with videoPhase := s.videoPhase + 1 } := by
  obtain ⟨hp, he, -⟩ := s.resumeWord_phase
  unfold State.videoTick
  simp only [hp, he, Nat.not_le.2 h, if_false]

theorem State.videoTick_boundary {s : State} (h : s.engine.videoDivisor ≤ s.videoPhase + 1) :
    s.videoTick = ({ s.resumeWord with videoPhase := 0 } : State).streamerBoundary.tailBoundary := by
  obtain ⟨hp, he, -⟩ := s.resumeWord_phase
  unfold State.videoTick
  simp only [hp, he, h, if_true]

theorem State.tailBoundary_none {s : State} (h : s.tail = none) : s.tailBoundary = s := by
  simp only [State.tailBoundary, h]

theorem State.streamerBoundary_tail (s : State) : s.streamerBoundary.tail = s.tail := by
  rw [State.streamerBoundary_eq]

/-- The boundary of a line being sent, with no removed page's word leaving (R135, R146). -/
theorem State.videoTick_line {s : State} {r : PageRef} {line : LineInFlight} (hst : s.streamer = .sending r line) (hrun : line.wordDone = false)
    (htail : s.tail = none) (h : s.engine.videoDivisor ≤ s.videoPhase + 1) :
    s.videoTick = ({ s with videoPhase := 0 } : State).lineBoundary r line := by
  have hline : ({ s with videoPhase := 0 } : State).streamerBoundary = ({ s with videoPhase := 0 } : State).lineBoundary r line := by
    simp only [State.streamerBoundary, hst, hrun, htail, Option.isSome_none, Bool.or_self, Bool.false_eq_true, if_false]
  rw [State.videoTick_boundary h, State.resumeWord_of_running hst hrun, ← hline]
  exact State.tailBoundary_none ((State.streamerBoundary_tail _).trans htail)

/-- While a removed page's word is leaving a line's bits wait (R169; log 13). -/
theorem State.streamerBoundary_waits {s : State} {w : TailWord} (h : s.tail = some w) :
    s.streamerBoundary.vdat = s.vdat ∧ ((∃ r line, s.streamer = .sending r line) → s.streamerBoundary = s) := by
  unfold State.streamerBoundary
  split
  · simp only [h, Option.isSome_some, Bool.or_true, if_true]
    exact ⟨trivial, fun _ => trivial⟩
  · rename_i hst
    exact ⟨rfl, by rintro ⟨_, _, hc⟩; rw [hst] at hc; cases hc⟩
  · exact ⟨rfl, fun _ => rfl⟩

theorem State.lineWord_congr {s t : State} (hp : t.pages = s.pages) (hb : t.bandRam = s.bandRam) (he : t.ramEpoch = s.ramEpoch) (r : PageRef)
    (source : LineSource) (k : Nat) : t.lineWord r source k = s.lineWord r source k := by
  simp only [State.lineWord, State.findPage_congr hp, State.readBand, hb, he]

theorem State.lineWidth_congr {s t : State} (hp : t.pages = s.pages) (r : PageRef) : t.lineWidth r = s.lineWidth r := by
  simp only [State.lineWidth, State.findPage_congr hp]

theorem State.wordStops_congr {s t : State} (hp : t.pages = s.pages) (hpins : t.pins = s.pins) (r : PageRef) (line : LineInFlight) :
    t.wordStops r line = s.wordStops r line := by
  simp only [State.wordStops, State.lineWidth_congr hp, hpins]

/-- The video clock leaves a starvation wait (R159). -/
theorem State.videoTick_starved {s : State} {r : PageRef} {b n : Nat} {x : Bool} (hst : s.streamer = .starved r b n x) :
    s.videoTick.streamer = .starved r b n x := by
  have hno : s.resumeWord = s := State.resumeWord_of_no_line fun _ _ h => by rw [hst] at h; cases h
  by_cases h : s.videoPhase + 1 < s.engine.videoDivisor
  · rw [State.videoTick_within h, hno]
    exact hst
  · rw [State.videoTick_boundary (Nat.le_of_not_lt h), hno, State.tailBoundary_eq]
    simp only [State.streamerBoundary, hst]

theorem State.videoTick_ackWait {s : State} {r : PageRef} {source : LineSource} {n : Nat} (hst : s.streamer = .ackWait r source n) :
    (s.videoPhase + 1 < s.engine.videoDivisor → s.videoTick.streamer = s.streamer) ∧
      (s.engine.videoDivisor ≤ s.videoPhase + 1 → n < s.engine.acknowledgeWindow → s.videoTick.streamer = .ackWait r source (n + 1)) := by
  have hno : s.resumeWord = s := State.resumeWord_of_no_line fun _ _ h => by rw [hst] at h; cases h
  refine ⟨fun h => ?_, fun h hn => ?_⟩
  · rw [State.videoTick_within h, hno]
  · rw [State.videoTick_boundary h, hno, State.tailBoundary_eq]
    simp only [State.streamerBoundary, hst, hn, if_true]

/-! ## The period -/

theorem State.tick_frame (s : State) : ∃ streamer lineOut vdat tail phase, s.tick = { s.worked with
    streamer := streamer, lineOut := lineOut, vdat := vdat, tail := tail, videoPhase := phase, prdyLow := s.prdyLow.map (· + 1) } := by
  obtain ⟨_, lineOut, vdat, tail, phase, h⟩ := s.worked.videoTick_eq
  have hprdy : s.worked.prdyLow = s.prdyLow := by rw [s.worked_eq]
  refine ⟨s.worked.videoTick.starvationTick.streamer, lineOut, vdat, tail, phase, ?_⟩
  show s.worked.videoTick.starvationTick.prdyTick = _
  rw [State.prdyTick, State.starvationTick_eq, h, hprdy]

theorem State.starvationTick_other {s : State} (h : s.streamer.awaits = none) : s.starvationTick = s := by
  unfold State.starvationTick
  split
  · rename_i hst
    rw [hst] at h
    cases h
  · rfl

/-- Of the video clock's outputs the rest of the period changes none. -/
theorem State.tick_video (s : State) : s.tick.vdat = s.worked.videoTick.vdat ∧ s.tick.tail = s.worked.videoTick.tail ∧
    s.tick.videoPhase = s.worked.videoTick.videoPhase ∧ s.tick.lineOut = s.worked.videoTick.lineOut := by
  show s.worked.videoTick.starvationTick.vdat = _ ∧ s.worked.videoTick.starvationTick.tail = _ ∧
    s.worked.videoTick.starvationTick.videoPhase = _ ∧ s.worked.videoTick.starvationTick.lineOut = _
  rw [State.starvationTick_eq]
  exact ⟨rfl, rfl, rfl, rfl⟩

theorem State.tick_streamer {s : State} {st : StreamerState} (h : s.worked.videoTick.streamer = st) (hst : st.awaits = none) : s.tick.streamer = st := by
  show s.worked.videoTick.starvationTick.streamer = st
  rw [State.starvationTick_other (by rw [h, hst]), h]

theorem State.tick_lineWord (s : State) (r : PageRef) (source : LineSource) (k : Nat) : s.tick.lineWord r source k = s.worked.lineWord r source k := by
  obtain ⟨_, _, _, _, _, h⟩ := s.tick_frame
  exact State.lineWord_congr (by rw [h]) (by rw [h]) (by rw [h]) _ _ _

theorem State.tick_clear {s : State} {i : Nat} {rest : List Nat} {k : BandRecord} (ho : s.clearOrder = i :: rest)
    (hk : s.slot i = .held .clearing k) (hmore : s.clearIsDone = false) :
    s.tick.clearPos = s.clearPos + 1 ∧
      (s.execution = none → s.tick.bandRam = ramWrite s.bandRam (slotAddress i s.clearPos) (if k.background then 0xFFFF else 0)) := by
  have hclear := State.clearTick_under_way ho hk hmore
  obtain ⟨_, _, _, _, _, h⟩ := s.tick_frame
  refine ⟨?_, fun hx => ?_⟩
  · rw [h, State.worked_clearPos, hclear]
  · rw [State.tick_bandRam, State.rasterTick_idle (by rw [State.clearTick_execution, hx]), hclear]
    rfl

/-- The executing command's share of the period (R85, R88, R89; log 10, 29). -/
theorem State.tick_command {s : State} {x : ExecRecord} (hx : s.execution = some x) (hmore : x.finished = false) :
    ∃ y, s.tick.execution = some y ∧ y.stopRequested = x.stopRequested ∧ y.op = x.op ∧
      (x.period + 1 < x.op.wordPeriods → y = { x with period := x.period + 1 } ∧ (s.clearOrder = [] → s.tick.bandRam = s.bandRam) ∧
        s.tick.tileRam = s.tileRam) ∧
      (x.op.wordPeriods ≤ x.period + 1 →
        y = { x with row := y.row, rowWord := y.rowWord, period := 0, finished := y.finished, runningSum := y.runningSum, rowBuffer := y.rowBuffer } ∧
        s.tick.bandRam = s.clearTick.rasterWord.bandRam ∧ s.tick.tileRam = s.rasterWord.tileRam ∧
        s.tick.execution = s.clearTick.rasterWord.execution ∧
        (x.rowWord + 1 < x.rowWords → y.row = x.row ∧ y.rowWord = x.rowWord + 1 ∧ y.finished = false) ∧
        (x.rowWords ≤ x.rowWord + 1 → x.row + 1 < x.rows → x.stopRequested = false →
          y.row = x.row + 1 ∧ y.rowWord = 0 ∧ y.finished = false) ∧
        (x.rowWords ≤ x.rowWord + 1 → x.rows ≤ x.row + 1 ∨ x.stopRequested = true → y.finished = true)) := by
  have hx' : s.clearTick.execution = some x := by rw [State.clearTick_execution, hx]
  rw [State.tick_execution, State.tick_bandRam, State.tick_tileRam]
  by_cases hp : x.period + 1 < x.op.wordPeriods
  · rw [State.rasterTick_waits hx' hmore hp]
    exact ⟨_, rfl, rfl, rfl, fun _ => ⟨rfl, fun ho => by rw [State.clearTick_idle ho], s.clearTick_tileRam⟩, fun h => absurd hp (Nat.not_lt.2 h)⟩
  · have hend := Nat.le_of_not_lt hp
    rw [State.rasterTick_word hx' hmore hend]
    have hrecord := s.clearTick.touchWord_record x
    have hplace := (s.clearTick.touchWord x).2.advance_place (by rw [hrecord]; exact hmore)
    have hadvance := (s.clearTick.touchWord x).2.advance_eq
    have hword := State.rasterWord_of_execution hx' hmore
    have htile : s.clearTick.rasterWord.tileRam = s.rasterWord.tileRam := by
      rw [hword, State.rasterWord_of_execution hx hmore]
      exact State.touchWord_tileRam s.clearTick_tileRam (by rw [State.clearTick_eq]) (by rw [State.clearTick_eq]) x
    have hexec : s.clearTick.rasterWord.execution = some (s.clearTick.touchWord x).2.advance := by rw [hword]
    generalize (s.clearTick.touchWord x).2 = x1 at hrecord hplace hadvance hexec
    have hsame : x1.rowWord = x.rowWord ∧ x1.rowWords = x.rowWords ∧ x1.row = x.row ∧ x1.rows = x.rows ∧ x1.stopRequested = x.stopRequested := by
      rw [hrecord]
      exact ⟨rfl, rfl, rfl, rfl, rfl⟩
    obtain ⟨hrw, hrws, hr, hrs, hstop⟩ := hsame
    rw [hrw, hrws, hr, hrs, hstop] at hplace
    refine ⟨_, hexec, ?_, ?_, fun h => absurd h hp, fun _ => ⟨?_, rfl, htile, rfl, hplace⟩⟩
    · rw [hadvance, ← hstop]
    · rw [hadvance, hrecord]
    · generalize x1.advance = y at hadvance
      rw [hadvance, hrecord]

section line

variable {s : State} {r : PageRef} {line : LineInFlight} (hst : s.streamer = .sending r line) (hrun : line.wordDone = false)
include hst hrun

/-- Within a video clock period a line stays where it is. -/
theorem State.tick_line_within (h : s.videoPhase + 1 < s.engine.videoDivisor) : s.tick.streamer = s.streamer ∧ s.tick.vdat = s.vdat := by
  have hu := s.worked_eq
  have hst' : s.worked.streamer = .sending r line := by rw [hu]; exact hst
  have hv : s.worked.videoTick = { s.worked with videoPhase := s.worked.videoPhase + 1 } := by
    rw [State.videoTick_within (by rw [hu]; exact h), State.resumeWord_of_running hst' hrun]
  refine ⟨(State.tick_streamer (by rw [hv]; exact hst') rfl).trans hst.symm, ?_⟩
  rw [s.tick_video.1, hv]
  show s.worked.vdat = s.vdat
  rw [hu]

/-- At its end a bit begins, the word ends, or the next word begins (R135, R146, R147). -/
theorem State.tick_line (htail : s.tail = none) (h : s.engine.videoDivisor ≤ s.videoPhase + 1) :
    (line.bits < 16 → s.tick.streamer = .sending r { line with bits := line.bits + 1 } ∧
      s.tick.vdat = (s.tick.lineWord r line.source line.word).getMsbD line.bits) ∧
    (16 ≤ line.bits → line.early = true ∨ s.lineWidth r ≤ line.word + 1 ∨ s.pins.hold = true →
      s.tick.streamer = .sending r { line with wordDone := true } ∧ s.tick.vdat = s.vdat) ∧
    (16 ≤ line.bits → line.early = false → line.word + 1 < s.lineWidth r → s.pins.hold = false →
      s.tick.streamer = .sending r { line with word := line.word + 1, bits := 1 } ∧
      s.tick.vdat = (s.tick.lineWord r line.source (line.word + 1)).getMsbD 0 ∧
      s.tick.lineOut = s.lineOut ++ [s.tick.lineWord r line.source line.word]) := by
  have hu := s.worked_eq
  obtain ⟨hvdat, -, -, hout⟩ := s.tick_video
  have hv := State.videoTick_line (s := s.worked) (by rw [hu]; exact hst) hrun (by rw [hu]; exact htail) (by rw [hu]; exact h)
  have hstops : ({ s.worked with videoPhase := 0 } : State).wordStops r line = s.wordStops r line :=
    State.wordStops_congr (by rw [hu]) (by rw [hu]) r line
  simp only [State.tick_lineWord, hvdat, hout]
  unfold State.lineBoundary at hv
  refine ⟨fun hb => ?_, fun hb hs => ?_, fun hb he hw hh => ?_⟩
  · rw [if_pos hb] at hv
    exact ⟨State.tick_streamer (by rw [hv]) rfl, by rw [hv]; rfl⟩
  · rw [if_neg (Nat.not_lt.2 hb), hstops, if_pos (by simpa [State.wordStops, or_assoc] using hs)] at hv
    refine ⟨State.tick_streamer (by rw [hv]) rfl, ?_⟩
    rw [hv]
    show s.worked.vdat = s.vdat
    rw [hu]
  · rw [if_neg (Nat.not_lt.2 hb), hstops, if_neg (by simp [State.wordStops, he, hh, hw])] at hv
    refine ⟨State.tick_streamer (by rw [hv]; simp only [State.followOn, State.beginWord, hrun]) rfl, by rw [hv]; rfl, ?_⟩
    rw [hv]
    show s.worked.lineOut ++ _ = s.lineOut ++ _
    rw [show s.worked.lineOut = s.lineOut by rw [hu]]
    rfl

end line

/-- A removed page's word goes on leaving, before the line behind it (R169; log 13). -/
theorem State.tick_tail {s : State} {w : TailWord} (hw : s.tail = some w) (hmore : w.done = false) (h : s.engine.videoDivisor ≤ s.videoPhase + 1) :
    (∀ r line, s.streamer = .sending r line → line.wordDone = false → s.tick.streamer = s.streamer) ∧
    (w.bits < 16 → s.tick.tail = some { w with bits := w.bits + 1 } ∧ s.tick.vdat = w.word.getMsbD w.bits) ∧
    (16 ≤ w.bits → s.tick.tail = some { w with done := true }) := by
  have hu := s.worked_eq
  obtain ⟨hvdat, htail, -, -⟩ := s.tick_video
  have hw' : ({ s.worked.resumeWord with videoPhase := 0 } : State).tail = some w := by
    show s.worked.resumeWord.tail = _
    rw [s.worked.resumeWord_phase.2.2, hu]
    exact hw
  have hv := State.videoTick_boundary (s := s.worked) (by rw [hu]; exact h)
  have hboundary := (State.streamerBoundary_tail { s.worked.resumeWord with videoPhase := 0 }).trans hw'
  refine ⟨fun r line hst hrun => ?_, fun hb => ?_, fun hb => ?_⟩
  · have hst' : s.worked.streamer = .sending r line := by rw [hu]; exact hst
    have hno := State.resumeWord_of_running hst' hrun
    refine (State.tick_streamer (st := .sending r line) ?_ rfl).trans hst.symm
    rw [hv, State.tailBoundary_eq, (State.streamerBoundary_waits hw').2 ⟨r, line, by rw [hno]; exact hst'⟩, hno]
    exact hst'
  · rw [htail, hvdat, hv, State.tailBoundary, hboundary]
    simp only [hmore, hb, Bool.false_eq_true, if_false, if_true]
    exact ⟨trivial, rfl⟩
  · rw [htail, hv, State.tailBoundary, hboundary]
    simp only [hmore, Nat.not_lt.2 hb, Bool.false_eq_true, if_false]

theorem State.streamerDue_nil {s : State} (h : s.dueEvents = []) : s.clearIsDone = false ∧ s.workIsDone = false ∧ s.streamerDue = [] := by
  simp only [State.dueEvents, List.append_eq_nil_iff] at h
  obtain ⟨⟨⟨⟨⟨hclear, hwork⟩, hstream⟩, -⟩, -⟩, -⟩ := h
  refine ⟨?_, ?_, hstream⟩
  · cases hc : s.clearIsDone <;> simp [hc, dueWhen] at hclear ⊢
  · cases hc : s.workIsDone <;> simp [hc, dueWhen] at hwork ⊢

/-- Settles O51, by the shares of the period. -/
theorem oneClockPeriod : Obligations.OneClockPeriod := by
  refine ⟨fun s hp => ⟨fun hr => ?_, fun hr hdue => ?_, fun hr hdue hadr => ?_⟩, fun _ _ _ _ _ _ => rfl, fun _ _ _ _ _ => rfl,
    fun _ _ _ _ _ _ _ => rfl, rfl, fun _ => rfl⟩
  · rw [step_of_no_pending hp, State.idle_of_reset hr]
  · obtain ⟨c, rest, hcons⟩ := List.exists_cons_of_ne_nil hdue
    obtain ⟨c', hmem, n, hpost⟩ := s.postDue_eq c rest
    rw [← hcons] at hmem
    obtain ⟨hkept, hnamed⟩ := State.settleClaim_of_one (s := { s with pending := [c'], freeCount := n }) rfl
    refine ⟨c', hmem, _, by rw [step_of_no_pending hp, State.idle_of_due hr hcons, hpost], ?_, hkept, fun hc hn => ?_⟩
    · rw [State.settleClaim_eq]
    · obtain ⟨u, hunder⟩ := State.clearUnderWay_of_done (State.clearIsDone_of_due (hc ▸ hmem))
      have hunder' : ({ s with pending := [c'], freeCount := n } : State).clearUnderWay = some u := hunder
      rw [hnamed hc hn, hunder', hunder]
      rfl
  · obtain ⟨hclear, hwork, hstream⟩ := State.streamerDue_nil hdue
    have hu := s.worked_eq
    obtain ⟨_, _, _, _, _, htick⟩ := s.tick_frame
    obtain ⟨hvdat, htail, hphase, hout⟩ := s.tick_video
    refine ⟨s.tick, by rw [step_of_no_pending hp, State.idle_of_period hr hdue hadr], ?_, ?_, ?_, ?_, ?_, ?_, ?_, fun i rest k ho hk => ?_, fun x hx => ?_,
      fun hx => ?_, fun r b n hst => ?_, ?_, fun hd => ⟨?_, ?_, fun r line hst hrun => ?_, fun r source n hst => ?_⟩,
      fun hd => ⟨?_, fun r line hst hrun hnone => ?_, fun w hw hmore => ?_, fun r source n hst => ?_⟩⟩
    · rw [htick, hu]
    · rw [htick, hu]
    · rw [htick, hu]
    · rw [htick, hu]; exact hp
    · rw [htick, hu]
    · rw [htick, hu]
    · rw [htick, hu]
    · exact State.tick_clear ho hk hclear
    · exact State.tick_command hx (by simpa [State.workIsDone, hx] using hwork)
    · rw [State.tick_execution, State.rasterTick_idle (by rw [State.clearTick_execution, hx]), State.clearTick_execution, hx]
    · have hv := State.videoTick_starved (s := s.worked) (by rw [hu]; exact hst)
      show s.worked.videoTick.starvationTick.streamer = _
      simp only [State.starvationTick, hv, Bool.false_eq_true, if_false]
    · rw [htick]
    · rw [hphase, State.videoTick_within (by rw [hu]; exact hd), hu]
    · rw [htail, State.videoTick_within (by rw [hu]; exact hd)]
      show s.worked.resumeWord.tail = s.tail
      rw [s.worked.resumeWord_phase.2.2, hu]
    · exact State.tick_line_within hst hrun hd
    · have hst' : s.worked.streamer = .ackWait r source n := by rw [hu]; exact hst
      refine (State.tick_streamer (st := .ackWait r source n) ?_ rfl).trans hst.symm
      exact ((State.videoTick_ackWait hst').1 (by rw [hu]; exact hd)).trans hst'
    · rw [hphase, State.videoTick_boundary (by rw [hu]; exact hd), State.tailBoundary_eq, State.streamerBoundary_eq]
    · exact State.tick_line hst hrun hnone hd
    · exact State.tick_tail hw hmore hd
    · have hst' : s.worked.streamer = .ackWait r source n := by rw [hu]; exact hst
      have hn : n < s.engine.acknowledgeWindow := by
        rw [State.streamerDue, hst] at hstream
        by_contra hle
        simp [dueWhen, Nat.le_of_not_lt hle] at hstream
      exact State.tick_streamer ((State.videoTick_ackWait hst').2 (by rw [hu]; exact hd) (by rw [hu]; exact hn)) rfl

end Sys2Proof.Machine
end

