-- ==== Sys2Proof/Proofs/CommandEnd.lean ====
section
/-! The command-end claim (R62, R63, R89, R90, R104, R160, R163). -/

namespace Sys2Proof.Machine

/-! ## The work of a stopped command -/

/-- A stopped command that loads no tile handles its words without effect (R104). -/
theorem State.touchWord_of_stopped {s : State} {x : ExecRecord} (hstop : x.stopRequested = true) (hop : ∀ n, x.op ≠ .loadTile n) :
    s.touchWord x = (s, x) := by
  unfold State.touchWord
  split
  · rename_i n hn
    exact absurd hn (hop n)
  · rw [if_pos hstop]

/-- The executing command is stopped and loads no tile, and the memories are those of `s`. -/
def State.StoppedAs (s t : State) : Prop :=
  t.bandRam = s.bandRam ∧ t.tileRam = s.tileRam ∧ ∃ x, t.execution = some x ∧ x.stopRequested = true ∧ ∀ n, x.op ≠ .loadTile n

theorem State.StoppedAs.rasterWord {s t : State} (h : s.StoppedAs t) : s.StoppedAs t.rasterWord := by
  obtain ⟨hb, ht, x, hx, hstop, hop⟩ := h
  unfold State.rasterWord
  simp only [hx]
  split
  · exact ⟨hb, ht, x, hx, hstop, hop⟩
  · rw [State.touchWord_of_stopped hstop hop]
    refine ⟨hb, ht, x.advance, rfl, ?_, ?_⟩
    · rw [x.advance_eq]; exact hstop
    · rw [x.advance_eq]; exact hop

theorem State.StoppedAs.finishWork {s : State} (h : s.StoppedAs s) : s.StoppedAs s.finishWork := by
  have words : ∀ (n : Nat) (t : State), s.StoppedAs t → s.StoppedAs (State.rasterWords n t) := by
    intro n
    induction n with
    | zero => exact fun _ ht => ht
    | succ n ih => exact fun t ht => ih _ ht.rasterWord
  unfold State.finishWork
  split
  · exact h
  · exact words _ s h

theorem State.finishWork_of_finished {s : State} {x : ExecRecord} (hx : s.execution = some x) (h : x.finished = true) : s.finishWork = s := by
  have hleft : x.wordsLeft = 0 := if_pos h
  simp only [State.finishWork, hx, hleft, State.rasterWords]

theorem exec_commandEnd {s : State} {x : ExecRecord} (hadr : s.addressesExist = true) (hx : s.finishWork.execution = some x) :
    exec .commandEnd s = .next (s.finishWork.commandEndClaim x) := by
  have hend : s.endCommand = s.finishWork.commandEndClaim x := by simp only [State.endCommand, hx]
  rw [← hend]
  exact if_pos hadr

/-- What the Clear Unit's word of the period leaves to read (R11). -/
theorem State.readBand_clearTick {s : State} (hmore : s.clearIsDone = false) (a : Nat) : s.clearTick.readBand a = s.readAfterClear a := by
  cases ho : s.clearOrder with
  | nil => rw [State.clearTick_idle ho, State.readAfterClear, ho]
  | cons i rest =>
    unfold State.readAfterClear
    simp only [ho]
    split
    · rename_i k hk
      have hread : ∀ b, s.clearTick.readBand b = (s.writeBand (slotAddress i s.clearPos) k.fillWord).readBand b := fun b => by
        rw [State.clearTick_under_way ho hk hmore]
        rfl
      rw [hread]
      split
      · rename_i ha
        rw [ha, State.readBand_writeBand_same]
        rfl
      · rename_i ha
        exact State.readBand_writeBand_ne s _ ha
    · rename_i hno
      have hidle : s.clearTick = s := by
        unfold State.clearTick
        rw [ho]
        dsimp only
        split
        · exact absurd ‹_› (hno _)
        · rfl
      rw [hidle]

/-! ## What the claim changes -/

theorem State.readyNotice_frame (s : State) (r : PageRef) (b : Nat) :
    ∃ slots streamer lineOut, s.readyNotice r b = { s with slots := slots, streamer := streamer, lineOut := lineOut } := by
  rcases s.readyNotice_cases r b with h | ⟨_, _, -, h⟩
  · exact ⟨_, _, _, h⟩
  · obtain ⟨i, k, -, -, h⟩ := State.startBand_some h
    exact ⟨_, _, _, h⟩

theorem State.offerIfHead_frame (s : State) (r : PageRef) :
    ∃ pages streamer prdyLow, s.offerIfHead r = { s with pages := pages, streamer := streamer, prdyLow := prdyLow } := by
  unfold State.offerIfHead
  split
  · rcases s.evaluateOffer_cases false with h | ⟨_, _, _, _, h⟩
    · exact ⟨_, _, _, h⟩
    · exact ⟨_, _, _, h⟩
  · exact ⟨_, _, _, rfl⟩

/-- The end of a command on slot `i`, readied, and the offer and the line that may follow (R62, R63). -/
def State.madeReady (s : State) (i : Nat) (k : BandRecord) : State :=
  ((s.setSlot i (.held .ready { k with forced := k.forced || k.forcePending, forcePending := false })).readyNotice k.page k.band).offerIfHead k.page

theorem State.takeEndedSlot_opened {s : State} {i : Nat} {k : BandRecord} (hi : s.slot i = .held .opened k) :
    s.takeEndedSlot i = if k.forcePending = true ∨ s.closedByAll i = true then s.madeReady i k else s := by
  unfold State.takeEndedSlot State.madeReady State.openToReady
  simp only [hi]
  by_cases hf : k.forcePending = true
  · simp only [hf, if_true, true_or]
  · have hf' : k.forcePending = false := by simpa using hf
    simp only [hf', Bool.false_eq_true, if_false, false_or]

theorem State.takeEndedSlot_frame (s : State) (i : Nat) : ∃ slots pages clearOrder clearPos streamer prdyLow lineOut, s.takeEndedSlot i =
    { s with slots := slots, pages := pages, clearOrder := clearOrder, clearPos := clearPos, streamer := streamer, prdyLow := prdyLow,
             lineOut := lineOut } := by
  have stays : ∃ slots pages clearOrder clearPos streamer prdyLow lineOut, s =
      { s with slots := slots, pages := pages, clearOrder := clearOrder, clearPos := clearPos, streamer := streamer, prdyLow := prdyLow,
               lineOut := lineOut } := ⟨_, _, _, _, _, _, _, rfl⟩
  cases hi : s.slot i with
  | free =>
    have hfree : s.takeEndedSlot i = s.evaluateAllocation := by simp only [State.takeEndedSlot, hi]
    rw [hfree, State.evaluateAllocation_eq]
    exact ⟨_, _, _, _, _, _, _, rfl⟩
  | held st k =>
    cases st with
    | opened =>
      rw [State.takeEndedSlot_opened hi]
      split
      · unfold State.madeReady
        obtain ⟨_, _, _, hnotice⟩ := (s.setSlot i (.held .ready { k with forced := k.forced || k.forcePending, forcePending := false })).readyNotice_frame
          k.page k.band
        rw [hnotice]
        obtain ⟨_, _, _, hoffer⟩ := State.offerIfHead_frame _ k.page
        rw [hoffer]
        exact ⟨_, _, _, _, _, _, _, rfl⟩
      · exact stays
    | clearing | ready | streaming =>
      have hno : s.takeEndedSlot i = s := by simp only [State.takeEndedSlot, hi]
      rw [hno]
      exact stays

/-- The part when the command-end claim takes the command's slot: no command executes (R89). -/
def State.unmarked (s : State) (x : ExecRecord) : State := ({ s with inFlight := none, execution := none } : State).markLoaded x.op

theorem State.unmarked_eq (s : State) (x : ExecRecord) :
    s.unmarked x = { s with inFlight := none, execution := none, tileLoaded := (s.unmarked x).tileLoaded } := by
  unfold State.unmarked State.markLoaded
  split <;> rfl

/-- The claim up to the command's event (R89). -/
def State.slotTaken (s : State) (x : ExecRecord) : State :=
  match x.slot with
  | none => s.unmarked x
  | some i => (s.unmarked x).takeEndedSlot i

theorem State.commandEndClaim_eq (s : State) (x : ExecRecord) :
    s.commandEndClaim x = ((s.slotTaken x).postMaybe x.port x.outcomeEvent).popExecuting x := rfl

theorem State.commandEndClaim_ports (s : State) (x : ExecRecord) :
    s.commandEndClaim x = { s.slotTaken x with ports := (s.commandEndClaim x).ports } := by
  rw [State.commandEndClaim_eq, State.popExecuting]
  split
  · exact State.postMaybe_eq _ _ _
  · rw [State.postMaybe_eq]
    rfl

theorem State.slotTaken_frame (s : State) (x : ExecRecord) : ∃ slots pages clearOrder clearPos streamer prdyLow lineOut tileLoaded, s.slotTaken x =
    { s with slots := slots, pages := pages, clearOrder := clearOrder, clearPos := clearPos, streamer := streamer, prdyLow := prdyLow,
             lineOut := lineOut, tileLoaded := tileLoaded, inFlight := none, execution := none } := by
  unfold State.slotTaken
  split
  · rw [State.unmarked_eq]
    exact ⟨_, _, _, _, _, _, _, _, rfl⟩
  · obtain ⟨_, _, _, _, _, _, _, h⟩ := (s.unmarked x).takeEndedSlot_frame ‹_›
    rw [h, State.unmarked_eq]
    exact ⟨_, _, _, _, _, _, _, _, rfl⟩

/-- The claim changes neither memory nor the pointer, and no command executes behind it (R89). -/
theorem State.commandEndClaim_rest (s : State) (x : ExecRecord) :
    (s.commandEndClaim x).execution = none ∧ (s.commandEndClaim x).inFlight = none ∧ (s.commandEndClaim x).bandRam = s.bandRam ∧
      (s.commandEndClaim x).tileRam = s.tileRam ∧ (s.commandEndClaim x).pointer = s.pointer := by
  obtain ⟨_, _, _, _, _, _, _, _, h⟩ := s.slotTaken_frame x
  rw [s.commandEndClaim_ports x, h]
  exact ⟨rfl, rfl, rfl, rfl, rfl⟩

/-- The event of the command's end (R90). -/
theorem ExecRecord.outcomeEvent_posted (x : ExecRecord) (events : List Event) :
    (x.outcomeEvent.elim events fun e => enqueueEvent events e) =
      if x.silent = true then events
      else if x.stopRequested = true then enqueueEvent events (Event.ofCommand .cmdError x.commandTag 6)
      else if x.runningSum.isSome = true then enqueueEvent events (Event.ofCommand .sum x.commandTag (x.runningSum.getD 0))
      else if x.clip.map Clip.clipped = some true then enqueueEvent events (Event.ofCommand .cmdWarn x.commandTag 1)
      else if x.notify = true then enqueueEvent events (Event.ofCommand .cmdDone x.commandTag 0)
      else events := by
  have hclip : (x.clip.map Clip.clipped).getD false = true ↔ x.clip.map Clip.clipped = some true := by
    cases x.clip.map Clip.clipped <;> simp
  unfold ExecRecord.outcomeEvent
  split
  · rfl
  · split
    · rfl
    · cases x.runningSum with
      | some sum => rfl
      | none =>
        simp only [hclip, Option.isSome_none, Bool.false_eq_true, if_false]
        split
        · rfl
        · split <;> rfl

theorem State.commandEndClaim_port (s : State) (x : ExecRecord) :
    ((s.commandEndClaim x).port x.port).queue = (if x.silent then (s.port x.port).queue else (s.port x.port).queue.tail) ∧
    ((s.commandEndClaim x).port x.port).events = (x.outcomeEvent.elim (s.port x.port).events fun e => enqueueEvent (s.port x.port).events e) ∧
    (s.commandEndClaim x).port x.port.other = s.port x.port.other := by
  obtain ⟨_, _, _, _, _, _, _, _, h⟩ := s.slotTaken_frame x
  have hport : ∀ z, (s.slotTaken x).port z = s.port z := fun z => by rw [h]; rfl
  rw [State.commandEndClaim_eq, State.popExecuting]
  rw [← hport, ← hport]
  generalize s.slotTaken x = t
  cases x.outcomeEvent <;> split <;> simp [State.popEntry]

/-! ## The slot of the command -/

/-- An evaluation of allocation looks at the pages, the slots, the clear order and the in-flight mark alone (R7). -/
theorem State.evaluateAllocation_slots_congr {s t : State} (hp : t.pages = s.pages) (hs : t.slots = s.slots) (hi : t.inFlight = s.inFlight) :
    t.evaluateAllocation.slots = s.evaluateAllocation.slots := by
  have upTo : ∀ (n : Nat) (s t : State), t.pages = s.pages → t.slots = s.slots → t.inFlight = s.inFlight →
      (State.allocateUpTo n t).slots = (State.allocateUpTo n s).slots := by
    intro n
    induction n with
    | zero => exact fun _ _ _ hs _ => hs
    | succ n ih =>
      intro s t hp hs hi
      have hpred : ∀ j, (decide (t.slot j = .free) && decide (t.inFlight ≠ some j)) = (decide (s.slot j = .free) && decide (s.inFlight ≠ some j)) :=
        fun j => by rw [State.slot_congr hs, hi]
      have hfree : t.freeSlot = s.freeSlot := by simp only [State.freeSlot, State.slotNumbers, hs, hpred]
      simp only [State.allocateUpTo, State.allocateOne, hp, hfree]
      cases s.pages.find? PageRecord.wantsBand with
      | none => exact hs
      | some p =>
        cases s.freeSlot with
        | none => exact hs
        | some i => exact ih _ _ (by simp only [State.mapPage, hp]) (by simp only [hs]) hi
  unfold State.evaluateAllocation
  rw [hs]
  exact upTo _ s t hp hs hi

theorem State.closedByAll_congr {s t : State} (hp : t.pages = s.pages) (hs : t.slots = s.slots) (i : Nat) : t.closedByAll i = s.closedByAll i := by
  simp only [State.closedByAll, State.slot_congr hs, State.findPage_congr hp]

theorem State.readyNotice_of_not_awaited {s : State} {r : PageRef} {b : Nat} (h : ∀ n y, s.streamer ≠ .starved r b n y) : s.readyNotice r b = s := by
  rcases s.readyNotice_cases r b with hc | ⟨n, y, hst, -⟩
  · exact hc
  · exact absurd hst (h n y)

/-- The offer of the page that is found, if it is the head page and can be offered (R33). -/
theorem State.offerIfHead_offers {s : State} {q : PageRecord} {rest : List PageRecord} (hp : s.pages = q :: rest) (hstate : q.state = .pending)
    (hlead : s.leadReady q) :
    s.offerIfHead q.ref = { s with pages := { q with state := .offered } :: rest, streamer := .offered q.ref, prdyLow := none } := by
  have hhead : s.isHead q.ref = true := (s.isHead_iff q.ref).2 ⟨q, by rw [hp]; rfl, rfl⟩
  have hoffer := (State.offerHolds_iff hp).2 ⟨hstate, hlead⟩
  unfold State.offerIfHead State.evaluateOffer
  rw [if_pos hhead]
  simp only [hp, hoffer, if_true, Bool.false_eq_true, if_false]

/-- It is not offered if it is not the head page, not PENDING or without its lead bands. -/
theorem State.offerIfHead_stays {s : State} {q : PageRecord} (hq : s.findPage q.ref = some q)
    (h : s.isHead q.ref = false ∨ q.state ≠ .pending ∨ ¬ s.leadReady q) : s.offerIfHead q.ref = s := by
  unfold State.offerIfHead
  split
  · rename_i hhead
    cases hp : s.pages with
    | nil => simp [State.evaluateOffer, hp]
    | cons p rest =>
      obtain ⟨p', hp', hr⟩ := (s.isHead_iff q.ref).1 hhead
      have hpq : p = q := by
        rw [hp] at hp'
        cases hp'
        rw [State.findPage, hp, List.find?_cons_of_pos (by simpa using hr)] at hq
        exact Option.some.inj hq
      subst hpq
      have hno : s.offerHolds = false := by
        rw [← Bool.not_eq_true, State.offerHolds_iff hp]
        rintro ⟨hstate, hlead⟩
        rcases h with h | h | h
        · rw [hhead] at h; cases h
        · exact h hstate
        · exact h hlead
      simp [State.evaluateOffer, hp, hno]
  · rfl

/-- A slot that goes on holding the same band is found for it as before. -/
theorem State.slotOfBand_setSlot {s : State} {i : Nat} {st st' : HeldState} {k k' : BandRecord} (hi : s.slot i = .held st k) (hpage : k'.page = k.page)
    (hband : k'.band = k.band) (r : PageRef) (b : Nat) : (s.setSlot i (.held st' k')).slotOfBand r b = s.slotOfBand r b := by
  have hlt := State.lt_of_slot_held hi
  unfold State.slotOfBand
  rw [show (s.setSlot i (.held st' k')).slotNumbers = s.slotNumbers by simp [State.slotNumbers, State.setSlot]]
  refine congrArg (fun f => List.find? f s.slotNumbers) (funext fun j => ?_)
  rw [State.slot_setSlot _ _ _ _ hlt]
  split
  · rename_i hj
    rw [hj, hi, Slot.holds, Slot.holds, hpage, hband]
  · rfl

/-- The band as its slot holds it once the command's end has readied it (R62). -/
def BandRecord.readied (k : BandRecord) : BandRecord := { k with forced := k.forced || k.forcePending, forcePending := false }

theorem State.madeReady_eq (s : State) (i : Nat) (k : BandRecord) :
    s.madeReady i k = ((s.setSlot i (.held .ready k.readied)).readyNotice k.page k.band).offerIfHead k.page := rfl

section madeReady

variable {s : State} {i : Nat} {k : BandRecord} {q : PageRecord} (hi : s.slot i = .held .opened k) (hq : s.findPage k.page = some q)
include hq

/-- No starving engine awaits the band: the slot is READY, and its page is offered if it can be (R33, R62, R63). -/
theorem State.madeReady_not_awaited (hst : ∀ n y, s.streamer ≠ .starved k.page k.band n y) :
    (s.madeReady i k).slots = s.slots.set i (.held .ready k.readied) ∧
    (∀ rest, s.pages = q :: rest → q.state = .pending → (s.setSlot i (.held .ready k.readied)).leadReady q →
      (s.madeReady i k).pages = { q with state := .offered } :: rest ∧ (s.madeReady i k).streamer = .offered q.ref ∧ (s.madeReady i k).prdyLow = none) ∧
    (s.isHead q.ref = false ∨ q.state ≠ .pending ∨ ¬ (s.setSlot i (.held .ready k.readied)).leadReady q →
      (s.madeReady i k).pages = s.pages ∧ (s.madeReady i k).streamer = s.streamer) := by
  obtain ⟨-, hr⟩ := State.findPage_some hq
  rw [State.madeReady_eq, State.readyNotice_of_not_awaited (s := s.setSlot i (.held .ready k.readied)) hst, ← hr]
  refine ⟨?_, fun rest hp hstate hlead => ?_, fun h => ?_⟩
  · unfold State.offerIfHead
    split
    · exact State.evaluateOffer_slots _ _
    · rfl
  · rw [State.offerIfHead_offers (s := s.setSlot i (.held .ready k.readied)) hp hstate hlead]
    exact ⟨rfl, rfl, rfl⟩
  · rw [State.offerIfHead_stays (s := s.setSlot i (.held .ready k.readied)) (by rw [hr]; exact hq) h]
    exact ⟨rfl, rfl⟩

include hi

/-- A starving engine awaits the band: it streams, and its line is sent (R160, R163). -/
theorem State.madeReady_awaited {n : Nat} {y : Bool} (hst : s.streamer = .starved k.page k.band n y) (hprint : q.state = .printing)
    (hband : s.slotOfBand k.page k.band = some i) :
    (s.madeReady i k).slots = s.slots.set i (.held .streaming k.readied) ∧ (s.madeReady i k).pages = s.pages ∧
      (s.madeReady i k).streamer = .sending k.page { source := .slot i, word := 0, bits := 0, wordDone := false, early := false } := by
  obtain ⟨-, hr⟩ := State.findPage_some hq
  have hlt := State.lt_of_slot_held hi
  have hfound : (s.setSlot i (.held .ready k.readied)).slotOfBand k.page k.band = some i := (State.slotOfBand_setSlot (k' := k.readied) hi rfl rfl _ _).trans hband
  have hstart := State.startBand_ready hfound (State.slot_setSlot_same (.held .ready k.readied) hlt)
  have hnotice : (s.setSlot i (.held .ready k.readied)).readyNotice k.page k.band =
      ((s.setSlot i (.held .ready k.readied)).setSlot i (.held .streaming k.readied)).beginLine k.page (.slot i) := by
    simp only [State.readyNotice, State.setSlot, hst, and_self, if_true]
    exact (congrArg (fun o => Option.getD o _) hstart :)
  rw [State.madeReady_eq, hnotice, ← hr]
  rw [State.offerIfHead_stays (q := q) (by rw [hr]; exact hq) (.inr (.inl (by rw [hprint]; decide)))]
  exact ⟨List.set_set _ , rfl, rfl⟩

end madeReady

/-- Settles O36: a stopped command's words have no effect, and the claim's own parts in their order. -/
theorem commandEndClaim : Obligations.CommandEndClaim := by
  refine ⟨fun s x hx hstop hop hadr => ?_, fun s x hends hstop hop => ?_, fun s x hx hfin hadr => ?_⟩
  · obtain ⟨hb, ht, y, hy, -, -⟩ := State.StoppedAs.finishWork ⟨rfl, rfl, x, hx, hstop, hop⟩
    obtain ⟨hexec, hmark, hband, htile, -⟩ := s.finishWork.commandEndClaim_rest y
    exact ⟨_, exec_commandEnd hadr hy, hband.trans hb, htile.trans ht, hexec, hmark⟩
  · obtain ⟨hpend, hreset, hdue, hadr, hx, hperiod, -, -⟩ := hends
    obtain ⟨hclear, hwork, -⟩ := State.streamerDue_nil hdue
    have hmore : x.finished = false := by simpa [State.workIsDone, hx] using hwork
    have hword : s.clearTick.rasterTick = { s.clearTick with execution := some x.advance } := by
      have hx' : s.clearTick.execution = some x := by rw [State.clearTick_execution, hx]
      rw [State.rasterTick_word hx' hmore hperiod, State.rasterWord_of_execution hx' hmore, State.touchWord_of_stopped hstop hop]
    obtain ⟨_, _, _, _, _, htick⟩ := s.tick_frame
    refine ⟨s.tick, x.advance, by rw [step_of_no_pending hpend, State.idle_of_period hreset hdue hadr], ?_, ?_, ?_, ?_, fun a => ?_⟩
    · rw [State.tick_execution, hword]
    · rw [x.advance_eq]
    · rw [x.advance_eq]
    · rw [State.tick_tileRam, hword]
      exact s.clearTick_tileRam
    · rw [← State.readBand_clearTick hclear]
      have hworked : s.worked = { s.clearTick with execution := some x.advance } := hword
      rw [htick, hworked]
      rfl
  · have hdone := State.finishWork_of_finished hx hfin
    have hexec : exec .commandEnd s = .next (s.commandEndClaim x) := by
      have := exec_commandEnd hadr (x := x) (by rw [hdone, hx])
      rwa [hdone] at this
    obtain ⟨hnone, hmark, hband, htile, hpointer⟩ := s.commandEndClaim_rest x
    obtain ⟨hqueue, hevents, hother⟩ := s.commandEndClaim_port x
    have hunmarked := s.unmarked_eq x
    refine ⟨_, hexec, hnone, hmark, hband, htile, hpointer, hqueue, hevents.trans (x.outcomeEvent_posted _), hother, fun i hi => ?_⟩
    have htaken : s.slotTaken x = (s.unmarked x).takeEndedSlot i := by simp only [State.slotTaken, hi]
    have hclaim : s.commandEndClaim x = { (s.unmarked x).takeEndedSlot i with ports := (s.commandEndClaim x).ports } := by
      rw [← htaken]
      exact s.commandEndClaim_ports x
    generalize s.commandEndClaim x = t at hclaim
    rw [hclaim]
    have hslots : (s.unmarked x).slots = s.slots := by rw [hunmarked]
    have hpages : (s.unmarked x).pages = s.pages := by rw [hunmarked]
    have hstreamer : (s.unmarked x).streamer = s.streamer := by rw [hunmarked]
    have hinFlight : (s.unmarked x).inFlight = none := by rw [hunmarked]
    generalize s.unmarked x = v at hslots hpages hstreamer hinFlight
    refine ⟨fun hfree => ?_, fun k hk => ?_⟩
    · have hgiven : v.takeEndedSlot i = v.evaluateAllocation := by simp only [State.takeEndedSlot, State.slot_congr hslots, hfree]
      rw [hgiven]
      exact State.evaluateAllocation_slots_congr hpages hslots hinFlight
    · have hk' : v.slot i = .held .opened k := (State.slot_congr hslots i).trans hk
      have hended := State.takeEndedSlot_opened hk'
      rw [State.closedByAll_congr hpages hslots] at hended
      refine ⟨fun hf hc => ?_, fun q hq hready => ?_⟩
      · rw [hended, if_neg (by simp [hf, hc])]
        exact ⟨hslots, hpages, hstreamer⟩
      · rw [if_pos hready] at hended
        rw [hended]
        have hq' : v.findPage k.page = some q := (State.findPage_congr hpages _).trans hq
        have hlead : (v.setSlot i (.held .ready k.readied)).leadReady q ↔ (s.setSlot i (.held .ready k.readied)).leadReady q := by
          have hsame : (v.setSlot i (.held .ready k.readied)).slots = (s.setSlot i (.held .ready k.readied)).slots := by
            rw [State.setSlot, hslots]
            rfl
          simp only [State.leadReady, hsame]
        have hhead := State.isHead_congr hpages q.ref
        refine ⟨fun hst => ?_, fun n y hst hprint hband => ?_⟩
        · obtain ⟨hs, hoffers, hstays⟩ := State.madeReady_not_awaited (i := i) hq' (by rw [hstreamer]; exact hst)
          rw [hpages, hstreamer, hhead, hlead] at hstays
          refine ⟨hs.trans (by rw [hslots]; rfl), fun rest hp hstate hl => ?_, hstays⟩
          obtain ⟨h1, h2, h3⟩ := hoffers rest (hpages.trans hp) hstate (hlead.2 hl)
          exact ⟨h1, h2, by simp only [State.prdy, h2, h3, Option.isNone_none]⟩
        · obtain ⟨hs, hp, hstr⟩ := State.madeReady_awaited hk' hq' (hstreamer.trans hst) hprint ((State.slotOfBand_congr hslots _ _).trans hband)
          exact ⟨hs.trans (by rw [hslots]; rfl), hp.trans hpages, hstr⟩

end Sys2Proof.Machine
end

