-- ==== Sys2Proof/Proofs/ResetApart.lean ====
section
/-! A page while the records of others are reset: its slots stay, allocation may give it FREE ones, and its offer may be made (R7, R8, R33, R49, R58). -/

namespace Sys2Proof.Machine

/-! ## Records, their names and what stays of them -/

/-- What allocation and an offer may change of a record (R8, R33). -/
structure PageRecord.Later (q q' : PageRecord) : Prop where
  same : q' = { q with state := q'.state, nextToAllocate := q'.nextToAllocate }
  state : q'.state = q.state ∨ q.state = .pending ∧ q'.state = .offered
  rises : q.nextToAllocate ≤ q'.nextToAllocate
  blanking : q.state = .blanking → q' = q

namespace PageRecord.Later

variable {q q' q'' : PageRecord}

theorem refl (q : PageRecord) : q.Later q := ⟨rfl, .inl rfl, le_rfl, fun _ => rfl⟩

theorem trans (h : q.Later q') (g : q'.Later q'') : q.Later q'' := by
  refine ⟨?_, ?_, h.rises.trans g.rises, fun hb => ?_⟩
  · rw [g.same, h.same]
  · rcases g.state with hg | ⟨hp, ho⟩
    · rw [hg]
      exact h.state
    · rcases h.state with hh | ⟨-, hh⟩
      · exact .inr ⟨hh.symm.trans hp, ho⟩
      · rw [hp] at hh
        cases hh
  · have hq := h.blanking hb
    subst hq
    exact g.blanking hb

theorem participants (h : q.Later q') : q'.participants = q.participants := by rw [h.same]

theorem ref (h : q.Later q') : q'.ref = q.ref := by rw [h.same]

theorem blanking_iff (h : q.Later q') : q'.state = .blanking ↔ q.state = .blanking := by
  rcases h.state with hs | ⟨hp, ho⟩
  · rw [hs]
  · rw [hp, ho]
    decide

end PageRecord.Later

theorem State.findPage_eq_none_iff_refs {s : State} {r : PageRef} : s.findPage r = none ↔ r ∉ s.pages.map PageRecord.ref := by
  rw [State.findPage_eq_none]
  simp

theorem State.mapPage_refs (s : State) (r : PageRef) (f : PageRecord → PageRecord) (hf : ∀ p, (f p).ref = p.ref) :
    (s.mapPage r f).pages.map PageRecord.ref = s.pages.map PageRecord.ref := by
  rw [State.mapPage_pages, List.map_map]
  refine List.map_congr_left fun p _ => ?_
  simp only [Function.comp_apply]
  split
  · exact hf p
  · rfl

/-- From `v` to `w` page `r` keeps its slots, and FREE slots may have been given to it; its record is a later one. -/
structure State.Apart (r : PageRef) (v w : State) : Prop where
  slot : ∀ i, (v.slot i).ofPage r = true → w.slot i = v.slot i
  fresh : ∀ i, (w.slot i).ofPage r = true → w.slot i = v.slot i ∨ ∃ q k, v.findPage r = some q ∧ q.state ≠ .blanking ∧
    w.slot i = .held .clearing k ∧ k.page = r ∧ q.nextToAllocate ≤ k.band ∧ ∀ q', w.findPage r = some q' → k.band < q'.nextToAllocate
  record : ∀ q, v.findPage r = some q → ∃ q', w.findPage r = some q' ∧ q.Later q'
  refs : (w.pages.map PageRecord.ref).Sublist (v.pages.map PageRecord.ref)

namespace State.Apart

variable {r r0 : PageRef} {u v w : State}

theorem gone (h : v.Apart r w) (hv : v.findPage r = none) : w.findPage r = none :=
  State.findPage_eq_none_iff_refs.2 fun hc => State.findPage_eq_none_iff_refs.1 hv (h.refs.subset hc)

theorem tags (h : v.Apart r w) (hv : (v.pages.map fun p => p.ref.tag).Nodup) : (w.pages.map fun p => p.ref.tag).Nodup := by
  have htags : ∀ s : State, (s.pages.map fun p => p.ref.tag) = (s.pages.map PageRecord.ref).map PageRef.tag := fun s => by
    rw [List.map_map]
    rfl
  rw [htags] at hv ⊢
  exact (h.refs.map _).nodup hv

theorem record_before (h : v.Apart r w) {q' : PageRecord} (hq : w.findPage r = some q') : ∃ q, v.findPage r = some q ∧ q.Later q' := by
  cases hv : v.findPage r with
  | none => rw [h.gone hv] at hq; cases hq
  | some q =>
    obtain ⟨q1, hq1, hl⟩ := h.record q hv
    cases hq.symm.trans hq1
    exact ⟨q, rfl, hl⟩

theorem trans (h : u.Apart r v) (g : v.Apart r w) : u.Apart r w where
  slot i hi := (g.slot i (by rw [h.slot i hi]; exact hi)).trans (h.slot i hi)
  fresh i hi := by
    rcases g.fresh i hi with hw | ⟨q, k, hq, hstate, hw, hk, hlow, hhigh⟩
    · rw [hw] at hi
      rcases h.fresh i hi with hv | ⟨q, k, hq, hstate, hv, hk, hlow, hhigh⟩
      · exact .inl (hw.trans hv)
      · refine .inr ⟨q, k, hq, hstate, hw.trans hv, hk, hlow, fun q' hq' => ?_⟩
        obtain ⟨q1, hq1, hl⟩ := g.record_before hq'
        exact lt_of_lt_of_le (hhigh q1 hq1) hl.rises
    · obtain ⟨q1, hq1, hl⟩ := h.record_before hq
      exact .inr ⟨q1, k, hq1, fun hb => hstate (hl.blanking_iff.2 hb), hw, hk, hl.rises.trans hlow, hhigh⟩
  record q hq := by
    obtain ⟨q1, hq1, h1⟩ := h.record q hq
    obtain ⟨q2, hq2, h2⟩ := g.record q1 hq1
    exact ⟨q2, hq2, h1.trans h2⟩
  refs := g.refs.trans h.refs

/-- The slots stay. -/
theorem of_records (hs : w.slots = v.slots) (hrefs : (w.pages.map PageRecord.ref).Sublist (v.pages.map PageRecord.ref))
    (record : ∀ q, v.findPage r = some q → ∃ q', w.findPage r = some q' ∧ q.Later q') : v.Apart r w :=
  ⟨fun i _ => State.slot_congr hs i, fun i _ => .inl (State.slot_congr hs i), record, hrefs⟩

/-- The records stay, and no slot comes to page `r` or goes from it. -/
theorem of_slots (hp : w.pages = v.pages) (slot : ∀ i, w.slot i = v.slot i ∨ (v.slot i).ofPage r = false ∧ (w.slot i).ofPage r = false) :
    v.Apart r w where
  slot i hi := by
    rcases slot i with h | ⟨h, -⟩
    · exact h
    · rw [h] at hi; cases hi
  fresh i hi := by
    rcases slot i with h | ⟨-, h⟩
    · exact .inl h
    · rw [h] at hi; cases hi
  record q hq := ⟨q, (State.findPage_congr hp r).trans hq, .refl q⟩
  refs := by rw [hp]

theorem congr (hp : w.pages = v.pages) (hs : w.slots = v.slots) : v.Apart r w := of_slots hp fun i => .inl (State.slot_congr hs i)

theorem refl (r : PageRef) (v : State) : v.Apart r v := congr rfl rfl

/-! ## Operations on other pages -/

theorem mapPage (hr : r ≠ r0) (f : PageRecord → PageRecord) (hf : ∀ p, (f p).ref = p.ref) : v.Apart r (v.mapPage r0 f) := by
  refine of_records rfl ?_ fun q hq => ⟨q, (State.findPage_mapPage_ne v f hf hr).trans hq, .refl q⟩
  rw [State.mapPage_refs v r0 f hf]

theorem filterPages (hr : r ≠ r0) (hp : w.pages = v.pages.filter fun p => decide (p.ref ≠ r0)) (hs : w.slots = v.slots) : v.Apart r w := by
  refine of_records hs (by rw [hp]; exact List.filter_sublist.map _) fun q hq => ⟨q, ?_, .refl q⟩
  rw [State.findPage, hp, List.find?_filter, ← hq, State.findPage]
  refine congrArg (fun f => List.find? f v.pages) (funext fun p => ?_)
  by_cases h : p.ref = r
  · simp [h, hr]
  · simp [h]

theorem releaseSlots (hr : r ≠ r0) (keep : Option Nat) : v.Apart r (v.releaseSlots r0 keep) := by
  refine of_slots (by simp) fun i => ?_
  rw [State.releaseSlots_slot]
  split
  · rename_i h
    refine .inr ⟨?_, rfl⟩
    obtain ⟨st, k, hk, hpage⟩ := Slot.held_of_ofPage h.1
    simp [hk, Slot.ofPage, hpage, Ne.symm hr]
  · exact .inl rfl

/-- One allocation may give page `r` a FREE slot (R7, R8). -/
theorem allocateOne (ht : (v.pages.map fun p => p.ref.tag).Nodup) (h : v.allocateOne = some w) : v.Apart r w := by
  obtain ⟨p, i, hwants, hfree, rfl⟩ := State.allocateOne_some h
  obtain ⟨hlt, hf, -⟩ := State.freeSlot_some hfree
  have hp := List.mem_of_find?_eq_some hwants
  have hp' := List.find?_some hwants
  simp only [PageRecord.wantsBand, Bool.and_eq_true, decide_eq_true_eq] at hp'
  have hslot : ∀ j, State.slot { (v.mapPage p.ref fun q => { q with nextToAllocate := q.nextToAllocate + 1 }) with
      slots := v.slots.set i (.held .clearing p.nextBand), clearOrder := v.clearOrder ++ [i],
      clearPos := if v.clearOrder.isEmpty then 0 else v.clearPos } j = if j = i then .held .clearing p.nextBand else v.slot j :=
    fun j => State.slot_setSlot v i j _ hlt
  have hsame : (v.mapPage p.ref fun q => { q with nextToAllocate := q.nextToAllocate + 1 }).findPage p.ref =
      some { p with nextToAllocate := p.nextToAllocate + 1 } := by
    rw [State.findPage_mapPage_same v p.ref (fun q => { q with nextToAllocate := q.nextToAllocate + 1 }) fun _ => rfl, State.findPage_of_mem ht hp]
    rfl
  refine ⟨fun j hj => ?_, fun j hj => ?_, fun q hq => ?_, ?_⟩
  · rw [hslot, if_neg]
    rintro rfl
    rw [hf] at hj
    cases hj
  · rw [hslot] at hj ⊢
    split at hj
    · rename_i hji
      have hpr : p.ref = r := of_decide_eq_true hj
      rw [if_pos hji, ← hpr]
      refine .inr ⟨p, p.nextBand, State.findPage_of_mem ht hp, hp'.2, rfl, rfl, le_rfl, fun q' hq' => ?_⟩
      cases hsame.symm.trans hq'
      exact Nat.lt_succ_self _
    · rename_i hji
      exact .inl (if_neg hji)
  · by_cases hpr : r = p.ref
    · subst hpr
      cases (State.findPage_of_mem ht hp).symm.trans hq
      exact ⟨_, hsame, rfl, .inl rfl, Nat.le_succ _, fun hb => absurd hb hp'.2⟩
    · exact ⟨q, (State.findPage_mapPage_ne v (fun q => { q with nextToAllocate := q.nextToAllocate + 1 }) (fun _ => rfl) hpr).trans hq, .refl q⟩
  · show ((v.mapPage p.ref fun q => { q with nextToAllocate := q.nextToAllocate + 1 }).pages.map PageRecord.ref).Sublist _
    rw [State.mapPage_refs v p.ref (fun q => { q with nextToAllocate := q.nextToAllocate + 1 }) fun _ => rfl]

theorem evaluateAllocation (ht : (v.pages.map fun p => p.ref.tag).Nodup) : v.Apart r v.evaluateAllocation :=
  State.evaluateAllocation_induct (P := v.Apart r) (fun _ _ h hu => h.trans (allocateOne (h.tags ht) hu)) v (refl r v)

theorem evaluateOffer (v : State) (b : Bool) : v.Apart r (v.evaluateOffer b) := by
  refine of_records (State.evaluateOffer_slots v b) (by rw [State.evaluateOffer_refs]) fun q hq => ?_
  rcases v.evaluateOffer_cases b with h | ⟨p, rest, hp, hoffer, h⟩ <;> rw [h]
  · exact ⟨q, hq, .refl q⟩
  · have hpending := ((State.offerHolds_iff hp).1 hoffer).1
    rw [State.findPage, hp] at hq
    by_cases hr : p.ref = r
    · rw [List.find?_cons_of_pos (by simpa using hr)] at hq
      cases hq
      refine ⟨_, List.find?_cons_of_pos (by simpa using hr), rfl, .inr ⟨hpending, rfl⟩, le_rfl, fun hb => ?_⟩
      rw [hpending] at hb
      cases hb
    · rw [List.find?_cons_of_neg (by simpa using hr)] at hq
      exact ⟨q, (List.find?_cons_of_neg (by simpa using hr)).trans hq, .refl q⟩

theorem offerIf (v : State) (c b : Bool) : v.Apart r (if c = true then v.evaluateOffer b else v) := by
  split
  · exact evaluateOffer v b
  · exact refl r v

theorem abortWaiting (v : State) (r0 : PageRef) : v.Apart r (v.abortWaiting r0) := congr (by simp) (by simp)

theorem recheck (v : State) (r0 : PageRef) : v.Apart r (v.recheck r0) := congr (by simp) (by simp)

theorem postAll (v : State) (ps : PortSet) (e : Event) : v.Apart r (v.postAll ps e) := congr (by simp) (by simp)

end State.Apart

/-! ## Readiness -/

/-- A ready notice may start the line of a READY slot that holds the band (R16, R160). -/
theorem State.readyNotice_slot (s : State) (r : PageRef) (b j : Nat) :
    (s.readyNotice r b).slot j = s.slot j ∨
      ∃ k, s.slot j = .held .ready k ∧ k.page = r ∧ (s.readyNotice r b).slot j = .held .streaming k := by
  rcases s.readyNotice_cases r b with h | ⟨_, _, -, h⟩
  · exact .inl (by rw [h])
  · obtain ⟨i, k, hi, hk, h⟩ := State.startBand_some h
    obtain ⟨st, k', hk', hpage, -⟩ := State.slotOfBand_some hi
    cases hk.symm.trans hk'
    have hlt := State.lt_of_slot_held hk
    have hj : (s.readyNotice r b).slot j = if j = i then .held .streaming k else s.slot j := by
      rw [h]
      exact State.slot_setSlot s i j _ hlt
    rw [hj]
    split
    · rename_i hji
      exact .inr ⟨k, hji ▸ hk, hpage, rfl⟩
    · exact .inl rfl

/-- Where the slot is OPEN it takes its band READY, and then its page's line may start (R54, R160). -/
theorem State.openToReady_cases (s : State) (i : Nat) (force : Bool) :
    s.openToReady i force = s ∨ ∃ k, s.slot i = .held .opened k ∧
      s.openToReady i force =
        (s.setSlot i (.held .ready { k with forced := k.forced || force, forcePending := false })).readyNotice k.page k.band := by
  unfold State.openToReady
  split
  · rename_i k hk
    exact .inr ⟨k, hk, rfl⟩
  · exact .inl rfl

namespace State.Apart

variable {r r0 : PageRef} {u v w : State}

theorem openToReady {i : Nat} (hi : ∀ k, v.slot i = .held .opened k → k.page ≠ r) (force : Bool) : v.Apart r (v.openToReady i force) := by
  rcases v.openToReady_cases i force with h | ⟨k, hk, h⟩
  · rw [h]
    exact refl r v
  · have hlt := State.lt_of_slot_held hk
    refine of_slots (State.openToReady_pages v i force) fun j => ?_
    rw [h]
    have hset := State.slot_setSlot v i j (.held .ready { k with forced := k.forced || force, forcePending := false }) hlt
    rcases State.readyNotice_slot (v.setSlot i (.held .ready { k with forced := k.forced || force, forcePending := false })) k.page k.band j with
      hj | ⟨k', hj', hpage, hj⟩
    · rw [hj, hset]
      split
      · rename_i hji
        exact .inr ⟨by simp [hji, hk, Slot.ofPage, hi k hk], by simp [Slot.ofPage, hi k hk]⟩
      · exact .inl rfl
    · have hne : k'.page ≠ r := hpage ▸ hi k hk
      refine .inr ⟨?_, by simp [hj, Slot.ofPage, hne]⟩
      rw [hset] at hj'
      split at hj'
      · rename_i hji
        simp [hji, hk, Slot.ofPage, hi k hk]
      · simp [hj', Slot.ofPage, hne]

theorem participantChange (hr : r ≠ r0) (v : State) : v.Apart r (v.participantChange r0) := by
  have folded : ∀ (l : List Nat) (w : State), v.Apart r w → (∀ i ∈ l, (v.slot i).ofPage r0 = true) →
      v.Apart r (l.foldl (fun t i => t.openToReady i false) w) := by
    intro l
    induction l with
    | nil => exact fun _ hw _ => hw
    | cons i l ih =>
      intro w hw hl
      refine ih _ (hw.trans (openToReady (fun k hk hpage => ?_) false)) fun j hj => hl j (List.mem_cons_of_mem _ hj)
      have hof : (w.slot i).ofPage r = true := by simp [hk, Slot.ofPage, hpage]
      rcases hw.fresh i hof with h | ⟨_, _, -, -, h, -⟩
      · have hv := hl i List.mem_cons_self
        rw [← h, hk] at hv
        exact hr (hpage.symm.trans (of_decide_eq_true hv))
      · rw [hk] at h
        cases h
  unfold State.participantChange
  split
  · exact refl r v
  · refine (folded _ v (refl r v) fun i hi => ?_).trans (offerIf _ _ _)
    have := (List.mem_filter.1 hi).2
    simp only [Bool.and_eq_true] at this
    exact this.1.1

end State.Apart

end Sys2Proof.Machine
end

