-- ==== Sys2Proof/Proofs/ResetOneRecord.lean ====
section
/-! PORT RESET on one record: a page left empty is aborted, a page of both ports is left (R20, R46 to R50, R58, R104, R125). -/

namespace Sys2Proof.Machine

/-! ## The cases -/

theorem PortSet.remove_isEmpty (ps : PortSet) (p : Port) : (ps.remove p).isEmpty = !ps.has p.other := by
  cases p <;> simp [PortSet.remove, PortSet.isEmpty, PortSet.has, Port.other]

theorem PortSet.has_remove_same (ps : PortSet) (p : Port) : (ps.remove p).has p = false := by cases p <;> rfl

theorem PortSet.has_remove_other (ps : PortSet) (p : Port) : (ps.remove p).has p.other = ps.has p.other := by cases p <;> rfl

theorem PortSet.remove_of_not_has {ps : PortSet} {p : Port} (h : ps.has p = false) : ps.remove p = ps := by
  cases p <;> (obtain ⟨a, b⟩ := ps; cases h; rfl)

theorem PageRecord.emptiedBy_iff {q : PageRecord} {p : Port} : q.emptiedBy p = true ↔ q.participants.has p = true ∧ q.participants.has p.other = false := by
  simp [PageRecord.emptiedBy]

/-- The record of a page left without a participant (R50). -/
def PageRecord.deserted (q : PageRecord) : PageRecord := { q with participants := .empty }

theorem State.resetRecord_of_none {v : State} {r : PageRef} (p : Port) (h : v.findPage r = none) : State.resetRecord p v r = v := by
  simp only [State.resetRecord, h]

section cases

variable {v : State} {r : PageRef} {q : PageRecord} {p : Port} (hq : v.findPage r = some q)
include hq

theorem State.resetRecord_of_absent (h : q.participants.has p = false) : State.resetRecord p v r = v := by
  simp only [State.resetRecord, hq, h, Bool.false_eq_true, if_false]

theorem State.resetRecord_of_both (h : q.participants.has p = true) (ho : q.participants.has p.other = true) :
    State.resetRecord p v r = v.leaveRecord q p := by
  simp only [State.resetRecord, hq, h, PortSet.remove_isEmpty, ho, Bool.not_true, Bool.false_eq_true, if_false, if_true]

theorem State.resetRecord_of_emptied (h : q.emptiedBy p = true) : State.resetRecord p v r = (v.mapPage r PageRecord.deserted).abortRecord q.deserted := by
  obtain ⟨hp, ho⟩ := PageRecord.emptiedBy_iff.1 h
  simp only [State.resetRecord, hq, hp, PortSet.remove_isEmpty, ho, Bool.not_false, if_true]
  rfl

end cases

/-! ## What no record's reset changes -/

/-- The mark, the tile store, the pointer, the engine configuration, the counter of pages opened and band RAM. -/
def State.kept (s : State) : Option Nat × WordRam × List Bool × Port × EngineConfig × BitVec 16 × WordRam :=
  (s.inFlight, s.tileRam, s.tileLoaded, s.pointer, s.engine, s.nextInstance, s.bandRam)

theorem State.postAll_kept (s : State) (ps : PortSet) (e : Event) : (s.postAll ps e).kept = s.kept := by rw [State.postAll_eq]; rfl

theorem State.releaseSlots_kept (s : State) (r : PageRef) (keep : Option Nat) : (s.releaseSlots r keep).kept = s.kept := by
  rw [State.releaseSlots_eq]; rfl

theorem State.evaluateAllocation_kept (s : State) : s.evaluateAllocation.kept = s.kept := by rw [State.evaluateAllocation_eq]; rfl

theorem State.abortWaiting_kept (s : State) (r : PageRef) : (s.abortWaiting r).kept = s.kept := by rw [State.abortWaiting_eq]; rfl

theorem State.recheck_kept (s : State) (r : PageRef) : (s.recheck r).kept = s.kept := by rw [State.recheck_eq]; rfl

theorem State.evaluateOffer_kept (s : State) (w : Bool) : (s.evaluateOffer w).kept = s.kept := by
  rcases s.evaluateOffer_cases w with h | ⟨_, _, _, _, h⟩ <;> rw [h]; rfl

theorem State.evaluateOffer_execution (s : State) (w : Bool) : (s.evaluateOffer w).execution = s.execution := by
  rcases s.evaluateOffer_cases w with h | ⟨_, _, _, _, h⟩ <;> rw [h]

theorem State.blankPage_kept (s : State) (p : PageRecord) (cause : SpoilCause) (e : Event) : (s.blankPage p cause e).kept = s.kept := by
  obtain ⟨_, _, _, _, h⟩ := s.blankPage_frame p cause e
  rw [h]
  rfl

theorem State.participantChange_frame (s : State) (r : PageRef) :
    (s.participantChange r).kept = s.kept ∧ (s.participantChange r).ports = s.ports ∧ (s.participantChange r).execution = s.execution := by
  have opened : ∀ (t : State) (i : Nat), (t.openToReady i false).kept = t.kept ∧ (t.openToReady i false).ports = t.ports ∧
      (t.openToReady i false).execution = t.execution := by
    intro t i
    rcases t.openToReady_cases i false with h | ⟨k, -, h⟩ <;> rw [h]
    · exact ⟨rfl, rfl, rfl⟩
    · obtain ⟨_, _, _, h⟩ := State.readyNotice_frame
        (t.setSlot i (.held .ready { k with forced := k.forced || false, forcePending := false })) k.page k.band
      rw [h]
      exact ⟨rfl, rfl, rfl⟩
  have folded : ∀ (l : List Nat) (t : State), (l.foldl (fun t i => t.openToReady i false) t).kept = t.kept ∧
      (l.foldl (fun t i => t.openToReady i false) t).ports = t.ports ∧
      (l.foldl (fun t i => t.openToReady i false) t).execution = t.execution := by
    intro l
    induction l with
    | nil => exact fun _ => ⟨rfl, rfl, rfl⟩
    | cons i l ih =>
      intro t
      obtain ⟨h1, h2, h3⟩ := ih (t.openToReady i false)
      obtain ⟨g1, g2, g3⟩ := opened t i
      exact ⟨h1.trans g1, h2.trans g2, h3.trans g3⟩
  unfold State.participantChange
  split
  · exact ⟨rfl, rfl, rfl⟩
  · obtain ⟨h1, h2, h3⟩ := folded (s.readyOnChange r) s
    obtain ⟨_, _, _, h⟩ := State.offerIfHead_frame ((s.readyOnChange r).foldl (fun t i => t.openToReady i false) s) r
    rw [h]
    exact ⟨h1, h2, h3⟩

/-! ## A page left empty -/

/-- From `v` to `u` page `r` is out of the queue with its slots FREE and its command stopped (R19, R46, R48, R104). -/
structure State.Drops (v u : State) (r : PageRef) : Prop where
  pages : u.pages = v.pages.filter fun p => decide (p.ref ≠ r)
  slot : ∀ i, u.slot i = if (v.slot i).ofPage r = true then .free else v.slot i
  ports : u.ports = v.ports
  execution : u.execution = v.stoppedFor r
  kept : u.kept = v.kept

theorem State.Drops.apart {u v : State} {r r' : PageRef} (h : v.Drops u r) (hr : r' ≠ r) : v.Apart r' u := by
  have freed : v.Apart r' { v with slots := u.slots } := by
    refine .of_slots rfl fun i => ?_
    have hi : State.slot { v with slots := u.slots } i = _ := h.slot i
    rw [hi]
    split
    · rename_i hof
      obtain ⟨st, k, hk, hpage⟩ := Slot.held_of_ofPage hof
      exact .inr ⟨by simp [hk, Slot.ofPage, hpage, Ne.symm hr], rfl⟩
    · exact .inl rfl
  exact freed.trans (.filterPages hr h.pages rfl)

theorem State.removePage_frame (s : State) (r : PageRef) : (s.removePage r).slots = s.slots ∧ (s.removePage r).ports = s.ports ∧
    (s.removePage r).execution = s.execution ∧ (s.removePage r).kept = s.kept := by
  obtain ⟨_, _, h⟩ := s.removePage_eq r
  rw [h]
  exact ⟨rfl, rfl, rfl, rfl⟩

/-- An abort of a page without a participant that is not PRINTING drops it, gives its slots to others and evaluates the next head (R46, R48). -/
theorem State.abortRecord_drops {v : State} {q : PageRecord} (hstate : q.state ≠ .printing) (hparts : q.participants = .empty) :
    ∃ u c b, v.Drops u q.ref ∧
      v.abortRecord q = (if c = true then u.evaluateAllocation.evaluateOffer b else u.evaluateAllocation).abortWaiting q.ref := by
  have unprinted : ∃ u c b, v.Drops u q.ref ∧
      v.removeUnprinted q = (if c = true then u.evaluateAllocation.evaluateOffer b else u.evaluateAllocation).abortWaiting q.ref := by
    obtain ⟨hs, hp, he, hk⟩ := (v.releaseSlots q.ref none).removePage_frame q.ref
    refine ⟨(v.releaseSlots q.ref none).removePage q.ref, v.isHead q.ref, decide (q.state = .offered),
      ⟨?_, fun i => ?_, ?_, ?_, ?_⟩, ?_⟩
    · rw [State.removePage_pages, State.releaseSlots_pages]
    · rw [State.slot_congr hs, State.releaseSlots_slot]
      simp
    · rw [hp, State.releaseSlots_ports]
    · rw [he, State.releaseSlots_execution]
    · rw [hk, State.releaseSlots_kept]
    · unfold State.removeUnprinted
      rw [hparts, State.postAll_empty]
  unfold State.abortRecord
  split
  · exact unprinted
  · exact unprinted
  · rename_i hp
    exact absurd hp hstate
  · obtain ⟨hs, hp, he, hk⟩ := v.removePage_frame q.ref
    refine ⟨(v.removePage q.ref).releaseSlots q.ref none, v.isHead q.ref, false, ⟨?_, fun i => ?_, ?_, ?_, ?_⟩, rfl⟩
    · rw [State.releaseSlots_pages, State.removePage_pages]
    · rw [State.releaseSlots_slot, State.slot_congr hs]
      simp
    · rw [State.releaseSlots_ports, hp]
    · rw [State.releaseSlots_execution, State.stoppedFor, he]
      rfl
    · rw [State.releaseSlots_kept, hk]

/-- What the abort of an empty page leaves of the ports, the executing command, and the rest (R104, R125). -/
structure State.Empties (v w : State) (r : PageRef) : Prop where
  port : ∀ z, w.port z = { v.port z with queue := v.queueAfterAbort r z, events := v.eventsAfterAbort r z (v.port z).events }
  execution : w.execution = v.stoppedFor r
  kept : w.kept = v.kept
  apart : ∀ r', r' ≠ r → (v.pages.map fun p => p.ref.tag).Nodup → v.Apart r' w

theorem State.abortRecord_empties (v : State) {q : PageRecord} (hparts : q.participants = .empty) : v.Empties (v.abortRecord q) q.ref := by
  by_cases hstate : q.state = .printing
  · have habort : v.abortRecord q = v.blankPage q .aborted (Event.ofPage .pageAborted q.ref.tag SpoilCause.aborted.code) := by
      simp only [State.abortRecord, hstate]
    rw [habort]
    refine ⟨fun z => ?_, State.blankPage_execution _ _ _ _, State.blankPage_kept _ _ _ _, fun r' hr ht => ?_⟩
    · have hnone : q.participants.has z = false := by rw [hparts]; cases z <;> rfl
      rw [State.blankPage_port, hnone]
      rfl
    · have stored : v.Apart r' (v.blankedStore q .aborted (Event.ofPage .pageAborted q.ref.tag SpoilCause.aborted.code)) :=
        ((State.Apart.postAll v _ _).trans (.mapPage hr (PageRecord.blanked .aborted) fun _ => rfl)).trans (.releaseSlots hr _)
      exact (stored.trans (.evaluateAllocation (stored.tags ht))).trans (.congr (State.blankPage_pages _ _ _ _) (State.blankPage_slots _ _ _ _))
  · obtain ⟨u, c, b, hu, h⟩ := State.abortRecord_drops (v := v) hstate hparts
    rw [h]
    have offered : ∀ t : State, t.ports = (if c = true then t.evaluateOffer b else t).ports ∧
        (if c = true then t.evaluateOffer b else t).execution = t.execution ∧ (if c = true then t.evaluateOffer b else t).kept = t.kept := by
      intro t
      split
      · exact ⟨(t.evaluateOffer_ports b).symm, t.evaluateOffer_execution b, t.evaluateOffer_kept b⟩
      · exact ⟨rfl, rfl, rfl⟩
    obtain ⟨hports, hexec, hkept⟩ := offered u.evaluateAllocation
    have hport : ∀ z, (if c = true then u.evaluateAllocation.evaluateOffer b else u.evaluateAllocation).port z = v.port z := fun z => by
      rw [State.port, ← hports, State.evaluateAllocation_ports, hu.ports]
      rfl
    refine ⟨fun z => ?_, ?_, ?_, fun r' hr ht => ?_⟩
    · rw [State.abortWaiting_port, State.queueAfterAbort_congr (s := v) (by rw [hport]), State.eventsAfterAbort_congr (s := v) (by rw [hport]), hport]
    · rw [State.abortWaiting_eq]
      exact hexec.trans ((State.evaluateAllocation_execution u).trans hu.execution)
    · rw [State.abortWaiting_kept, hkept, State.evaluateAllocation_kept, hu.kept]
    · have dropped := hu.apart hr
      exact ((dropped.trans (.evaluateAllocation (dropped.tags ht))).trans (.offerIf _ _ _)).trans (.abortWaiting _ _)

/-- A dropped page is not found, and no slot holds a band of it (R19). -/
theorem State.Drops.none_left {u v : State} {r : PageRef} (h : v.Drops u r) (c b : Bool) :
    ((if c = true then u.evaluateAllocation.evaluateOffer b else u.evaluateAllocation).abortWaiting r).findPage r = none ∧
      ∀ i, (((if c = true then u.evaluateAllocation.evaluateOffer b else u.evaluateAllocation).abortWaiting r).slot i).ofPage r = false := by
  have hnot : r ∉ u.pages.map PageRecord.ref := by
    rw [h.pages]
    simp
  have hrefs : u.evaluateAllocation.pages.map PageRecord.ref = u.pages.map PageRecord.ref := by
    have := congrArg (List.map PageRecord.ref) u.evaluateAllocation_allocates.pages
    rwa [List.map_map, List.map_map] at this
  have hslots : ((if c = true then u.evaluateAllocation.evaluateOffer b else u.evaluateAllocation).abortWaiting r).slots = u.evaluateAllocation.slots := by
    rw [State.abortWaiting_slots]
    split
    · exact State.evaluateOffer_slots _ _
    · rfl
  constructor
  · rw [State.findPage_eq_none_iff_refs, State.abortWaiting_pages]
    split
    · rw [State.evaluateOffer_refs, hrefs]
      exact hnot
    · rw [hrefs]
      exact hnot
  · intro i
    rw [State.slot_congr hslots]
    rcases u.evaluateAllocation_gives.slot i with hi | ⟨-, -, q, hq, b', -, -, -, hi⟩
    · rw [hi, h.slot]
      split
      · rfl
      · rename_i hof
        simpa using hof
    · rw [hi]
      have hne : q.ref ≠ r := fun hc => hnot (hc ▸ List.mem_map_of_mem hq)
      simp [Slot.ofPage, PageRecord.nextBand, hne]

theorem State.abortRecord_none_left {v : State} {q : PageRecord} (hstate : q.state ≠ .printing) (hparts : q.participants = .empty) :
    (v.abortRecord q).findPage q.ref = none ∧ ∀ i, ((v.abortRecord q).slot i).ofPage q.ref = false := by
  obtain ⟨u, c, b, hu, h⟩ := State.abortRecord_drops (v := v) hstate hparts
  rw [h]
  exact hu.none_left c b

/-! ## A page of both ports -/

/-- Slots of a page that its participant change readies: an OPEN slot goes READY or STREAMING with its band, a READY slot may go STREAMING (R58, R160). -/
def Slot.readiedTo (x y : Slot) : Prop :=
  y = x ∨ (∃ k, x = .held .ready k ∧ y = .held .streaming k) ∨
    ∃ k st, x = .held .opened k ∧ (st = .ready ∨ st = .streaming) ∧ y = .held st { k with forcePending := false }

theorem Slot.readiedTo.trans {x y z : Slot} (h : x.readiedTo y) (g : y.readiedTo z) : x.readiedTo z := by
  rcases h with rfl | ⟨k, rfl, rfl⟩ | ⟨k, st, rfl, hst, rfl⟩
  · exact g
  · rcases g with rfl | ⟨_, hc, -⟩ | ⟨_, _, hc, -⟩
    · exact .inr (.inl ⟨k, rfl, rfl⟩)
    · cases hc
    · cases hc
  · rcases g with rfl | ⟨k', hc, rfl⟩ | ⟨_, _, hc, -⟩
    · exact .inr (.inr ⟨k, st, rfl, hst, rfl⟩)
    · cases hc
      exact .inr (.inr ⟨k, .streaming, rfl, .inr rfl, rfl⟩)
    · cases hc
      rcases hst with h | h <;> cases h

theorem State.readyNotice_readies (s : State) (r : PageRef) (b j : Nat) : (s.slot j).readiedTo ((s.readyNotice r b).slot j) := by
  rcases s.readyNotice_slot r b j with h | ⟨k, hk, -, h⟩
  · exact .inl h
  · exact .inr (.inl ⟨k, hk, h⟩)

/-- An OPEN slot that goes READY does so alone (R54). -/
theorem State.openToReady_readies (s : State) (i j : Nat) : (s.slot j).readiedTo ((s.openToReady i false).slot j) ∧
    (j ≠ i → ∀ k, s.slot j = .held .opened k → (s.openToReady i false).slot j = .held .opened k) ∧
    (j = i → ∀ k, s.slot j = .held .opened k →
      ∃ st, (st = .ready ∨ st = .streaming) ∧ (s.openToReady i false).slot j = .held st { k with forcePending := false }) := by
  rcases s.openToReady_cases i false with h | ⟨k, hk, h⟩
  · have hstay : (s.openToReady i false).slot j = s.slot j := by rw [h]
    refine ⟨.inl hstay, fun _ k hk => hstay.trans hk, fun hji k hk => ?_⟩
    subst hji
    simp only [State.openToReady, hk] at h
    have hready := State.readyNotice_readies (s.setSlot j (.held .ready { k with forced := k.forced || false, forcePending := false })) k.page k.band j
    rw [h, State.slot_setSlot_same _ (State.lt_of_slot_held hk), hk] at hready
    rcases hready with hc | ⟨_, _, hc⟩ | ⟨_, _, hc, -⟩ <;> cases hc
  · have hlt := State.lt_of_slot_held hk
    have hforced : (k.forced || false) = k.forced := Bool.or_false _
    rw [hforced] at h
    have hset := State.slot_setSlot s i j (.held .ready { k with forcePending := false }) hlt
    have hnotice := State.readyNotice_readies (s.setSlot i (.held .ready { k with forcePending := false })) k.page k.band j
    rw [← h, hset] at hnotice
    by_cases hji : j = i
    · subst hji
      rw [if_pos rfl] at hnotice
      have hready : ∃ st, (st = HeldState.ready ∨ st = .streaming) ∧ (s.openToReady j false).slot j = .held st { k with forcePending := false } := by
        rcases hnotice with hc | ⟨k', hc, hd⟩ | ⟨_, _, hc, -⟩
        · exact ⟨.ready, .inl rfl, hc⟩
        · cases hc
          exact ⟨.streaming, .inr rfl, hd⟩
        · cases hc
      obtain ⟨st, hst, hslot⟩ := hready
      refine ⟨.inr (.inr ⟨k, st, hk, hst, hslot⟩), fun hc => absurd rfl hc, fun _ k' hk' => ?_⟩
      cases hk.symm.trans hk'
      exact ⟨st, hst, hslot⟩
    · rw [if_neg hji] at hnotice
      refine ⟨hnotice, fun _ k' hk' => ?_, fun hc => absurd hc hji⟩
      rw [hk'] at hnotice
      rcases State.readyNotice_slot (s.setSlot i (.held .ready { k with forcePending := false })) k.page k.band j with hc | ⟨_, hc, -⟩
      · rw [h, hc, hset, if_neg hji, hk']
      · rw [hset, if_neg hji, hk'] at hc
        cases hc

theorem State.foldl_openToReady (l : List Nat) (s : State) (j : Nat) :
    (s.slot j).readiedTo ((l.foldl (fun t i => t.openToReady i false) s).slot j) ∧
    (j ∉ l → ∀ k, s.slot j = .held .opened k → (l.foldl (fun t i => t.openToReady i false) s).slot j = .held .opened k) ∧
    (j ∈ l → ∀ k, s.slot j = .held .opened k →
      ∃ st, (st = .ready ∨ st = .streaming) ∧ (l.foldl (fun t i => t.openToReady i false) s).slot j = .held st { k with forcePending := false }) := by
  induction l generalizing s with
  | nil => exact ⟨.inl rfl, fun _ _ hk => hk, fun hc => (nomatch hc)⟩
  | cons i l ih =>
    obtain ⟨h1, h2, h3⟩ := s.openToReady_readies i j
    obtain ⟨g1, g2, g3⟩ := ih (s.openToReady i false)
    refine ⟨h1.trans g1, fun hnot k hk => ?_, fun hmem k hk => ?_⟩
    · simp only [List.mem_cons, not_or] at hnot
      exact g2 hnot.2 k (h2 hnot.1 k hk)
    · by_cases hji : j = i
      · obtain ⟨st, hst, hslot⟩ := h3 hji k hk
        rw [hslot] at g1
        rcases g1 with hc | ⟨k', hc, hd⟩ | ⟨_, _, hc, -⟩
        · exact ⟨st, hst, hc⟩
        · cases hc
          exact ⟨.streaming, .inr rfl, hd⟩
        · cases hc
          rcases hst with hst | hst <;> cases hst
      · exact g3 ((List.mem_cons.1 hmem).resolve_left hji) k (h2 hji k hk)

/-- The participant change: OPEN slots that are closed by all that remain go READY, but for the command's (R55, R58). -/
theorem State.participantChange_slot (s : State) (r : PageRef) (j : Nat) :
    (s.slot j).readiedTo ((s.participantChange r).slot j) ∧
    (j ∉ s.readyOnChange r → ∀ k, s.slot j = .held .opened k → (s.participantChange r).slot j = .held .opened k) ∧
    (j ∈ s.readyOnChange r → ∀ k, s.slot j = .held .opened k →
      ∃ st, (st = .ready ∨ st = .streaming) ∧ (s.participantChange r).slot j = .held st { k with forcePending := false }) := by
  have hslots : (s.participantChange r).slots = ((s.readyOnChange r).foldl (fun t i => t.openToReady i false) s).slots := by
    unfold State.participantChange
    split
    · rename_i h
      rw [h]
      rfl
    · unfold State.offerIfHead
      split
      · exact State.evaluateOffer_slots _ _
      · rfl
  rw [State.slot_congr hslots]
  exact State.foldl_openToReady _ s j

/-- The part when the participant change of page `q` is evaluated: its participant has left, and the others know (R42, R49). -/
def State.parted (s : State) (q : PageRecord) (p : Port) : State :=
  (s.mapPage q.ref fun x => { x with participants := x.participants.remove p }).postAll (q.participants.remove p)
    (Event.ofPage .participantLeft q.ref.tag (if p = .a then 1 else 2))

theorem State.leaveRecord_eq (s : State) (q : PageRecord) (p : Port) :
    s.leaveRecord q p = ((s.parted q p).participantChange q.ref).recheck q.ref := by cases p <;> rfl

section leave

variable {v : State} {q : PageRecord} {p : Port}

theorem State.parted_findPage (hq : v.findPage q.ref = some q) :
    (v.parted q p).findPage q.ref = some { q with participants := q.participants.remove p } := by
  have hpages : (v.parted q p).pages = (v.mapPage q.ref fun x => { x with participants := x.participants.remove p }).pages := State.postAll_pages _ _ _
  rw [State.findPage_congr hpages,
    State.findPage_mapPage_same v q.ref (fun x => { x with participants := x.participants.remove p }) fun _ => rfl, hq]
  rfl

theorem State.leaveRecord_port (v : State) (q : PageRecord) (p : Port) (z : Port) :
    (v.leaveRecord q p).port z = { v.port z with
      queue := v.queueAfterRecheck (v.leaveRecord q p) q.ref z,
      events := if (q.participants.remove p).has z = true then
          enqueueEvent (v.port z).events (Event.ofPage .participantLeft q.ref.tag (if p = .a then 1 else 2))
        else (v.port z).events } := by
  have hport : ((v.parted q p).participantChange q.ref).port z = { v.port z with
      events := if (q.participants.remove p).has z = true then
          enqueueEvent (v.port z).events (Event.ofPage .participantLeft q.ref.tag (if p = .a then 1 else 2))
        else (v.port z).events } := by
    rw [State.port, ((v.parted q p).participantChange_frame q.ref).2.1]
    show (v.parted q p).port z = _
    unfold State.parted
    rw [State.postAll_port]
    split <;> rfl
  have hcheck : ((v.parted q p).participantChange q.ref).queueAfterRecheck ((v.parted q p).participantChange q.ref) q.ref z =
      v.queueAfterRecheck (v.leaveRecord q p) q.ref z :=
    State.queueAfterRecheck_congr (by rw [hport]) (by rw [State.leaveRecord_eq, State.recheck_pages]) (by rw [State.leaveRecord_eq, State.recheck_slots]) _
  rw [← hcheck, State.leaveRecord_eq, State.recheck_port, hport]

theorem State.leaveRecord_rest (v : State) (q : PageRecord) (p : Port) :
    (v.leaveRecord q p).execution = v.execution ∧ (v.leaveRecord q p).kept = v.kept := by
  obtain ⟨hk, -, he⟩ := (v.parted q p).participantChange_frame q.ref
  rw [State.leaveRecord_eq, State.recheck_kept, State.recheck_eq, hk]
  refine ⟨he.trans ?_, ?_⟩
  · exact State.postAll_execution _ _ _
  · exact (State.postAll_kept _ _ _).trans rfl

theorem State.leaveRecord_apart {r' : PageRef} (hr : r' ≠ q.ref) (v : State) (p : Port) : v.Apart r' (v.leaveRecord q p) := by
  rw [State.leaveRecord_eq]
  exact (((State.Apart.mapPage hr (fun x => { x with participants := x.participants.remove p }) fun _ => rfl).trans (.postAll _ _ _)).trans
    (.participantChange hr _)).trans (.recheck _ _)

/-- The record of the page: without the port, and offered where it can be (R49, R58). -/
theorem State.leaveRecord_findPage (hq : v.findPage q.ref = some q) :
    ∃ q', (v.leaveRecord q p).findPage q.ref = some q' ∧ PageRecord.Later { q with participants := q.participants.remove p } q' := by
  have hparted := State.parted_findPage (p := p) hq
  have folded : ∀ (l : List Nat) (t : State), (l.foldl (fun t i => t.openToReady i false) t).pages = t.pages := by
    intro l
    induction l with
    | nil => exact fun _ => rfl
    | cons i l ih => exact fun t => (ih _).trans (t.openToReady_pages i false)
  rw [State.findPage_congr (show (v.leaveRecord q p).pages = ((v.parted q p).participantChange q.ref).pages by
    rw [State.leaveRecord_eq, State.recheck_pages])]
  unfold State.participantChange
  split
  · exact ⟨_, hparted, .refl _⟩
  · exact (State.Apart.offerIf _ _ _).record _ ((State.findPage_congr (folded _ _) _).trans hparted)

/-- Its OPEN slots (R55, R58). -/
theorem State.leaveRecord_slot (v : State) (q : PageRecord) (p : Port) (j : Nat) :
    (v.slot j).readiedTo ((v.leaveRecord q p).slot j) ∧
    (j ∉ (v.parted q p).readyOnChange q.ref → ∀ k, v.slot j = .held .opened k → (v.leaveRecord q p).slot j = .held .opened k) ∧
    (j ∈ (v.parted q p).readyOnChange q.ref → ∀ k, v.slot j = .held .opened k →
      ∃ st, (st = .ready ∨ st = .streaming) ∧ (v.leaveRecord q p).slot j = .held st { k with forcePending := false }) := by
  have hparted : (v.parted q p).slot j = v.slot j := State.slot_congr (State.postAll_slots _ _ _) j
  have hleft : (v.leaveRecord q p).slot j = ((v.parted q p).participantChange q.ref).slot j := by
    rw [State.leaveRecord_eq]
    exact State.slot_congr (State.recheck_slots _ _) j
  rw [← hparted, hleft]
  exact (v.parted q p).participantChange_slot q.ref j

/-- Which OPEN slots of the page go READY: those that the other port has closed, but for the command's (R55, R58). -/
theorem State.mem_readyOnChange (hq : v.findPage q.ref = some q) (hother : q.participants.has p.other = true) {i : Nat} {k : BandRecord}
    (hi : v.slot i = .held .opened k) (hk : k.page = q.ref) :
    i ∈ (v.parted q p).readyOnChange q.ref ↔ v.inFlight ≠ some i ∧ k.closedBy.has p.other = true := by
  have hslot : (v.parted q p).slot i = .held .opened k := (State.slot_congr (State.postAll_slots _ _ _) i).trans hi
  have hparted : (v.parted q p).findPage k.page = some { q with participants := q.participants.remove p } := by
    rw [hk, State.parted_findPage hq]
  have hmark : (v.parted q p).inFlight = v.inFlight := State.postAll_inFlight _ _ _
  have hwithin : (q.participants.remove p).within k.closedBy = k.closedBy.has p.other := by
    revert hother
    cases p <;> simp [PortSet.within, PortSet.remove, PortSet.has, Port.other] <;> intro h <;> simp [h]
  have hclosed : (v.parted q p).closedByAll i = k.closedBy.has p.other := by
    simp only [State.closedByAll, hslot, hparted]
    exact hwithin
  have hlt : i < (v.parted q p).slots.length := State.lt_of_slot_held hslot
  simp only [State.readyOnChange, State.slotNumbers, List.mem_filter, List.mem_range, hlt, hslot, Slot.ofPage, hk, decide_true, Bool.true_and,
    hclosed, hmark, Bool.and_eq_true, decide_eq_true_eq, true_and]
  exact and_comm

end leave

end Sys2Proof.Machine
end

