-- ==== Sys2Proof/Proofs/ResetAllRecords.lean ====
section
/-! PORT RESET's way through the page records (R20, R46 to R50, R58, R104, R125). -/

namespace Sys2Proof.Machine

/-! ## One record -/

/-- The reset of a page left empty is its abort (R50). -/
theorem State.resetRecord_empties {v : State} {q : PageRecord} {p : Port} (hq : v.findPage q.ref = some q) (h : q.emptiedBy p = true) :
    v.Empties (State.resetRecord p v q.ref) q.ref := by
  have aborted := (v.mapPage q.ref PageRecord.deserted).abortRecord_empties (q := q.deserted) rfl
  rw [State.resetRecord_of_emptied hq h]
  refine ⟨aborted.port, aborted.execution, aborted.kept, fun r' hr ht => ?_⟩
  have mapped : v.Apart r' (v.mapPage q.ref PageRecord.deserted) := .mapPage hr PageRecord.deserted fun _ => rfl
  exact mapped.trans (aborted.apart r' hr (mapped.tags ht))

/-- A page the port is not in stays, a page of both is left, and a page of the port alone is aborted (R49, R50). -/
theorem State.resetRecord_cases (p : Port) (v : State) (r : PageRef) :
    (State.resetRecord p v r = v ∧ ∀ q, v.findPage r = some q → q.participants.has p = false) ∨
    (∃ q, v.findPage q.ref = some q ∧ q.ref = r ∧ q.participants.has p = true ∧ q.participants.has p.other = true ∧
      State.resetRecord p v r = v.leaveRecord q p) ∨
    ∃ q, v.findPage q.ref = some q ∧ q.ref = r ∧ q.emptiedBy p = true ∧ v.Empties (State.resetRecord p v r) r := by
  cases hq : v.findPage r with
  | none => exact .inl ⟨State.resetRecord_of_none p hq, fun q hc => (nomatch hc)⟩
  | some q =>
    obtain rfl := (State.findPage_some hq).2
    cases hp : q.participants.has p with
    | false =>
      refine .inl ⟨State.resetRecord_of_absent hq hp, fun q' hq' => ?_⟩
      cases hq'
      exact hp
    | true =>
      cases ho : q.participants.has p.other with
      | true => exact .inr (.inl ⟨q, hq, rfl, hp, ho, State.resetRecord_of_both hq hp ho⟩)
      | false =>
        have he := PageRecord.emptiedBy_iff.2 ⟨hp, ho⟩
        exact .inr (.inr ⟨q, hq, rfl, he, State.resetRecord_empties hq he⟩)

section record

variable {p : Port} {v : State} {r r' : PageRef}

theorem State.resetRecord_apart (hr : r' ≠ r) (ht : (v.pages.map fun p => p.ref.tag).Nodup) : v.Apart r' (State.resetRecord p v r) := by
  rcases State.resetRecord_cases p v r with ⟨h, -⟩ | ⟨q, -, rfl, -, -, h⟩ | ⟨q, -, -, -, h⟩
  · rw [h]
    exact .refl r' v
  · rw [h]
    exact State.leaveRecord_apart hr v p
  · exact h.apart r' hr ht

theorem State.resetRecord_kept (p : Port) (v : State) (r : PageRef) : (State.resetRecord p v r).kept = v.kept := by
  rcases State.resetRecord_cases p v r with ⟨h, -⟩ | ⟨q, -, -, -, -, h⟩ | ⟨q, -, -, -, h⟩
  · rw [h]
  · rw [h]
    exact (v.leaveRecord_rest q p).2
  · exact h.kept

theorem PageRef.exists_ne (r : PageRef) : ∃ r' : PageRef, r' ≠ r :=
  ⟨{ r with tag := r.tag + 1 }, fun h => by simpa using congrArg PageRef.tag h⟩

/-- No record joins the queue. -/
theorem State.resetRecord_refs (p : Port) (r : PageRef) (ht : (v.pages.map fun p => p.ref.tag).Nodup) :
    ((State.resetRecord p v r).pages.map PageRecord.ref).Sublist (v.pages.map PageRecord.ref) ∧
      ((State.resetRecord p v r).pages.map fun p => p.ref.tag).Nodup := by
  obtain ⟨r', hr⟩ := r.exists_ne
  have apart := State.resetRecord_apart (p := p) hr ht
  exact ⟨apart.refs, apart.tags ht⟩

/-- Of a port only its queues can change. -/
theorem State.resetRecord_port (p : Port) (v : State) (r : PageRef) (z : Port) :
    ∃ queue events, (State.resetRecord p v r).port z = { v.port z with queue := queue, events := events } := by
  rcases State.resetRecord_cases p v r with ⟨h, -⟩ | ⟨q, -, -, -, -, h⟩ | ⟨q, -, -, -, h⟩
  · exact ⟨_, _, by rw [h]⟩
  · exact ⟨_, _, by rw [h, State.leaveRecord_port]⟩
  · exact ⟨_, _, h.port z⟩

/-- The port's own queues, once empty, stay so: no WAITING head is in them, and the port hears nothing of its own leaving. -/
theorem State.resetRecord_own (h : (v.port p).queue = []) (r : PageRef) : (State.resetRecord p v r).port p = v.port p := by
  have same : { v.port p with queue := [] } = v.port p := by rw [← h]
  rcases State.resetRecord_cases p v r with ⟨hv, -⟩ | ⟨q, -, -, -, -, hv⟩ | ⟨q, -, -, -, hv⟩
  · rw [hv]
  · rw [hv, State.leaveRecord_port, PortSet.has_remove_same]
    simp only [State.queueAfterRecheck, h, Bool.false_eq_true, if_false]
    exact same
  · rw [hv.port]
    simp only [State.queueAfterAbort, State.eventsAfterAbort, State.waitsOn, State.headEntry, h, List.head?_nil, Bool.false_eq_true, if_false]
    exact same

/-- A queue whose head does not wait for the page stays. -/
theorem State.resetRecord_queue (z : Port) (h : v.waitsOn z r = false) : ((State.resetRecord p v r).port z).queue = (v.port z).queue := by
  rcases State.resetRecord_cases p v r with ⟨hv, -⟩ | ⟨q, -, rfl, -, -, hv⟩ | ⟨q, -, -, -, hv⟩
  · rw [hv]
  · rw [hv, State.leaveRecord_port]
    exact State.queueAfterRecheck_of_not_waits h _
  · rw [hv.port]
    simp only [State.queueAfterAbort, h, Bool.false_eq_true, if_false]

/-- After the repeated check no head waits that did not wait before it. -/
theorem State.waitsOn_of_recheck {w t : State} {z : Port} (hq : (w.port z).queue = v.queueAfterRecheck t r z) (h : w.waitsOn z r' = true) :
    v.waitsOn z r' = true := by
  unfold State.waitsOn State.headEntry at h ⊢
  rw [hq] at h
  unfold State.queueAfterRecheck at h
  cases hv : (v.port z).queue with
  | nil => simp [hv] at h
  | cons e es =>
    simp only [hv] at h
    by_cases hc : e.life = .waiting ∧ e.page = some r ∧ t.executionCheck z r (e.band.getD 0) ≠ .wait
    · rw [if_pos hc] at h
      simp at h
    · rw [if_neg hc] at h
      exact h

theorem State.resetRecord_waitsOn {z : Port} (hz : ∀ q, v.findPage r = some q → q.emptiedBy p = true → v.waitsOn z r = false)
    (h : (State.resetRecord p v r).waitsOn z r' = true) : v.waitsOn z r' = true := by
  rcases State.resetRecord_cases p v r with ⟨hv, -⟩ | ⟨q, -, -, -, -, hv⟩ | ⟨q, hq, rfl, he, hv⟩
  · rw [hv] at h
    exact h
  · refine State.waitsOn_of_recheck (t := v.leaveRecord q p) (r := q.ref) ?_ h
    rw [hv, State.leaveRecord_port]
  · rwa [State.waitsOn_congr (State.resetRecord_queue z (hz q hq he))] at h

end record

/-! ## All records -/

/-- The work of PORT RESET on the records that are queued when it begins (R49). -/
def State.resetAll (p : Port) (v : State) : State := (v.pages.map PageRecord.ref).foldl (State.resetRecord p) v

theorem State.foldl_resetRecord_refs (p : Port) (l : List PageRef) (v : State) (ht : (v.pages.map fun p => p.ref.tag).Nodup) :
    ((l.foldl (State.resetRecord p) v).pages.map PageRecord.ref).Sublist (v.pages.map PageRecord.ref) ∧
      ((l.foldl (State.resetRecord p) v).pages.map fun p => p.ref.tag).Nodup := by
  induction l generalizing v with
  | nil => exact ⟨List.Sublist.refl _, ht⟩
  | cons r l ih =>
    obtain ⟨hsub, htags⟩ := State.resetRecord_refs p r ht
    obtain ⟨hsub', htags'⟩ := ih _ htags
    exact ⟨hsub'.trans hsub, htags'⟩

theorem State.foldl_resetRecord_kept (p : Port) (l : List PageRef) (v : State) : (l.foldl (State.resetRecord p) v).kept = v.kept := by
  induction l generalizing v with
  | nil => rfl
  | cons r l ih => exact (ih _).trans (v.resetRecord_kept p r)

theorem State.foldl_resetRecord_apart {r : PageRef} (p : Port) {l : List PageRef} (hr : r ∉ l) (v : State) (ht : (v.pages.map fun p => p.ref.tag).Nodup) :
    v.Apart r (l.foldl (State.resetRecord p) v) := by
  induction l generalizing v with
  | nil => exact .refl r v
  | cons r0 l ih =>
    simp only [List.mem_cons, not_or] at hr
    exact (State.resetRecord_apart hr.1 ht).trans (ih hr.2 _ (State.resetRecord_refs p r0 ht).2)

theorem State.foldl_resetRecord_port (p : Port) (l : List PageRef) (v : State) (z : Port) :
    ∃ queue events, (l.foldl (State.resetRecord p) v).port z = { v.port z with queue := queue, events := events } := by
  induction l generalizing v with
  | nil => exact ⟨_, _, rfl⟩
  | cons r l ih =>
    obtain ⟨_, _, h⟩ := ih (State.resetRecord p v r)
    obtain ⟨_, _, g⟩ := v.resetRecord_port p r z
    exact ⟨_, _, by rw [List.foldl_cons, h, g]⟩

theorem State.foldl_resetRecord_own {p : Port} (l : List PageRef) {v : State} (h : (v.port p).queue = []) :
    (l.foldl (State.resetRecord p) v).port p = v.port p := by
  induction l generalizing v with
  | nil => rfl
  | cons r l ih =>
    have hr := State.resetRecord_own h r
    exact (ih (by rw [hr]; exact h)).trans hr

/-- A queue stays whose head waits for no page that the port is in. -/
theorem State.foldl_resetRecord_queue {p : Port} (z : Port) {l : List PageRef} (hl : l.Nodup) {v : State}
    (ht : (v.pages.map fun p => p.ref.tag).Nodup)
    (h : ∀ r ∈ l, v.waitsOn z r = true → ∃ q, v.findPage r = some q ∧ q.participants.has p = false) :
    ((l.foldl (State.resetRecord p) v).port z).queue = (v.port z).queue := by
  induction l generalizing v with
  | nil => rfl
  | cons r l ih =>
    obtain ⟨hr, hl⟩ := List.nodup_cons.1 hl
    have hstep : ((State.resetRecord p v r).port z).queue = (v.port z).queue := by
      cases hw : v.waitsOn z r with
      | false => exact State.resetRecord_queue z hw
      | true =>
        obtain ⟨q, hq, hp⟩ := h r List.mem_cons_self hw
        rw [State.resetRecord_of_absent hq hp]
    refine (ih hl (State.resetRecord_refs p r ht).2 fun r' hr' hw => ?_).trans hstep
    rw [State.waitsOn_congr hstep] at hw
    obtain ⟨q, hq, hp⟩ := h r' (List.mem_cons_of_mem _ hr') hw
    obtain ⟨q', hq', hlater⟩ := (State.resetRecord_apart (p := p) (fun hc : r' = r => hr (hc ▸ hr')) ht).record q hq
    exact ⟨q', hq', by rw [hlater.participants]; exact hp⟩

/-! ## The records to come -/

/-- The pages of `l` are still to be reset. -/
structure State.Expects (v : State) (l : List PageRecord) : Prop where
  refs : (l.map PageRecord.ref).Nodup
  tags : (v.pages.map fun p => p.ref.tag).Nodup
  record : ∀ q ∈ l, ∃ q1, v.findPage q.ref = some q1 ∧ q.Later q1

theorem State.refs_nodup {v : State} (ht : (v.pages.map fun p => p.ref.tag).Nodup) : (v.pages.map PageRecord.ref).Nodup := by
  refine List.Nodup.of_map PageRef.tag ?_
  rw [List.map_map]
  exact ht

theorem State.expects_pages {v : State} (ht : (v.pages.map fun p => p.ref.tag).Nodup) : v.Expects v.pages :=
  ⟨State.refs_nodup ht, ht, fun q hq => ⟨q, State.findPage_of_mem ht hq, .refl q⟩⟩

theorem PageRecord.Later.emptiedBy {q q' : PageRecord} (h : q.Later q') (p : Port) : q'.emptiedBy p = q.emptiedBy p := by
  rw [PageRecord.emptiedBy, h.participants]
  rfl

theorem State.Expects.next {v : State} {q : PageRecord} {l : List PageRecord} (h : v.Expects (q :: l)) (p : Port) :
    (State.resetRecord p v q.ref).Expects l := by
  obtain ⟨hr, hl⟩ := List.nodup_cons.1 h.refs
  refine ⟨hl, (State.resetRecord_refs p q.ref h.tags).2, fun q' hq' => ?_⟩
  obtain ⟨q1, hq1, hlater⟩ := h.record q' (List.mem_cons_of_mem _ hq')
  obtain ⟨q2, hq2, hlater'⟩ := (State.resetRecord_apart (p := p) (fun hc : q'.ref = q.ref => hr (hc ▸ List.mem_map_of_mem hq')) h.tags).record q1 hq1
  exact ⟨q2, hq2, hlater.trans hlater'⟩

/-- The other port's events with the leaving of page `q` (R49). -/
def PageRecord.eventsLeft (p : Port) (events : List Event) (q : PageRecord) : List Event :=
  if q.participants.has p = true ∧ q.participants.has p.other = true then
    enqueueEvent events
      { kind := .participantLeft, pageTag := some q.ref.tag, band := none, commandTag := none, detail := if p = .a then 1 else 2 }
  else events

theorem State.eventsAfterReset_eq (s : State) (p : Port) : s.eventsAfterReset p = s.pages.foldl (PageRecord.eventsLeft p) (s.port p.other).events := rfl

theorem PageRecord.eventsLeft_congr {q q' : PageRecord} (h : q.Later q') (p : Port) (events : List Event) :
    PageRecord.eventsLeft p events q' = PageRecord.eventsLeft p events q := by
  rw [PageRecord.eventsLeft, h.participants, h.ref]
  rfl

section events

variable {p : Port} {v : State}

theorem State.resetRecord_events {q : PageRecord} (hq : v.findPage q.ref = some q) (hz : q.emptiedBy p = true → v.waitsOn p.other q.ref = false) :
    ((State.resetRecord p v q.ref).port p.other).events = PageRecord.eventsLeft p (v.port p.other).events q := by
  unfold PageRecord.eventsLeft
  cases hp : q.participants.has p with
  | false =>
    rw [State.resetRecord_of_absent hq hp, if_neg (by simp)]
  | true =>
    cases ho : q.participants.has p.other with
    | false =>
      have he := PageRecord.emptiedBy_iff.2 ⟨hp, ho⟩
      rw [(State.resetRecord_empties hq he).port, if_neg (by simp)]
      simp only [State.eventsAfterAbort, hz he, Bool.false_eq_true, if_false]
      split <;> rfl
    | true =>
      rw [State.resetRecord_of_both hq hp ho, State.leaveRecord_port, PortSet.has_remove_other, ho]
      simp only [and_self, if_true]
      cases p <;> rfl

/-- The other port hears of each page of both, in queue order (R49). -/
theorem State.foldl_resetRecord_events (l : List PageRecord) {v : State} (h : v.Expects l)
    (hz : ∀ q ∈ l, q.emptiedBy p = true → v.waitsOn p.other q.ref = false) :
    (((l.map PageRecord.ref).foldl (State.resetRecord p) v).port p.other).events = l.foldl (PageRecord.eventsLeft p) (v.port p.other).events := by
  induction l generalizing v with
  | nil => rfl
  | cons q l ih =>
    obtain ⟨q1, hq1, hlater⟩ := h.record q List.mem_cons_self
    have hz1 : q1.emptiedBy p = true → v.waitsOn p.other q1.ref = false := by
      rw [hlater.emptiedBy, hlater.ref]
      exact hz q List.mem_cons_self
    have hwait : ∀ q' ∈ l, q'.emptiedBy p = true → (State.resetRecord p v q.ref).waitsOn p.other q'.ref = false := by
      intro q' hq' he
      by_contra hc
      refine absurd (State.resetRecord_waitsOn (fun q2 hq2 he2 => ?_) (by simpa using hc)) (by simp [hz q' (List.mem_cons_of_mem _ hq') he])
      cases hq1.symm.trans hq2
      exact hz q List.mem_cons_self (by rwa [hlater.emptiedBy] at he2)
    rw [List.map_cons, List.foldl_cons, List.foldl_cons, ih (h.next p) hwait, ← PageRecord.eventsLeft_congr hlater, ← State.resetRecord_events
      (by rw [hlater.ref]; exact hq1) hz1, hlater.ref]

/-- The executing command, with stop requested of it if it is of a page of `l` that is left empty (R104). -/
def ExecRecord.stoppedIn (p : Port) (l : List PageRecord) (x : ExecRecord) : ExecRecord :=
  { x with stopRequested := x.stopRequested || l.any fun q => q.emptiedBy p && decide (x.page = some q.ref) }

theorem State.resetRecord_execution {q : PageRecord} (hq : v.findPage q.ref = some q) :
    (State.resetRecord p v q.ref).execution = v.execution.map (ExecRecord.stoppedIn p [q]) := by
  have unstopped (h : q.emptiedBy p = false) : v.execution = v.execution.map (ExecRecord.stoppedIn p [q]) := by
    have hid : ExecRecord.stoppedIn p [q] = id := funext fun x => by simp [ExecRecord.stoppedIn, h]
    rw [hid, Option.map_id, id]
  cases he : q.emptiedBy p with
  | true =>
    rw [(State.resetRecord_empties hq he).execution, State.stoppedFor]
    refine congrArg (fun f => v.execution.map f) (funext fun x => ?_)
    simp [ExecRecord.stoppedIn, he]
  | false =>
    rw [← unstopped he]
    rcases State.resetRecord_cases p v q.ref with ⟨h, -⟩ | ⟨q', -, -, -, -, h⟩ | ⟨q', hq', hr, he', -⟩
    · rw [h]
    · rw [h]
      exact (v.leaveRecord_rest q' p).1
    · rw [hr] at hq'
      cases hq.symm.trans hq'
      rw [he] at he'
      cases he'

theorem State.foldl_resetRecord_execution (l : List PageRecord) {v : State} (h : v.Expects l) :
    ((l.map PageRecord.ref).foldl (State.resetRecord p) v).execution = v.execution.map (ExecRecord.stoppedIn p l) := by
  induction l generalizing v with
  | nil =>
    have hid : ExecRecord.stoppedIn p [] = id := funext fun x => by simp [ExecRecord.stoppedIn]
    rw [hid, Option.map_id]
    rfl
  | cons q l ih =>
    obtain ⟨q1, hq1, hlater⟩ := h.record q List.mem_cons_self
    have hstep := State.resetRecord_execution (p := p) (q := q1) (by rw [hlater.ref]; exact hq1)
    rw [hlater.ref] at hstep
    rw [List.map_cons, List.foldl_cons, ih (h.next p), hstep, Option.map_map]
    refine congrArg (fun f => v.execution.map f) (funext fun x => ?_)
    simp [ExecRecord.stoppedIn, hlater.emptiedBy, hlater.ref, Bool.or_assoc]

end events

end Sys2Proof.Machine
end

