-- ==== Sys2Proof/Proofs/ResetOfAPage.lean ====
section
/-! What PORT RESET leaves of each page (R20, R49, R50, R55, R58, R104, R125). -/

namespace Sys2Proof.Machine

/-- PORT RESET, begun in `v`, comes to page `q` in state `u`, where its record is `q1`. -/
structure State.ComesTo (p : Port) (v u : State) (q q1 : PageRecord) : Prop where
  before : v.Apart q.ref u
  after : (State.resetRecord p u q.ref).Apart q.ref (State.resetAll p v)
  tags : (u.pages.map fun p => p.ref.tag).Nodup
  kept : u.kept = v.kept
  found : u.findPage q.ref = some q1
  later : q.Later q1
  head : v.pages.head? = some q → u = v
  queueBefore : ∀ z, (∀ r, r ≠ q.ref → v.waitsOn z r = false) → (u.port z).queue = (v.port z).queue
  queueAfter : ∀ z, (∀ r, r ≠ q.ref → (State.resetRecord p u q.ref).waitsOn z r = false) →
    ((State.resetAll p v).port z).queue = ((State.resetRecord p u q.ref).port z).queue

theorem State.exists_comesTo (p : Port) {v : State} {q : PageRecord} (ht : (v.pages.map fun p => p.ref.tag).Nodup) (hq : q ∈ v.pages) :
    ∃ u q1, State.ComesTo p v u q q1 := by
  obtain ⟨before, after, hrefs⟩ := List.append_of_mem (List.mem_map_of_mem (f := PageRecord.ref) hq)
  have hnodup := State.refs_nodup ht
  rw [hrefs] at hnodup
  obtain ⟨hbefore, hrest, hdisjoint⟩ := List.nodup_append.1 hnodup
  obtain ⟨hafter, hrest⟩ := List.nodup_cons.1 hrest
  have hnot : q.ref ∉ before := fun hc => hdisjoint _ hc _ List.mem_cons_self rfl
  have htags := (State.foldl_resetRecord_refs p before v ht).2
  have hall : State.resetAll p v = after.foldl (State.resetRecord p) (State.resetRecord p (before.foldl (State.resetRecord p) v) q.ref) := by
    rw [State.resetAll, hrefs, List.foldl_append, List.foldl_cons]
  have hown := (State.resetRecord_refs p q.ref htags).2
  have hapart := State.foldl_resetRecord_apart p hnot v ht
  obtain ⟨q1, hq1, hlater⟩ := hapart.record q (State.findPage_of_mem ht hq)
  refine ⟨_, q1, hapart, ?_, htags, State.foldl_resetRecord_kept p before v, hq1, hlater, fun hhead => ?_, fun z hz => ?_, fun z hz => ?_⟩
  · rw [hall]
    exact State.foldl_resetRecord_apart p hafter _ hown
  · cases hb : before with
    | nil => rfl
    | cons r l =>
      have hr : r = q.ref := by
        have := congrArg List.head? hrefs
        rw [List.head?_map, hhead, hb] at this
        simpa using this.symm
      exact absurd (by rw [hb, hr]; exact List.mem_cons_self) hnot
  · refine State.foldl_resetRecord_queue z hbefore ht fun r hr hw => ?_
    rw [hz r fun hc => hnot (hc ▸ hr)] at hw
    cases hw
  · rw [hall]
    refine State.foldl_resetRecord_queue z hrest hown fun r hr hw => ?_
    rw [hz r fun hc => hafter (hc ▸ hr)] at hw
    cases hw

section page

variable {p : Port} {v : State} {q : PageRecord} (ht : (v.pages.map fun p => p.ref.tag).Nodup) (hq : q ∈ v.pages)
include ht hq

/-- A page left empty that is not PRINTING is removed, and nothing is left of it (R50). -/
theorem State.resetAll_removed (he : q.emptiedBy p = true) (hstate : q.state ≠ .printing) :
    (State.resetAll p v).findPage q.ref = none ∧ ∀ i, ((State.resetAll p v).slot i).ofPage q.ref = false := by
  obtain ⟨u, q1, c⟩ := State.exists_comesTo p ht hq
  have hstate1 : q1.deserted.state ≠ .printing := by
    show q1.state ≠ _
    rcases c.later.state with h | ⟨-, h⟩ <;> rw [h]
    · exact hstate
    · decide
  have hleft := State.abortRecord_none_left (v := u.mapPage q.ref PageRecord.deserted) hstate1 rfl
  rw [← State.resetRecord_of_emptied c.found (by rw [c.later.emptiedBy]; exact he), show q1.deserted.ref = q.ref from c.later.ref] at hleft
  obtain ⟨hnone, hslots⟩ := hleft
  refine ⟨c.after.gone hnone, fun i => ?_⟩
  by_contra hof
  rcases c.after.fresh i (by simpa using hof) with h | ⟨_, _, h, -⟩
  · rw [h] at hof
    exact hof (hslots i)
  · rw [hnone] at h
    cases h

/-- A PRINTING page left empty goes BLANKING and keeps the slot of its line (R20, R50). -/
theorem State.resetAll_blanked (hhead : v.pages.head? = some q) (he : q.emptiedBy p = true) (hstate : q.state = .printing) :
    (State.resetAll p v).findPage q.ref = some (q.deserted.blanked .aborted) ∧
    (∀ i, ((State.resetAll p v).slot i).ofPage q.ref = true → v.lineSlot = some i) ∧
    ∀ i, v.lineSlot = some i → (v.slot i).ofPage q.ref = true → (State.resetAll p v).slot i = v.slot i := by
  obtain ⟨u, q1, c⟩ := State.exists_comesTo p ht hq
  have hafter := c.after
  obtain rfl := c.head hhead
  have hfound := State.findPage_of_mem ht hq
  have hstep : State.resetRecord p u q.ref = (u.mapPage q.ref PageRecord.deserted).blankPage q.deserted .aborted
      (Event.ofPage .pageAborted q.ref.tag SpoilCause.aborted.code) := by
    rw [State.resetRecord_of_emptied hfound he]
    have hprint : q.deserted.state = .printing := hstate
    simp only [State.abortRecord, hprint]
    rfl
  have htags : ((u.mapPage q.ref PageRecord.deserted).pages.map fun p => p.ref.tag).Nodup := by
    rw [State.mapPage_tags u q.ref PageRecord.deserted fun _ => rfl]
    exact ht
  have hdeserted : (u.mapPage q.ref PageRecord.deserted).findPage q.deserted.ref = some q.deserted := by
    show (u.mapPage q.ref PageRecord.deserted).findPage q.ref = _
    rw [State.findPage_mapPage_same u q.ref PageRecord.deserted fun _ => rfl, hfound]
    rfl
  rw [hstep] at hafter
  have hblanked := State.blankPage_findPage .aborted (Event.ofPage .pageAborted q.ref.tag SpoilCause.aborted.code) htags hdeserted
  have hkeep {i : Nat} (hl : u.lineSlot = some i) (hi : (u.slot i).ofPage q.ref = true) :=
    State.blankPage_slot_of_line (u.mapPage q.ref PageRecord.deserted) q.deserted .aborted
      (Event.ofPage .pageAborted q.ref.tag SpoilCause.aborted.code) hl hi
  refine ⟨?_, fun i hi => ?_, fun i hl hi => ?_⟩
  · obtain ⟨q', hq', hlater⟩ := hafter.record _ hblanked
    rw [hlater.blanking rfl] at hq'
    exact hq'
  · rcases hafter.fresh i hi with h | ⟨q', _, hq', hnot, -⟩
    · rw [h] at hi
      exact (State.blankPage_slot_of_page _ _ _ _ hi).1
    · cases hblanked.symm.trans hq'
      exact absurd rfl hnot
  · refine (hafter.slot i ?_).trans (hkeep hl hi)
    rw [hkeep hl hi]
    exact hi

/-- The slots of a page that the port is not in stay. -/
theorem State.resetAll_slot_of_absent (h : q.participants.has p = false) {i : Nat} (hi : (v.slot i).ofPage q.ref = true) :
    (State.resetAll p v).slot i = v.slot i := by
  obtain ⟨u, q1, c⟩ := State.exists_comesTo p ht hq
  have hafter := c.after
  rw [State.resetRecord_of_absent c.found (by rw [c.later.participants]; exact h)] at hafter
  exact (c.before.trans hafter).slot i hi

/-- A page that keeps a participant stays in the queue, without the port (R49). -/
theorem State.resetAll_stays (h : q.emptiedBy p = false) :
    ∃ q', (State.resetAll p v).findPage q.ref = some q' ∧ q'.participants = q.participants.remove p := by
  obtain ⟨u, q1, c⟩ := State.exists_comesTo p ht hq
  have hstep : ∃ q2, (State.resetRecord p u q.ref).findPage q.ref = some q2 ∧ q2.participants = q.participants.remove p := by
    have hfound := c.found
    rw [← c.later.ref] at hfound ⊢
    rw [← c.later.participants]
    cases hp : q1.participants.has p with
    | false =>
      rw [State.resetRecord_of_absent hfound hp, PortSet.remove_of_not_has hp]
      exact ⟨q1, hfound, rfl⟩
    | true =>
      have ho : q1.participants.has p.other = true := by
        rw [← c.later.emptiedBy, PageRecord.emptiedBy, hp] at h
        simpa using h
      rw [State.resetRecord_of_both hfound hp ho]
      obtain ⟨q2, hq2, hlater⟩ := State.leaveRecord_findPage (p := p) hfound
      exact ⟨q2, hq2, hlater.participants⟩
  obtain ⟨q2, hq2, hparts⟩ := hstep
  obtain ⟨q3, hq3, hlater⟩ := c.after.record q2 hq2
  exact ⟨q3, hq3, hlater.participants.trans hparts⟩

/-- The OPEN slots of a page that the port leaves to the other (R55, R58). -/
theorem State.resetAll_open_slot (hp : q.participants.has p = true) (ho : q.participants.has p.other = true) {i : Nat} {k : BandRecord}
    (hi : v.slot i = .held .opened k) (hk : k.page = q.ref) :
    (¬ (v.inFlight ≠ some i ∧ k.closedBy.has p.other = true) → (State.resetAll p v).slot i = v.slot i) ∧
    (v.inFlight ≠ some i ∧ k.closedBy.has p.other = true →
      ∃ st, (st = .ready ∨ st = .streaming) ∧ (State.resetAll p v).slot i = .held st { k with forcePending := false }) := by
  obtain ⟨u, q1, c⟩ := State.exists_comesTo p ht hq
  have hof : (v.slot i).ofPage q.ref = true := by simp [hi, Slot.ofPage, hk]
  have hu : u.slot i = .held .opened k := (c.before.slot i hof).trans hi
  have hfound := c.found
  have hk1 := hk
  rw [← c.later.ref] at hfound hk1
  have hafter := c.after
  rw [State.resetRecord_of_both c.found (by rw [c.later.participants]; exact hp) (by rw [c.later.participants]; exact ho)] at hafter
  have hmark : u.inFlight = v.inFlight := congrArg (fun k => k.1) c.kept
  have hmem := State.mem_readyOnChange (p := p) hfound (by rw [c.later.participants]; exact ho) hu hk1
  rw [hmark] at hmem
  obtain ⟨-, hstay, hready⟩ := u.leaveRecord_slot q1 p i
  refine ⟨fun hnot => ?_, fun hgoes => ?_⟩
  · have hw := hstay (fun hc => hnot (hmem.1 hc)) k hu
    rw [hi, ← hw]
    exact hafter.slot i (by simp [hw, Slot.ofPage, hk])
  · obtain ⟨st, hst, hw⟩ := hready (hmem.2 hgoes) k hu
    refine ⟨st, hst, ?_⟩
    rw [← hw]
    exact hafter.slot i (by simp [hw, Slot.ofPage, hk])

end page

/-- No page is left that the port is in. -/
theorem State.resetAll_participants {p : Port} {v : State} (ht : (v.pages.map fun p => p.ref.tag).Nodup)
    (hhead : ∀ q ∈ v.pages, q.state = .printing → v.pages.head? = some q) : ∀ q ∈ (State.resetAll p v).pages, q.participants.has p = false := by
  intro q hq
  obtain ⟨hsub, htags⟩ := State.foldl_resetRecord_refs p (v.pages.map PageRecord.ref) v ht
  have hfind : (State.resetAll p v).findPage q.ref = some q := State.findPage_of_mem htags hq
  obtain ⟨q0, hq0, hr⟩ := List.mem_map.1 (hsub.subset (List.mem_map_of_mem hq))
  rw [← hr] at hfind
  cases he : q0.emptiedBy p with
  | false =>
    obtain ⟨q', hq', hparts⟩ := State.resetAll_stays ht hq0 he
    cases hfind.symm.trans hq'
    rw [hparts, PortSet.has_remove_same]
  | true =>
    by_cases hstate : q0.state = .printing
    · cases hfind.symm.trans (State.resetAll_blanked ht hq0 (hhead q0 hq0 hstate) he hstate).1
      cases p <;> rfl
    · rw [(State.resetAll_removed ht hq0 he hstate).1] at hfind
      cases hfind

/-! ## A head that waits for a page of both -/

/-- Every slot of page `r` holds a band below `n`. -/
def State.BandsBelow (v : State) (r : PageRef) (n : Nat) : Prop := ∀ i st k, v.slot i = .held st k → k.page = r → k.band < n

/-- The run of a page that is not BLANKING ends at the band next to allocate (R8). -/
theorem State.bandsBelow_of_inRun {v : State} {q : PageRecord} (h : ∀ x ∈ v.slots, x.inRun q = true) (hstate : q.state ≠ .blanking) :
    v.BandsBelow q.ref q.nextToAllocate := by
  intro i st k hi hk
  have := (State.forall_slots (Q := fun x => x.inRun q = true) rfl).1 h i
  rw [hi] at this
  simp only [Slot.inRun, hk, ne_eq, not_true_eq_false, decide_false, Bool.false_or, if_neg hstate, Bool.and_eq_true, decide_eq_true_eq] at this
  exact this.2.1.2

theorem State.Apart.bandsBelow {v w : State} {r : PageRef} {q q' : PageRecord} (h : v.Apart r w) (hq : v.findPage r = some q)
    (hq' : w.findPage r = some q') (hb : v.BandsBelow r q.nextToAllocate) : w.BandsBelow r q'.nextToAllocate := by
  obtain ⟨q1, hq1, hlater⟩ := h.record q hq
  cases hq'.symm.trans hq1
  intro i st k hi hk
  rcases h.fresh i (by simp [hi, Slot.ofPage, hk]) with hv | ⟨_, k', -, -, hw, -, -, hlow⟩
  · exact (hb i st k (hv ▸ hi) hk).trans_le hlater.rises
  · cases hi.symm.trans hw
    exact hlow q' hq'

/-- What goes READY or STREAMING holds the band it held. -/
theorem Slot.readiedTo.held {x y : Slot} (h : x.readiedTo y) {st : HeldState} {k : BandRecord} (hy : y = .held st k) :
    ∃ st' k', x = .held st' k' ∧ k'.page = k.page ∧ k'.band = k.band := by
  rcases h with rfl | ⟨k', hx, hy'⟩ | ⟨k', st', hx, -, hy'⟩
  · exact ⟨st, k, hy, rfl, rfl⟩
  · cases hy.symm.trans hy'
    exact ⟨_, _, hx, rfl, rfl⟩
  · cases hy.symm.trans hy'
    exact ⟨_, _, hx, rfl, rfl⟩

/-- Slot `i` is the first that holds the band. -/
theorem State.slotOfBand_eq_some {v : State} {r : PageRef} {b i : Nat} :
    v.slotOfBand r b = some i ↔ (v.slot i).holds r b = true ∧ ∀ j, j < i → (v.slot j).holds r b = false := by
  unfold State.slotOfBand State.slotNumbers
  rw [List.find?_range_eq_some]
  constructor
  · rintro ⟨hi, -, hj⟩
    exact ⟨hi, fun j hlt => by simpa using hj j hlt⟩
  · rintro ⟨hi, hj⟩
    refine ⟨hi, List.mem_range.2 ?_, fun j hlt => by simpa using hj j hlt⟩
    by_contra hlt
    rw [State.slot_of_le (not_lt.1 hlt)] at hi
    cases hi

/-- The band's slot answers WAIT while the band has none, or is CLEARING (R66). -/
def State.bandWaits (v : State) (r : PageRef) (b : Nat) (z : Port) : Bool :=
  match v.slotOfBand r b with
  | none => true
  | some i => decide (checkSlot (v.slot i) i z = .wait)

theorem State.executionCheck_eq_wait {v : State} {z : Port} {r : PageRef} {b : Nat} {q : PageRecord} (hq : v.findPage r = some q) :
    v.executionCheck z r b = .wait ↔ q.state ≠ .blanking ∧ q.participants.has z = true ∧ q.passed b = false ∧
      (q.nextToAllocate ≤ b ∨ v.bandWaits r b z = true) := by
  unfold State.executionCheck State.bandWaits
  simp only [hq]
  by_cases hs : q.state = .blanking
  · simp [hs]
  · cases hp : q.participants.has z with
    | false => simp [hs]
    | true =>
      cases hb : q.passed b with
      | true => simp [hs]
      | false =>
        by_cases hn : q.nextToAllocate ≤ b
        · simp [hs, hn]
        · cases hi : v.slotOfBand r b <;> simp [hs, hn]

/-- A fresh slot is CLEARING, so a band answers WAIT as it did before, or has none yet (R7, R66). -/
theorem State.Apart.bandWaits {w t : State} {r : PageRef} {q : PageRecord} (h : w.Apart r t) (hq : w.findPage r = some q) {b : Nat}
    (hb : b < q.nextToAllocate) (z : Port) : t.bandWaits r b z = w.bandWaits r b z := by
  have held : ∀ i, (t.slot i).holds r b = true → t.slot i = w.slot i := by
    intro i hi
    obtain ⟨st, k, hk, hpage, hband⟩ := Slot.holds_iff.1 hi
    rcases h.fresh i (by simp [hk, Slot.ofPage, hpage]) with hw | ⟨q', k', hq', -, hk', -, hlow, -⟩
    · exact hw
    · cases hq.symm.trans hq'
      cases hk.symm.trans hk'
      omega
  have kept : ∀ i, (w.slot i).holds r b = true → t.slot i = w.slot i := by
    intro i hi
    obtain ⟨st, k, hk, hpage, -⟩ := Slot.holds_iff.1 hi
    exact h.slot i (by simp [hk, Slot.ofPage, hpage])
  have same : ∀ i, (t.slot i).holds r b = (w.slot i).holds r b := by
    intro i
    rw [Bool.eq_iff_iff]
    exact ⟨fun hi => held i hi ▸ hi, fun hi => (kept i hi).symm ▸ hi⟩
  have hslot : t.slotOfBand r b = w.slotOfBand r b := by
    refine Option.ext fun i => ?_
    simp only [State.slotOfBand_eq_some, same]
  unfold State.bandWaits
  rw [hslot]
  cases hi : w.slotOfBand r b with
  | none => rfl
  | some i =>
    simp only
    rw [kept i (State.slotOfBand_eq_some.1 hi).1]

/-- Later claims change the check's answer from WAIT to WAIT at most (R66, R125). -/
theorem State.Apart.executionCheck_eq_wait {w t : State} {r : PageRef} {q : PageRecord} (h : w.Apart r t) (hq : w.findPage r = some q)
    (hbelow : q.state ≠ .blanking → w.BandsBelow r q.nextToAllocate) (z : Port) (b : Nat) :
    t.executionCheck z r b = .wait ↔ w.executionCheck z r b = .wait := by
  obtain ⟨q', hq', hlater⟩ := h.record q hq
  rw [State.executionCheck_eq_wait hq, State.executionCheck_eq_wait hq', hlater.participants]
  have hpassed : q'.passed b = q.passed b := by
    rw [hlater.same]
    rfl
  rw [hpassed, ne_eq, hlater.blanking_iff]
  refine and_congr_right fun hstate => and_congr_right fun _ => and_congr_right fun _ => ?_
  have hrises := hlater.rises
  by_cases hb : q.nextToAllocate ≤ b
  · simp only [hb, true_or, iff_true]
    refine .inr ?_
    unfold State.bandWaits
    cases hi : t.slotOfBand r b with
    | none => rfl
    | some i =>
      obtain ⟨st, k, hk, hpage, hband⟩ := Slot.holds_iff.1 (State.slotOfBand_eq_some.1 hi).1
      rcases h.fresh i (by simp [hk, Slot.ofPage, hpage]) with hw | ⟨_, k', -, -, hk', -⟩
      · exact absurd (hbelow hstate i st k (hw ▸ hk) hpage) (by omega)
      · simp [hk', checkSlot]
  · rw [h.bandWaits hq (not_le.1 hb)]
    simp only [hb, false_or, or_iff_right_iff_imp]
    omega

theorem State.queueAfterRecheck_congr_wait {v t w : State} {r : PageRef} {z : Port}
    (h : ∀ b, t.executionCheck z r b = .wait ↔ w.executionCheck z r b = .wait) : v.queueAfterRecheck t r z = v.queueAfterRecheck w r z := by
  unfold State.queueAfterRecheck
  simp only [ne_eq, h]

/-- A head waits for one page at most. -/
theorem State.waitsOn_unique {v : State} {z : Port} {r r' : PageRef} (h : v.waitsOn z r = true) (h' : v.waitsOn z r' = true) : r = r' := by
  unfold State.waitsOn at h h'
  cases he : v.headEntry z with
  | none => simp [he] at h
  | some e =>
    simp only [he, Bool.and_eq_true, decide_eq_true_eq] at h h'
    simpa [h.2] using h'.2

/-- A page of both is left with its bands where its run has them (R8, R58). -/
theorem State.leaveRecord_bandsBelow {u : State} {q1 q2 : PageRecord} {p : Port} (hq1 : u.findPage q1.ref = some q1)
    (hq2 : (u.leaveRecord q1 p).findPage q1.ref = some q2) (h : u.BandsBelow q1.ref q1.nextToAllocate) :
    (u.leaveRecord q1 p).BandsBelow q1.ref q2.nextToAllocate := by
  obtain ⟨q', hq', hlater⟩ := State.leaveRecord_findPage (p := p) hq1
  cases hq2.symm.trans hq'
  intro i st k hi hk
  obtain ⟨st', k', hi', hpage, hband⟩ := (u.leaveRecord_slot q1 p i).1.held hi
  rw [← hband]
  exact (h i st' k' hi' (hpage.trans hk)).trans_le hlater.rises

/-- The head that waits for a page of both is checked again as the port leaves it, and what follows changes no answer (R68, R125). -/
theorem State.resetAll_queue_of_waits {p : Port} {v : State} {q : PageRecord} (ht : (v.pages.map fun p => p.ref.tag).Nodup) (hq : q ∈ v.pages)
    (hp : q.participants.has p = true) (ho : q.participants.has p.other = true) (hw : v.waitsOn p.other q.ref = true)
    (hrun : ∀ x ∈ v.slots, x.inRun q = true) :
    ((State.resetAll p v).port p.other).queue = v.queueAfterRecheck (State.resetAll p v) q.ref p.other := by
  obtain ⟨u, q1, c⟩ := State.exists_comesTo p ht hq
  have hfound := c.found
  have hstep := State.resetRecord_of_both c.found (by rw [c.later.participants]; exact hp) (by rw [c.later.participants]; exact ho)
  have hbefore := c.queueBefore p.other fun r hr => by
    by_contra hc
    exact hr (State.waitsOn_unique (by simpa using hc) hw)
  have hown : ((State.resetRecord p u q.ref).port p.other).queue = u.queueAfterRecheck (State.resetRecord p u q.ref) q.ref p.other := by
    rw [hstep, State.leaveRecord_port, c.later.ref]
  have hafter := c.queueAfter p.other fun r hr => by
    by_contra hc
    have hu := State.waitsOn_of_recheck hown (by simpa using hc)
    rw [State.waitsOn_congr hbefore] at hu
    exact hr (State.waitsOn_unique hu hw)
  rw [← c.later.ref] at hfound
  obtain ⟨q2, hq2, hlater⟩ := State.leaveRecord_findPage (p := p) hfound
  have hq2' : (State.resetRecord p u q.ref).findPage q.ref = some q2 := by rw [hstep, ← c.later.ref]; exact hq2
  have hbelow (hstate : q2.state ≠ .blanking) : (State.resetRecord p u q.ref).BandsBelow q.ref q2.nextToAllocate := by
    have hstate0 : q.state ≠ .blanking := fun hb => hstate (hlater.blanking_iff.2 (c.later.blanking_iff.2 hb))
    have hu := c.before.bandsBelow (State.findPage_of_mem ht hq) c.found (State.bandsBelow_of_inRun hrun hstate0)
    rw [hstep]
    rw [← c.later.ref] at hu ⊢
    exact State.leaveRecord_bandsBelow hfound hq2 hu
  rw [hafter, hown, State.queueAfterRecheck_congr hbefore rfl rfl]
  exact (State.queueAfterRecheck_congr_wait fun b => c.after.executionCheck_eq_wait hq2' hbelow p.other b).symm

end Sys2Proof.Machine
end

