-- ==== Sys2Proof/Proofs/PortReset.lean ====
section
/-! PORT RESET (R20, R49, R50, R104, R107, R132, R139, R156, R182, R196). -/

namespace Sys2Proof.Machine

/-! ## PRDY's low period -/

/-- While no offer is withdrawn, the Streamer offers the page it offered (R140). -/
theorem State.foldl_resetNext (p : Port) (l : List PageRef) (v : State) (b : Bool) :
    (l.foldl (State.resetNext p) (v, b)).1 = l.foldl (State.resetRecord p) v ∧
    ((l.foldl (State.resetNext p) (v, b)).2 = false →
      b = false ∧ ∀ r, v.streamer = .offered r → (l.foldl (State.resetRecord p) v).streamer = .offered r) := by
  induction l generalizing v b with
  | nil => exact ⟨rfl, fun hb => ⟨hb, fun r hr => hr⟩⟩
  | cons r0 l ih =>
    obtain ⟨hfst, hsnd⟩ := ih (State.resetRecord p v r0) (b || v.withdraws (State.resetRecord p v r0))
    refine ⟨hfst, fun hb => ?_⟩
    obtain ⟨hflag, hstays⟩ := hsnd hb
    rw [Bool.or_eq_false_iff] at hflag
    obtain ⟨hb0, hkeeps⟩ := hflag
    refine ⟨hb0, fun r hr => hstays r ?_⟩
    simpa [State.withdraws, hr] using hkeeps

/-- The claim's own part: the port's queues, enable and outcome, and its executing command (R107, R132). -/
def State.silenced (s : State) (p : Port) : State :=
  ({ s with execution := s.execution.map fun x => if x.port = p then { x with silent := true } else x } : State).updPort p
    fun ps => { ps with queue := [], events := [], interruptEnable := false, outcome := .ok }

/-- The claim is its own part and the work on each record, and an offer made in place of another has its low period (R139, R156). -/
theorem State.resetPort_eq (s : State) (p : Port) : ∃ low, s.resetPort p = { State.resetAll p (s.silenced p) with prdyLow := low } ∧
    ∀ r r', s.streamer = .offered r → (State.resetAll p (s.silenced p)).streamer = .offered r' → r ≠ r' → low = some 0 := by
  obtain ⟨hfst, hsnd⟩ := State.foldl_resetNext p ((s.silenced p).pages.map PageRecord.ref) (s.silenced p) false
  have hreset : s.resetPort p = if (((s.silenced p).pages.map PageRecord.ref).foldl (State.resetNext p) (s.silenced p, false)).2 = true then
      (State.resetAll p (s.silenced p)).afterWithdrawal else State.resetAll p (s.silenced p) := by
    rw [State.resetAll, ← hfst]
    rfl
  rw [hreset]
  split
  · refine ⟨_, State.afterWithdrawal_eq _, fun r r' _ hr' _ => ?_⟩
    simp only [State.afterWithdrawal, hr']
  · rename_i hflag
    refine ⟨(State.resetAll p (s.silenced p)).prdyLow, rfl, fun r r' hr hr' hne => ?_⟩
    have hstays := (hsnd (by simpa using hflag)).2 r hr
    cases hstays.symm.trans hr'
    exact absurd rfl hne

/-! ## The frame -/

theorem State.shifted_portReset (s : State) (p : Port) :
    ((s.shifted p 0x3C []).port p).assembler.stored = [] ∧ (s.shifted p 0x3C []).formOk p 0x3C 0 = true := by
  cases p <;> exact ⟨rfl, rfl⟩

/-- The state in which PORT RESET comes to the records: of `s` only the executing command and the ports have changed (R107, R132). -/
structure State.ResetBegins (p : Port) (s v : State) : Prop where
  same : v = { s with execution := s.execution.map fun x => if x.port = p then { x with silent := true } else x, ports := v.ports }
  queue : (v.port p).queue = []
  events : (v.port p).events = []
  enable : (v.port p).interruptEnable = false
  other : v.port p.other = s.port p.other

theorem State.silenced_resetBegins (s : State) (p : Port) : s.ResetBegins p ((s.shifted p 0x3C []).silenced p) := by
  have hframe := s.shifted_sameButFrame p 0x3C []
  refine ⟨?_, ?_, ?_, ?_, ?_⟩
  · have heq := hframe.eq
    generalize s.shifted p 0x3C [] = u at heq ⊢
    unfold State.silenced State.updPort
    rw [heq]
  · cases p <;> rfl
  · cases p <;> rfl
  · cases p <;> rfl
  · exact (State.updPort_port_other _ _ _).trans hframe.other

/-- The whole frame: the claim, then the frame's end (R186, R196). -/
theorem exec_portReset {s : State} {p : Port} (h : s.canOpen p = true) :
    ∃ v low, s.ResetBegins p v ∧
      exec (.portReset p (.selectHigh [] 0)) s = .next (State.closeFrame { State.resetAll p v with prdyLow := low } p .ok 0) ∧
      ∀ r r', s.streamer = .offered r → (State.resetAll p v).streamer = .offered r' → r ≠ r' → low = some 0 := by
  obtain ⟨hstored, hform⟩ := s.shifted_portReset p
  have hrun := State.runCommand_whole (fun t _ => (t.resetPort p, .ok)) h hform hstored
  obtain ⟨low, hreset, hlow⟩ := (s.shifted p 0x3C []).resetPort_eq p
  refine ⟨_, low, s.silenced_resetBegins p, ?_, fun r r' hr => hlow r r' ?_⟩
  · rw [← hreset]
    exact congrArg _ hrun
  · rw [(s.shifted_sameButFrame p 0x3C []).eq]
    exact hr

/-! ## The claim, seen from the state before the frame -/

namespace State.ResetBegins

variable {p : Port} {s v : State} (h : s.ResetBegins p v)
include h

theorem pages : v.pages = s.pages := by rw [h.same]

theorem slots : v.slots = s.slots := by rw [h.same]

theorem lineSlot : v.lineSlot = s.lineSlot := by rw [h.same]; rfl

theorem kept : v.kept = s.kept := by rw [h.same]; rfl

theorem waitsOn (r : PageRef) : v.waitsOn p.other r = s.waitsOn p.other r := State.waitsOn_congr (by rw [h.other]) r

theorem ownPort : (State.resetAll p v).port p = v.port p := State.foldl_resetRecord_own _ h.queue

/-- Of the other port only the queues can change. -/
theorem otherPort : ∃ queue events, (State.resetAll p v).port p.other = { s.port p.other with queue := queue, events := events } := by
  obtain ⟨queue, events, hport⟩ := State.foldl_resetRecord_port p (v.pages.map PageRecord.ref) v p.other
  exact ⟨queue, events, by rw [State.resetAll, hport, h.other]⟩

theorem eventsAfterReset (ht : (s.pages.map fun p => p.ref.tag).Nodup)
    (hz : ∀ q ∈ s.pages, q.emptiedBy p = true → s.waitsOn p.other q.ref = false) :
    ((State.resetAll p v).port p.other).events = s.eventsAfterReset p := by
  have hexpects : v.Expects v.pages := State.expects_pages (by rw [h.pages]; exact ht)
  rw [State.resetAll, State.foldl_resetRecord_events v.pages hexpects fun q hq he => ?_, h.other, h.pages,
    State.eventsAfterReset_eq]
  rw [h.waitsOn]
  exact hz q (h.pages ▸ hq) he

theorem queue_of_waits (ht : (s.pages.map fun p => p.ref.tag).Nodup) (hz : ∀ q ∈ s.pages, q.emptiedBy p = true → s.waitsOn p.other q.ref = false)
    {q : PageRecord} (hq : q ∈ s.pages) (hp : q.participants.has p = true) (hw : s.waitsOn p.other q.ref = true)
    (hrun : ∀ x ∈ s.slots, x.inRun q = true) :
    ((State.resetAll p v).port p.other).queue = s.queueAfterRecheck (State.resetAll p v) q.ref p.other := by
  have ho : q.participants.has p.other = true := by
    by_contra hc
    rw [hz q hq (PageRecord.emptiedBy_iff.2 ⟨hp, by simpa using hc⟩)] at hw
    cases hw
  rw [State.resetAll_queue_of_waits (by rw [h.pages]; exact ht) (by rw [h.pages]; exact hq) hp ho (by rw [h.waitsOn]; exact hw)
    (by rw [h.slots]; exact hrun)]
  exact State.queueAfterRecheck_congr (by rw [h.other]) rfl rfl _

theorem queue_of_not_waits (ht : (s.pages.map fun p => p.ref.tag).Nodup)
    (hz : ∀ q ∈ s.pages, q.participants.has p = true → s.waitsOn p.other q.ref = false) :
    ((State.resetAll p v).port p.other).queue = (s.port p.other).queue := by
  have htv : (v.pages.map fun p => p.ref.tag).Nodup := by rw [h.pages]; exact ht
  rw [State.resetAll, State.foldl_resetRecord_queue p.other (State.refs_nodup htv) htv fun r hr hw => ?_, h.other]
  obtain ⟨q, hq, rfl⟩ := List.mem_map.1 hr
  refine ⟨q, State.findPage_of_mem htv hq, ?_⟩
  by_contra hc
  rw [h.waitsOn, hz q (h.pages ▸ hq) (by simpa using hc)] at hw
  cases hw

/-- The executing command goes on, silent if it is the port's, and is stopped if its page is left empty (R104, R107, R132). -/
theorem execution (ht : (s.pages.map fun p => p.ref.tag).Nodup) :
    (State.resetAll p v).execution =
      (s.execution.map fun x => if x.port = p then { x with silent := true } else x).map (ExecRecord.stoppedIn p s.pages) := by
  have hexpects : v.Expects v.pages := State.expects_pages (by rw [h.pages]; exact ht)
  rw [State.resetAll, State.foldl_resetRecord_execution v.pages hexpects, h.pages]
  rw [show v.execution = _ from congrArg State.execution h.same]

end State.ResetBegins

theorem State.closeFrame_interruptEnable (s : State) (p : Port) (o : FrameOutcome) (bits : Nat) (z : Port) :
    ((s.closeFrame p o bits).port z).interruptEnable = (s.port z).interruptEnable := by cases p <;> cases z <;> rfl

/-- Only the first record can be of a PRINTING page (R26). -/
theorem State.head_of_printing {s : State} (htail : ∀ q ∈ s.pages.tail, q.state = .pending) {q : PageRecord} (hq : q ∈ s.pages)
    (hstate : q.state = .printing) : s.pages.head? = some q := by
  cases hp : s.pages with
  | nil => rw [hp] at hq; cases hq
  | cons q0 l =>
    rw [hp] at hq htail
    rcases List.mem_cons.1 hq with rfl | hl
    · rfl
    · have := htail q hl
      rw [hstate] at this
      cases this

/-- Settles O21: the claim record by record, behind the frame. -/
theorem portResetClearsItsPort : Obligations.PortResetClearsItsPort := by
  intro p s hopen ⟨htags, htail, _⟩
  obtain ⟨v, low, hv, hexec, hlow⟩ := exec_portReset hopen
  have htv : (v.pages.map fun p => p.ref.tag).Nodup := by rw [hv.pages]; exact htags
  have hprinting : ∀ q ∈ v.pages, q.state = .printing → v.pages.head? = some q := by
    rw [hv.pages]
    exact fun q hq => State.head_of_printing htail hq
  have hkept : (State.resetAll p v).kept = s.kept := (State.foldl_resetRecord_kept p _ v).trans hv.kept
  simp only [State.kept, Prod.mk.injEq] at hkept
  obtain ⟨hmark, htile, hloaded, hpointer, hengine, hinstance, hband⟩ := hkept
  obtain ⟨queue, events, hother⟩ := hv.otherPort
  have hclosed : (State.closeFrame { State.resetAll p v with prdyLow := low } p .ok 0).port p.other = (State.resetAll p v).port p.other :=
    State.updPort_port_other _ _ _
  refine ⟨_, hexec, ?_, ?_, ?_, State.closeFrame_outcome _ _ _ _, State.resetAll_participants htv hprinting, ?_, ?_, ?_, ?_,
    fun hz => ⟨?_, fun q hq hp hw hrun => ?_, fun hz' => ?_⟩, fun q hq => ?_, fun x hx => ?_, fun hx => ?_, fun r r' hr hr' hne => ?_,
    hmark, htile, hloaded, hpointer, hengine, hinstance, hband⟩
  · exact (State.closeFrame_queue _ _ _ _ _).trans ((congrArg PortState.queue hv.ownPort).trans hv.queue)
  · exact (State.closeFrame_events _ _ _ _ _).trans ((congrArg PortState.events hv.ownPort).trans hv.events)
  · exact (State.closeFrame_interruptEnable _ _ _ _ _).trans ((congrArg PortState.interruptEnable hv.ownPort).trans hv.enable)
  · rw [hclosed, hother]
  · rw [hclosed, hother]
  · rw [hclosed, hother]
  · rw [hclosed, hother]
  · rw [hclosed]
    exact hv.eventsAfterReset htags hz
  · rw [hclosed, hv.queue_of_waits htags hz hq hp hw hrun]
    exact State.queueAfterRecheck_congr rfl rfl rfl _
  · rw [hclosed]
    exact hv.queue_of_not_waits htags hz'
  · have hqv : q ∈ v.pages := by rw [hv.pages]; exact hq
    have hslot := State.slot_congr hv.slots
    refine ⟨fun he => ⟨fun hstate => ?_, fun hstate => ?_⟩, fun habsent i hi => ?_, State.resetAll_stays htv hqv, fun hp ho i k hi hk => ?_⟩
    · obtain ⟨hnone, hslots⟩ := State.resetAll_removed htv hqv he hstate
      exact ⟨hnone, (State.forall_slots (s := State.resetAll p v) (Q := fun x => x.ofPage q.ref = false) rfl).2 hslots⟩
    · obtain ⟨hblanked, hline, hkeeps⟩ := State.resetAll_blanked htv hqv (hprinting q hqv hstate) he hstate
      simp only [hv.lineSlot, hslot] at hline hkeeps
      exact ⟨hblanked, hline, hkeeps⟩
    · rw [← hslot i] at hi ⊢
      exact State.resetAll_slot_of_absent htv hqv habsent hi
    · rw [← hslot i] at hi ⊢
      obtain ⟨hstays, hready⟩ := State.resetAll_open_slot htv hqv hp ho hi hk
      have hmarkv : v.inFlight = s.inFlight := congrArg (fun k => k.1) hv.kept
      rw [hmarkv] at hstays hready
      exact ⟨fun hin => hstays fun hc => hc.1 hin, fun hin hcl => hready ⟨hin, hcl⟩, fun hcl => hstays fun hc => by simp [hcl] at hc⟩
  · have hexecution := hv.execution htags
    rw [hx] at hexecution
    refine ⟨_, hexecution, ?_⟩
    by_cases hport : x.port = p <;> simp [ExecRecord.stoppedIn, hport]
  · have hexecution := hv.execution htags
    rw [hx] at hexecution
    exact hexecution
  · have hstreamer : (State.resetAll p v).streamer = .offered r' := hr'
    have hzero := hlow r r' hr hstreamer hne
    refine ⟨hzero, ?_⟩
    rw [State.prdy, hr']
    exact congrArg Option.isNone hzero

end Sys2Proof.Machine
end

