-- ==== Sys2Proof/Proofs/PageUpdates.lean ====
section
/-! SUPPORT. The page updates: what a property of the page queue and of the page that the Streamer serves needs for every command and every step to
keep it (R26, R29, R34 to R38, R43, R46 to R50, R138). -/

namespace Sys2Proof.Machine

/-! ## What leaves the pages -/

/-- From `s` to `t` no page record changes, and the Streamer stays in its line or its wait. -/
structure State.SamePages (s t : State) : Prop where
  pages : t.pages = s.pages
  streamer : t.streamer.bound = s.streamer.bound

theorem State.SamePages.of_eq {s t : State} (hp : t.pages = s.pages) (hst : t.streamer = s.streamer) : s.SamePages t := ⟨hp, by rw [hst]⟩

theorem State.SameRing.samePages {s t : State} (h : s.SameRing t) : s.SamePages t := ⟨h.pages, h.streamer⟩

/-- Page `p` is PRINTING, or the Streamer is between its lines and it is not BLANKING (R138, R157). -/
def State.InPrint (s : State) (p : PageRecord) : Prop := p.state = .printing ∨ s.streamer = .betweenLines p.ref ∧ p.state ≠ .blanking

/-- What a property needs of the page updates for the part's operations to keep it. -/
structure KeptByPageUpdates (P : State → Prop) : Prop where
  same : ∀ s t, s.SamePages t → P s → P t
  begins : ∀ s r source, s.streamer.served = some r ∨ (∃ b, s.streamer.awaits = some (r, b)) → P s → P (s.beginLine r source)
  waits : ∀ (s : State) (p : PageRecord), s.streamer = .betweenLines p.ref → s.findPage p.ref = some p → p.state ≠ .blanking → P s →
    P { s with streamer := .starved p.ref p.nextToStream 0 false }
  allocate : ∀ s t, s.allocateOne = some t → P s → P t
  offer : ∀ s w, P s → P (s.evaluateOffer w)
  participants : ∀ s r (g : PortSet → PortSet), P s → P (s.mapPage r fun x => { x with participants := g x.participants })
  remove : ∀ s r, P s → P (s.removePage r)
  blank : ∀ s p cause e, p ∈ s.pages → s.InPrint p → P s → P (s.blankPage p cause e)
  endLine : ∀ s r source, s.streamer.served = some r → P s → P (s.endLine r source)
  takeTop : ∀ s, P s → P s.takeTop
  deviceReset : ∀ s : State, P s.deviceReset

namespace KeptByPageUpdates

variable {P : State → Prop} (h : KeptByPageUpdates P)
include h

theorem of_eq (s t : State) (hp : t.pages = s.pages) (hst : t.streamer = s.streamer) (hs : P s) : P t := h.same s t (.of_eq hp hst) hs

theorem sameRing {s t : State} (hst : s.SameRing t) (hs : P s) : P t := h.same s t hst.samePages hs

theorem port : PortRule P := fun s _ _ _ hs => h.of_eq s _ rfl rfl hs

/-! ## Postings, allocation and the line -/

theorem postAll (s : State) (ps : PortSet) (e : Event) (hs : P s) : P (s.postAll ps e) := h.of_eq s _ (by simp) (by simp) hs

theorem recheck (s : State) (r : PageRef) (hs : P s) : P (s.recheck r) := by
  rw [State.recheck_eq]
  exact h.of_eq s _ rfl rfl hs

theorem abortWaiting (s : State) (r : PageRef) (hs : P s) : P (s.abortWaiting r) := by
  rw [State.abortWaiting_eq]
  exact h.of_eq s _ rfl rfl hs

theorem releaseSlots (s : State) (r : PageRef) (keep : Option Nat) (hs : P s) : P (s.releaseSlots r keep) :=
  h.of_eq s _ (by simp) (by simp) hs

theorem evaluateAllocation (s : State) (hs : P s) : P s.evaluateAllocation :=
  State.evaluateAllocation_induct (fun s t hs ht => h.allocate s t ht hs) s hs

theorem offerIfHead (s : State) (r : PageRef) (hs : P s) : P (s.offerIfHead r) := by
  unfold State.offerIfHead
  split
  · exact h.offer s _ hs
  · exact hs

theorem startBand {s t : State} {r : PageRef} {b : Nat} (ht : s.startBand r b = some t)
    (hst : s.streamer.served = some r ∨ ∃ b, s.streamer.awaits = some (r, b)) (hs : P s) : P t := by
  obtain ⟨i, k, -, -, rfl⟩ := State.startBand_some ht
  exact h.begins _ r _ hst (h.of_eq s (s.setSlot i (.held .streaming k)) rfl rfl hs)

theorem openToReady (s : State) (i : Nat) (force : Bool) (hs : P s) : P (s.openToReady i force) := by
  rcases s.openToReady_cases i force with h' | ⟨k, -, h'⟩ <;> rw [h']
  · exact hs
  · have hset := h.of_eq s (s.setSlot i (.held .ready { k with forced := k.forced || force, forcePending := false })) rfl rfl hs
    rcases State.readyNotice_cases (s.setSlot i (.held .ready { k with forced := k.forced || force, forcePending := false })) k.page k.band with
      h' | ⟨n, x, hst, h'⟩
    · rwa [h']
    · exact h.startBand h' (.inr ⟨k.band, by rw [hst]; rfl⟩) hset

theorem participantChange (s : State) (r : PageRef) (hs : P s) : P (s.participantChange r) := by
  have fold : ∀ (l : List Nat) (t : State), P t → P (l.foldl (fun t i => t.openToReady i false) t) := by
    intro l
    induction l with
    | nil => exact fun _ ht => ht
    | cons i l ih => exact fun t ht => ih _ (h.openToReady t i false ht)
  unfold State.participantChange
  split
  · exact hs
  · exact h.offerIfHead _ r (fold _ _ hs)

/-! ## Aborts and PORT RESET -/

theorem offerIf (s : State) (b w : Bool) (hs : P s) : P (if b then s.evaluateOffer w else s) := by
  split
  · exact h.offer s w hs
  · exact hs

theorem removeUnprinted (s : State) (p : PageRecord) (hs : P s) : P (s.removeUnprinted p) :=
  h.abortWaiting _ _ (h.offerIf _ _ _ (h.evaluateAllocation _ (h.remove _ _ (h.releaseSlots _ _ _ (h.postAll s _ _ hs)))))

theorem removeBlanking (s : State) (p : PageRecord) (hs : P s) : P (s.removeBlanking p) :=
  h.abortWaiting _ _ (h.offerIf _ _ _ (h.evaluateAllocation _ (h.releaseSlots _ _ _ (h.remove s _ hs))))

theorem abortRecord (s : State) (p : PageRecord) (hp : p ∈ s.pages) (hs : P s) : P (s.abortRecord p) := by
  unfold State.abortRecord
  split
  · exact h.removeUnprinted s p hs
  · exact h.removeUnprinted s p hs
  · rename_i hstate
    exact h.blank s p _ _ hp (.inl hstate) hs
  · exact h.removeBlanking s p hs

theorem spoil (s : State) (r : PageRef) (cause : SpoilCause) (hs : P s) : P (s.spoil r cause) := by
  unfold State.spoil
  split
  · exact hs
  · rename_i p hp
    split
    · rename_i hstate
      exact h.blank s p _ _ (State.findPage_some hp).1 (.inl hstate) hs
    · exact h.postAll s _ _ hs
    · exact hs

theorem leaveRecord (s : State) (q : PageRecord) (p : Port) (hs : P s) : P (s.leaveRecord q p) :=
  h.recheck _ _ (h.participantChange _ _ (h.postAll _ _ _ (h.participants s q.ref (·.remove p) hs)))

theorem resetRecord (s : State) (p : Port) (r : PageRef) (hs : P s) : P (State.resetRecord p s r) := by
  unfold State.resetRecord
  split
  · exact hs
  · rename_i q hq
    obtain ⟨hqm, href⟩ := State.findPage_some hq
    split
    · split
      · refine h.abortRecord _ _ ?_ (h.participants s r (fun _ => .empty) hs)
        rw [State.mapPage_pages]
        exact List.mem_map.2 ⟨q, hqm, if_pos href⟩
      · exact h.leaveRecord s q p hs
    · exact hs

theorem resetPort (s : State) (p : Port) (hs : P s) : P (s.resetPort p) :=
  State.resetPort_induct s (h.of_eq s _ rfl rfl hs) (fun t r ht => h.resetRecord t p r ht) fun t ht => h.of_eq t _ rfl rfl ht

/-! ## The Raster Unit and the Clear Unit -/

theorem finishEntry (s : State) (p : Port) (e : Option Event) (hs : P s) : P (s.finishEntry p e) := h.sameRing (s.finishEntry_sameRing p e) hs

theorem closeClaim (s : State) (p : Port) (i : Nat) (hs : P s) : P (s.closeClaim p i) := by
  unfold State.closeClaim
  split
  · rename_i st k _
    have closed := h.of_eq s (s.setSlot i (.held st { k with closedBy := k.closedBy.add p })) rfl rfl hs
    dsimp only
    split
    · exact h.offerIfHead _ _ (h.openToReady _ i _ closed)
    · exact closed
  · exact hs

theorem grantBand (s : State) (p : Port) (e : Entry) (r : PageRef) (b : Nat) (hs : P s) : P (s.grantBand p e r b) := by
  unfold State.grantBand
  split
  · exact h.finishEntry s p _ hs
  · exact h.of_eq s _ rfl rfl hs
  · rename_i i _
    split
    · exact h.finishEntry _ p _ (h.closeClaim s p i hs)
    · split
      · unfold State.beginBandCommand
        repeat' split
        case h_1 | h_2.isFalse => exact h.of_eq s _ rfl rfl hs
        all_goals exact h.finishEntry s p _ hs
      · exact hs

theorem grantLeave (s : State) (p : Port) (e : Entry) (r : PageRef) (hs : P s) : P (s.grantLeave p e r) := by
  unfold State.grantLeave
  repeat' split
  case h_2.isFalse.isFalse.isFalse => exact h.finishEntry _ p _ (h.leaveRecord s _ p hs)
  all_goals exact h.finishEntry s p _ hs

theorem grant (s : State) (p : Port) (e : Entry) (hs : P s) : P (s.grant p e) := by
  unfold State.grant
  cases e.op with
  | mark v => exact h.finishEntry s p _ hs
  | loadTile t => exact h.of_eq s _ rfl rfl hs
  | leavePage =>
    cases e.page with
    | none => exact hs
    | some r => exact h.grantLeave s p e r hs
  | fill | putBits | copy | closeBand | sumBand =>
    cases e.page with
    | none => exact hs
    | some r =>
      cases e.band with
      | none => exact hs
      | some b => exact h.grantBand s p e r b hs

theorem consider (s : State) (hs : P s) : P s.consider := by
  unfold State.consider
  split
  · exact hs
  · split
    · exact hs
    · exact h.grant s _ _ hs

theorem takeEndedSlot (s : State) (i : Nat) (hs : P s) : P (s.takeEndedSlot i) := by
  unfold State.takeEndedSlot
  split
  · exact h.evaluateAllocation s hs
  · split
    · exact h.offerIfHead _ _ (h.openToReady s i _ hs)
    · split
      · exact h.offerIfHead _ _ (h.openToReady s i _ hs)
      · exact hs
  · exact hs

theorem endCommand (s : State) (hs : P s) : P s.endCommand := by
  unfold State.endCommand
  split
  · exact hs
  · rename_i x _
    have freed : P { s.finishWork with inFlight := none, execution := none } := h.of_eq s.finishWork _ rfl rfl (h.sameRing s.finishWork_sameRing hs)
    have loaded := h.sameRing (State.markLoaded_sameRing _ x.op) freed
    unfold State.commandEndClaim
    refine h.sameRing ((State.postMaybe_sameRing _ _ _).trans (State.popExecuting_sameRing _ _)) ?_
    split
    · exact loaded
    · exact h.takeEndedSlot _ _ loaded

theorem endClear (s : State) (hs : P s) : P s.endClear := by
  have ht : P { s with clearClaims := s.clearClaims.tail } := h.of_eq s _ rfl rfl hs
  unfold State.endClear
  dsimp only
  split
  · exact ht
  · rename_i c _
    rcases State.takeClearClaim_cases { s with clearClaims := s.clearClaims.tail } c with h' | ⟨k, -, -, h'⟩ <;> rw [h']
    · exact ht
    · unfold State.completeClear
      rw [State.clearWords_eq]
      exact h.recheck _ _ (h.postAll _ _ _ (h.of_eq s _ rfl rfl hs))

/-! ## The Streamer -/

theorem notReady (s : State) (p : PageRecord) (hst : s.streamer = .betweenLines p.ref) (hp : s.findPage p.ref = some p)
    (hstate : p.state ≠ .blanking) (hs : P s) : P (s.notReady p) := by
  unfold State.notReady
  split
  · refine h.begins _ _ _ (.inl ?_) (h.blank s p .underrun _ (State.findPage_some hp).1 (.inr ⟨hst, hstate⟩) hs)
    rw [State.blankPage_streamer, hst]
    rfl
  · exact h.waits s p hst hp hstate hs

theorem nextLine (s : State) (p : PageRecord) (hst : s.streamer = .betweenLines p.ref) (hp : s.findPage p.ref = some p)
    (hstate : p.state ≠ .blanking) (hs : P s) : P (s.nextLine p) := by
  have between : s.streamer.served = some p.ref := by rw [hst]; rfl
  unfold State.nextLine
  split
  · cases hb : s.startBand p.ref p.nextToStream with
    | none => exact h.notReady s p hst hp hstate hs
    | some t => exact h.startBand hb (.inl between) hs
  · split
    · exact h.begins s _ _ (.inl between) hs
    · exact h.notReady s p hst hp hstate hs

theorem takeLreq (s : State) (hs : P s) : P s.takeLreq := by
  unfold State.takeLreq
  split
  · exact h.postAll s _ _ hs
  · exact h.postAll s _ _ hs
  · rename_i r hst
    unfold State.requestLine
    split
    · exact hs
    · rename_i p hp
      obtain ⟨-, rfl⟩ := State.findPage_some hp
      split
      · exact h.begins s _ _ (.inl (by rw [hst]; rfl)) hs
      · rename_i hstate
        exact h.nextLine s p hst hp hstate hs
  · exact h.spoil s _ _ hs
  · exact h.spoil s _ _ hs
  · exact h.spoil s _ _ hs
  · exact hs

/-- A line whose page is spoiled ends as it would (R149, R150, R152). -/
theorem spoil_endLine (s : State) (r : PageRef) (source : LineSource) (hr : s.streamer.served = some r) (hst : s.streamer.awaits = none)
    (hs : P s) : P ((s.spoil r .slip).endLine r source) :=
  h.endLine _ r source (by rw [s.spoil_streamer _ _ hst, hr]) (h.spoil s r .slip hs)

theorem takeLack (s : State) (hs : P s) : P s.takeLack := by
  unfold State.takeLack
  split
  · exact h.sameRing (State.markEarly_sameRing _) (h.spoil s _ _ hs)
  · rename_i hst
    exact h.spoil_endLine s _ _ (by rw [hst]; rfl) (by rw [hst]; rfl) hs
  · rename_i hst
    exact h.endLine s _ _ (by rw [hst]; rfl) hs
  · exact h.postAll s _ _ hs

theorem takeEarlyEnd (s : State) (hs : P s) : P s.takeEarlyEnd := by
  unfold State.takeEarlyEnd
  split
  · rename_i r line hst
    split
    · have sent : P (s.sendWords r line.source line.word line.word) := h.of_eq s _ rfl rfl hs
      exact h.endLine _ r _ (show s.streamer.served = _ by rw [hst]; rfl) sent
    · exact hs
  · exact hs

theorem takeWindowExpiry (s : State) (hs : P s) : P s.takeWindowExpiry := by
  unfold State.takeWindowExpiry
  split
  · rename_i hst
    exact h.spoil_endLine s _ _ (by rw [hst]; rfl) (by rw [hst]; rfl) hs
  · exact hs

theorem forceClose (s : State) (p : PageRecord) (i : Nat) (k : BandRecord) (hs : P s) : P (s.forceClose p i k) := by
  unfold State.forceClose
  split
  · exact hs
  · split
    · exact h.postAll _ _ _ (h.of_eq s _ rfl rfl hs)
    · exact h.openToReady _ i true (h.postAll s _ _ hs)

theorem takeStarvationExpiry (s : State) (hs : P s) : P s.takeStarvationExpiry := by
  unfold State.takeStarvationExpiry
  split
  · rename_i r b n hst
    split
    · exact hs
    · rename_i p _
      have expired : P { s with streamer := .starved r b s.starvationPeriods true } := h.same s _ ⟨rfl, by rw [hst]; rfl⟩ hs
      unfold State.expiryClaim
      split
      · exact h.spoil _ _ _ expired
      · split
        · exact h.forceClose _ p _ _ expired
        · exact h.spoil _ _ _ expired
        · exact expired
  · exact hs

/-! ## Every command and every step -/

theorem acceptFrame (s : State) (p : Port) (parsed : Option QueuedFrame) (hs : P s) : P (s.acceptFrame p parsed).1 := by
  unfold State.acceptFrame
  repeat' split
  case h_2.isFalse.isFalse => exact h.of_eq s _ rfl rfl hs
  all_goals exact hs

theorem abortPageAct (s : State) (p : Port) (body : List Byte) (hs : P s) : P (State.abortPageAct p s body).1 := by
  unfold State.abortPageAct
  split
  · exact hs
  · rename_i q hq
    split
    · exact hs
    · exact h.abortRecord s q (State.pageOfTag_some hq).1 hs

theorem setEngineAct (s : State) (body : List Byte) (hs : P s) : P (s.setEngineAct body).1 := by
  unfold State.setEngineAct
  repeat' split
  case h_2.isTrue => exact h.of_eq s _ rfl rfl hs
  all_goals exact hs

theorem setPortAct (s : State) (p : Port) (body : List Byte) (hs : P s) : P (State.setPortAct p s body).1 := by
  unfold State.setPortAct
  split
  · exact h.of_eq s _ rfl rfl hs
  · exact hs

/-- An engine input that `take` answers when it is an assertion (R134). -/
theorem asserted (s : State) (pins : Pins) (b : Bool) (take : State → State) (htake : ∀ t, P t → P (take t)) (hs : P s) :
    P (if b then take { s with pins := pins } else { s with pins := pins }) := by
  have set : P { s with pins := pins } := h.of_eq s _ rfl rfl hs
  split
  · exact htake _ set
  · exact set

/-- Every command keeps what the page updates keep, if OPEN PAGE does, whose checks are not an update's (R28, R29). -/
theorem exec (opens : ∀ s p body, P s → P (State.openPageAct p s body).1) (c : Instr) (s : State) (hs : P s) : Answer.Keeps P (exec c s) := by
  have frame : ∀ p code act st, (∀ t body, P t → P (act t body).1) → P (s.runCommand p code act st) :=
    fun p code act st hact => h.port.runCommand s p code act st hact hs
  cases c with
  | deviceReset => exact h.deviceReset s
  | frameResultByte p => exact h.port.selectFalls s p hs
  | badFrame p bits => exact h.port.endShortFrame _ p bits (h.port.openIfWhole s p hs)
  | unknownCommand p code st => exact h.port.runFrame s p code _ _ _ _ st (fun t body => h.port.shiftBytes t p body) (fun _ _ ht => ht) hs
  | readStatus p st | readPages p st | readBands p st => exact h.port.runRead s p _ _ st hs
  | readEvents p st => exact h.port.runReadEvents s p st hs
  | eventRecordRemoval p =>
    show P (if s.readingEvents p then State.shiftRecord p (s.recordBytesLeft p) s else s)
    split
    · exact h.port.shiftRecord p _ s hs
    · exact hs
  | nop p st => exact frame p _ _ st fun _ _ ht => ht
  | openPage p st => exact frame p _ _ st fun t body => opens t p body
  | abortPage p st => exact frame p _ _ st fun t body => h.abortPageAct t p body
  | setEngine p st => exact frame p _ _ st h.setEngineAct
  | setPort p st => exact frame p _ _ st fun t body => h.setPortAct t p body
  | portReset p st => exact frame p _ _ st fun t _ => h.resetPort t p
  | fill p st | putBits p st | copy p st | loadTile p st | closeBand p st | leavePage p st | mark p st | sumBand p st =>
    exact frame p _ _ st fun t _ => h.acceptFrame t p _
  | consideration => exact h.consider s hs
  | commandEnd =>
    show Answer.Keeps P (if s.addressesExist then .next s.endCommand else .fault .bandRamAddress)
    split
    · exact h.endCommand s hs
    · trivial
  | clearCompletion =>
    show Answer.Keeps P (if s.addressesExist then .next s.endClear else .fault .bandRamAddress)
    split
    · exact h.endClear s hs
    · trivial
  | top level => exact h.asserted s _ _ _ h.takeTop hs
  | lreq level => exact h.asserted s _ _ _ h.takeLreq hs
  | lack level => exact h.asserted s _ _ _ h.takeLack hs
  | held moment =>
    cases moment with
    | rises => exact h.of_eq s _ rfl rfl hs
    | wordEnd k => exact h.sameRing (s.takeHeld_sameRing k) hs
  | holdLow => exact h.sameRing (State.takeHoldLow_sameRing _) (h.of_eq s _ rfl rfl hs)
  | lastBitSent => exact h.sameRing s.takeLastBit_sameRing hs
  | earlyLackWordEnd => exact h.takeEarlyEnd s hs
  | acknowledgeWindowExpiry => exact h.takeWindowExpiry s hs
  | starvationTimerExpiry => exact h.takeStarvationExpiry s hs
  | prdyReassert | resetnRises => exact h.of_eq s _ rfl rfl hs
  | wordInFlightSent =>
    show P s.takeTailSent
    unfold State.takeTailSent
    split
    · exact hs
    · exact h.of_eq s _ rfl rfl hs

/-- So does every step. -/
theorem step (opens : ∀ s p body, P s → P (State.openPageAct p s body).1) (s : State) (hs : P s) : Answer.Keeps P (step s) := by
  unfold Machine.step
  split
  · rename_i c rest _
    exact h.exec opens c _ (h.of_eq s _ rfl rfl hs)
  · unfold State.idle
    split
    · exact hs
    · split
      · rename_i c rest _
        show P (s.postDue c rest)
        unfold State.postDue
        rw [State.settleClaim_eq]
        split <;> exact h.of_eq s _ rfl rfl hs
      · split
        · exact h.sameRing s.tick_sameRing hs
        · trivial

end KeptByPageUpdates

end Sys2Proof.Machine
end

