-- ==== Sys2Proof/Proofs/PageQueue.lean ====
section
/-! The law of the page queue: at most 4 records, no two of one tag, each in R25's ranges; every step keeps it (R25, R26, R28, R29). -/

namespace Sys2Proof.Machine

/-! ## Ranges -/

/-- The ranges of a page record (R25), but that page `ex` may have served all its lines: its last line has just been counted (R151). -/
structure PageRecord.Ranged (ex : Option PageRef) (p : PageRecord) : Prop where
  unserved : ({ p with linesServed := 0 } : PageRecord).inRange
  lines : ex ≠ some p.ref → p.linesServed < p.pageLines

theorem PageRecord.ranged_none_iff {p : PageRecord} : p.Ranged none ↔ p.inRange := by
  constructor
  · rintro ⟨⟨h1, h2, h3, h4, h5, h6, h7, h8, h9, h10, h11, h12, h13, h14, h15, h16, h17, h18, h19, h20, -⟩, hlines⟩
    exact ⟨h1, h2, h3, h4, h5, h6, h7, h8, h9, h10, h11, h12, h13, h14, h15, h16, h17, h18, h19, h20, hlines nofun⟩
  · rintro ⟨h1, h2, h3, h4, h5, h6, h7, h8, h9, h10, h11, h12, h13, h14, h15, h16, h17, h18, h19, h20, hlines⟩
    exact ⟨⟨h1, h2, h3, h4, h5, h6, h7, h8, h9, h10, h11, h12, h13, h14, h15, h16, h17, h18, h19, h20, Nat.zero_lt_of_lt hlines⟩, fun _ => hlines⟩

namespace PageRecord.Ranged

variable {ex : Option PageRef} {p : PageRecord}

theorem pageLines_pos (h : p.Ranged ex) : 0 < p.pageLines := by
  obtain ⟨-, -, -, -, -, -, -, -, -, -, -, -, -, -, -, -, -, -, -, -, hlines⟩ := h.unserved
  exact hlines

/-- Allocation gives a page a band that it has (R6, R8). -/
theorem allocated (h : p.Ranged ex) (hn : p.nextToAllocate < p.bandCount) :
    ({ p with nextToAllocate := p.nextToAllocate + 1 } : PageRecord).Ranged ex := by
  obtain ⟨h1, h2, h3, h4, h5, h6, h7, h8, h9, h10, h11, h12, h13, h14, h15, h16, h17, h18, h19, -, h21⟩ := h.unserved
  exact ⟨⟨h1, h2, h3, h4, h5, h6, h7, h8, h9, h10, h11, h12, h13, h14, h15, h16, h17, h18, h19, hn, h21⟩, h.lines⟩

/-- A page with fewer copies to come, and at least one (R37, R43). -/
theorem copiesLeft (h : p.Ranged ex) {n : Nat} (hn : 1 ≤ n) (hle : n ≤ p.copiesRemaining) : ({ p with copiesRemaining := n } : PageRecord).Ranged ex := by
  obtain ⟨h1, h2, h3, h4, h5, h6, h7, h8, h9, h10, h11, h12, h13, h14, h15, h16, h17, -, h19, h20, h21⟩ := h.unserved
  exact ⟨⟨h1, h2, h3, h4, h5, h6, h7, h8, h9, h10, h11, h12, h13, h14, h15, h16, h17, hn, hle.trans h19, h20, h21⟩, h.lines⟩

/-- No line of the copy has been served yet (R35, R37). -/
theorem restarted (h : p.Ranged ex) : ({ p with linesServed := 0 } : PageRecord).Ranged none := ⟨h.unserved, fun _ => h.pageLines_pos⟩

theorem copiesRemaining_pos (h : p.Ranged ex) : 1 ≤ p.copiesRemaining := by
  obtain ⟨-, -, -, -, -, -, -, -, -, -, -, -, -, -, -, -, -, hpos, -, -, -⟩ := h.unserved
  exact hpos

/-- Another page than `r` is in its ranges anyway. -/
theorem of_ne {r : PageRef} (h : p.Ranged (some r)) (hne : p.ref ≠ r) : p.Ranged none :=
  ⟨h.unserved, fun _ => h.lines fun hc => hne (Option.some.inj hc).symm⟩

theorem blanked (h : p.Ranged ex) (cause : SpoilCause) : (p.blanked cause).Ranged ex := by
  obtain ⟨hunserved, hlines⟩ := h.copiesLeft le_rfl h.copiesRemaining_pos
  exact ⟨hunserved, hlines⟩

end PageRecord.Ranged

/-- The record of an OPEN PAGE whose operands pass, and whose band count is a byte (R28, R29). -/
theorem PageOperands.record_inRange {o : PageOperands} {p : Port} (inst : BitVec 16) (h : o.ok p = true) (hbyte : o.bandCount ≤ 255) :
    (o.record p inst).inRange := by
  simp only [PageOperands.ok, Bool.and_eq_true, decide_eq_true_eq, Bool.or_eq_true, Bool.not_eq_true', Config.slotWords] at h
  obtain ⟨⟨⟨⟨⟨⟨⟨⟨⟨⟨⟨⟨⟨⟨⟨hcount, hheight⟩, hheight'⟩, hlast⟩, hlast'⟩, hwidth⟩, hwidth'⟩, hwords⟩, hwords'⟩, hlead⟩, hlead'⟩, hcopies⟩, hcopies'⟩,
    -⟩, hcopy⟩, hresident⟩ := h
  refine ⟨hcount, hbyte, hheight, hheight', hlast, hlast', hwidth, hwidth', of_decide_eq_true hwords, of_decide_eq_true hwords', le_min hlead hcount, (min_le_left _ _).trans hlead',
    min_le_right _ _, hcopies, hcopies', fun hc => hcopy.resolve_left (Nat.not_le.2 hc), fun hr => hresident.resolve_left ?_, hcopies, le_rfl,
    Nat.zero_le _, Nat.lt_of_lt_of_le hlast (Nat.le_add_left _ _)⟩
  rw [show o.resident = true from hr]
  decide

/-! ## The law -/

/-- The page queue has at most `n` records, no two of one tag, each in its ranges but for the lines of page `ex` (R25, R26). -/
structure State.PageQueue (n : Nat) (ex : Option PageRef) (s : State) : Prop where
  room : s.pages.length ≤ n
  tags : (s.pages.map fun p => p.ref.tag).Nodup
  ranged : ∀ p ∈ s.pages, p.Ranged ex

theorem State.pageQueueLawful_iff (s : State) : s.pageQueueLawful ↔ s.PageQueue 4 none := by
  constructor
  · rintro ⟨hroom, htags, hrange⟩
    exact ⟨hroom, htags, fun p hp => PageRecord.ranged_none_iff.2 (hrange p hp)⟩
  · rintro ⟨hroom, htags, hranged⟩
    exact ⟨hroom, htags, fun p hp => PageRecord.ranged_none_iff.1 (hranged p hp)⟩

namespace State.PageQueue

variable {n : Nat} {ex ex' : Option PageRef} {s t : State}

theorem congr (h : s.PageQueue n ex) (hp : t.pages = s.pages) : t.PageQueue n ex := ⟨by rw [hp]; exact h.room, by rw [hp]; exact h.tags, by rw [hp]; exact h.ranged⟩

/-- A change of one page's record. -/
theorem mapPage (h : s.PageQueue n ex) (r : PageRef) (f : PageRecord → PageRecord) (hf : ∀ p, (f p).ref = p.ref)
    (hother : ∀ p ∈ s.pages, p.ref ≠ r → p.Ranged ex → p.Ranged ex') (hsame : ∀ p ∈ s.pages, p.ref = r → p.Ranged ex → (f p).Ranged ex') :
    (s.mapPage r f).PageQueue n ex' := by
  refine ⟨by rw [State.mapPage_pages, List.length_map]; exact h.room, by rw [State.mapPage_tags s r f hf]; exact h.tags, fun q hq => ?_⟩
  obtain ⟨p, hp, rfl⟩ := List.mem_map.1 hq
  split
  · exact hsame p hp ‹_› (h.ranged p hp)
  · exact hother p hp ‹_› (h.ranged p hp)

/-- A change of a page's record that keeps its ranges. -/
theorem mapRanged (h : s.PageQueue n ex) (r : PageRef) (f : PageRecord → PageRecord) (hf : ∀ p, (f p).ref = p.ref)
    (hsame : ∀ p ∈ s.pages, p.ref = r → p.Ranged ex → (f p).Ranged ex) : (s.mapPage r f).PageQueue n ex :=
  h.mapPage r f hf (fun _ _ _ hr => hr) hsame

theorem allocateOne (h : s.PageQueue n ex) (ht : s.allocateOne = some t) : t.PageQueue n ex := by
  obtain ⟨p, i, hwants, -, rfl⟩ := State.allocateOne_some ht
  have hlt : p.nextToAllocate < p.bandCount := by
    have := List.find?_some hwants
    simp only [PageRecord.wantsBand, Bool.and_eq_true, decide_eq_true_eq] at this
    exact this.1
  refine (h.mapRanged p.ref (fun q => { q with nextToAllocate := q.nextToAllocate + 1 }) (fun _ => rfl) fun q hq hr hranged => ?_).congr rfl
  cases State.ref_injective h.tags hq (List.mem_of_find?_eq_some hwants) hr
  exact hranged.allocated hlt

theorem evaluateAllocation (h : s.PageQueue n ex) : s.evaluateAllocation.PageQueue n ex :=
  State.evaluateAllocation_induct (P := State.PageQueue n ex) (fun _ _ h ht => h.allocateOne ht) s h

theorem evaluateOffer (h : s.PageQueue n ex) (w : Bool) : (s.evaluateOffer w).PageQueue n ex := by
  rcases s.evaluateOffer_cases w with h' | ⟨p, rest, hp, -, h'⟩ <;> rw [h']
  · exact h
  · obtain ⟨hroom, htags, hranged⟩ := h
    rw [hp] at hroom htags hranged
    refine ⟨hroom, htags, fun q hq => ?_⟩
    rcases List.mem_cons.1 hq with rfl | hq
    · obtain ⟨hunserved, hlines⟩ := hranged p List.mem_cons_self
      exact ⟨hunserved, hlines⟩
    · exact hranged q (List.mem_cons_of_mem p hq)

/-- A page leaves the queue. -/
theorem remove {r : PageRef} (h : s.PageQueue n ex) (hother : ∀ p ∈ s.pages, p.ref ≠ r → p.Ranged ex → p.Ranged ex')
    (hp : t.pages = s.pages.filter fun p => decide (p.ref ≠ r)) : t.PageQueue n ex' := by
  refine ⟨?_, ?_, fun p hpt => ?_⟩
  · rw [hp]
    exact (List.length_filter_le _ _).trans h.room
  · rw [hp]
    exact h.tags.sublist (List.filter_sublist.map _)
  · rw [hp, List.mem_filter] at hpt
    exact hother p hpt.1 (of_decide_eq_true hpt.2) (h.ranged p hpt.1)

theorem blankPage (h : s.PageQueue n ex) (p : PageRecord) (cause : SpoilCause) (e : Event) : (s.blankPage p cause e).PageQueue n ex := by
  have blanked : (s.blankedStore p cause e).PageQueue n ex :=
    (h.mapRanged p.ref (PageRecord.blanked cause) (fun _ => rfl) fun _ _ _ hr => hr.blanked cause).congr (s.blankedStore_pages p cause e)
  exact blanked.evaluateAllocation.congr (s.blankPage_pages p cause e)

/-! ## The end of a line -/

/-- Page `r` is not the exception any more once no record of it has served all its lines. -/
theorem settled {r : PageRef} (h : s.PageQueue n (some r)) (hr : ∀ p, s.findPage r = some p → p.linesServed < p.pageLines) : s.PageQueue n none := by
  refine ⟨h.room, h.tags, fun p hp => ⟨(h.ranged p hp).unserved, fun _ => ?_⟩⟩
  by_cases hpr : p.ref = r
  · exact hr p (hpr ▸ State.findPage_of_mem h.tags hp)
  · exact (h.ranged p hp).lines fun hc => hpr (Option.some.inj hc).symm

theorem mapNextToStream (h : s.PageQueue n ex) (r : PageRef) :
    (s.mapPage r fun q => { q with nextToStream := q.nextToStream + 1 }).PageQueue n ex :=
  h.mapRanged r _ (fun _ => rfl) fun _ _ _ ⟨hunserved, hlines⟩ => ⟨hunserved, hlines⟩

theorem bandEnd (h : s.PageQueue n ex) (p : PageRecord) (i : Nat) : (s.bandEnd p i).PageQueue n ex := by
  have freed : (s.setSlot i .free).PageQueue n ex := h.congr rfl
  unfold State.bandEnd
  split
  · split
    · split
      · exact freed.evaluateAllocation
      · split
        · exact (h.mapNextToStream p.ref).congr rfl
        · exact (freed.mapNextToStream p.ref).evaluateAllocation
    · exact h
  · exact h

theorem lineCounted (h : s.PageQueue n none) (p : PageRecord) (source : LineSource) : (s.lineCounted p source).PageQueue n (some p.ref) := by
  have counted : (s.mapPage p.ref PageRecord.lineOn).PageQueue n (some p.ref) :=
    h.mapPage p.ref PageRecord.lineOn (fun _ => rfl) (fun _ _ _ hr => ⟨hr.unserved, fun _ => hr.lines nofun⟩)
      fun q _ hq hr => ⟨hr.unserved, fun hc => absurd (congrArg some hq.symm) hc⟩
  unfold State.lineCounted
  cases source with
  | background => exact counted
  | slot i =>
    dsimp only
    split
    · exact counted.bandEnd p i
    · exact counted

theorem finishPage {r : PageRef} (h : s.PageQueue n (some r)) : (s.finishPage r).PageQueue n none := by
  have removed : (s.withoutHead r).PageQueue n none := h.remove (fun _ _ hne hr => hr.of_ne hne) rfl
  exact (removed.evaluateOffer false).congr (s.finishPage_pages r)

theorem copyEnd {p q : PageRecord} (h : s.PageQueue n (some p.ref)) (hq : s.findPage p.ref = some q) (hcopies : q.copiesRemaining = p.copiesRemaining) :
    (s.copyEnd p).PageQueue n none := by
  by_cases hmore : 2 ≤ p.copiesRemaining
  · rw [State.copyEnd_again hmore]
    refine State.PageQueue.congr (s := s.mapPage p.ref PageRecord.nextCopy)
      (h.mapPage p.ref _ (fun _ => rfl) (fun _ _ hne hr => hr.of_ne hne) fun x hx hxr hranged => ?_) rfl
    cases (State.findPage_of_mem h.tags hx).symm.trans (hxr ▸ hq)
    obtain ⟨hunserved, hlines⟩ := (hranged.copiesLeft (n := q.copiesRemaining - 1) (by omega) (Nat.sub_le _ _)).restarted
    exact ⟨hunserved, hlines⟩
  · rw [State.copyEnd_done (Nat.not_le.1 hmore)]
    exact finishPage (h.congr (by simp))

theorem endLine (h : s.PageQueue n none) (r : PageRef) (source : LineSource) : (s.endLine r source).PageQueue n none := by
  cases hp : s.findPage r with
  | none =>
    unfold State.endLine
    rw [hp]
    exact h
  | some p =>
    obtain ⟨hpm, rfl⟩ := State.findPage_some hp
    have counted := h.lineCounted p source
    obtain ⟨a, m, hq, -⟩ := State.lineCounted_findPage hp source
    rw [State.endLine_eq hp]
    split
    · split
      · exact counted.finishPage
      · exact counted.copyEnd hq rfl
    · rename_i hmore
      refine (counted.settled fun q hq' => ?_).congr rfl
      cases hq.symm.trans hq'
      have hlt : p.linesServed < p.pageLines := (h.ranged p hpm).lines nofun
      show p.linesServed + 1 < p.pageLines
      omega

/-! ## TOP and OPEN PAGE -/

theorem takeTop (h : s.PageQueue n none) : s.takeTop.PageQueue n none := by
  unfold State.takeTop
  split
  · rename_i r _
    split
    · exact h
    · have started : (s.mapPage r fun q => { q with state := .printing, linesServed := 0, nextToStream := 0 }).PageQueue n none :=
        h.mapRanged r _ (fun _ => rfl) fun _ _ _ hr => ⟨hr.unserved, fun _ => hr.pageLines_pos⟩
      dsimp only
      split <;> exact started.congr (by simp)
  · exact h.congr (s.postAll_pages _ _)

theorem appendPage (h : s.PageQueue n none) (p : Port) (o : PageOperands) (hok : o.ok p = true) (hbyte : o.bandCount ≤ 255)
    (htag : s.pageOfTag o.tag = none) (hroom : s.pages.length < n) : (s.appendPage p o).PageQueue n none := by
  have hfresh : ∀ x ∈ s.pages, x.ref.tag ≠ o.tag := by simpa [State.pageOfTag, List.find?_eq_none] using htag
  have appended : ({ s with pages := s.pages ++ [o.record p s.nextInstance], nextInstance := s.nextInstance + 1 } : State).PageQueue n none := by
    refine ⟨by simpa using hroom, ?_, fun q hq => ?_⟩
    · show ((s.pages ++ [o.record p s.nextInstance]).map fun p => p.ref.tag).Nodup
      rw [List.map_append, List.nodup_append]
      refine ⟨h.tags, List.nodup_singleton _, fun a ha b hb => ?_⟩
      obtain ⟨x, hx, rfl⟩ := List.mem_map.1 ha
      rw [List.mem_singleton.1 hb]
      exact hfresh x hx
    · rcases List.mem_append.1 hq with hq | hq
      · exact h.ranged q hq
      · rw [List.mem_singleton.1 hq]
        exact PageRecord.ranged_none_iff.2 (PageOperands.record_inRange _ hok hbyte)
  unfold State.appendPage State.offerIfHead
  dsimp only
  split
  · exact appended.evaluateAllocation.evaluateOffer _
  · exact appended.evaluateAllocation

theorem openPageAct (h : s.PageQueue 4 none) (p : Port) (body : List Byte) : (State.openPageAct p s body).1.PageQueue 4 none := by
  unfold State.openPageAct
  split
  · exact h
  · rename_i hok
    split
    · exact h
    · rename_i htag
      split
      · exact h
      · rename_i hroom
        simp only [Bool.not_eq_true', Bool.not_eq_false, Bool.and_eq_true] at hok
        exact h.appendPage p _ hok.2 (Nat.le_of_lt_succ (byteAt body 2).isLt) (by simpa [pageOperandsOf] using htag) (Nat.not_le.1 hroom)

/-! ## Every step -/

theorem keptByPageUpdates (n : Nat) : KeptByPageUpdates (State.PageQueue n none) where
  same _ _ hst h := h.congr hst.pages
  begins _ _ _ _ h := h.congr rfl
  waits _ _ _ _ _ h := h.congr rfl
  allocate _ _ ht h := h.allocateOne ht
  offer _ w h := h.evaluateOffer w
  participants _ r _ h := h.mapRanged r _ (fun _ => rfl) fun _ _ _ ⟨hunserved, hlines⟩ => ⟨hunserved, hlines⟩
  remove s r h := h.remove (fun _ _ _ hr => hr) (s.removePage_pages r)
  blank _ p cause e _ _ h := h.blankPage p cause e
  endLine _ r source _ h := h.endLine r source
  takeTop _ h := h.takeTop
  deviceReset _ := ⟨Nat.zero_le n, List.nodup_nil, fun _ hp => nomatch hp⟩

end State.PageQueue

/-- Settles O56: the law of the page queue is kept by the page updates, and by OPEN PAGE where its checks let it join the queue. -/
theorem stepsKeepPageQueueLawful : Obligations.StepsKeepPageQueueLawful := by
  intro s t hs hstep
  have kept := (State.PageQueue.keptByPageUpdates 4).step (fun _ p body h => h.openPageAct p body) s (s.pageQueueLawful_iff.1 hs)
  exact t.pageQueueLawful_iff.2 (kept.of_next hstep)

end Sys2Proof.Machine
end

