-- ==== Sys2Proof/Proofs/HeadPage.lean ====
section
/-! The law of the head page: the records behind it are PENDING, and the Streamer offers or serves it as its state says; every step keeps it
(R26, R33, R34, R138, R139). -/

namespace Sys2Proof.Machine

/-! ## What the law reads -/

/-- What the law of the head page reads of the page queue. -/
def State.heads (s : State) : List (PageRef × PageState) := s.pages.map fun p => (p.ref, p.state)

theorem State.heads_congr {s t : State} (h : t.pages = s.pages) : t.heads = s.heads := by
  unfold State.heads
  rw [h]

theorem State.mapPage_heads (s : State) (r : PageRef) (f : PageRecord → PageRecord) (hf : ∀ p, (f p).ref = p.ref ∧ (f p).state = p.state) :
    (s.mapPage r f).heads = s.heads := by
  unfold State.heads
  rw [State.mapPage_pages, List.map_map]
  refine List.map_congr_left fun p _ => ?_
  simp only [Function.comp_apply]
  split
  · rw [(hf p).1, (hf p).2]
  · rfl

/-- Allocation changes no page's state (R8). -/
theorem State.evaluateAllocation_heads (s : State) : s.evaluateAllocation.heads = s.heads := by
  have hall := congrArg (List.map fun p : PageRecord => (p.ref, p.state)) s.evaluateAllocation_allocates.pages
  rwa [List.map_map, List.map_map] at hall

/-- The Streamer's agreement with the head page, from the head's name and state alone (R26, R138, R139). -/
theorem streamerAgrees_congr {head head' : Option PageRecord} {st st' : StreamerState}
    (hh : head'.map (fun p => (p.ref, p.state)) = head.map fun p => (p.ref, p.state)) (hst : st'.bound = st.bound) :
    streamerAgrees st' head' = streamerAgrees st head := by
  have place : ∀ (st : StreamerState) head, streamerAgrees st.bound head = streamerAgrees st head := by
    intro st head
    cases st <;> cases head <;> rfl
  rw [← place st', hst, place]
  cases head with
  | none => rw [Option.map_eq_none_iff.1 hh]
  | some p =>
    obtain ⟨q, rfl, hq⟩ := Option.map_eq_some_iff.1 hh
    simp only [Prod.mk.injEq] at hq
    cases st <;> simp only [streamerAgrees, hq.1, hq.2]

/-- The end of a line changes no page's state before the page's own end is taken, nor the Streamer (R17, R18, R151). -/
theorem State.lineCounted_heads (s : State) (p : PageRecord) (source : LineSource) :
    (s.lineCounted p source).heads = s.heads ∧ (s.lineCounted p source).streamer = s.streamer := by
  have counted : (s.mapPage p.ref PageRecord.lineOn).heads = s.heads := s.mapPage_heads p.ref _ fun _ => ⟨rfl, rfl⟩
  have banded : ∀ (t : State) i, (t.bandEnd p i).heads = t.heads ∧ (t.bandEnd p i).streamer = t.streamer := by
    intro t i
    have streamed : ∀ u : State, (u.mapPage p.ref fun q => { q with nextToStream := q.nextToStream + 1 }).heads = u.heads :=
      fun u => u.mapPage_heads p.ref _ fun _ => ⟨rfl, rfl⟩
    unfold State.bandEnd
    repeat' split
    · exact ⟨State.evaluateAllocation_heads _, State.evaluateAllocation_streamer _⟩
    · exact ⟨streamed _, rfl⟩
    · exact ⟨(State.evaluateAllocation_heads _).trans (streamed _), State.evaluateAllocation_streamer _⟩
    all_goals exact ⟨rfl, rfl⟩
  unfold State.lineCounted
  cases source with
  | background => exact ⟨counted, rfl⟩
  | slot i =>
    dsimp only
    split
    · exact ⟨(banded _ i).1.trans counted, (banded _ i).2⟩
    · exact ⟨counted, rfl⟩

/-- A page that goes BLANKING under the Streamer that prints it is served on (R43, R164). -/
theorem streamerAgrees_blanked {st : StreamerState} {p : PageRecord} (h : streamerAgrees st (some p) = true) (hprint : p.state = .printing)
    (cause : SpoilCause) : streamerAgrees (st.afterBlanking p.ref) (some (p.blanked cause)) = true := by
  cases st with
  | starved r b n x =>
    simp only [streamerAgrees, Bool.and_eq_true, decide_eq_true_eq] at h
    simp [streamerAgrees, StreamerState.afterBlanking, h.1, PageRecord.blanked]
  | idle | offered => simp [streamerAgrees, hprint] at h
  | betweenLines | sending | held | ackWait => simpa [streamerAgrees, hprint, StreamerState.afterBlanking, PageRecord.blanked] using h

/-! ## The law -/

/-- The law of the head page (R26, R139). -/
structure State.HeadServed (s : State) : Prop where
  tags : (s.pages.map fun p => p.ref.tag).Nodup
  behind : ∀ p ∈ s.pages.tail, p.state = .pending
  agrees : streamerAgrees s.streamer s.pages.head? = true

theorem State.headLawful_iff (s : State) : s.headLawful ↔ s.HeadServed := ⟨fun ⟨h1, h2, h3⟩ => ⟨h1, h2, h3⟩, fun ⟨h1, h2, h3⟩ => ⟨h1, h2, h3⟩⟩

namespace State.HeadServed

variable {s t : State} {p : PageRecord} {r : PageRef}

/-- The law follows the pages' names and states and the Streamer, but for its place in a line or a wait. -/
theorem congr (h : s.HeadServed) (hp : t.heads = s.heads) (hst : t.streamer.bound = s.streamer.bound) : t.HeadServed := by
  refine ⟨?_, fun q hq => ?_, ?_⟩
  · have htags := congrArg (List.map fun x : PageRef × PageState => x.1.tag) hp
    simp only [State.heads, List.map_map] at htags
    exact (congrArg List.Nodup htags).mpr h.tags
  · have htail := congrArg List.tail hp
    simp only [State.heads, ← List.map_tail] at htail
    obtain ⟨p, hp, heq⟩ := List.mem_map.1 (htail ▸ List.mem_map_of_mem (f := fun p : PageRecord => (p.ref, p.state)) hq)
    simp only [Prod.mk.injEq] at heq
    exact heq.2 ▸ h.behind p hp
  · rw [← h.agrees]
    refine streamerAgrees_congr ?_ hst
    have hhead := congrArg List.head? hp
    simpa only [State.heads, List.head?_map] using hhead

theorem of_pages (h : s.HeadServed) (hp : t.pages = s.pages) (hst : t.streamer.bound = s.streamer.bound) : t.HeadServed :=
  h.congr (State.heads_congr hp) hst

/-- A head page with PENDING records behind it, as the Streamer has it. -/
theorem of_cons {rest : List PageRecord} (htags : (t.pages.map fun p => p.ref.tag).Nodup) (hp : t.pages = p :: rest)
    (hrest : ∀ q ∈ rest, q.state = .pending) (hst : streamerAgrees t.streamer (some p) = true) : t.HeadServed :=
  ⟨htags, by rw [hp]; exact hrest, by rw [hp]; exact hst⟩

/-- With the Streamer IDLE every page is PENDING. -/
theorem of_idle (htags : (t.pages.map fun p => p.ref.tag).Nodup) (hp : ∀ q ∈ t.pages, q.state = .pending) (hst : t.streamer = .idle) : t.HeadServed := by
  refine ⟨htags, fun q hq => hp q (List.mem_of_mem_tail hq), ?_⟩
  rw [hst]
  cases hh : t.pages.head? with
  | none => rfl
  | some q => exact decide_eq_true (hp q (List.mem_of_mem_head? hh))

/-- A page that is not PENDING heads the queue. -/
theorem cons_of_not_pending (h : s.HeadServed) (hp : p ∈ s.pages) (hstate : p.state ≠ .pending) :
    ∃ rest, s.pages = p :: rest ∧ ∀ q ∈ rest, q.state = .pending := by
  have hbehind := h.behind
  cases hl : s.pages with
  | nil => simp [hl] at hp
  | cons q rest =>
    rw [hl] at hp hbehind
    rcases List.mem_cons.1 hp with rfl | hp
    · exact ⟨rest, rfl, hbehind⟩
    · exact absurd (hbehind p hp) hstate

/-- The page that the Streamer serves, or for a band of which it waits, is the head page, PRINTING or BLANKING (R138). -/
theorem cons_of_served (h : s.HeadServed) (hst : s.streamer.served = some r ∨ ∃ b, s.streamer.awaits = some (r, b)) :
    ∃ p rest, s.pages = p :: rest ∧ p.ref = r ∧ (p.state = .printing ∨ p.state = .blanking) ∧ ∀ q ∈ rest, q.state = .pending := by
  obtain ⟨-, -, hserved, hstarved⟩ := (streamerAgrees_iff _ _).1 h.agrees
  obtain ⟨p, hp, hr, hstate⟩ : ∃ p, s.pages.head? = some p ∧ p.ref = r ∧ (p.state = .printing ∨ p.state = .blanking) := by
    rcases hst with hst | ⟨b, hst⟩
    · exact hserved r hst
    · obtain ⟨p, hp, hr, hprint⟩ := hstarved r b hst
      exact ⟨p, hp, hr, .inl hprint⟩
  obtain ⟨rest, hcons, hrest⟩ := h.cons_of_not_pending (List.mem_of_mem_head? hp) (by rcases hstate with hs | hs <;> rw [hs] <;> decide)
  exact ⟨p, rest, hcons, hr, hstate, hrest⟩

/-- A page in print is PRINTING: what the Streamer serves is PRINTING or BLANKING. -/
theorem printing (h : s.HeadServed) (hp : p ∈ s.pages) (hprint : s.InPrint p) : p.state = .printing := by
  rcases hprint with hprint | ⟨hst, hno⟩
  · exact hprint
  · obtain ⟨q, rest, hcons, hr, hstate, -⟩ := h.cons_of_served (.inl (by rw [hst]; rfl))
    cases State.ref_injective h.tags (by simp [hcons] : q ∈ s.pages) hp hr
    exact hstate.resolve_right hno

/-! ## The updates -/

theorem beginLine (h : s.HeadServed) (source : LineSource) (hst : s.streamer.served = some r ∨ ∃ b, s.streamer.awaits = some (r, b)) :
    (s.beginLine r source).HeadServed := by
  obtain ⟨p, rest, hcons, rfl, hstate, hrest⟩ := h.cons_of_served hst
  exact of_cons h.tags hcons hrest (by simpa [streamerAgrees] using hstate)

theorem waits (h : s.HeadServed) (hst : s.streamer = .betweenLines p.ref) (hp : s.findPage p.ref = some p) (hno : p.state ≠ .blanking) (b n : Nat) (x : Bool) :
    ({ s with streamer := .starved p.ref b n x } : State).HeadServed := by
  obtain ⟨hpm, -⟩ := State.findPage_some hp
  have hprint := h.printing hpm (.inr ⟨hst, hno⟩)
  obtain ⟨rest, hcons, hrest⟩ := h.cons_of_not_pending hpm (by rw [hprint]; decide)
  exact of_cons h.tags hcons hrest (by simp [streamerAgrees, hprint])

theorem evaluateAllocation (h : s.HeadServed) : s.evaluateAllocation.HeadServed := h.congr s.evaluateAllocation_heads (by rw [State.evaluateAllocation_streamer])

theorem evaluateOffer (h : s.HeadServed) (w : Bool) : (s.evaluateOffer w).HeadServed := by
  rcases s.evaluateOffer_cases w with h' | ⟨p, rest, hp, -, h'⟩ <;> rw [h']
  · exact h
  · obtain ⟨htags, hbehind, -⟩ := h
    rw [hp] at htags hbehind
    exact of_cons htags rfl hbehind (by simp [streamerAgrees])

/-- A page leaves the queue, and the Streamer is IDLE if it was the head page (R26, R34). -/
theorem remove (h : s.HeadServed) (hp : t.pages = s.pages.filter fun p => decide (p.ref ≠ r))
    (hst : t.streamer = if s.isHead r = true then .idle else s.streamer) : t.HeadServed := by
  have htags : (t.pages.map fun p => p.ref.tag).Nodup := by
    rw [hp]
    exact h.tags.sublist (List.filter_sublist.map _)
  cases hl : s.pages with
  | nil =>
    have hnil : t.pages = [] := by rw [hp, hl]; rfl
    have hempty : s.isHead r = false := by unfold State.isHead; rw [hl]
    exact h.of_pages (hnil.trans hl.symm) (by rw [hst, hempty]; rfl)
  | cons q rest =>
    have hpending : ∀ x ∈ rest, x.state = .pending := fun x hx => h.behind x (by rw [hl]; exact hx)
    by_cases hq : q.ref = r
    · have hhead : s.isHead r = true := (s.isHead_iff r).2 ⟨q, by rw [hl]; rfl, hq⟩
      refine of_idle htags (fun x hx => ?_) (by rw [hst, if_pos hhead])
      rw [hp, hl, List.filter_cons_of_neg (by simp [hq])] at hx
      exact hpending x (List.mem_filter.1 hx).1
    · have hhead : s.isHead r = false := by unfold State.isHead; rw [hl]; exact decide_eq_false hq
      rw [hl, List.filter_cons_of_pos (by simpa using hq)] at hp
      refine of_cons htags hp (fun x hx => hpending x (List.mem_filter.1 hx).1) ?_
      have hagrees := h.agrees
      rw [hl] at hagrees
      rw [hst, hhead]
      exact hagrees

theorem removePage (h : s.HeadServed) (r : PageRef) : (s.removePage r).HeadServed := by
  obtain ⟨_, _, heq⟩ := s.removePage_eq r
  exact h.remove (s.removePage_pages r) (by rw [heq])

theorem blankPage (h : s.HeadServed) (hp : p ∈ s.pages) (hprint : p.state = .printing) (cause : SpoilCause) (e : Event) :
    (s.blankPage p cause e).HeadServed := by
  obtain ⟨rest, hcons, hrest⟩ := h.cons_of_not_pending hp (by rw [hprint]; decide)
  have hblanked : (s.blankedStore p cause e).pages = p.blanked cause :: rest :=
    (s.blankedStore_pages p cause e).trans (State.mapPage_head h.tags hcons _)
  have hagrees := h.agrees
  rw [hcons] at hagrees
  have blanked : ({ s.blankedStore p cause e with streamer := s.streamer.afterBlanking p.ref } : State).HeadServed := by
    refine of_cons (State.blankedStore_tags cause e h.tags) hblanked hrest ?_
    exact streamerAgrees_blanked hagrees hprint cause
  refine blanked.congr ?_ (by rw [State.blankPage_streamer])
  exact (State.heads_congr (s.blankPage_pages p cause e)).trans (State.evaluateAllocation_heads _)

/-! ## The end of a line -/

theorem finishPage (h : s.HeadServed) (hst : s.streamer.served = some r) : (s.finishPage r).HeadServed := by
  obtain ⟨p, rest, hcons, hr, -⟩ := h.cons_of_served (.inl hst)
  have hhead : s.isHead r = true := (s.isHead_iff r).2 ⟨p, by rw [hcons]; rfl, hr⟩
  have removed : (s.withoutHead r).HeadServed := h.remove rfl (by rw [if_pos hhead]; rfl)
  exact (removed.evaluateOffer false).of_pages (s.finishPage_pages r) (by rw [s.finishPage_streamer r])

theorem copyEnd (h : s.HeadServed) (hst : s.streamer.served = some p.ref) : (s.copyEnd p).HeadServed := by
  by_cases hmore : 2 ≤ p.copiesRemaining
  · obtain ⟨q, rest, hcons, hr, -, hrest⟩ := h.cons_of_served (.inl hst)
    rw [State.copyEnd_again hmore, ← hr]
    refine of_cons ?_ (State.mapPage_head h.tags hcons PageRecord.nextCopy) hrest (by simp [streamerAgrees, PageRecord.nextCopy])
    exact (congrArg List.Nodup (State.mapPage_tags s q.ref PageRecord.nextCopy fun _ => rfl)).mpr h.tags
  · rw [State.copyEnd_done (Nat.not_le.1 hmore)]
    refine finishPage (h.of_pages (by simp) (by simp)) ?_
    rw [State.postAll_streamer, hst]

theorem endLine (h : s.HeadServed) (source : LineSource) (hst : s.streamer.served = some r) : (s.endLine r source).HeadServed := by
  obtain ⟨p, rest, hcons, rfl, hstate, -⟩ := h.cons_of_served (.inl hst)
  have hp : s.findPage p.ref = some p := State.findPage_of_mem h.tags (by simp [hcons])
  obtain ⟨hheads, hstreamer⟩ := s.lineCounted_heads p source
  have counted : (s.lineCounted p source).HeadServed := h.congr hheads (by rw [hstreamer])
  have served : (s.lineCounted p source).streamer.served = some p.ref := by rw [hstreamer, hst]
  rw [State.endLine_eq hp]
  split
  · split
    · exact counted.finishPage served
    · exact counted.copyEnd served
  · obtain ⟨q, rest', hcons', hr, hstate', hrest⟩ := counted.cons_of_served (.inl served)
    exact of_cons counted.tags hcons' hrest (by simpa [streamerAgrees, hr] using hstate')

/-! ## TOP and OPEN PAGE -/

theorem takeTop (h : s.HeadServed) : s.takeTop.HeadServed := by
  unfold State.takeTop
  split
  · rename_i r hst
    obtain ⟨p, hp, rfl, hoffered⟩ := ((streamerAgrees_iff _ _).1 h.agrees).2.1 r hst
    have hpm := List.mem_of_mem_head? hp
    obtain ⟨rest, hcons, hrest⟩ := h.cons_of_not_pending hpm (by rw [hoffered]; decide)
    rw [State.findPage_of_mem h.tags hpm]
    have started : ({ (s.mapPage p.ref fun q => { q with state := .printing, linesServed := 0, nextToStream := 0 }) with
        streamer := .betweenLines p.ref, prdyLow := none } : State).HeadServed := by
      refine of_cons ?_ (State.mapPage_head h.tags hcons fun q => { q with state := .printing, linesServed := 0, nextToStream := 0 }) hrest
        (by simp [streamerAgrees])
      exact (congrArg List.Nodup (State.mapPage_tags s p.ref (fun q => { q with state := .printing, linesServed := 0, nextToStream := 0 })
        fun _ => rfl)).mpr h.tags
    dsimp only
    split
    · exact started.of_pages (by simp) (by simp)
    · exact started
  · exact h.of_pages (s.postAll_pages _ _) (by rw [State.postFault, State.postAll_streamer])

/-- A PENDING record of a new tag joins the queue (R29). -/
theorem append (h : s.HeadServed) (hp : t.pages = s.pages ++ [p]) (hst : t.streamer = s.streamer) (hfresh : ∀ q ∈ s.pages, q.ref.tag ≠ p.ref.tag)
    (hpending : p.state = .pending) : t.HeadServed := by
  have htags : (t.pages.map fun p => p.ref.tag).Nodup := by
    rw [hp, List.map_append, List.nodup_append]
    refine ⟨h.tags, List.nodup_singleton _, fun a ha b hb => ?_⟩
    obtain ⟨x, hx, rfl⟩ := List.mem_map.1 ha
    rw [List.mem_singleton.1 hb]
    exact hfresh x hx
  obtain ⟨-, hbehind, hagrees⟩ := h
  rw [← hst] at hagrees
  cases hl : s.pages with
  | nil =>
    rw [hl] at hp hagrees
    refine of_idle htags (fun q hq => ?_) ?_
    · rw [hp, List.nil_append, List.mem_singleton] at hq
      rwa [hq]
    · cases hs : t.streamer <;> simp [hs, streamerAgrees] at hagrees ⊢
  | cons q rest =>
    rw [hl] at hp hbehind hagrees
    refine of_cons htags hp (fun x hx => ?_) hagrees
    rcases List.mem_append.1 hx with hx | hx
    · exact hbehind x hx
    · rwa [List.mem_singleton.1 hx]

theorem openPageAct (h : s.HeadServed) (p : Port) (body : List Byte) : (State.openPageAct p s body).1.HeadServed := by
  unfold State.openPageAct
  split
  · exact h
  · split
    · exact h
    · rename_i htag
      split
      · exact h
      · have hfresh : ∀ x ∈ s.pages, x.ref.tag ≠ byteAt body 0 := by simpa [State.pageOfTag, List.find?_eq_none] using htag
        have appended : ({ s with pages := s.pages ++ [(pageOperandsOf body).record p s.nextInstance], nextInstance := s.nextInstance + 1 } : State).HeadServed :=
          h.append rfl rfl hfresh rfl
        show (s.appendPage p (pageOperandsOf body)).HeadServed
        unfold State.appendPage State.offerIfHead
        dsimp only
        split
        · exact appended.evaluateAllocation.evaluateOffer _
        · exact appended.evaluateAllocation

/-! ## Every step -/

theorem keptByPageUpdates : KeptByPageUpdates State.HeadServed where
  same _ _ hst h := h.of_pages hst.pages hst.streamer
  begins _ _ source hst h := h.beginLine source hst
  waits _ _ hst hp hno h := h.waits hst hp hno _ _ _
  allocate s t ht h := by
    obtain ⟨p, i, -, -, rfl⟩ := State.allocateOne_some ht
    exact h.congr (State.mapPage_heads s p.ref (fun q => { q with nextToAllocate := q.nextToAllocate + 1 }) fun _ => ⟨rfl, rfl⟩) rfl
  offer _ w h := h.evaluateOffer w
  participants s r _ h := h.congr (s.mapPage_heads r _ fun _ => ⟨rfl, rfl⟩) rfl
  remove _ r h := h.removePage r
  blank _ _ cause e hp hprint h := h.blankPage hp (h.printing hp hprint) cause e
  endLine _ _ source hst h := h.endLine source hst
  takeTop _ h := h.takeTop
  deviceReset _ := of_idle List.nodup_nil (fun _ hq => nomatch hq) rfl

end State.HeadServed

/-- Settles O57: each page update leaves a head page that the Streamer offers or serves as its state says. -/
theorem stepsKeepTheHeadServed : Obligations.StepsKeepTheHeadServed := by
  intro s t hs hstep
  have kept := State.HeadServed.keptByPageUpdates.step (fun _ p body h => h.openPageAct p body) s (s.headLawful_iff.1 hs)
  exact t.headLawful_iff.2 (kept.of_next hstep)

end Sys2Proof.Machine
end

