-- ==== Sys2Proof/Proofs/EngineClaims.lean ====
section
/-! The engine's claims on a page: TOP on the offered page, an LREQ for a band that is not ready, and the expiry of the starvation timer (R35, R43, R61, R62,
R141, R144, R158, R159, R162, R164). -/

namespace Sys2Proof.Machine

/-! ## Postings -/

/-- A posting to the ports of a set, queue by queue (R174). -/
theorem State.postAll_events (s : State) (ps : PortSet) (e : Event) (z : Port) :
    ((s.postAll ps e).port z).events = if ps.has z = true then enqueueEvent (s.port z).events e else (s.port z).events := by
  rw [State.postAll_port]
  split <;> rfl

theorem State.postAll_queue (s : State) (ps : PortSet) (e : Event) (z : Port) : ((s.postAll ps e).port z).queue = (s.port z).queue := by
  rw [State.postAll_port]
  split <;> rfl

/-! ## TOP -/

/-- A TOP's rise with reset high is taken (R134). -/
theorem exec_top_rises {s : State} (hlow : s.pins.top = false) (hreset : s.resetHeld = false) :
    exec (.top true) s = .next (s.withTop true).takeTop := by
  have taken : s.asserted s.pins.top true = true := by simp [State.asserted, hlow, hreset]
  show Host.Outcome.next (if s.asserted s.pins.top true then (s.withTop true).takeTop else s.withTop true) = _
  rw [if_pos taken]

/-- The part with the offered page `r` PRINTING and the Streamer between its lines (R35, R141). -/
def State.started (s : State) (r : PageRef) : State :=
  { (s.mapPage r fun q => { q with state := .printing, linesServed := 0, nextToStream := 0 }) with streamer := .betweenLines r, prdyLow := none }

/-- TOP while OFFERED: PAGE STARTED for the first copy alone (R35). -/
theorem State.takeTop_offered {s : State} {r : PageRef} {q : PageRecord} (hst : s.streamer = .offered r) (hq : s.findPage r = some q) :
    s.takeTop = if q.copiesRemaining = q.copies then (s.started r).postAll q.participants (Event.ofPage .pageStarted q.ref.tag 0) else s.started r := by
  simp only [State.takeTop, hst, hq]
  rfl

/-- Settles O39. -/
theorem topStartsTheOfferedPage : Obligations.TopStartsTheOfferedPage := by
  intro s r q hlow hreset hst hq
  have hexec := exec_top_rises hlow hreset
  rw [State.takeTop_offered (s := s.withTop true) hst hq] at hexec
  refine ⟨_, hexec, ?_⟩
  by_cases hfirst : q.copiesRemaining = q.copies
  · rw [if_pos hfirst]
    refine ⟨State.postAll_streamer _ _ _, ?_, State.postAll_pages _ _ _, fun z => ?_, State.postAll_slots _ _ _, State.postAll_bandRam _ _ _,
      State.postAll_execution _ _ _, State.postAll_queue _ _ _⟩
    · rw [State.prdy, State.postAll_streamer]
      rfl
    · simp only [hfirst, true_and]
      exact State.postAll_events _ _ _ z
  · rw [if_neg hfirst]
    exact ⟨rfl, rfl, rfl, fun z => (if_neg fun h => hfirst h.1).symm, rfl, rfl, rfl, fun _ => rfl⟩

/-! ## A page that goes BLANKING with a line of background -/

/-- What is left of the page whose claim turned it BLANKING with no line of a slot in flight (R43, R104, R125): the claims of R158 and R164 begin with it. -/
theorem State.blankPage_without_slot {s : State} {q : PageRecord} (htags : (s.pages.map fun p => p.ref.tag).Nodup) (hq : s.findPage q.ref = some q)
    (hline : s.lineSlot = none) (cause : SpoilCause) (e : Event) :
    (s.blankPage q cause e).findPage q.ref = some { q with state := .blanking, spoilCause := some cause, copiesRemaining := 1 } ∧
    (∀ x ∈ (s.blankPage q cause e).slots, x.ofPage q.ref = false) ∧
    (∀ z, ((s.blankPage q cause e).port z).queue = s.queueAfterAbort q.ref z) ∧ (s.blankPage q cause e).execution = s.stoppedFor q.ref ∧
    ∀ z, ((s.blankPage q cause e).port z).events = s.eventsAfterAbort q.ref z
      (if q.participants.has z = true then enqueueEvent (s.port z).events e else (s.port z).events) := by
  refine ⟨State.blankPage_findPage cause e htags hq, (State.forall_slots (Q := fun x => x.ofPage q.ref = false) rfl).2 fun i => Bool.eq_false_iff.2 fun hi => ?_, fun z => ?_,
    s.blankPage_execution q cause e, fun z => ?_⟩
  · have := (State.blankPage_slot_of_page s q cause e hi).1
    rw [hline] at this
    cases this
  · rw [State.blankPage_port]
  · rw [State.blankPage_port]

/-! ## An LREQ for a band that is not ready -/

theorem State.startBand_eq_none {s : State} {r : PageRef} {b : Nat} (h : ∀ i k, s.slotOfBand r b = some i → s.slot i ≠ .held .ready k) :
    s.startBand r b = none := by
  cases ht : s.startBand r b with
  | none => rfl
  | some t =>
    obtain ⟨i, k, hi, hk, -⟩ := State.startBand_some ht
    exact absurd hk (h i k hi)

/-- Settles O42. -/
theorem lreqForAnUnreadyBand : Obligations.LreqForAnUnreadyBand := by
  intro s r q hlow hreset hst htags hq hprint hlines hready
  obtain ⟨-, rfl⟩ := State.findPage_some hq
  have hfirst : q.bandLine = 0 := Nat.sub_eq_zero_of_le hlines.le
  have hexec : exec (.lreq true) s = .next ((s.withLreq true).notReady q) := by
    have hnone : (s.withLreq true).startBand q.ref q.nextToStream = none := State.startBand_eq_none hready
    rw [exec_lreq_rises hlow hreset, State.takeLreq_between (s := s.withLreq true) hst hq, if_neg (by rw [hprint]; decide), State.nextLine,
      if_pos hfirst, hnone]
    rfl
  refine ⟨fun hkind => ?_, fun hkind => ?_⟩
  · have hkind' : (s.withLreq true).engine.kind = .stall := hkind
    simpa only [State.notReady, hkind'] using hexec
  · have hkind' : (s.withLreq true).engine.kind = .nostall := hkind
    have hline : (s.withLreq true).lineSlot = none := by
      show s.lineSlot = none
      simp only [State.lineSlot, hst]
    simp only [State.notReady, hkind'] at hexec
    exact ⟨_, hexec, rfl, State.blankPage_without_slot (s := s.withLreq true) htags hq hline .underrun _⟩

/-! ## The expiry of the starvation timer -/

/-- A slot that goes READY with the band that a starving engine awaits streams it, and its line is sent (R160). -/
theorem State.readyNotice_awaited {s : State} {i n : Nat} {x : Bool} {k k' : BandRecord} {st : HeldState} (hi : s.slot i = .held st k)
    (hpage : k'.page = k.page) (hband : k'.band = k.band) (hst : s.streamer = .starved k.page k.band n x) (hfound : s.slotOfBand k.page k.band = some i) :
    (s.setSlot i (.held .ready k')).readyNotice k'.page k'.band = (s.setSlot i (.held .streaming k')).beginLine k.page (.slot i) := by
  have hlt := State.lt_of_slot_held hi
  have hstart := State.startBand_ready ((State.slotOfBand_setSlot (st' := .ready) hi hpage hband _ _).trans hfound)
    (State.slot_setSlot_same (s := s) (.held .ready k') hlt)
  have hset : (s.setSlot i (.held .ready k')).setSlot i (.held .streaming k') = s.setSlot i (.held .streaming k') := by
    simp only [State.setSlot, List.set_set]
  rw [hset] at hstart
  rw [hpage, hband]
  unfold State.readyNotice
  rw [State.setSlot_streamer, hst]
  simp only [and_self, if_true, hstart, Option.getD_some]

theorem State.openToReady_awaited {s : State} {i n : Nat} {x : Bool} {k : BandRecord} (hi : s.slot i = .held .opened k)
    (hst : s.streamer = .starved k.page k.band n x) (hfound : s.slotOfBand k.page k.band = some i) (force : Bool) :
    s.openToReady i force =
      (s.setSlot i (.held .streaming { k with forced := k.forced || force, forcePending := false })).beginLine k.page (.slot i) := by
  rw [← State.readyNotice_awaited (k' := { k with forced := k.forced || force, forcePending := false }) hi rfl rfl hst hfound]
  simp only [State.openToReady, hi]

/-- The part when the expired timer's claim is made (R159, R162). -/
def State.timedOut (s : State) (r : PageRef) (b : Nat) : State := { s with streamer := .starved r b s.starvationPeriods true }

theorem exec_starvationTimerExpiry {s : State} {r : PageRef} {b n : Nat} {q : PageRecord} (hst : s.streamer = .starved r b n false)
    (hq : s.findPage r = some q) : exec .starvationTimerExpiry s = .next ((s.timedOut r b).expiryClaim q b) := by
  show Host.Outcome.next s.takeStarvationExpiry = _
  simp only [State.takeStarvationExpiry, hst, hq]
  rfl

theorem State.expiryClaim_opened {s : State} {q : PageRecord} {b i : Nat} {k : BandRecord} (hb : s.slotOfBand q.ref b = some i)
    (hk : s.slot i = .held .opened k) : s.expiryClaim q b = s.forceClose q i k := by
  simp only [State.expiryClaim, hb, hk]

theorem State.expiryClaim_spoils {s : State} {q : PageRecord} {b : Nat}
    (h : s.slotOfBand q.ref b = none ∨ ∃ i k, s.slotOfBand q.ref b = some i ∧ s.slot i = .held .clearing k) : s.expiryClaim q b = s.spoil q.ref .starved := by
  rcases h with h | ⟨i, k, hb, hk⟩
  · simp only [State.expiryClaim, h]
  · simp only [State.expiryClaim, hb, hk]

theorem PortSet.has_minus (ps qs : PortSet) (z : Port) : (ps.minus qs).has z = true ↔ ps.has z = true ∧ qs.has z = false := by
  cases z <;> simp [PortSet.minus, PortSet.has]

theorem State.postForced_events (s : State) (q : PageRecord) (k : BandRecord) (z : Port) :
    ((s.postForced q k).port z).events = if q.participants.has z = true ∧ k.closedBy.has z = false then
      enqueueEvent (s.port z).events (Event.ofBand .bandForced k.page.tag k.band) else (s.port z).events := by
  unfold State.postForced
  rw [State.postAll_events]
  simp only [PortSet.has_minus]

/-- A force-close on the slot of the executing command is left pending (R62). -/
theorem State.forceClose_deferred {s : State} {i : Nat} {k : BandRecord} (q : PageRecord) (hpending : k.forcePending = false)
    (hin : s.inFlight = some i) : s.forceClose q i k = (s.setSlot i (.held .opened { k with forcePending := true })).postForced q k := by
  rw [State.forceClose, hpending, if_neg (by decide), if_pos hin]

/-- On another slot it is made at once (R61). -/
theorem State.forceClose_now {s : State} {i : Nat} {k : BandRecord} (q : PageRecord) (hpending : k.forcePending = false) (hin : s.inFlight ≠ some i) :
    s.forceClose q i k = (s.postForced q k).openToReady i true := by
  rw [State.forceClose, hpending, if_neg (by decide), if_neg hin]

/-- Settles O47. -/
theorem starvationExpiryCases : Obligations.StarvationExpiryCases := by
  intro s r b n q hst htags hq hprint
  have hexec := exec_starvationTimerExpiry hst hq
  obtain ⟨-, hr⟩ := State.findPage_some hq
  refine ⟨fun i k hi hk hpending => ?_, fun hnone => ?_⟩
  · obtain ⟨_, _, hk', rfl, rfl⟩ := State.slotOfBand_some hi
    cases hk.symm.trans hk'
    rw [State.expiryClaim_opened (s := s.timedOut k.page k.band) (by rw [hr]; exact hi) hk] at hexec
    by_cases hin : s.inFlight = some i
    · rw [State.forceClose_deferred (s := s.timedOut k.page k.band) q hpending hin] at hexec
      refine ⟨_, hexec, fun z => State.postForced_events _ q k z, fun z => State.postAll_queue _ _ _ z, State.postAll_execution _ _ _,
        State.postAll_pages _ _ _, fun _ => ⟨State.postAll_slots _ _ _, State.postAll_streamer _ _ _⟩, fun hno => absurd hin hno⟩
    · rw [State.forceClose_now (s := s.timedOut k.page k.band) q hpending hin] at hexec
      have hslots : ((s.timedOut k.page k.band).postForced q k).slots = s.slots := State.postAll_slots _ _ _
      have hstarved : ((s.timedOut k.page k.band).postForced q k).streamer = .starved k.page k.band s.starvationPeriods true :=
        State.postAll_streamer _ _ _
      rw [State.openToReady_awaited ((State.slot_congr hslots i).trans hk) hstarved ((State.slotOfBand_congr hslots _ _).trans hi), Bool.or_true] at hexec
      refine ⟨_, hexec, fun z => State.postForced_events _ q k z, fun z => State.postAll_queue _ _ _ z, State.postAll_execution _ _ _,
        State.postAll_pages _ _ _, fun hyes => absurd hyes hin, fun _ => ⟨by rw [← hslots]; rfl, rfl⟩⟩
  · subst hr
    rw [State.expiryClaim_spoils (s := s.timedOut q.ref b) hnone] at hexec
    have hspoil : (s.timedOut q.ref b).spoil q.ref .starved =
        (s.timedOut q.ref b).blankPage q .starved (Event.ofPage .pageSpoiled q.ref.tag SpoilCause.starved.code) := by
      have hq' : (s.timedOut q.ref b).findPage q.ref = some q := hq
      simp only [State.spoil, hq', hprint]
    rw [hspoil] at hexec
    refine ⟨_, hexec, ?_, State.blankPage_without_slot (s := s.timedOut q.ref b) htags hq rfl .starved _⟩
    rw [State.blankPage_streamer]
    simp only [State.timedOut, StreamerState.afterBlanking, if_true]

end Sys2Proof.Machine
end

