-- ==== Sys2Proof/Proofs/PageFrames.lean ====
section
/-! OPEN PAGE and the refusals of OPEN PAGE and ABORT PAGE, from the bytes of their frames (R27 to R29, R45, R186, R200), and the page checks of queued commands
(R40, R119, R120). -/

namespace Sys2Proof.Machine

/-! ## The operands of OPEN PAGE -/

/-- Bits 0 and 1 of a byte that holds a code of at most two bits (R199). -/
theorem getLsbD_zero_of_code (b : Byte) : b.getLsbD 0 = decide (b.toNat % 2 = 1) := by
  simp [BitVec.getLsbD, Nat.testBit_zero]

theorem getLsbD_one_of_code {b : Byte} (h : b.toNat ≤ 3) : b.getLsbD 1 = decide (2 ≤ b.toNat) := by
  revert h
  simp only [BitVec.getLsbD]
  generalize b.toNat = n
  intro h
  interval_cases n <;> rfl

/-- A byte that holds a code of one bit (R199). -/
theorem getLsbD_zero_of_flag {b : Byte} (h : b.toNat ≤ 1) : b.getLsbD 0 = decide (b = 1) := by
  rw [getLsbD_zero_of_code]
  refine decide_eq_decide.2 ⟨fun hb => BitVec.eq_of_toNat_eq ?_, fun hb => by rw [hb]; rfl⟩
  show b.toNat = 1
  omega

/-- Settles O13. -/
theorem openPageRecordFromItsBytes : Obligations.OpenPageRecordFromItsBytes := by
  intro tag parts count height last w1 w0 back lead copies res p inst body hcodes hok
  have hcodes' : (parts.toNat ≤ 3 ∧ back.toNat ≤ 1) ∧ res.toNat ≤ 1 := by simpa [pageCodesOk, body, byteAt] using hcodes
  obtain ⟨⟨hparts, hback⟩, hres⟩ := hcodes'
  refine ⟨?_, PageOperands.record_inRange inst hok (Nat.le_of_lt_succ count.isLt)⟩
  show PageRecord.mk _ _ ⟨parts.getLsbD 0, parts.getLsbD 1⟩ _ _ _ _ (back.getLsbD 0) _ _ (res.getLsbD 0) _ _ _ _ _ _ = _
  rw [getLsbD_zero_of_code, getLsbD_one_of_code hparts, getLsbD_zero_of_flag hback, getLsbD_zero_of_flag hres]
  rfl

/-! ## Whole frames -/

/-- The bytes of a frame that has no view: ASDO carries 00H under each (R185). -/
theorem State.shiftBytes_asdo (s : State) (p : Port) (body : List Byte) (h : (s.port p).assembler.outData = []) :
    ((s.shiftBytes p body).port p).asdo = (s.port p).asdo ++ List.replicate body.length 0 := by
  induction body generalizing s with
  | nil => exact (List.append_nil _).symm
  | cons b body ih =>
    have hfirst : (State.shiftByte p s b).port p = _ := State.updPort_port_same _ _ _
    have hrest := ih (State.shiftByte p s b) (by rw [hfirst]; simp only [h, List.tail_nil])
    rw [hfirst] at hrest
    rw [show s.shiftBytes p (b :: body) = (State.shiftByte p s b).shiftBytes p body from rfl, hrest, h]
    simp [List.replicate_succ]

theorem State.shifted_asdo (s : State) (p : Port) (code : Byte) (body : List Byte) :
    ((s.shifted p code body).port p).asdo = s.frameResultByte p :: List.replicate body.length 0 := by
  rw [State.shifted, State.shiftBytes_asdo]
  all_goals cases p <;> rfl

/-- A frame without a view ends on a byte: what the claim made of the part, and the frame's marks on its port (R185, R187, R190). -/
theorem State.closeFrame_shifted (s : State) (p : Port) (code : Byte) (body : List Byte) (o : FrameOutcome) (w : State) (hw : w.ports = s.ports) :
    State.closeFrame { w with ports := (s.shifted p code body).ports } p o 0 = s.framed w p o (List.replicate body.length 0) := by
  have hasdo := s.shifted_asdo p code body
  obtain ⟨_, _, _, _, hframe⟩ := s.shifted_sameButFrame p code body
  rw [hframe] at hasdo ⊢
  rw [State.updPort_port_same] at hasdo
  dsimp only at hasdo
  subst hasdo
  unfold State.closeFrame State.framed State.updPort
  rw [hw]
  cases p <;> rfl

/-- A whole frame whose claim leaves the ports alone. -/
theorem State.runCommand_framed {s : State} {p : Port} {code : Byte} {body : List Byte} {act : State → List Byte → State × FrameOutcome}
    (h : s.canOpen p = true) (hform : (s.shifted p code body).formOk p code 0 = true)
    (hstored : ((s.shifted p code body).port p).assembler.stored = body) {w : State} {o : FrameOutcome} (hw : w.ports = s.ports)
    (hact : act (s.shifted p code body) body = ({ w with ports := (s.shifted p code body).ports }, o)) :
    s.runCommand p code act (.selectHigh body 0) = s.framed w p o (List.replicate body.length 0) := by
  rw [State.runCommand_whole act h hform hstored, hact]
  exact s.closeFrame_shifted p code body o w hw

/-- A frame of fixed length `n` holds every byte of its body (R186). -/
theorem State.shiftBytes_stored {code : Byte} {n : Nat} (hcode : ∀ l, frameLength code l = some n) (hn : n ≤ 1036) (p : Port) (body : List Byte) (s : State)
    (hbyte : (s.port p).assembler.commandByte = some code) (hroom : (s.port p).assembler.stored.length + body.length < n) :
    ((s.shiftBytes p body).port p).assembler.stored = (s.port p).assembler.stored ++ body ∧
      ((s.shiftBytes p body).port p).assembler.count = (s.port p).assembler.count + body.length := by
  induction body generalizing s with
  | nil => exact ⟨(List.append_nil _).symm, rfl⟩
  | cons b body ih =>
    rw [List.length_cons] at hroom
    have hstores : storesByte code (s.port p).assembler.stored = true := by
      rw [storesByte, hcode]
      have hbound : (s.port p).assembler.stored.length < 1035 := by omega
      simpa using ⟨by omega, hbound⟩
    have hfirst : (State.shiftByte p s b).port p = _ := State.updPort_port_same _ _ _
    simp only [hbyte, hstores, if_true] at hfirst
    obtain ⟨hstored, hcount⟩ := ih (State.shiftByte p s b) (by rw [hfirst]) (by
      rw [hfirst]
      simp only [List.length_append, List.length_singleton]
      omega)
    rw [hfirst] at hstored hcount
    dsimp only at hcount
    refine ⟨hstored.trans (List.append_assoc _ _ _), hcount.trans ?_⟩
    rw [List.length_cons]
    omega

theorem State.shifted_openPage (s : State) (p : Port) {body : List Byte} (h : body.length = 11) :
    ((s.shifted p 0x30 body).port p).assembler.stored = body ∧ (s.shifted p 0x30 body).formOk p 0x30 0 = true := by
  have hbegun : (((s.openFrame p).takeCommandByte p 0x30 .body []).port p).assembler =
      { FrameAssembler.empty with state := .body, commandByte := some 0x30, outData := [] } := by cases p <;> rfl
  obtain ⟨hstored, hcount⟩ := State.shiftBytes_stored (code := 0x30) (n := 12) (fun _ => rfl) (by decide) p body
    ((s.openFrame p).takeCommandByte p 0x30 .body []) (by rw [hbegun]) (by rw [hbegun, h]; decide)
  rw [hbegun] at hstored hcount
  refine ⟨hstored, ?_⟩
  have hcount' : ((s.shifted p 0x30 body).port p).assembler.count = 11 := hcount.trans (by rw [h]; rfl)
  rw [State.formOk, hcount']
  rfl

/-- OPEN PAGE's whole frame, where its claim leaves the ports alone. -/
theorem exec_openPage {s : State} {p : Port} {body : List Byte} (h : s.canOpen p = true) (hlen : body.length = 11) {w : State} {o : FrameOutcome}
    (hw : w.ports = s.ports)
    (hact : State.openPageAct p (s.shifted p 0x30 body) body = ({ w with ports := (s.shifted p 0x30 body).ports }, o)) :
    exec (.openPage p (.selectHigh body 0)) s = .next (s.framed w p o (List.replicate 11 0)) := by
  obtain ⟨hstored, hform⟩ := s.shifted_openPage p hlen
  rw [← hlen]
  exact congrArg _ (State.runCommand_framed h hform hstored hw hact)

/-- ABORT PAGE's whole frame, where its claim changes nothing. -/
theorem exec_abortPage_refused {s : State} {p : Port} {tag : Byte} (h : s.canOpen p = true) {o : FrameOutcome}
    (hact : State.abortPageAct p (s.shifted p 0x31 [tag]) [tag] = (s.shifted p 0x31 [tag], o)) :
    exec (.abortPage p (.selectHigh [tag] 0)) s = .next (s.framed s p o [0]) := by
  obtain ⟨hstored, hform⟩ := s.shifted_abortPage p tag
  exact congrArg _ (State.runCommand_framed (w := s) h hform hstored rfl (hact.trans (by rw [← (s.shifted_sameButFrame p 0x31 [tag]).eq])))

/-! ## OPEN PAGE taken -/

/-- An evaluation of allocation does not look at the ports (R7). -/
theorem State.evaluateAllocation_withPorts (s : State) (ports : Both PortState) :
    ({ s with ports := ports } : State).evaluateAllocation = { s.evaluateAllocation with ports := ports } := by
  have upTo : ∀ (n : Nat) (s : State), State.allocateUpTo n { s with ports := ports } = { State.allocateUpTo n s with ports := ports } := by
    intro n
    induction n with
    | zero => exact fun _ => rfl
    | succ n ih =>
      intro s
      have hone : ({ s with ports := ports } : State).allocateOne = s.allocateOne.map fun t => { t with ports := ports } := by
        unfold State.allocateOne
        rw [show ({ s with ports := ports } : State).freeSlot = s.freeSlot from rfl]
        dsimp only
        cases s.pages.find? PageRecord.wantsBand <;> cases s.freeSlot <;> rfl
      simp only [State.allocateUpTo, hone]
      cases s.allocateOne with
      | none => rfl
      | some t => exact ih t
  exact upTo _ s

/-- A page that has no slot, and a lead of its own, is not offered (R33). -/
theorem State.offerIfHead_of_no_slot {s : State} {r : PageRef} (hlead : ∀ p ∈ s.pages, p.ref = r → 1 ≤ p.lead)
    (hslot : ∀ i k, s.slot i = .held .ready k → k.page ≠ r) : s.offerIfHead r = s := by
  unfold State.offerIfHead State.isHead
  cases hp : s.pages with
  | nil => rfl
  | cons p rest =>
    by_cases hr : p.ref = r
    · have hno : s.offerHolds = false := Bool.eq_false_iff.2 fun ho => by
        obtain ⟨-, hready⟩ := (State.offerHolds_iff hp).1 ho
        obtain ⟨i, k, hk, hpage, -⟩ := State.leadReady_iff.1 hready 0 (hlead p (by simp [hp]) hr)
        exact hslot i k hk (hpage.trans hr)
      simp [State.evaluateOffer, hp, hno]
    · simp [hr]

/-- The new record is not offered: no slot is its own yet (R29, R33). -/
theorem State.appendPage_eq {s : State} {p : Port} {o : PageOperands} (hok : o.ok p = true) (htag : s.pageOfTag o.tag = none)
    (hslot : ∀ x ∈ s.slots, x.ofPage { tag := o.tag, inst := s.nextInstance } = false) :
    s.appendPage p o =
      ({ s with pages := s.pages ++ [o.record p s.nextInstance], nextInstance := s.nextInstance + 1 } : State).evaluateAllocation := by
  unfold State.appendPage
  dsimp only
  generalize hs : ({ s with pages := s.pages ++ [o.record p s.nextInstance], nextInstance := s.nextInstance + 1 } : State) = t
  have hallocates := t.evaluateAllocation_allocates
  refine State.offerIfHead_of_no_slot ?_ fun i k hk hpage => ?_
  · refine hallocates.forall_pages (Q := fun q => q.ref = (o.record p s.nextInstance).ref → 1 ≤ q.lead) (fun _ => Iff.rfl) fun q hq hr => ?_
    rw [← hs] at hq
    rcases List.mem_append.1 hq with hq | hq
    · have htags : ∀ x ∈ s.pages, x.ref.tag ≠ o.tag := by simpa [State.pageOfTag, List.find?_eq_none] using htag
      exact absurd (congrArg PageRef.tag hr) (htags q hq)
    · rw [List.mem_singleton.1 hq]
      simp only [PageOperands.ok, Bool.and_eq_true, decide_eq_true_eq] at hok
      simp only [PageOperands.record]
      omega
  · have hbefore := hallocates.held_before hk (by decide)
    rw [← hs] at hbefore
    have hfree := (State.forall_slots (s := s) (Q := fun x => x.ofPage _ = false) rfl).1 hslot i
    rw [show s.slot i = .held .ready k from hbefore] at hfree
    exact absurd hpage (of_decide_eq_false hfree)

/-- Settles O14. -/
theorem openPageAppendsItsRecord : Obligations.OpenPageAppendsItsRecord := by
  intro p body s hopen hlen hcodes hok htag hroom hslot
  refine exec_openPage hopen hlen (by rw [State.evaluateAllocation_ports]) ?_
  have hframe := (s.shifted_sameButFrame p 0x30 body).eq
  generalize s.shifted p 0x30 body = t at hframe ⊢
  rw [hframe]
  have hroom' : ¬ Config.queuePages ≤ s.pages.length := Nat.not_le.2 hroom
  have htag' : ({ s with ports := t.ports } : State).pageOfTag (byteAt body 0) = none := htag
  unfold State.openPageAct
  simp only [hcodes, hok, htag', Bool.and_self, Bool.not_true, Bool.false_eq_true, if_false, Option.isSome_none, hroom']
  rw [State.appendPage_eq (s := { s with ports := t.ports }) hok htag hslot]
  exact congrArg (fun u => (u, FrameOutcome.ok)) (State.evaluateAllocation_withPorts
    { s with pages := s.pages ++ [(pageOperandsOf body).record p s.nextInstance], nextInstance := s.nextInstance + 1 } t.ports)

/-! ## Refusals -/

theorem State.openPageAct_refused {s : State} {p : Port} {body : List Byte} :
    (pageCodesOk body = false ∨ (pageOperandsOf body).ok p = false → State.openPageAct p s body = (s, .badParam)) ∧
    (pageCodesOk body = true → (pageOperandsOf body).ok p = true → (s.pageOfTag (byteAt body 0)).isSome = true →
      State.openPageAct p s body = (s, .tagInUse)) ∧
    (pageCodesOk body = true → (pageOperandsOf body).ok p = true → s.pageOfTag (byteAt body 0) = none → 4 ≤ s.pages.length →
      State.openPageAct p s body = (s, .pageQueueFull)) := by
  refine ⟨fun h => ?_, fun hcodes hok htag => ?_, fun hcodes hok htag hfull => ?_⟩
  · have hno : (pageCodesOk body && (pageOperandsOf body).ok p) = false := Bool.and_eq_false_iff.2 h
    simp only [State.openPageAct, hno, Bool.not_false, if_true]
  · simp only [State.openPageAct, hcodes, hok, htag, Bool.and_self, Bool.not_true, Bool.false_eq_true, if_false, if_true]
  · have hfull' : Config.queuePages ≤ s.pages.length := hfull
    simp only [State.openPageAct, hcodes, hok, htag, hfull', Bool.and_self, Bool.not_true, Bool.false_eq_true, Option.isSome_none, if_false, if_true]

/-- The ranges of R28, spelled out from the bytes of the frame. -/
theorem pageOperands_ok_iff (tag parts count height last w1 w0 back lead copies res : Byte) (p : Port) :
    let body := [tag, parts, count, height, last, w1, w0, back, lead, copies, res]
    let width := w1.toNat * 256 + w0.toNat
    pageCodesOk body = true ∧ (pageOperandsOf body).ok p = true ↔
      1 ≤ count.toNat ∧ 1 ≤ height.toNat ∧ height.toNat ≤ 64 ∧ 1 ≤ last.toNat ∧ last.toNat ≤ 64 ∧ 1 ≤ width ∧ width ≤ 640 ∧
        height.toNat * width ≤ 32768 ∧ last.toNat * width ≤ 32768 ∧ back.toNat ≤ 1 ∧ 1 ≤ lead.toNat ∧ lead.toNat ≤ 8 ∧
        1 ≤ copies.toNat ∧ copies.toNat ≤ 16 ∧ parts.toNat ≤ 3 ∧ parts.getLsbD (if p = .a then 0 else 1) = true ∧ res.toNat ≤ 1 ∧
        (1 < copies.toNat → res = 1) ∧ (res = 1 → count.toNat ≤ 8) := by
  intro body width
  have hcodes : pageCodesOk body = true ↔ (parts.toNat ≤ 3 ∧ back.toNat ≤ 1) ∧ res.toNat ≤ 1 := by simp [pageCodesOk, body, byteAt]
  rw [hcodes]
  by_cases hcode : (parts.toNat ≤ 3 ∧ back.toNat ≤ 1) ∧ res.toNat ≤ 1
  · obtain ⟨⟨hparts, hback⟩, hres⟩ := hcode
    have hresident : (pageOperandsOf body).resident = decide (res = 1) := getLsbD_zero_of_flag hres
    have hhas : (pageOperandsOf body).participants.has p = parts.getLsbD (if p = .a then 0 else 1) := by cases p <;> rfl
    have hwidth : (pageOperandsOf body).width = width := rfl
    have hcount : (pageOperandsOf body).bandCount = count.toNat := rfl
    have hheight : (pageOperandsOf body).bandHeight = height.toNat := rfl
    have hlast : (pageOperandsOf body).lastBandHeight = last.toNat := rfl
    have hlead : (pageOperandsOf body).lead = lead.toNat := rfl
    have hcopies : (pageOperandsOf body).copies = copies.toNat := rfl
    simp only [PageOperands.ok, hresident, hhas, hwidth, hcount, hheight, hlast, hlead, hcopies, hparts, hback, hres, Bool.and_eq_true, Bool.or_eq_true,
      Bool.not_eq_true', decide_eq_true_eq, decide_eq_false_iff_not, Config.slotWords, true_and, and_true, and_assoc]
    grind
  · refine iff_of_false (fun h => hcode h.1) fun h => hcode ?_
    obtain ⟨-, -, -, -, -, -, -, -, -, hback, -, -, -, -, hparts, -, hres, -⟩ := h
    exact ⟨⟨hparts, hback⟩, hres⟩

/-- Settles O16. -/
theorem pageCommandRefusals : Obligations.PageCommandRefusals := by
  refine ⟨pageOperands_ok_iff, fun p body s hopen hlen => ?_, fun p tag s hopen => ⟨fun htag => ?_, fun q hq hsome hport => ?_⟩⟩
  · have hframe := (s.shifted_sameButFrame p 0x30 body).eq
    have htags : ∀ tag, (s.shifted p 0x30 body).pageOfTag tag = s.pageOfTag tag := fun tag => by rw [hframe]; rfl
    have hpages : (s.shifted p 0x30 body).pages = s.pages := by rw [hframe]
    have answers : ∀ {o}, State.openPageAct p (s.shifted p 0x30 body) body = (s.shifted p 0x30 body, o) →
        exec (.openPage p (.selectHigh body 0)) s = .next (s.framed s p o (List.replicate 11 0)) :=
      fun hact => exec_openPage hopen hlen rfl (hact.trans (by rw [← hframe]))
    obtain ⟨hbad, hinUse, hfull⟩ := State.openPageAct_refused (s := s.shifted p 0x30 body) (p := p) (body := body)
    rw [htags] at hinUse hfull
    rw [hpages] at hfull
    exact ⟨fun h => answers (hbad h), fun h1 h2 h3 => answers (hinUse h1 h2 h3), fun h1 h2 h3 h4 => answers (hfull h1 h2 h3 h4)⟩
  · have htag' : (s.shifted p 0x31 [tag]).pageOfTag tag = none := by rw [(s.shifted_sameButFrame p 0x31 [tag]).eq]; exact htag
    refine exec_abortPage_refused hopen ?_
    rw [State.abortPageAct, show byteAt [tag] 0 = tag from rfl, htag']
  · have hq' : (s.shifted p 0x31 [tag]).pageOfTag tag = some q := by rw [(s.shifted_sameButFrame p 0x31 [tag]).eq]; exact hq
    refine exec_abortPage_refused hopen ?_
    rw [State.abortPageAct, show byteAt [tag] 0 = tag from rfl, hq']
    simp [hsome, hport]

/-! ## The page checks -/

/-- Settles O24. -/
theorem pageChecksInOrder : Obligations.PageChecksInOrder := by
  intro s p q
  refine ⟨fun hnone => ?_, fun tag htag => ⟨fun hnone => ?_, fun r hr => ⟨fun hb => ?_, fun hb hp => ?_, fun hb hp => ⟨fun b hband => ?_, fun hband => ?_⟩⟩⟩⟩
  · simp only [State.pageCheck, hnone]
  · simp only [State.pageCheck, htag, hnone]
  · simp only [State.pageCheck, htag, hr, hb, if_true]
  · simp only [State.pageCheck, htag, hr, hb, hp, if_false, Bool.not_false, if_true]
  · simp only [State.pageCheck, htag, hr, hb, hp, hband, if_false, Bool.not_true, Bool.false_eq_true]
  · simp only [State.pageCheck, htag, hr, hb, hp, hband, if_false, Bool.not_true, Bool.false_eq_true, PortSet.remove_isEmpty]
    cases r.participants.has p.other <;> rfl

end Sys2Proof.Machine
end

