-- ==== Sys2Proof/Proofs/PageRemoval.lean ====
section
/-! ABORT PAGE of a page that does not print: the page leaves the queue with its slots, and the next head is evaluated (R34, R45, R46, R48, R104, R125, R139,
R140). -/

namespace Sys2Proof.Machine

/-! ## The removal -/

/-- PAGE ABORTED has been posted, which the abort of a BLANKING page does not do (R46, R48). -/
def State.abortPosted (s : State) (q : PageRecord) : State :=
  s.postAll (if q.state = .blanking then .empty else q.participants) (Event.ofPage .pageAborted q.ref.tag SpoilCause.aborted.code)

theorem State.abortPosted_events (s : State) (q : PageRecord) (z : Port) :
    ((s.abortPosted q).port z).events = if q.state ≠ .blanking ∧ q.participants.has z = true then
      enqueueEvent (s.port z).events (Event.ofPage .pageAborted q.ref.tag SpoilCause.aborted.code) else (s.port z).events := by
  rw [State.abortPosted, State.postAll_events]
  by_cases hb : q.state = .blanking
  · cases z <;> simp [hb, PortSet.has, PortSet.empty]
  · simp [hb]

/-- The word that still leaves once the head page is gone: that of the line being SENT, or of a page removed before (R169; log 13). -/
def State.tailLeft (s : State) : Option TailWord :=
  match s.streamer with
  | .sending r line => some (s.cutWord r line)
  | _ => s.tail

/-- The part `u` once page `q` has left the queue in `s`, before bands are allocated and the next head is evaluated (R26, R34). -/
structure State.Removes (s u : State) (q : PageRecord) : Prop where
  drops : (s.abortPosted q).Drops u q.ref
  streamer : u.streamer = if s.isHead q.ref = true then .idle else s.streamer
  prdyLow : u.prdyLow = if s.isHead q.ref = true then none else s.prdyLow
  pins : u.pins = s.pins
  tail : u.tail = if s.isHead q.ref = true then s.tailLeft else s.tail
  lines : u.vdat = s.vdat ∧ u.lineOut = s.lineOut

/-- And after: the next head is evaluated where the head left, and WAITING heads that name the page leave (R34, R125). -/
def State.afterRemoval (s u : State) (q : PageRecord) : State :=
  (if s.isHead q.ref = true then u.evaluateAllocation.evaluateOffer (decide (q.state = .offered)) else u.evaluateAllocation).abortWaiting q.ref

theorem State.removePage_streamer (s : State) (r : PageRef) : (s.removePage r).streamer = if s.isHead r = true then .idle else s.streamer := by
  obtain ⟨_, _, h⟩ := s.removePage_eq r
  rw [h]

theorem State.removePage_prdyLow (s : State) (r : PageRef) : (s.removePage r).prdyLow = if s.isHead r = true then none else s.prdyLow := by
  unfold State.removePage
  split
  · rw [State.stopServing_eq]
  · rfl

theorem State.removePage_pins (s : State) (r : PageRef) : (s.removePage r).pins = s.pins := by
  obtain ⟨_, _, h⟩ := s.removePage_eq r
  rw [h]

theorem State.removePage_tail (s : State) (r : PageRef) : (s.removePage r).tail = if s.isHead r = true then s.tailLeft else s.tail := by
  unfold State.removePage State.tailLeft
  split
  · rcases s.stopServing_cases with ⟨r', line, hst, h⟩ | ⟨hno, h⟩
    · rw [h, hst]
    · rw [h]
      cases hst : s.streamer with
      | sending r' line => exact absurd hst (hno r' line)
      | _ => rfl
  · rfl

theorem State.removePage_lines (s : State) (r : PageRef) : (s.removePage r).vdat = s.vdat ∧ (s.removePage r).lineOut = s.lineOut := by
  obtain ⟨_, _, h⟩ := s.removePage_eq r
  rw [h]
  exact ⟨rfl, rfl⟩

theorem State.removeUnprinted_removes (s : State) {q : PageRecord} (hb : q.state ≠ .blanking) :
    ∃ u, s.Removes u q ∧ s.removeUnprinted q = s.afterRemoval u q := by
  have hposted : s.abortPosted q = s.postAll q.participants (Event.ofPage .pageAborted q.ref.tag SpoilCause.aborted.code) := by
    rw [State.abortPosted, if_neg hb]
  have hhead : ((s.abortPosted q).releaseSlots q.ref none).isHead q.ref = s.isHead q.ref :=
    State.isHead_congr (by rw [State.releaseSlots_pages]; exact State.postAll_pages _ _ _) _
  obtain ⟨hs, hp, he, hk⟩ := ((s.abortPosted q).releaseSlots q.ref none).removePage_frame q.ref
  refine ⟨((s.abortPosted q).releaseSlots q.ref none).removePage q.ref, ⟨⟨?_, fun i => ?_, ?_, ?_, ?_⟩, ?_, ?_, ?_, ?_, ?_⟩, ?_⟩
  · rw [State.removePage_pages, State.releaseSlots_pages]
  · rw [State.slot_congr hs, State.releaseSlots_slot]
    simp
  · rw [hp, State.releaseSlots_ports]
  · rw [he, State.releaseSlots_execution]
  · rw [hk, State.releaseSlots_kept]
  · rw [State.removePage_streamer, hhead, State.releaseSlots_streamer, State.abortPosted, State.postAll_streamer]
  · rw [State.removePage_prdyLow, hhead, State.releaseSlots_eq, State.abortPosted, State.postAll_eq]
  · rw [State.removePage_pins, State.releaseSlots_eq, State.abortPosted, State.postAll_eq]
  · rw [State.removePage_tail, hhead, State.releaseSlots_eq, State.abortPosted, State.postAll_eq]
    rfl
  · obtain ⟨hv, hl⟩ := ((s.abortPosted q).releaseSlots q.ref none).removePage_lines q.ref
    rw [hv, hl, State.releaseSlots_eq, State.abortPosted, State.postAll_eq]
    exact ⟨rfl, rfl⟩
  · rw [hposted]
    rfl

theorem State.removeBlanking_removes (s : State) {q : PageRecord} (hb : q.state = .blanking) :
    ∃ u, s.Removes u q ∧ s.removeBlanking q = s.afterRemoval u q := by
  have hposted : s.abortPosted q = s := by
    rw [State.abortPosted, if_pos hb]
    exact State.postAll_empty _ _
  have hoffered : decide (q.state = .offered) = false := by rw [hb]; rfl
  obtain ⟨hs, hp, he, hk⟩ := s.removePage_frame q.ref
  refine ⟨(s.removePage q.ref).releaseSlots q.ref none, ⟨?_, ?_, ?_, ?_, ?_, ?_⟩, ?_⟩
  · rw [hposted]
    refine ⟨?_, fun i => ?_, ?_, ?_, ?_⟩
    · rw [State.releaseSlots_pages, State.removePage_pages]
    · rw [State.releaseSlots_slot, State.slot_congr hs]
      simp
    · rw [State.releaseSlots_ports, hp]
    · rw [State.releaseSlots_execution, State.stoppedFor, he]
      rfl
    · rw [State.releaseSlots_kept, hk]
  · rw [State.releaseSlots_streamer, State.removePage_streamer]
  · rw [State.releaseSlots_eq]
    exact s.removePage_prdyLow _
  · rw [State.releaseSlots_eq]
    exact s.removePage_pins _
  · rw [State.releaseSlots_eq]
    exact s.removePage_tail _
  · rw [State.releaseSlots_eq]
    exact s.removePage_lines _
  · rw [State.afterRemoval, hoffered]
    rfl

theorem State.abortRecord_removes (s : State) {q : PageRecord} (h : q.state ≠ .printing) : ∃ u, s.Removes u q ∧ s.abortRecord q = s.afterRemoval u q := by
  unfold State.abortRecord
  split
  · rename_i hq
    exact s.removeUnprinted_removes (by rw [hq]; decide)
  · rename_i hq
    exact s.removeUnprinted_removes (by rw [hq]; decide)
  · rename_i hq
    exact absurd hq h
  · rename_i hq
    exact s.removeBlanking_removes hq

/-! ## What it leaves -/

/-- Allocation changes no page's name (R8). -/
theorem State.evaluateAllocation_refs (s : State) : s.evaluateAllocation.pages.map PageRecord.ref = s.pages.map PageRecord.ref := by
  have hall := congrArg (List.map PageRecord.ref) s.evaluateAllocation_allocates.pages
  rwa [List.map_map, List.map_map] at hall

theorem State.afterRemoval_frame (s u : State) (q : PageRecord) :
    (s.afterRemoval u q).pages.map PageRecord.ref = u.pages.map PageRecord.ref ∧ (s.afterRemoval u q).execution = u.execution ∧
      (s.afterRemoval u q).kept = u.kept ∧ (s.afterRemoval u q).pins = u.pins := by
  have hrefs := u.evaluateAllocation_refs
  have hpins : u.evaluateAllocation.pins = u.pins := by rw [State.evaluateAllocation_eq]
  unfold State.afterRemoval
  rw [State.abortWaiting_pages, State.abortWaiting_kept, State.abortWaiting_eq]
  split
  · refine ⟨(State.evaluateOffer_refs _ _).trans hrefs, (State.evaluateOffer_execution _ _).trans u.evaluateAllocation_execution,
      (State.evaluateOffer_kept _ _).trans u.evaluateAllocation_kept, ?_⟩
    rcases u.evaluateAllocation.evaluateOffer_cases (decide (q.state = .offered)) with h | ⟨_, _, _, _, h⟩ <;> rw [h] <;> exact hpins
  · exact ⟨hrefs, u.evaluateAllocation_execution, u.evaluateAllocation_kept, hpins⟩

theorem State.afterRemoval_port (s u : State) (q : PageRecord) (z : Port) : (s.afterRemoval u q).port z =
    { u.port z with queue := u.queueAfterAbort q.ref z, events := u.eventsAfterAbort q.ref z (u.port z).events } := by
  have hport : (if s.isHead q.ref = true then u.evaluateAllocation.evaluateOffer (decide (q.state = .offered)) else u.evaluateAllocation).port z =
      u.port z := by
    unfold State.port
    split
    · rw [State.evaluateOffer_ports, State.evaluateAllocation_ports]
    · rw [State.evaluateAllocation_ports]
  unfold State.afterRemoval
  rw [State.abortWaiting_port, State.queueAfterAbort_congr (s := u) (by rw [hport]), State.eventsAfterAbort_congr (s := u) (by rw [hport]), hport]

/-- Where another page than the head left, the Streamer stays. -/
theorem State.afterRemoval_of_behind {s u : State} {q : PageRecord} (h : s.isHead q.ref = false) :
    (s.afterRemoval u q).streamer = u.streamer ∧ (s.afterRemoval u q).prdyLow = u.prdyLow := by
  unfold State.afterRemoval
  rw [h, State.abortWaiting_eq, State.evaluateAllocation_eq]
  exact ⟨rfl, rfl⟩

/-- Where the head left, the Streamer is IDLE or offers the page behind it, PRDY low for a period if an offer was withdrawn (R34, R139). -/
theorem State.afterRemoval_of_head {s u : State} {q : PageRecord} (h : s.isHead q.ref = true) (hidle : u.streamer = .idle) :
    (s.afterRemoval u q).streamer = .idle ∨ ∃ r, r ∈ u.pages.map PageRecord.ref ∧ (s.afterRemoval u q).streamer = .offered r ∧
      (s.afterRemoval u q).prdyLow = if q.state = .offered then some 0 else none := by
  have hrefs := u.evaluateAllocation_refs
  unfold State.afterRemoval
  rw [if_pos h, State.abortWaiting_eq]
  rcases u.evaluateAllocation.evaluateOffer_cases (decide (q.state = .offered)) with ho | ⟨p, rest, hp, -, ho⟩
  · rw [ho]
    exact .inl (u.evaluateAllocation_streamer.trans hidle)
  · rw [ho]
    refine .inr ⟨p.ref, ?_, rfl, by simp⟩
    rw [← hrefs, hp]
    exact List.mem_cons_self

/-- An offer withdrawn in the same claim is seen in PRDY alone (R139). -/
theorem State.evaluateOffer_withdrawn (s : State) (w : Bool) :
    (s.evaluateOffer w).pages = (({ s with prdyLow := none } : State).evaluateOffer false).pages ∧
      (s.evaluateOffer w).streamer = (({ s with prdyLow := none } : State).evaluateOffer false).streamer := by
  unfold State.evaluateOffer
  rw [show ({ s with prdyLow := none } : State).offerHolds = s.offerHolds from rfl]
  cases hp : s.pages with
  | nil => simp [hp]
  | cons p l => by_cases ho : s.offerHolds = true <;> simp [ho, hp]

/-- The evaluation of the next head reads what is left of the queue and the Streamer alone. -/
theorem State.nextHeadEvaluated_congr {s t u : State} {rest : List PageRecord} (hp : u.pages = t.pages) (hs : u.streamer = t.streamer)
    (h : s.nextHeadEvaluated t rest) : s.nextHeadEvaluated u rest := by
  unfold State.nextHeadEvaluated at h ⊢
  rwa [hp, hs]

namespace State.Removes

variable {s u : State} {q : PageRecord} (h : s.Removes u q)
include h

theorem refs : u.pages.map PageRecord.ref = (s.pages.map PageRecord.ref).filter fun r => decide (r ≠ q.ref) := by
  rw [h.drops.pages, State.abortPosted, State.postAll_pages, List.filter_map]
  rfl

theorem queue (z : Port) : (u.port z).queue = (s.port z).queue := by
  rw [State.port, h.drops.ports]
  exact State.postAll_queue _ _ _ _

theorem events (z : Port) : (u.port z).events = if q.state ≠ .blanking ∧ q.participants.has z = true then
    enqueueEvent (s.port z).events (Event.ofPage .pageAborted q.ref.tag SpoilCause.aborted.code) else (s.port z).events := by
  rw [State.port, h.drops.ports]
  exact State.abortPosted_events _ _ _

theorem execution : u.execution = s.stoppedFor q.ref := by
  rw [h.drops.execution, State.stoppedFor, State.abortPosted, State.postAll_execution]
  rfl

theorem kept : u.kept = s.kept := h.drops.kept.trans (State.postAll_kept _ _ _)

/-- What is behind the page stays behind it. -/
theorem sameBehind : s.SameBehind u q.ref := by
  have hpages : u.pages = s.pages.filter fun p => decide (p.ref ≠ q.ref) := h.drops.pages.trans (by rw [State.abortPosted, State.postAll_pages])
  have hslot : ∀ i, u.slot i = if (s.slot i).ofPage q.ref = true then .free else s.slot i := fun i => by
    rw [h.drops.slot, State.slot_congr (show (s.abortPosted q).slots = s.slots from State.postAll_slots _ _ _)]
  refine ⟨by rw [hpages, List.filter_filter]; simp, fun r' hr b => exists_congr fun i => exists_congr fun k => ?_⟩
  rw [hslot]
  constructor
  · rintro ⟨hi, hk⟩
    split at hi
    · cases hi
    · exact ⟨hi, hk⟩
  · rintro ⟨hi, hpage, hk⟩
    have hne : k.page ≠ q.ref := fun hc => hr (hpage.symm.trans hc)
    exact ⟨by simp [hi, Slot.ofPage, hne], hpage, hk⟩

/-- The next head is evaluated as at a page's end (R34). -/
theorem nextHeadEvaluated {rest : List PageRecord} (hpages : s.pages = q :: rest) (hrest : pendingBehind q.ref rest) :
    s.nextHeadEvaluated (s.afterRemoval u q) rest := by
  have hhead : s.isHead q.ref = true := by simp [State.isHead, hpages]
  have hgone : (u.evaluateAllocation.pages.filter fun p => decide (p.ref ≠ q.ref)) = u.evaluateAllocation.pages := by
    refine List.filter_eq_self.2 fun p hp => ?_
    have hmem : p.ref ∈ u.evaluateAllocation.pages.map PageRecord.ref := List.mem_map_of_mem hp
    rw [State.evaluateAllocation_refs, h.refs] at hmem
    exact (List.mem_filter.1 hmem).2
  have hidle : u.evaluateAllocation.streamer = .idle := by rw [State.evaluateAllocation_streamer, h.streamer, if_pos hhead]
  have hwithout : u.evaluateAllocation.withoutHead q.ref = { u.evaluateAllocation with prdyLow := none } := by
    rw [State.withoutHead, hgone, ← hidle]
  have same : (u.evaluateAllocation.evaluateOffer (decide (q.state = .offered))).pages =
        ((u.evaluateAllocation.withoutHead q.ref).evaluateOffer false).pages ∧
      (u.evaluateAllocation.evaluateOffer (decide (q.state = .offered))).streamer =
        ((u.evaluateAllocation.withoutHead q.ref).evaluateOffer false).streamer := by
    rw [hwithout]
    exact u.evaluateAllocation.evaluateOffer_withdrawn _
  have hafter : s.afterRemoval u q = (u.evaluateAllocation.evaluateOffer (decide (q.state = .offered))).abortWaiting q.ref := by
    rw [State.afterRemoval, if_pos hhead]
  refine State.nextHeadEvaluated_congr ?_ ?_ ((h.sameBehind.trans (.evaluateAllocation u q.ref)).nextHeadEvaluated hpages hrest)
  · rw [hafter, State.abortWaiting_pages, same.1, State.finishPage_pages]
  · rw [hafter, State.abortWaiting_eq, State.finishPage_streamer]
    exact same.2

end State.Removes

/-! ## The frame -/

/-- The frame of ABORT PAGE changes a port's wires before the page is aborted, and no more (R187). -/
theorem State.Removes.of_frame {s t u : State} {p : Port} {q : PageRecord} (hframe : s.SameButFrame t p) (h : t.Removes u q) :
    (∀ z, (u.port z).queue = (s.port z).queue) ∧ ∀ z, (u.port z).events = if q.state ≠ .blanking ∧ q.participants.has z = true then
      enqueueEvent (s.port z).events (Event.ofPage .pageAborted q.ref.tag SpoilCause.aborted.code) else (s.port z).events :=
  ⟨fun z => (h.queue z).trans (hframe.queue z), fun z => by rw [h.events, hframe.events]⟩

/-- Settles O17. -/
theorem abortRemovesAPage : Obligations.AbortRemovesAPage := by
  intro p tag s q hopen hq hpart hstate
  obtain ⟨hstored, hform⟩ := s.shifted_abortPage p tag
  have hframe := s.shifted_sameButFrame p 0x31 [tag]
  have hrun := State.runCommand_whole (State.abortPageAct p) hopen hform hstored
  generalize s.shifted p 0x31 [tag] = v at hframe hrun
  have hv := hframe.eq
  have hvq : v.pageOfTag tag = some q := by rw [hv]; exact hq
  obtain ⟨u, hu, habort⟩ := v.abortRecord_removes hstate
  rw [State.abortPageAct_of_page hvq hpart, habort] at hrun
  obtain ⟨hqueue, hevents⟩ := hu.of_frame hframe
  obtain ⟨hrefs, hexec, hkept, hpins⟩ := v.afterRemoval_frame u q
  have hhead : v.isHead q.ref = s.isHead q.ref := State.isHead_congr (by rw [hv]) _
  have hgone : q.ref ∉ u.pages.map PageRecord.ref := by simp [hu.refs]
  have hkept' : (v.afterRemoval u q).kept = s.kept := hkept.trans (hu.kept.trans (by rw [hv]; rfl))
  simp only [State.kept, Prod.mk.injEq] at hkept'
  obtain ⟨hmark, htile, hloaded, hpointer, hengine, hinst, hram⟩ := hkept'
  have hserved : s.isHead q.ref = true → (v.afterRemoval u q).streamer = .idle ∨ ∃ r, r ≠ q.ref ∧ (v.afterRemoval u q).streamer = .offered r ∧
      (v.afterRemoval u q).prdyLow = if q.state = .offered then some 0 else none := fun h => by
    rw [← hhead] at h
    rcases State.afterRemoval_of_head h (hu.streamer.trans (if_pos h)) with h | ⟨r, hr, h⟩
    · exact .inl h
    · exact .inr ⟨r, fun hc => hgone (hc ▸ hr), h⟩
  refine ⟨(v.afterRemoval u q).closeFrame p .ok 0, congrArg _ hrun, State.closeFrame_outcome _ _ _ _, ?_, ?_, fun z => ?_, fun z => ?_, ?_,
    fun ho hh => ?_, fun rest hpages hrest => ?_, fun ho hh r hr => ?_, fun hh => ?_, hinst, hram, htile, hloaded, hengine, hmark, hpointer, ?_⟩
  · exact hrefs.trans (hu.refs.trans (by rw [hv]))
  · exact (State.forall_slots (Q := fun x => x.ofPage q.ref = false) rfl).2 (hu.drops.none_left _ _).2
  · rw [State.closeFrame_events, State.afterRemoval_port, hevents]
    exact State.eventsAfterAbort_congr (hqueue z) _ _
  · rw [State.closeFrame_queue, State.afterRemoval_port]
    exact State.queueAfterAbort_congr (hqueue z) _
  · exact hexec.trans (hu.execution.trans (by rw [hv]; rfl))
  · rcases hserved hh with h | ⟨r, hr, h, hlow⟩
    · exact ⟨by simp only [State.prdy, State.closeFrame, State.updPort, h], .inl h⟩
    · rw [if_pos ho] at hlow
      exact ⟨by simp only [State.prdy, State.closeFrame, State.updPort, h, hlow, Option.isNone_some], .inr ⟨r, hr, h, hlow⟩⟩
  · have hnext := hu.nextHeadEvaluated (rest := rest) (by rw [hv]; exact hpages) hrest
    rw [hv] at hnext
    rw [hv]
    exact hnext
  · rcases hserved hh with h | ⟨r', -, h, hlow⟩
    · cases h.symm.trans hr
    · rw [if_neg ho] at hlow
      simp only [State.prdy, State.closeFrame, State.updPort, h, hlow, Option.isNone_none]
  · have hb : v.isHead q.ref = false := hhead.trans hh
    obtain ⟨hst, hlow⟩ := State.afterRemoval_of_behind (u := u) hb
    refine ⟨hst.trans (hu.streamer.trans ?_), hlow.trans (hu.prdyLow.trans ?_)⟩
    · rw [hb, hv]
      rfl
    · rw [hb, hv]
      rfl
  · exact hpins.trans (hu.pins.trans (by rw [hv]))

end Sys2Proof.Machine
end

