-- ==== Sys2Proof/Proofs/GrantedCloses.lean ====
section
/-! A granted CLOSE BAND (R33, R57, R59, R66, R111, R128, R140, R160). -/

namespace Sys2Proof.Machine

/-! ## A grant -/

/-- A consideration is the grant of the head entry of the port it grants, and no command executes then (R127, R128). -/
theorem exec_consideration {s : State} {p : Port} {e : Entry} (hg : s.grantedPort = some p) (he : s.headEntry p = some e) :
    exec .consideration s = .next (s.grant p e) := by
  have hgrant : s.consider = s.grant p e := by simp only [State.consider, hg, he]
  exact congrArg _ hgrant

theorem State.execution_of_grantedPort {s : State} {p : Port} (h : s.grantedPort = some p) : s.execution = none := by
  unfold State.grantedPort at h
  split at h
  · cases h
  · rename_i hx
    simpa using hx

/-! ## An entry that ends -/

/-- The entry's end changes its port and the pointer alone (R111, R128). -/
theorem State.finishEntry_eq (s : State) (p : Port) (e : Option Event) : s.finishEntry p e = { s with ports := (s.finishEntry p e).ports, pointer := p } := by
  cases e <;> rfl

theorem State.finishEntry_port (s : State) (p : Port) (e : Option Event) : (s.finishEntry p e).port p =
    { s.port p with queue := (s.port p).queue.tail, events := e.elim (s.port p).events (enqueueEvent (s.port p).events) } := by
  cases e <;> cases p <;> rfl

theorem State.finishEntry_port_other (s : State) (p : Port) (e : Option Event) : (s.finishEntry p e).port p.other = s.port p.other := by
  cases e <;> cases p <;> rfl

/-- CMD DONE of an entry, if NOTIFY is set (R123). -/
theorem Entry.doneEvent_posted (e : Entry) (events : List Event) : e.doneEvent.elim events (enqueueEvent events) =
    if e.notify then enqueueEvent events (Event.ofCommand .cmdDone e.commandTag 0) else events := by
  unfold Entry.doneEvent
  split <;> rfl

/-! ## The band that is closed -/

/-- The OPEN band on which a command may run has no force pending (R66). -/
theorem State.executionCheck_run_forcePending {s : State} {p : Port} {r : PageRef} {b i : Nat} {k : BandRecord} (h : s.executionCheck p r b = .run i)
    (hi : s.slot i = .held .opened k) : k.forcePending = false := by
  have opened : ∀ j, checkSlot (s.slot j) j p = .run i → k.forcePending = false := by
    intro j hj
    unfold checkSlot at hj
    split at hj
    · cases hj
    · cases hj
    · rename_i k' hk'
      split at hj
      · cases hj
      · split at hj
        · cases hj
        · rename_i hf
          cases hj
          cases hi.symm.trans hk'
          simpa using hf
    · split at hj <;> cases hj
  unfold State.executionCheck at h
  repeat' split at h
  case h_2 => exact opened _ h
  all_goals cases h

/-- The band once port `p` has closed it (R57). -/
def BandRecord.closedWith (k : BandRecord) (p : Port) : BandRecord := { k with closedBy := k.closedBy.add p }

theorem BandRecord.closedWith_readied {k : BandRecord} (h : k.forcePending = false) (p : Port) :
    (k.closedWith p).readied = { k with closedBy := k.closedBy.add p, forcePending := false } := by
  simp [BandRecord.readied, BandRecord.closedWith, h]

section closeClaim

variable {s : State} {i : Nat} {k : BandRecord} {q : PageRecord} (hi : s.slot i = .held .opened k) (hq : s.findPage k.page = some q)
include hi hq

/-- The close claim, by whether every participant has closed the band now (R54, R57). -/
theorem State.closeClaim_opened (hf : k.forcePending = false) (p : Port) : s.closeClaim p i =
    if q.participants.within (k.closedBy.add p) = true then (s.setSlot i (.held .opened (k.closedWith p))).madeReady i (k.closedWith p)
    else s.setSlot i (.held .opened (k.closedWith p)) := by
  have hlt := State.lt_of_slot_held hi
  have hslot : (s.setSlot i (.held .opened (k.closedWith p))).slot i = .held .opened (k.closedWith p) := State.slot_setSlot_same _ hlt
  have hclosed : (s.setSlot i (.held .opened (k.closedWith p))).closedByAll i = q.participants.within (k.closedBy.add p) := by
    have hpage : (s.setSlot i (.held .opened (k.closedWith p))).findPage (k.closedWith p).page = some q := hq
    simp only [State.closedByAll, hslot, hpage]
    rfl
  have hready : ((s.setSlot i (.held .opened (k.closedWith p))).openToReady i false).offerIfHead k.page =
      (s.setSlot i (.held .opened (k.closedWith p))).madeReady i (k.closedWith p) := by
    rw [State.openToReady, hslot]
    have hforced : ((k.closedWith p).forced || false) = ((k.closedWith p).forced || (k.closedWith p).forcePending) := by
      rw [show (k.closedWith p).forcePending = false from hf]
    simp only [hforced]
    rfl
  unfold State.closeClaim
  rw [hi]
  show (if (s.setSlot i (.held .opened (k.closedWith p))).closedByAll i = true then _ else _) = _
  rw [hclosed]
  split
  · exact hready
  · rfl

/-- It changes neither the ports, the marks nor memory. -/
theorem State.closeClaim_frame (hf : k.forcePending = false) (p : Port) : ∃ slots pages streamer prdyLow lineOut, s.closeClaim p i =
    { s with slots := slots, pages := pages, streamer := streamer, prdyLow := prdyLow, lineOut := lineOut } := by
  rw [State.closeClaim_opened hi hq hf]
  split
  · rw [State.madeReady_eq]
    obtain ⟨_, _, _, hnotice⟩ := ((s.setSlot i (.held .opened (k.closedWith p))).setSlot i (.held .ready (k.closedWith p).readied)).readyNotice_frame
      (k.closedWith p).page (k.closedWith p).band
    rw [hnotice]
    obtain ⟨_, _, _, hoffer⟩ := State.offerIfHead_frame _ (k.closedWith p).page
    rw [hoffer]
    exact ⟨_, _, _, _, _, rfl⟩
  · exact ⟨_, _, _, _, _, rfl⟩

end closeClaim

/-- Settles O29: the close claim and the entry's end, which reads the ports alone. -/
theorem closeJoinsTheClosedBySet : Obligations.CloseJoinsTheClosedBySet := by
  intro s p e r b i k q hg he hop hpage hband hrun hi hq
  have hf := State.executionCheck_run_forcePending hrun hi
  have hgrant : s.grant p e = (s.closeClaim p i).finishEntry p e.doneEvent := by
    simp only [State.grant, hop, hpage, hband, State.grantBand, hrun, if_true]
  have hclaim := State.closeClaim_opened hi hq hf p
  obtain ⟨_, _, _, _, _, hframe⟩ := State.closeClaim_frame hi hq hf p
  have hport : ∀ z, (s.closeClaim p i).port z = s.port z := fun z => by rw [hframe]; rfl
  have hmark : (s.closeClaim p i).inFlight = s.inFlight := by rw [hframe]
  have hexec : (s.closeClaim p i).execution = none := by rw [hframe]; exact State.execution_of_grantedPort hg
  have hram : (s.closeClaim p i).bandRam = s.bandRam := by rw [hframe]
  have hfinish := (s.closeClaim p i).finishEntry_eq p e.doneEvent
  refine ⟨_, (exec_consideration hg he).trans (congrArg _ hgrant), ?_, ?_, ?_, ?_, ?_, ?_, ?_, fun hw => ?_, fun hw => ⟨fun hst => ?_, fun n x hst hprint hslot => ?_⟩⟩
  · rw [State.finishEntry_port, hport]
  · rw [hfinish]
    exact hmark
  · rw [hfinish]
    exact hexec
  · rw [hfinish]
    exact hram
  · rw [hfinish]
  · rw [State.finishEntry_port, hport]
    exact e.doneEvent_posted _
  · rw [State.finishEntry_port_other, hport]
  · rw [hclaim, if_neg (by simp [hw])] at hfinish ⊢
    rw [hfinish]
    exact ⟨State.slot_setSlot_same _ (State.lt_of_slot_held hi), rfl, rfl⟩
  all_goals
    rw [hclaim, if_pos hw] at hfinish ⊢
    have hset : (s.setSlot i (.held .opened (k.closedWith p))).setSlot i (.held .ready (k.closedWith p).readied) =
        s.setSlot i (.held .ready { k with closedBy := k.closedBy.add p, forcePending := false }) := by
      simp only [State.setSlot, List.set_set, BandRecord.closedWith_readied hf]
  · obtain ⟨hslots, hoffers, hstays⟩ := State.madeReady_not_awaited (s := s.setSlot i (.held .opened (k.closedWith p))) (i := i) (k := k.closedWith p) hq hst
    rw [hset] at hoffers hstays
    rw [hfinish]
    refine ⟨hslots.trans (congrArg State.slots hset), fun rest hp hstate hlead => ?_, hstays⟩
    obtain ⟨hpages, hstreamer, hlow⟩ := hoffers rest hp hstate hlead
    exact ⟨hpages, hstreamer, by simp only [State.prdy, hstreamer, hlow, Option.isNone_none]⟩
  · have hopened : (s.setSlot i (.held .opened (k.closedWith p))).slot i = .held .opened (k.closedWith p) :=
      State.slot_setSlot_same _ (State.lt_of_slot_held hi)
    have hfound : (s.setSlot i (.held .opened (k.closedWith p))).slotOfBand k.page k.band = some i :=
      (State.slotOfBand_setSlot (k' := k.closedWith p) hi rfl rfl _ _).trans hslot
    obtain ⟨hslots, -, hstreamer⟩ := State.madeReady_awaited (k := k.closedWith p) hopened hq hst hprint hfound
    rw [hfinish]
    refine ⟨?_, hstreamer⟩
    have hwrite : (s.setSlot i (.held .opened (k.closedWith p))).slots.set i (.held .streaming (k.closedWith p).readied) =
        (s.setSlot i (.held .streaming { k with closedBy := k.closedBy.add p, forcePending := false })).slots := by
      simp only [State.setSlot, List.set_set, BandRecord.closedWith_readied hf]
    exact (State.slot_congr (hslots.trans hwrite) i).trans (State.slot_setSlot_same _ (State.lt_of_slot_held hi))

end Sys2Proof.Machine
end

