-- ==== Sys2Proof/Proofs/GrantedLeaves.lean ====
section
/-! A granted LEAVE PAGE (R33, R41, R42, R55, R58, R125, R140). -/

namespace Sys2Proof.Machine

/-! ## READY slots and the offer at a participant change -/

/-- A slot goes READY without a ready notice where the Streamer does not starve (R160). -/
theorem State.openToReady_of_not_starved {s : State} (hst : ∀ r b n x, s.streamer ≠ .starved r b n x) (i : Nat) (force : Bool) :
    (s.openToReady i force).streamer = s.streamer ∧ ∀ j k, s.slot j = .held .ready k → (s.openToReady i force).slot j = .held .ready k := by
  rcases s.openToReady_cases i force with h | ⟨k, hk, h⟩
  · rw [h]
    exact ⟨rfl, fun _ _ hj => hj⟩
  · rw [h, State.readyNotice_of_not_awaited (s := s.setSlot i _) (hst k.page k.band)]
    refine ⟨rfl, fun j k' hj => ?_⟩
    rw [State.slot_setSlot_ne, hj]
    rintro rfl
    cases hj.symm.trans hk

theorem State.foldl_openToReady_of_not_starved (l : List Nat) {s : State} (hst : ∀ r b n x, s.streamer ≠ .starved r b n x) {j : Nat} {k : BandRecord}
    (hj : s.slot j = .held .ready k) : (l.foldl (fun t i => t.openToReady i false) s).slot j = .held .ready k := by
  induction l generalizing s with
  | nil => exact hj
  | cons i l ih =>
    obtain ⟨hstreamer, hready⟩ := State.openToReady_of_not_starved hst i false
    exact ih (by rw [hstreamer]; exact hst) (hready j k hj)

theorem State.foldl_openToReady_pages (l : List Nat) (s : State) : (l.foldl (fun t i => t.openToReady i false) s).pages = s.pages := by
  induction l generalizing s with
  | nil => rfl
  | cons i l ih => exact (ih _).trans (s.openToReady_pages i false)

theorem State.offerIfHead_slots (s : State) (r : PageRef) : (s.offerIfHead r).slots = s.slots := by
  unfold State.offerIfHead
  split
  · exact State.evaluateOffer_slots _ _
  · rfl

theorem State.participantChange_slots (s : State) (r : PageRef) :
    (s.participantChange r).slots = ((s.readyOnChange r).foldl (fun t i => t.openToReady i false) s).slots := by
  unfold State.participantChange
  split
  · rename_i h
    rw [h]
    rfl
  · exact State.offerIfHead_slots _ _

/-- The PENDING head page is offered at its participant change, if that readies a slot and the lead bands are READY by then (R33, R58). -/
theorem State.participantChange_offers {s : State} {q : PageRecord} {rest : List PageRecord} (hp : s.pages = q :: rest) (hstate : q.state = .pending)
    (hready : s.readyOnChange q.ref ≠ []) (hlead : (s.participantChange q.ref).leadReady q) :
    (s.participantChange q.ref).pages = { q with state := .offered } :: rest ∧ (s.participantChange q.ref).streamer = .offered q.ref ∧
      (s.participantChange q.ref).prdyLow = none := by
  have hpages := (State.foldl_openToReady_pages (s.readyOnChange q.ref) s).trans hp
  have hbands : ((s.readyOnChange q.ref).foldl (fun t i => t.openToReady i false) s).leadReady q := by
    unfold State.leadReady at hlead ⊢
    rwa [State.participantChange_slots] at hlead
  rw [State.participantChange, if_neg hready, State.offerIfHead_offers hpages hstate hbands]
  exact ⟨rfl, rfl, rfl⟩

/-! ## The page that is left -/

section leave

variable {s : State} {q : PageRecord} {p : Port}

theorem State.leaveRecord_slots (s : State) (q : PageRecord) (p : Port) : (s.leaveRecord q p).slots = ((s.parted q p).participantChange q.ref).slots := by
  rw [State.leaveRecord_eq, State.recheck_slots]

/-- A slot of another page, or FREE, stays (R55). -/
theorem State.leaveRecord_slot_of_other {i : Nat} (h : (s.slot i).ofPage q.ref = false) : (s.leaveRecord q p).slot i = s.slot i := by
  cases hi : s.slot i with
  | free =>
    have hread := (s.leaveRecord_slot q p i).1
    rw [hi] at hread
    rcases hread with hc | ⟨_, hc, -⟩ | ⟨_, _, hc, -⟩
    · exact hc
    · cases hc
    · cases hc
  | held st k =>
    rw [hi] at h
    have hne : k.page ≠ q.ref := of_decide_eq_false h
    exact ((State.leaveRecord_apart hne s p).slot i (by rw [hi]; exact decide_eq_true rfl)).trans hi

/-- Neither a CLEARING nor a STREAMING slot changes. -/
theorem State.leaveRecord_slot_of_busy {i : Nat} {k : BandRecord} (h : s.slot i = .held .clearing k ∨ s.slot i = .held .streaming k) :
    (s.leaveRecord q p).slot i = s.slot i := by
  rcases (s.leaveRecord_slot q p i).1 with hc | ⟨_, hc, -⟩ | ⟨_, _, hc, -⟩
  · exact hc
  · rcases h with h | h <;> cases h.symm.trans hc
  · rcases h with h | h <;> cases h.symm.trans hc

/-- An OPEN slot stays that the change does not ready. -/
theorem State.leaveRecord_slot_of_kept (hq : s.findPage q.ref = some q) (hother : q.participants.has p.other = true) {i : Nat} {k : BandRecord}
    (hi : s.slot i = .held .opened k) (h : s.inFlight = some i ∨ k.closedBy.has p.other = false) : (s.leaveRecord q p).slot i = s.slot i := by
  by_cases hk : k.page = q.ref
  · refine ((s.leaveRecord_slot q p i).2.1 (fun hmem => ?_) k hi).trans hi.symm
    obtain ⟨hmark, hclosed⟩ := (State.mem_readyOnChange hq hother hi hk).1 hmem
    rcases h with h | h
    · exact hmark h
    · rw [hclosed] at h
      cases h
  · exact State.leaveRecord_slot_of_other (by rw [hi]; exact decide_eq_false hk)

/-- A READY slot stays where no engine starves. -/
theorem State.leaveRecord_slot_of_ready (hst : ∀ r b n x, s.streamer ≠ .starved r b n x) {i : Nat} {k : BandRecord} (hi : s.slot i = .held .ready k) :
    (s.leaveRecord q p).slot i = .held .ready k := by
  rw [State.slot_congr ((s.leaveRecord_slots q p).trans ((s.parted q p).participantChange_slots q.ref))]
  have hparted : (s.parted q p).streamer = s.streamer := State.postAll_streamer _ _ _
  exact State.foldl_openToReady_of_not_starved _ (by rw [hparted]; exact hst) ((State.slot_congr (State.postAll_slots _ _ _) i).trans hi)

/-- The record leads the queue as before, without the port. -/
theorem State.parted_pages {rest : List PageRecord} (htags : (s.pages.map fun x => x.ref.tag).Nodup) (hp : s.pages = q :: rest) :
    (s.parted q p).pages = { q with participants := q.participants.remove p } :: rest := by
  have hmap : (s.parted q p).pages = (s.mapPage q.ref fun x => { x with participants := x.participants.remove p }).pages := State.postAll_pages _ _ _
  rw [hp, List.map_cons, List.nodup_cons] at htags
  rw [hmap, State.mapPage_pages, hp, List.map_cons, if_pos rfl]
  refine congrArg _ ((List.map_congr_left fun x hx => ?_).trans (List.map_id _))
  have hne : x.ref ≠ q.ref := fun hc => htags.1 (List.mem_map.2 ⟨x, hx, congrArg PageRef.tag hc⟩)
  exact if_neg hne

/-- The page is offered if the change readies a slot and its lead bands are READY then (R33, R58). -/
theorem State.leaveRecord_offers {rest : List PageRecord} (htags : (s.pages.map fun x => x.ref.tag).Nodup) (hp : s.pages = q :: rest)
    (hstate : q.state = .pending) (hready : (s.parted q p).readyOnChange q.ref ≠ []) (hlead : (s.leaveRecord q p).leadReady q) :
    (s.leaveRecord q p).pages = { q with participants := q.participants.remove p, state := .offered } :: rest ∧
      (s.leaveRecord q p).streamer = .offered q.ref ∧ (s.leaveRecord q p).prdyLow = none := by
  have hlead' : ((s.parted q p).participantChange q.ref).leadReady { q with participants := q.participants.remove p } := by
    unfold State.leadReady at hlead ⊢
    rwa [State.leaveRecord_slots] at hlead
  obtain ⟨hpages, hstreamer, hlow⟩ := State.participantChange_offers (State.parted_pages htags hp) hstate hready hlead'
  rw [State.leaveRecord_eq, State.recheck_pages, State.recheck_eq]
  exact ⟨hpages, hstreamer, hlow⟩

end leave

/-! ## The claim -/

/-- A granted LEAVE PAGE is the leave claim of its page (R41). -/
theorem exec_consideration_leavePage {s : State} {p : Port} {e : Entry} {r : PageRef} (hg : s.grantedPort = some p) (he : s.headEntry p = some e)
    (hop : e.op = .leavePage) (hpage : e.page = some r) : exec .consideration s = .next (s.grantLeave p e r) := by
  rw [exec_consideration hg he]
  simp only [State.grant, hop, hpage]

/-- The repeated check keeps the entries behind the head (R125). -/
theorem State.queueAfterRecheck_tail (s t : State) (r : PageRef) (z : Port) : (s.queueAfterRecheck t r z).tail = (s.port z).queue.tail := by
  unfold State.queueAfterRecheck
  cases (s.port z).queue with
  | nil => rfl
  | cons e es => dsimp only; split <;> rfl

section grantLeave

variable {s : State} {p : Port} {e : Entry} {r : PageRef} {q : PageRecord} (hq : s.findPage r = some q)
include hq

theorem State.grantLeave_of_blanking (hb : q.state = .blanking) : s.grantLeave p e r = s.finishEntry p (some (e.errorEvent .pageAborted)) := by
  simp only [State.grantLeave, hq, hb, if_true]

theorem State.grantLeave_of_absent (hb : q.state ≠ .blanking) (h : q.participants.has p = false) :
    s.grantLeave p e r = s.finishEntry p (some (e.errorEvent .notParticipant)) := by
  simp only [State.grantLeave, hq, hb, h, Bool.not_false, if_true, if_false]

theorem State.grantLeave_of_last (hb : q.state ≠ .blanking) (h : q.participants.has p = true) (ho : q.participants.has p.other = false) :
    s.grantLeave p e r = s.finishEntry p (some (e.errorEvent .lastParticipant)) := by
  simp only [State.grantLeave, hq, hb, h, PortSet.remove_isEmpty, ho, Bool.not_true, Bool.not_false, Bool.false_eq_true, if_true, if_false]

theorem State.grantLeave_of_both (hb : q.state ≠ .blanking) (h : q.participants.has p = true) (ho : q.participants.has p.other = true) :
    s.grantLeave p e r = (s.leaveRecord q p).finishEntry p e.doneEvent := by
  simp only [State.grantLeave, hq, hb, h, PortSet.remove_isEmpty, ho, Bool.not_true, Bool.false_eq_true, if_false]

end grantLeave

/-- Settles O30. -/
theorem leavePageCases : Obligations.LeavePageCases := by
  intro s p e r hg he hop hpage htags fails
  have hexec := exec_consideration_leavePage hg he hop hpage
  refine ⟨fun hnone => ?_, fun q hq => ⟨fun hb => ?_, fun hb h => ?_, fun hb h ho => ?_, fun hb h ho => ?_⟩⟩
  · refine hexec.trans (congrArg _ ?_)
    simp only [State.grantLeave, hnone]
    rfl
  · exact hexec.trans (congrArg _ (State.grantLeave_of_blanking hq hb))
  · exact hexec.trans (congrArg _ (State.grantLeave_of_absent hq hb h))
  · exact hexec.trans (congrArg _ (State.grantLeave_of_last hq hb h ho))
  · rw [State.grantLeave_of_both hq hb h ho] at hexec
    obtain ⟨-, rfl⟩ := State.findPage_some hq
    have hport := s.leaveRecord_port q p
    have hfinish := (s.leaveRecord q p).finishEntry_eq p e.doneEvent
    obtain ⟨-, hkept⟩ := s.leaveRecord_rest q p
    simp only [State.kept, Prod.mk.injEq] at hkept
    obtain ⟨hmark, -, -, -, -, -, hram⟩ := hkept
    have hslot : ∀ i, ((s.leaveRecord q p).finishEntry p e.doneEvent).slot i = (s.leaveRecord q p).slot i := fun i => by rw [hfinish]; rfl
    refine ⟨_, hexec, ?_, ?_, ?_, ?_, ?_, fun i k hi hk hmark hclosed => ?_, fun i hi => ?_, fun i k hmark hi => ?_, fun i k hi hclosed => ?_,
      fun i k hi => ?_, fun hst i k hi => ?_, fun rest hp hstate hex hlead => ?_, ?_, ?_, ?_⟩
    · obtain ⟨q', hq', hlater⟩ := State.leaveRecord_findPage (p := p) hq
      refine ⟨q', ?_, hlater.participants, by rw [hlater.same]⟩
      rw [hfinish]
      exact hq'
    · rw [State.finishEntry_port, hport]
      exact State.queueAfterRecheck_tail _ _ _ _
    · rw [State.finishEntry_port_other, hport]
      exact State.queueAfterRecheck_congr rfl (by rw [hfinish]) (by rw [hfinish]) _
    · rw [State.finishEntry_port, hport, PortSet.has_remove_same]
      exact e.doneEvent_posted _
    · rw [State.finishEntry_port_other, hport, PortSet.has_remove_other, ho]
      cases p <;> rfl
    · rw [hslot]
      exact (s.leaveRecord_slot q p i).2.2 ((State.mem_readyOnChange hq ho hi hk).2 ⟨hmark, hclosed⟩) k hi
    · rw [hslot, State.leaveRecord_slot_of_other hi]
    · rw [hslot, State.leaveRecord_slot_of_kept hq ho hi (.inl hmark)]
    · rw [hslot, State.leaveRecord_slot_of_kept hq ho hi (.inr hclosed)]
    · rw [hslot, State.leaveRecord_slot_of_busy hi]
    · rw [hslot, State.leaveRecord_slot_of_ready hst hi, hi]
    · obtain ⟨i, k, hi, hk, hmark, hclosed⟩ := hex
      have hready := List.ne_nil_of_mem ((State.mem_readyOnChange hq ho hi hk).2 ⟨hmark, hclosed⟩)
      rw [hfinish] at hlead
      obtain ⟨hpages, hstreamer, hlow⟩ := State.leaveRecord_offers htags hp hstate hready hlead
      rw [hfinish]
      exact ⟨hpages, hstreamer, by simp only [State.prdy, hstreamer, hlow, Option.isNone_none]⟩
    · rw [hfinish]
      exact hram
    · rw [hfinish]
    · rw [hfinish]
      exact hmark

end Sys2Proof.Machine
end

