-- ==== Sys2Proof/Proofs/CutLine.lean ====
section
/-! The word in flight of a page that is removed while its line is being sent (R48, R50, R135, R169; log 13). -/

namespace Sys2Proof.Machine

/-! ## The word that is leaving -/

/-- The word that still leaves, VDAT, and the words sent. -/
def State.wires (s : State) : Option TailWord × Bool × List Word := (s.tail, s.vdat, s.lineOut)

theorem State.postAll_wires (s : State) (ps : PortSet) (e : Event) : (s.postAll ps e).wires = s.wires := by
  rw [State.postAll_eq]
  rfl

theorem State.evaluateAllocation_wires (s : State) : s.evaluateAllocation.wires = s.wires := by
  rw [State.evaluateAllocation_eq]
  rfl

theorem State.evaluateOffer_wires (s : State) (w : Bool) : (s.evaluateOffer w).wires = s.wires := by
  rcases s.evaluateOffer_cases w with h | ⟨_, _, _, _, h⟩ <;> rw [h]
  rfl

theorem State.afterRemoval_wires (s u : State) (q : PageRecord) : (s.afterRemoval u q).wires = u.wires := by
  unfold State.afterRemoval
  rw [State.abortWaiting_eq]
  split
  · exact (State.evaluateOffer_wires _ _).trans u.evaluateAllocation_wires
  · exact u.evaluateAllocation_wires

/-- The word of a line that is cut depends on the line's record, band RAM and the word that is leaving already (R146, R169). -/
theorem State.cutWord_congr {s t : State} {q q' : PageRecord} (htail : t.tail = s.tail) (hram : t.bandRam = s.bandRam) (hepoch : t.ramEpoch = s.ramEpoch)
    (hs : s.findPage q.ref = some q) (ht : t.findPage q.ref = some q')
    (hsame : q'.bandLine = q.bandLine ∧ q'.width = q.width ∧ q'.background = q.background) (line : LineInFlight) :
    t.cutWord q.ref line = s.cutWord q.ref line := by
  obtain ⟨hline, hwidth, hback⟩ := hsame
  simp only [State.cutWord, State.lineWord, State.readBand, htail, hram, hepoch, hs, ht, hline, hwidth, hback]

/-! ## The Streamer without a page to serve -/

/-- The Streamer is IDLE or offers a page, and the wires are `w`. -/
structure State.Unserved (w : Option TailWord × Bool × List Word) (t : State) : Prop where
  wires : t.wires = w
  streamer : t.streamer = .idle ∨ ∃ r, t.streamer = .offered r

namespace State.Unserved

variable {w : Option TailWord × Bool × List Word} {s t : State} (h : s.Unserved w)
include h

theorem congr (hw : t.wires = s.wires) (hst : t.streamer = s.streamer) : t.Unserved w := ⟨hw.trans h.wires, hst ▸ h.streamer⟩

theorem not_starved (r : PageRef) (b n : Nat) (x : Bool) : s.streamer ≠ .starved r b n x := by
  rcases h.streamer with hst | ⟨_, hst⟩ <;> rw [hst] <;> exact nofun

theorem tailLeft : s.tailLeft = s.tail := by
  unfold State.tailLeft
  rcases h.streamer with hst | ⟨_, hst⟩ <;> rw [hst]

theorem evaluateOffer (b : Bool) : (s.evaluateOffer b).Unserved w := by
  refine ⟨(s.evaluateOffer_wires b).trans h.wires, ?_⟩
  rcases s.evaluateOffer_cases b with ho | ⟨p, _, _, _, ho⟩ <;> rw [ho]
  · exact h.streamer
  · exact .inr ⟨p.ref, rfl⟩

theorem offerIfHead (r : PageRef) : (s.offerIfHead r).Unserved w := by
  unfold State.offerIfHead
  split
  · exact h.evaluateOffer false
  · exact h

theorem openToReady (i : Nat) (force : Bool) : (s.openToReady i force).Unserved w := by
  rcases s.openToReady_cases i force with ho | ⟨k, -, ho⟩ <;> rw [ho]
  · exact h
  · rw [State.readyNotice_of_not_awaited (s := s.setSlot i _) (h.not_starved k.page k.band)]
    exact h.congr rfl rfl

theorem participantChange (r : PageRef) : (s.participantChange r).Unserved w := by
  have folded : ∀ (l : List Nat) (t : State), t.Unserved w → (l.foldl (fun t i => t.openToReady i false) t).Unserved w := by
    intro l
    induction l with
    | nil => exact fun _ ht => ht
    | cons i l ih => exact fun t ht => ih _ (ht.openToReady i false)
  unfold State.participantChange
  split
  · exact h
  · exact (folded _ s h).offerIfHead r

theorem leaveRecord (q : PageRecord) (p : Port) : (s.leaveRecord q p).Unserved w := by
  have parted : (s.parted q p).Unserved w :=
    h.congr ((State.postAll_wires _ _ _).trans rfl) ((State.postAll_streamer _ _ _).trans rfl)
  rw [State.leaveRecord_eq, State.recheck_eq]
  exact (parted.participantChange q.ref).congr rfl rfl

/-- The abort of a page that does not print leaves the wires of a Streamer that serves none (R46, R48). -/
theorem abortRecord {q : PageRecord} (hstate : q.state ≠ .printing) : (s.abortRecord q).Unserved w := by
  obtain ⟨u, hu, habort⟩ := s.abortRecord_removes hstate
  have htail : u.tail = s.tail := by
    rw [hu.tail, h.tailLeft]
    exact ite_self _
  have hwires : u.wires = s.wires := by
    obtain ⟨hv, hl⟩ := hu.lines
    rw [State.wires, htail, hv, hl]
    rfl
  rw [habort]
  refine ⟨(s.afterRemoval_wires u q).trans (hwires.trans h.wires), ?_⟩
  by_cases hhead : s.isHead q.ref = true
  · rcases State.afterRemoval_of_head hhead (hu.streamer.trans (if_pos hhead)) with hst | ⟨r, -, hst, -⟩
    · exact .inl hst
    · exact .inr ⟨r, hst⟩
  · obtain ⟨hst, -⟩ := State.afterRemoval_of_behind (u := u) (by simpa using hhead : s.isHead q.ref = false)
    rw [hst, hu.streamer, if_neg hhead]
    exact h.streamer

/-- No page prints while the Streamer serves none (R138). -/
theorem not_printing (hserved : s.HeadServed) {q : PageRecord} (hq : q ∈ s.pages) : q.state ≠ .printing := by
  intro hprint
  obtain ⟨rest, hcons, -⟩ := hserved.cons_of_not_pending hq (by rw [hprint]; decide)
  have hagrees := hserved.agrees
  rw [hcons] at hagrees
  rcases h.streamer with hst | ⟨r, hst⟩ <;> simp [hst, streamerAgrees, hprint] at hagrees

theorem resetRecord (hserved : s.HeadServed) (p : Port) (r : PageRef) : (State.resetRecord p s r).Unserved w := by
  cases hq : s.findPage r with
  | none => rwa [State.resetRecord_of_none p hq]
  | some q =>
    obtain ⟨hmem, -⟩ := State.findPage_some hq
    by_cases hp : q.participants.has p = true
    · by_cases ho : q.participants.has p.other = true
      · rw [State.resetRecord_of_both hq hp ho]
        exact h.leaveRecord q p
      · rw [State.resetRecord_of_emptied hq (PageRecord.emptiedBy_iff.2 ⟨hp, by simpa using ho⟩)]
        have mapped : (s.mapPage r PageRecord.deserted).Unserved w := h.congr rfl rfl
        have hstate : q.state ≠ .printing := h.not_printing hserved hmem
        exact mapped.abortRecord (q := q.deserted) hstate
    · rwa [State.resetRecord_of_absent hq (by simpa using hp)]

end State.Unserved

/-! ## The line that is cut -/

/-- From `s` to `t` page `q` has left and its line is cut: the word in flight still leaves, and the Streamer serves the page no more (R169). -/
structure State.LineCut (s : State) (q : PageRecord) (line : LineInFlight) (t : State) : Prop where
  unserved : t.Unserved (some (s.cutWord q.ref line), s.vdat, s.lineOut)
  gone : ∀ r, t.streamer = .offered r → r ≠ q.ref

/-- The abort of the BLANKING page whose line is being sent (R48, R169). -/
theorem State.abortRecord_lineCut {s : State} {q : PageRecord} {line : LineInFlight} (hb : q.state = .blanking) (hhead : s.isHead q.ref = true)
    (hst : s.streamer = .sending q.ref line) : s.LineCut q line (s.abortRecord q) ∧ (s.abortRecord q).findPage q.ref = none := by
  obtain ⟨u, hu, habort⟩ := s.abortRecord_removes (q := q) (by rw [hb]; decide)
  have hgone : q.ref ∉ u.pages.map PageRecord.ref := by simp [hu.refs]
  obtain ⟨hrefs, -⟩ := s.afterRemoval_frame u q
  have htail : u.tail = some (s.cutWord q.ref line) := by
    rw [hu.tail, if_pos hhead, State.tailLeft, hst]
  have hwires : u.wires = (some (s.cutWord q.ref line), s.vdat, s.lineOut) := by
    obtain ⟨hv, hl⟩ := hu.lines
    rw [State.wires, htail, hv, hl]
  have hserved := State.afterRemoval_of_head hhead (hu.streamer.trans (if_pos hhead))
  rw [habort]
  refine ⟨⟨⟨(s.afterRemoval_wires u q).trans hwires, ?_⟩, fun r hr => ?_⟩, State.findPage_eq_none_iff_refs.2 (by rwa [hrefs])⟩
  · rcases hserved with h | ⟨r, -, h, -⟩
    · exact .inl h
    · exact .inr ⟨r, h⟩
  · rcases hserved with h | ⟨r', hr', h, -⟩
    · cases h.symm.trans hr
    · cases h.symm.trans hr
      exact fun hc => hgone (hc ▸ hr')

/-- What is seen of a cut line: LSTB and VCLK are those of its word in flight (R135, R169). -/
theorem State.LineCut.seen {s t : State} {q : PageRecord} {line : LineInFlight} (h : s.LineCut q line t) (hst : s.streamer = .sending q.ref line) :
    (s.tail = none → t.tail = some { word := s.lineWord q.ref line.source line.word, first := decide (line.word = 0), bits := line.bits,
                                     done := line.wordDone }) ∧
      (∀ w, s.tail = some w → t.tail = some w) ∧ t.lstb = s.lstb ∧ t.vclkRunning = s.vclkRunning ∧ t.vdat = s.vdat ∧
      (t.streamer = .idle ∨ ∃ r, t.streamer = .offered r ∧ r ≠ q.ref) ∧ t.lineOut = s.lineOut := by
  have hwires := h.unserved.wires
  simp only [State.wires, Prod.mk.injEq] at hwires
  obtain ⟨htail, hvdat, hline⟩ := hwires
  have hoffered : t.streamer = .idle ∨ ∃ r, t.streamer = .offered r ∧ r ≠ q.ref :=
    h.unserved.streamer.imp_right fun ⟨r, hr⟩ => ⟨r, hr, h.gone r hr⟩
  cases hs : s.tail with
  | none =>
    rw [State.cutWord_of_no_tail hs] at htail
    exact ⟨fun _ => htail, fun _ hc => (nomatch hc), by simp only [State.lstb, htail, hs, hst],
      by simp only [State.vclkRunning, htail, hs, hst], hvdat, hoffered, hline⟩
  | some w =>
    rw [State.cutWord_of_tail hs] at htail
    exact ⟨fun hc => (nomatch hc), fun _ hw => htail.trans hw, by simp only [State.lstb, htail, hs],
      by simp only [State.vclkRunning, htail, hs], hvdat, hoffered, hline⟩

/-- A cut line depends on what the state had of the line. -/
theorem State.LineCut.of_cutWord {s v t : State} {q : PageRecord} {line : LineInFlight} (h : v.LineCut q line t)
    (hcut : v.cutWord q.ref line = s.cutWord q.ref line) (hvdat : v.vdat = s.vdat) (hline : v.lineOut = s.lineOut) : s.LineCut q line t := by
  obtain ⟨hunserved, hgone⟩ := h
  rw [hcut, hvdat, hline] at hunserved
  exact ⟨hunserved, hgone⟩

theorem State.LineCut.closeFrame {s t : State} {q : PageRecord} {line : LineInFlight} (h : s.LineCut q line t) (p : Port) (low : Option Nat) :
    s.LineCut q line (State.closeFrame { t with prdyLow := low } p .ok 0) := ⟨h.unserved.congr rfl rfl, h.gone⟩

/-! ## PORT RESET -/

/-- PORT RESET goes on through records of pages that are not served (R49, R50). -/
theorem State.foldl_resetRecord_unserved {w : Option TailWord × Bool × List Word} (p : Port) (r : PageRef) (l : List PageRef) {v : State}
    (hserved : v.HeadServed) (h : v.Unserved w) (hgone : v.findPage r = none) :
    (l.foldl (State.resetRecord p) v).Unserved w ∧ (l.foldl (State.resetRecord p) v).HeadServed ∧ (l.foldl (State.resetRecord p) v).findPage r = none := by
  induction l generalizing v with
  | nil => exact ⟨h, hserved, hgone⟩
  | cons r' l ih =>
    refine ih (State.HeadServed.keptByPageUpdates.resetRecord v p r' hserved) (h.resetRecord hserved p r') ?_
    obtain ⟨hrefs, -⟩ := State.resetRecord_refs p r' hserved.tags
    exact State.findPage_eq_none_iff_refs.2 fun hc => State.findPage_eq_none_iff_refs.1 hgone (hrefs.subset hc)

/-- PORT RESET cuts the line of the BLANKING page that it leaves without a participant (R50, R169). -/
theorem State.resetAll_lineCut {v : State} {q : PageRecord} {p : Port} {line : LineInFlight} (hserved : v.HeadServed) (hq : q ∈ v.pages)
    (he : q.emptiedBy p = true) (hb : q.state = .blanking) (hst : v.streamer = .sending q.ref line) : v.LineCut q line (State.resetAll p v) := by
  have hfind := State.findPage_of_mem hserved.tags hq
  obtain ⟨rest, hcons, -⟩ := hserved.cons_of_not_pending hq (by rw [hb]; decide)
  have hmapped : (v.mapPage q.ref PageRecord.deserted).findPage q.ref = some q.deserted := by
    rw [State.findPage_mapPage_same v q.ref PageRecord.deserted fun _ => rfl, hfind]
    rfl
  have hhead : (v.mapPage q.ref PageRecord.deserted).isHead q.ref = true := by
    simp [State.isHead, State.mapPage_pages, hcons, PageRecord.deserted]
  obtain ⟨hcut, hgone⟩ := State.abortRecord_lineCut (s := v.mapPage q.ref PageRecord.deserted) (q := q.deserted) hb hhead hst
  have hcut' : v.LineCut q line ((v.mapPage q.ref PageRecord.deserted).abortRecord q.deserted) :=
    State.LineCut.of_cutWord (s := v) (v := v.mapPage q.ref PageRecord.deserted) ⟨hcut.unserved, hcut.gone⟩
      (State.cutWord_congr (s := v) (t := v.mapPage q.ref PageRecord.deserted) rfl rfl rfl hfind hmapped ⟨rfl, rfl, rfl⟩ line) rfl rfl
  have hfirst := State.HeadServed.keptByPageUpdates.resetRecord v p q.ref hserved
  rw [State.resetRecord_of_emptied hfind he] at hfirst
  obtain ⟨hunserved, hheads, hleft⟩ := State.foldl_resetRecord_unserved p q.ref (rest.map PageRecord.ref) hfirst hcut'.unserved hgone
  rw [State.resetAll, hcons, List.map_cons, List.foldl_cons, State.resetRecord_of_emptied hfind he]
  refine ⟨hunserved, fun r hr hc => ?_⟩
  obtain ⟨x, hx, hxr, -⟩ := ((streamerAgrees_iff _ _).1 hheads.agrees).2.1 r hr
  exact State.findPage_eq_none.1 hleft x (List.mem_of_mem_head? hx) (hxr.trans hc)

/-- Settles O49. -/
theorem cutLineEndsWithItsWord : Obligations.CutLineEndsWithItsWord := by
  refine ⟨fun s w hw => ?_, fun p tag s q line hopen hq hpart hb hhead hst => ?_, fun p s q line hopen hlaw hq he hb hst => ?_⟩
  · have htaken : s.takeTailSent = { s with tail := none, lineOut := s.withCutWord w.word, vdat := w.word.getLsbD 0 } := by
      simp only [State.takeTailSent, hw]
    have hexec : exec .wordInFlightSent s = .next { s with tail := none, lineOut := s.withCutWord w.word, vdat := w.word.getLsbD 0 } :=
      congrArg Host.Outcome.next htaken
    refine ⟨_, hexec, rfl, fun hno => ?_⟩
    show s.withCutWord w.word = _
    unfold State.withCutWord
    split
    · rename_i r line hst
      exact absurd hst (hno r line)
    · rfl
  · obtain ⟨hstored, hform⟩ := s.shifted_abortPage p tag
    have hframe := s.shifted_sameButFrame p 0x31 [tag]
    have hrun := State.runCommand_whole (State.abortPageAct p) hopen hform hstored
    generalize s.shifted p 0x31 [tag] = v at hframe hrun
    have hv := hframe.eq
    rw [State.abortPageAct_of_page (q := q) (by rw [hv]; exact hq) hpart] at hrun
    obtain ⟨hcut, -⟩ := State.abortRecord_lineCut (s := v) hb (by rw [hv]; exact hhead) (by rw [hv]; exact hst)
    have hcut' : s.LineCut q line (v.abortRecord q) := hcut.of_cutWord (by rw [hv]; rfl) (by rw [hv]) (by rw [hv])
    have hexec : exec (.abortPage p (.selectHigh [tag] 0)) s = .next ((v.abortRecord q).closeFrame p .ok 0) := congrArg _ hrun
    exact ⟨_, hexec, (hcut'.closeFrame p (v.abortRecord q).prdyLow).seen hst⟩
  · obtain ⟨v, low, hv, hexec, -⟩ := exec_portReset hopen
    have hstreamer : v.streamer = s.streamer := by rw [hv.same]
    have hserved : v.HeadServed := (s.headLawful_iff.1 hlaw).of_pages hv.pages (by rw [hstreamer])
    have hcut := State.resetAll_lineCut hserved (hv.pages ▸ hq) he hb (hstreamer.trans hst)
    have hcut' : s.LineCut q line (State.resetAll p v) := hcut.of_cutWord (by rw [hv.same]; rfl) (by rw [hv.same]) (by rw [hv.same])
    exact ⟨_, hexec, (hcut'.closeFrame p low).seen hst⟩

end Sys2Proof.Machine
end

