-- ==== Sys2Proof/Proofs/ExecutionCheck.lean ====
section
/-! The cases of the execution check (R66, R67; log 18). -/

namespace Sys2Proof.Machine

/-- The band has been passed: it lies before the next one to stream, and no later copy streams it again (R67). -/
theorem PageRecord.passed_iff {q : PageRecord} {b : Nat} :
    q.passed b = true ↔ b < q.nextToStream ∧ (q.resident = false ∨ q.copiesRemaining = 1) := by
  simp only [PageRecord.passed, Bool.and_eq_true, Bool.or_eq_true, Bool.not_eq_true', decide_eq_true_eq]

/-- Cases 5 to 9 of the check, by the state of the slot that holds the band (R66; log 18). -/
theorem checkSlot_held (st : HeldState) (k : BandRecord) (i : Nat) (p : Port) : checkSlot (.held st k) i p =
    if st = .clearing then .wait
    else if k.closedBy.has p = true then .error .bandClosed
    else if st = .opened ∧ k.forcePending = false then .run i
    else .error .bandForced := by
  cases st with
  | clearing => rfl
  | opened => cases hf : k.forcePending <;> simp [checkSlot, hf]
  | ready | streaming => simp [checkSlot]

theorem State.executionCheck_of_gone {s : State} {r : PageRef} (h : s.findPage r = none) (p : Port) (b : Nat) :
    s.executionCheck p r b = .error .pageGone := by
  simp only [State.executionCheck, h]

section page

variable {s : State} {p : Port} {r : PageRef} {b : Nat} {q : PageRecord} (hq : s.findPage r = some q)
include hq

theorem State.executionCheck_of_blanking (hb : q.state = .blanking) : s.executionCheck p r b = .error .pageAborted := by
  simp only [State.executionCheck, hq, hb, if_true]

theorem State.executionCheck_of_absent (hb : q.state ≠ .blanking) (h : q.participants.has p = false) :
    s.executionCheck p r b = .error .notParticipant := by
  simp only [State.executionCheck, hq, hb, h, Bool.not_false, if_true, if_false]

/-- A participant's check on a page that is not BLANKING looks at the band alone: passed, not allocated yet, or in its slot (R66). -/
theorem State.executionCheck_of_participant (hb : q.state ≠ .blanking) (h : q.participants.has p = true) : s.executionCheck p r b =
    if q.passed b = true then .error .bandPassed
    else if q.nextToAllocate ≤ b then .wait
    else (s.slotOfBand r b).elim .wait fun i => checkSlot (s.slot i) i p := by
  simp only [State.executionCheck, hq, hb, h, Bool.not_true, Bool.false_eq_true, if_false]
  cases s.slotOfBand r b <;> rfl

end page

/-- Settles O27: the page's cases, then the band's, then the slot's. -/
theorem executionCheckCases : Obligations.ExecutionCheckCases := by
  intro s p r b
  refine ⟨fun hgone => State.executionCheck_of_gone hgone p b, fun q hq => ⟨State.executionCheck_of_blanking hq,
    State.executionCheck_of_absent hq, fun hb hpart => ?_⟩⟩
  rw [State.executionCheck_of_participant hq hb hpart]
  refine ⟨fun hpassed => if_pos (PageRecord.passed_iff.2 hpassed), fun hpassed => ?_⟩
  rw [if_neg (mt PageRecord.passed_iff.1 hpassed)]
  refine ⟨fun hlater => if_pos hlater, fun hallocated i st k hfound hslot => ?_⟩
  rw [if_neg (Nat.not_le.2 hallocated), hfound, Option.elim_some, hslot]
  exact checkSlot_held st k i p

end Sys2Proof.Machine
end

