-- ==== Sys2Proof/Proofs/GrantsAtOnce.lean ====
section
/-! Grants that complete in their own claim: a MARK, an error of the check, an empty tile, a rectangle of which nothing remains
(R66, R74, R87, R90, R94, R100, R111, R128). -/

namespace Sys2Proof.Machine

/-- Nothing remains of a rectangle without width or without height (R74, R83). -/
theorem Rect.isEmpty_iff {c : Rect} : c.isEmpty = true ↔ c.w = 0 ∨ c.h = 0 := by
  simp only [Rect.isEmpty, Bool.or_eq_true, decide_eq_true_eq]

/-- An entry that ends with an event leaves its queue, posts the event and moves the pointer, and does nothing else (R111, R128). -/
theorem State.finishEntry_some (s : State) (p : Port) (v : Event) :
    s.finishEntry p (some v) = { (s.popEntry p).postTo p v with pointer := p } := rfl

section grant

variable {s : State} {p : Port} {e : Entry}

theorem State.grant_of_mark {v : Word} (hop : e.op = .mark v) : s.grant p e = s.finishEntry p (some (Event.ofCommand .mark e.commandTag v)) := by
  simp only [State.grant, hop]

/-- The grant of a band command is the grant on its band (R87). -/
theorem State.grant_of_band {r : PageRef} {b : Nat} (hr : e.page = some r) (hb : e.band = some b) (hop : e.op.namesBand = true) :
    s.grant p e = s.grantBand p e r b := by
  unfold State.grant
  cases h : e.op with
  | fill | putBits | copy | sumBand | closeBand => simp only [hr, hb]
  | loadTile | leavePage | mark => rw [h] at hop; cases hop

theorem State.grantBand_of_error {r : PageRef} {b : Nat} {c : ExecError} (h : s.executionCheck p r b = .error c) :
    s.grantBand p e r b = s.finishEntry p (some (e.errorEvent c)) := by
  simp only [State.grantBand, h]

/-- A band command other than CLOSE BAND that may run begins on its slot's band (R87). -/
theorem State.grantBand_of_run {r : PageRef} {b i : Nat} {st : HeldState} {k : BandRecord} (h : s.executionCheck p r b = .run i)
    (hi : s.slot i = .held st k) (hop : e.op ≠ .closeBand) : s.grantBand p e r b = s.beginBandCommand p e i k := by
  simp only [State.grantBand, h, hop, if_false, hi]

theorem State.beginBandCommand_of_tileEmpty (h : s.tileEmpty e.op = true) (i : Nat) (k : BandRecord) :
    s.beginBandCommand p e i k = s.finishEntry p (some (e.errorEvent .tileEmpty)) := if_pos h

theorem State.beginBandCommand_of_clippedAway {k : BandRecord} {c : Clip} (ht : s.tileEmpty e.op = false)
    (hc : clipOf e.op k.width k.lines = some c) (hempty : c.rect.w = 0 ∨ c.rect.h = 0) (i : Nat) :
    s.beginBandCommand p e i k = s.finishEntry p (some (clippedEvent e.commandTag)) := by
  simp only [State.beginBandCommand, ht, hc, Rect.isEmpty_iff.2 hempty, Bool.false_eq_true, if_false, if_true]

end grant

/-- Settles O28: each of these grants is an entry's end with one event. -/
theorem grantsThatCompleteAtOnce : Obligations.GrantsThatCompleteAtOnce := by
  intro s p e hg he answers
  have ends : ∀ v, s.grant p e = s.finishEntry p (some v) →
      exec .consideration s = .next { (s.popEntry p).postTo p v with pointer := p } := fun v hv =>
    (exec_consideration hg he).trans (congrArg _ (hv.trans (s.finishEntry_some p v)))
  refine ⟨fun v hop => ends _ (State.grant_of_mark hop), fun r b hr hb hop => ?_⟩
  have hband := State.grant_of_band (s := s) (p := p) hr hb hop
  refine ⟨fun c hc => ends _ (hband.trans (State.grantBand_of_error hc)), fun i st k hrun hi hclose => ?_⟩
  have hbegin := hband.trans (State.grantBand_of_run hrun hi hclose)
  exact ⟨fun ht => ends _ (hbegin.trans (State.beginBandCommand_of_tileEmpty ht i k)),
    fun c ht hc hempty => ends _ (hbegin.trans (State.beginBandCommand_of_clippedAway ht hc hempty i))⟩

end Sys2Proof.Machine
end

