-- ==== Sys2Proof/Proofs/ExecutionBegins.lean ====
section
/-! A granted command that begins to run: the execution record, the in-flight mark and the effective rectangle (R72, R74, R83, R86, R87, R98). -/

namespace Sys2Proof.Machine

/-! ## The grant of a command that begins -/

section begins

variable {s : State} {p : Port} {e : Entry}

theorem State.grant_of_loadTile {n : Nat} (hop : e.op = .loadTile n) : s.grant p e = s.startExecution p e none none 16 1 0 := by
  simp only [State.grant, hop, Config.tileRows]

/-- A command without a rectangle works on the whole band (R102). -/
theorem State.beginBandCommand_of_sumBand (hop : e.op = .sumBand) (i : Nat) (k : BandRecord) :
    s.beginBandCommand p e i k = s.startExecution p e (some i) none k.lines k.width 0 := by
  simp only [State.beginBandCommand, hop, State.tileEmpty, clipOf, Bool.false_eq_true, if_false]

/-- A drawing of which something remains begins on its effective rectangle, with the page line of the band's line 0 (R72, R74, R75, R87). -/
theorem State.beginBandCommand_of_drawing {k : BandRecord} {c : Clip} {q : PageRecord} (hc : clipOf e.op k.width k.lines = some c)
    (ht : s.tileEmpty e.op = false) (hw : 0 < c.rect.w) (hh : 0 < c.rect.h) (hq : s.findPage k.page = some q) (i : Nat) :
    s.beginBandCommand p e i k = s.startExecution p e (some i) (some c) c.rect.h
      ((c.rect.x + c.rect.w - 1) / 16 - c.rect.x / 16 + 1) (k.band * q.bandHeight) := by
  have hne : c.rect.isEmpty = false := by
    rw [← Bool.not_eq_true, Rect.isEmpty_iff]
    omega
  simp only [State.beginBandCommand, ht, hc, hne, Rect.rowWords, Nat.ne_of_gt hw, hq, Option.map_some, Option.getD_some, Bool.false_eq_true, if_false]

/-- An operation with a rectangle is a drawing, which names a band and closes none. -/
theorem Operation.draws_of_clipOf {op : Operation} {width lines : Nat} {c : Clip} (h : clipOf op width lines = some c) :
    op.namesBand = true ∧ op ≠ .closeBand := by
  cases op with
  | fill | putBits | copy => exact ⟨rfl, Operation.noConfusion⟩
  | loadTile | closeBand | leavePage | mark | sumBand => cases h

end begins

/-! ## The effective rectangle -/

/-- An extent of `n` pixels from `x` on is cut short exactly where it reaches beyond `bound` (R74). -/
theorem clipped_extent_iff (x n bound : Nat) : min (x + n) bound - x < n ↔ bound < x + n ∧ 0 < n := by omega

theorem clipRect_eq (x y w h width lines : Nat) : clipRect x y w h width lines =
    { rect := { x := x, y := y, w := min (x + w) (width * 16) - x, h := min (y + h) lines - y },
      clipped := decide (width * 16 < x + w ∧ 0 < w ∨ lines < y + h ∧ 0 < h) } := by
  simp only [clipRect, clipped_extent_iff, Bool.decide_or]

theorem clipCopy_eq (sx sy dx dy w h width lines : Nat) : clipCopy sx sy dx dy w h width lines =
    { rect := { x := dx, y := dy, w := min w (min (width * 16 - sx) (width * 16 - dx)), h := min h (min (lines - sy) (lines - dy)) },
      clipped := decide (min (width * 16 - sx) (width * 16 - dx) < w ∨ min (lines - sy) (lines - dy) < h) } := by
  have cut : ∀ n room : Nat, min n room < n ↔ room < n := fun n room => by omega
  simp only [clipCopy, cut, Bool.decide_or]

/-- Settles O31: each of these grants fills the execution record, and each rectangle is cut to its band. -/
theorem executionBegins : Obligations.ExecutionBegins := by
  constructor
  · intro s p e hg he begins
    have starts : ∀ slot clip rows rowWords line, s.grant p e = s.startExecution p e slot clip rows rowWords line →
        begins slot clip rows rowWords line := fun slot clip rows rowWords line hgrant => by
      refine ⟨_, _, (exec_consideration hg he).trans (congrArg _ hgrant), rfl, ?_⟩
      simp only [and_self]
    refine ⟨fun n hop => starts _ _ _ _ _ (State.grant_of_loadTile hop), fun r b i st k hr hb hrun hi => ?_⟩
    have band : e.op.namesBand = true → e.op ≠ .closeBand → s.grant p e = s.beginBandCommand p e i k := fun hnames hclose =>
      (State.grant_of_band hr hb hnames).trans (State.grantBand_of_run hrun hi hclose)
    refine ⟨fun hop => ?_, fun c q hc ht hw hh hq => ?_⟩
    · exact starts _ _ _ _ _ ((band (by rw [hop]; rfl) (by rw [hop]; decide)).trans (State.beginBandCommand_of_sumBand hop i k))
    · obtain ⟨hnames, hclose⟩ := Operation.draws_of_clipOf hc
      exact starts _ _ _ _ _ ((band hnames hclose).trans (State.beginBandCommand_of_drawing hc ht hw hh hq i))
  · intro x y w h width lines fn
    exact ⟨fun _ => congrArg some (clipRect_eq ..), congrArg some (clipRect_eq ..), fun _ _ => congrArg some (clipCopy_eq ..), rfl⟩

end Sys2Proof.Machine
end

