-- ==== Sys2Proof/Proofs/CommandWords.lean ====
section
/-! The words of an executing command: what COMMAND_END does to them all, one after the other (R85, R88, R89; log 8), and what the clock's period does to one
(R11, R88; log 10). -/

namespace Sys2Proof.Machine

/-! ## All the words -/

/-- The record of the command `x` at another of its words (R84, R85, R88, R102). -/
def ExecRecord.SameCommand (x y : ExecRecord) : Prop :=
  y = { x with row := y.row, rowWord := y.rowWord, period := y.period, finished := y.finished, runningSum := y.runningSum, rowBuffer := y.rowBuffer }

/-- What the words of a command do not change. -/
theorem ExecRecord.SameCommand.fields {x y : ExecRecord} (h : x.SameCommand y) : y.op = x.op ∧ y.slot = x.slot ∧ y.clip = x.clip ∧ y.rows = x.rows ∧
    y.rowWords = x.rowWords ∧ y.stopRequested = x.stopRequested ∧ y.port = x.port ∧ y.stagingPosition = x.stagingPosition ∧
    y.firstPageLine = x.firstPageLine := by
  rw [h]
  exact ⟨rfl, rfl, rfl, rfl, rfl, rfl, rfl, rfl, rfl⟩

/-- A command with words to handle that has handled none and is not stopped (R87). -/
structure ExecRecord.Fresh (x : ExecRecord) : Prop where
  row : x.row = 0
  rowWord : x.rowWord = 0
  unfinished : x.finished = false
  unstopped : x.stopRequested = false
  words : 0 < x.rowWords

/-- `y` is the record of the command `x` with `n` words handled and more to come (R85). -/
structure ExecRecord.AtWord (x y : ExecRecord) (n : Nat) : Prop where
  same : x.SameCommand y
  unfinished : y.finished = false
  place : y.row * x.rowWords + y.rowWord = n
  inRow : y.rowWord < x.rowWords

theorem ExecRecord.Fresh.atWord {x : ExecRecord} (h : x.Fresh) : x.AtWord x 0 :=
  ⟨rfl, h.unfinished, by rw [h.row, h.rowWord, Nat.zero_mul], by rw [h.rowWord]; exact h.words⟩

theorem ExecRecord.AtWord.row_lt {x y : ExecRecord} {n : Nat} (h : x.AtWord y n) (hn : n < x.rows * x.rowWords) : y.row < x.rows := by
  refine Nat.lt_of_mul_lt_mul_right (a := x.rowWords) (Nat.lt_of_le_of_lt ?_ hn)
  rw [← h.place]
  exact Nat.le_add_right _ _

/-- Of the record a word changes the place, the sum and the row buffer. -/
theorem ExecRecord.SameCommand.touched {x y : ExecRecord} (h : x.SameCommand y) (t : State) : x.SameCommand (t.touchWord y).2.advance := by
  rw [ExecRecord.advance_eq, t.touchWord_record y]
  generalize (t.touchWord y).2 = z
  rw [h]
  rfl

/-- Each word but the last brings the command to its next one (R85). -/
theorem ExecRecord.AtWord.touched {x y : ExecRecord} {n : Nat} (h : x.AtWord y n) (hstop : x.stopRequested = false) (hn : n + 1 < x.rows * x.rowWords)
    (t : State) : x.AtWord (t.touchWord y).2.advance (n + 1) := by
  have hsame := h.same.touched t
  have hrecord := t.touchWord_record y
  obtain ⟨-, -, -, hrows, hwords, hstopped, -⟩ := h.same.fields
  obtain ⟨within, next, -⟩ := (t.touchWord y).2.advance_place (by rw [hrecord]; exact h.unfinished)
  generalize (t.touchWord y).2 = z at hsame hrecord within next
  obtain ⟨hzWord, hzWords, hzRow, hzRows, hzStop⟩ : z.rowWord = y.rowWord ∧
      z.rowWords = x.rowWords ∧ z.row = y.row ∧ z.rows = x.rows ∧ z.stopRequested = false := by
    rw [hrecord]
    exact ⟨rfl, hwords, rfl, hrows, hstopped.trans hstop⟩
  rw [hzWord, hzWords, hzRow] at within
  rw [hzWord, hzWords, hzRow, hzRows, hzStop] at next
  have hplace := h.place
  by_cases hin : y.rowWord + 1 < x.rowWords
  · obtain ⟨hrow, hword, hmore⟩ := within hin
    exact ⟨hsame, hmore, by rw [hrow, hword]; omega, by rw [hword]; exact hin⟩
  · have hlast : y.rowWord + 1 = x.rowWords := Nat.le_antisymm h.inRow (Nat.le_of_not_lt hin)
    have hnext : (y.row + 1) * x.rowWords = n + 1 := by rw [Nat.succ_mul]; omega
    obtain ⟨hrow, hword, hmore⟩ := next hlast.ge (Nat.lt_of_mul_lt_mul_right (a := x.rowWords) (by rwa [hnext])) rfl
    exact ⟨hsame, hmore, by rw [hrow, hword, hnext, Nat.add_zero], by rw [hword]; omega⟩

/-- What holds of a command that begins and passes from each word to the next holds when its words are done (R85, R89). -/
theorem State.finishWork_induct {s : State} {x : ExecRecord} (hx : s.execution = some x) (hfresh : x.Fresh) {P : Nat → State → Prop} (begins : P 0 s)
    (word : ∀ n t y, n < x.rows * x.rowWords → t.execution = some y → x.AtWord y n → P n t →
      P (n + 1) { (t.touchWord y).1 with execution := some (t.touchWord y).2.advance }) :
    P (x.rows * x.rowWords) s.finishWork ∧ ∃ y, s.finishWork.execution = some y ∧ x.SameCommand y := by
  have words : ∀ (m n : Nat) (t : State) (y : ExecRecord), n + m = x.rows * x.rowWords → P n t → t.execution = some y → x.SameCommand y →
      (0 < m → x.AtWord y n) →
      P (x.rows * x.rowWords) (State.rasterWords m t) ∧ ∃ z, (State.rasterWords m t).execution = some z ∧ x.SameCommand z := by
    intro m
    induction m with
    | zero => exact fun n t y hn hP hy hsame _ => ⟨hn ▸ hP, y, hy, hsame⟩
    | succ m ih =>
      intro n t y hn hP hy hsame hat
      have hword := hat (Nat.succ_pos m)
      have hnext := word n t y (by omega) hy hword hP
      rw [State.rasterWords, State.rasterWord_of_execution hy hword.unfinished]
      exact ih (n + 1) _ _ (by omega) hnext rfl (hsame.touched t) fun hm => hword.touched hfresh.unstopped (by omega) t
  have hleft : x.wordsLeft = x.rows * x.rowWords := by
    rw [ExecRecord.wordsLeft, hfresh.unfinished, hfresh.row, hfresh.rowWord]
    rfl
  have hwork : s.finishWork = State.rasterWords (x.rows * x.rowWords) s := by simp only [State.finishWork, hx, hleft]
  rw [hwork]
  exact words _ 0 s x (Nat.zero_add _) begins hx rfl fun _ => hfresh.atWord

/-! ## One word, by the kind of the command -/

section touchWord

variable {s : State} {x : ExecRecord}

theorem State.touchWord_loadTile {n : Nat} (hop : x.op = .loadTile n) : s.touchWord x =
    ({ s with tileRam := ramWrite s.tileRam (n * 16 + x.row) (s.stagingWord x.port (x.stagingPosition + x.row)) }, x) := by
  simp only [State.touchWord, hop, Config.tileRows]

variable {i : Nat} {k : BandRecord} (hop : ∀ n, x.op ≠ .loadTile n) (hstop : x.stopRequested = false) (hslot : x.slot = some i)
  (hi : s.slot i = .held .opened k)
include hop hstop hslot hi

/-- A command on a band that is not stopped handles a word of its slot while that is OPEN (R4, R104). -/
theorem State.touchWord_opened : s.touchWord x = s.touchBandWord x i k.width := by
  unfold State.touchWord
  split
  · exact absurd ‹_› (hop _)
  · simp only [hstop, hslot, hi, Bool.false_eq_true, if_false]

theorem State.touchWord_summed (hclip : x.clip = none) : s.touchWord x =
    (s, { x with runningSum := x.runningSum.map fun sum => sum + s.readBand (slotAddress i (x.row * k.width + x.rowWord)) }) := by
  rw [State.touchWord_opened hop hstop hslot hi, State.touchBandWord, hclip]

theorem State.touchWord_drawn {c : Clip} (hclip : x.clip = some c) : s.touchWord x =
    (s.writeBand (slotAddress i ((c.rect.y + x.rowIndex) * k.width + (c.rect.x / 16 + x.rowWord)))
      (mergeWord x.op.fn c.rect (c.rect.x / 16 + x.rowWord) (s.sourceBit (s.withRowBuffer i k.width x c.rect) (c.rect.y + x.rowIndex))
        (s.readBand (slotAddress i ((c.rect.y + x.rowIndex) * k.width + (c.rect.x / 16 + x.rowWord))))),
      s.withRowBuffer i k.width x c.rect) := by
  rw [State.touchWord_opened hop hstop hslot hi, State.touchBandWord, hclip]

end touchWord

/-! ## One word, on the clock -/

/-- The step that ends a word's time: the Clear Unit's word, then the command's, then what the period does besides (R11, R88; log 10). -/
theorem step_of_wordEnds {s : State} {x : ExecRecord} (h : s.wordEnds x) :
    ∃ streamer lineOut vdat tail phase prdyLow, step s = .next { (s.clearTick.touchWord x).1 with
      execution := some (s.clearTick.touchWord x).2.advance, streamer := streamer, lineOut := lineOut, vdat := vdat, tail := tail, videoPhase := phase,
      prdyLow := prdyLow } := by
  obtain ⟨hpend, hreset, hdue, hadr, hx, hperiod, -, -⟩ := h
  obtain ⟨-, hwork, -⟩ := State.streamerDue_nil hdue
  have hmore : x.finished = false := by simpa [State.workIsDone, hx] using hwork
  have hx' : s.clearTick.execution = some x := by rw [State.clearTick_execution, hx]
  have hworked : s.worked = { (s.clearTick.touchWord x).1 with execution := some (s.clearTick.touchWord x).2.advance } :=
    (State.rasterTick_word hx' hmore hperiod).trans (State.rasterWord_of_execution hx' hmore)
  obtain ⟨_, _, _, _, _, htick⟩ := s.tick_frame
  rw [step_of_no_pending hpend, State.idle_of_period hreset hdue hadr, htick, hworked]
  exact ⟨_, _, _, _, _, _, rfl⟩

theorem State.clearTick_slot (s : State) (i : Nat) : s.clearTick.slot i = s.slot i := State.slot_congr (by rw [State.clearTick_eq]) i

theorem State.clearTick_stagingWord (s : State) (p : Port) (n : Nat) : s.clearTick.stagingWord p n = s.stagingWord p n := by
  rw [State.clearTick_eq]
  rfl

theorem State.clearTick_tileRow (s : State) (n r : Nat) : s.clearTick.tileRow n r = s.tileRow n r := by
  rw [State.clearTick_eq]
  rfl

theorem State.wordEnds.readBand_clearTick {s : State} {x : ExecRecord} (h : s.wordEnds x) (a : Nat) : s.clearTick.readBand a = s.readAfterClear a := by
  obtain ⟨-, -, hdue, -⟩ := h
  exact State.readBand_clearTick (State.streamerDue_nil hdue).1 a

/-- A band fits the words of its slot (R1). -/
theorem State.band_fits {s : State} {i : Nat} {st : HeldState} {k : BandRecord} (hadr : s.addressesExist = true) (hi : s.slot i = .held st k) :
    k.lines * k.width ≤ 32768 := by
  obtain ⟨-, hfits, -⟩ := s.addressesExist_iff.1 hadr
  have hslot := hfits _ (State.slot_mem (State.lt_of_slot_held hi))
  rw [hi] at hslot
  exact of_decide_eq_true hslot

/-- The work of a command on an OPEN band lies in that band (R74). -/
theorem State.work_covered {s : State} {x : ExecRecord} {i : Nat} {k : BandRecord} (hadr : s.addressesExist = true) (hx : s.execution = some x)
    (hop : ∀ n, x.op ≠ .loadTile n) (hslot : x.slot = some i) (hi : s.slot i = .held .opened k) : k.Covers x.clip x.rows x.rowWords := by
  obtain ⟨-, -, hwork⟩ := s.addressesExist_iff.1 hadr
  exact (hwork x hx).2 hop i k hslot hi

/-- Word `col` of line `y` of a band is one of the band's words. -/
theorem line_word_lt {lines width y col : Nat} (hy : y < lines) (hcol : col < width) : y * width + col < lines * width :=
  calc y * width + col < y * width + width := Nat.add_lt_add_left hcol _
    _ = (y + 1) * width := (Nat.succ_mul _ _).symm
    _ ≤ lines * width := Nat.mul_le_mul_right _ hy

/-- The Clear Unit's word of the period is of another slot than one that is OPEN (R1, R10). -/
theorem State.wordEnds.readBand_clearTick_opened {s : State} {x : ExecRecord} (h : s.wordEnds x) {i : Nat} {k : BandRecord} (hi : s.slot i = .held .opened k) {w : Nat}
    (hw : w < k.lines * k.width) : s.clearTick.readBand (slotAddress i w) = s.readBand (slotAddress i w) := by
  rw [h.readBand_clearTick]
  obtain ⟨-, -, hdue, hadr, -⟩ := h
  have hmore := (State.streamerDue_nil hdue).1
  unfold State.readAfterClear
  split
  · rfl
  · rename_i j rest ho
    split
    · rename_i k' hk
      have hpos : s.clearPos < k'.lines * k'.width := by simpa [State.clearIsDone, ho, hk] using hmore
      have hfit := State.band_fits hadr hi
      have hfit' := State.band_fits hadr hk
      have hij : i ≠ j := fun hij => by
        rw [hij, hk] at hi
        cases hi
      rw [if_neg]
      simp only [slotAddress, Config.slotWords]
      omega
    · rfl

end Sys2Proof.Machine
end

