-- ==== Sys2Proof/Proofs/SumsAndTiles.lean ====
section
/-! SUM BAND and LOAD TILE: what they have done at COMMAND_END, and word by word (R79, R88, R98, R102). -/

namespace Sys2Proof.Machine

/-! ## SUM BAND -/

/-- The sum of the first `n` words of slot `i` (R102). -/
def State.sumOfWords (s : State) (i n : Nat) : Word := (List.range n).foldl (fun sum w => sum + s.readBand (slotAddress i w)) 0

theorem State.sumOfWords_succ (s : State) (i n : Nat) : s.sumOfWords i (n + 1) = s.sumOfWords i n + s.readBand (slotAddress i n) := by
  simp only [State.sumOfWords, List.range_succ, List.foldl_append, List.foldl_cons, List.foldl_nil]

/-- The words of a SUM BAND change the execution record alone, and in the end its sum is of all the band's words (R85, R102). -/
theorem State.finishWork_sumBand {s : State} {x : ExecRecord} {i : Nat} {k : BandRecord} (hx : s.execution = some x) (hop : x.op = .sumBand)
    (hslot : x.slot = some i) (hi : s.slot i = .held .opened k) (hclip : x.clip = none) (hwords : x.rowWords = k.width) (hfresh : x.Fresh)
    (hsum : x.runningSum = some 0) :
    s.finishWork = { s with execution := s.finishWork.execution } ∧
      ∃ y, s.finishWork.execution = some y ∧ x.SameCommand y ∧ y.runningSum = some (s.sumOfWords i (x.rows * k.width)) := by
  have hall := State.finishWork_induct hx hfresh
    (P := fun n t => t = { s with execution := t.execution } ∧ ∀ y, t.execution = some y → y.runningSum = some (s.sumOfWords i n))
    ⟨rfl, fun y hy => by cases hx.symm.trans hy; exact hsum⟩ ?_
  · obtain ⟨⟨hframe, hsummed⟩, y, hy, hsame⟩ := hall
    exact ⟨hframe, y, hy, hsame, hwords ▸ hsummed y hy⟩
  · rintro n t y - hy hat ⟨hframe, hsummed⟩
    obtain ⟨hop', hslot', hclip', -, -, hstop', -⟩ := hat.same.fields
    have hti : t.slot i = .held .opened k := by rw [hframe]; exact hi
    have hread : t.readBand (slotAddress i n) = s.readBand (slotAddress i n) := by rw [hframe]; rfl
    have hword := State.touchWord_summed (fun m hm => by rw [hop', hop] at hm; cases hm) (hstop'.trans hfresh.unstopped) (hslot'.trans hslot) hti
      (hclip'.trans hclip)
    rw [← hwords, hat.place] at hword
    rw [hword]
    refine ⟨by rw [hframe], fun z hz => ?_⟩
    cases hz
    rw [ExecRecord.advance_eq]
    show y.runningSum.map _ = _
    rw [hsummed y hy, Option.map_some, hread, State.sumOfWords_succ]

/-! ## LOAD TILE -/

/-- A row written into a tile: no other row of the tile store changes (R79). -/
theorem State.tileRow_write (s : State) {n row m r : Nat} (v : Word) (hrow : row < 16) (hr : r < 16) :
    ({ s with tileRam := ramWrite s.tileRam (n * 16 + row) v } : State).tileRow m r = if m = n ∧ r = row then v else s.tileRow m r := by
  unfold State.tileRow Config.tileRows
  split
  · rename_i h
    rw [h.1, h.2]
    exact ramRead_ramWrite_same ..
  · exact ramRead_ramWrite_ne (by omega)

/-- The words of a LOAD TILE change the tile store and the execution record alone: in the end the tile holds the payload's words (R98). -/
theorem State.finishWork_loadTile {s : State} {x : ExecRecord} {n : Nat} (hx : s.execution = some x) (hop : x.op = .loadTile n) (hrows : x.rows = 16)
    (hwords : x.rowWords = 1) (hfresh : x.Fresh) :
    s.finishWork = { s with tileRam := s.finishWork.tileRam, execution := s.finishWork.execution } ∧
      (∀ m r, r < 16 → s.finishWork.tileRow m r = if m = n then s.stagingWord x.port (x.stagingPosition + r) else s.tileRow m r) ∧
      ∃ y, s.finishWork.execution = some y ∧ x.SameCommand y := by
  have hall := State.finishWork_induct hx hfresh
    (P := fun done t => t = { s with tileRam := t.tileRam, execution := t.execution } ∧
      ∀ m r, r < 16 → t.tileRow m r = if m = n ∧ r < done then s.stagingWord x.port (x.stagingPosition + r) else s.tileRow m r)
    ⟨rfl, fun m r _ => by simp only [Nat.not_lt_zero, and_false, if_false]⟩ ?_
  · obtain ⟨⟨hframe, hrow⟩, hsame⟩ := hall
    refine ⟨hframe, fun m r hr => ?_, hsame⟩
    rw [hrow m r hr, hrows, hwords]
    simp only [hr, and_true]
  · rintro done t y hdone hy hat ⟨hframe, hrow⟩
    obtain ⟨hop', -, -, -, -, -, hport', hstaging', -⟩ := hat.same.fields
    have hplace : y.row = done := by
      have h1 := hat.place
      have h2 := hat.inRow
      rw [hwords] at h1 h2
      omega
    have hpayload : t.stagingWord y.port (y.stagingPosition + y.row) = s.stagingWord x.port (x.stagingPosition + done) := by
      rw [hport', hstaging', hplace, hframe]
      rfl
    have hlt : done < 16 := by rw [hrows, hwords] at hdone; exact hdone
    rw [State.touchWord_loadTile (hop'.trans hop), hpayload, hplace]
    refine ⟨by rw [hframe], fun m r hr => ?_⟩
    show ({ t with tileRam := _ } : State).tileRow m r = _
    rw [State.tileRow_write t _ hlt hr, hrow m r hr]
    by_cases hm : m = n
    · by_cases hd : r = done
      · rw [if_pos ⟨hm, hd⟩, if_pos ⟨hm, by omega⟩, hd]
      · have hnext : (m = n ∧ r < done) ↔ (m = n ∧ r < done + 1) := by omega
        rw [if_neg fun h => hd h.2]
        simp only [hnext]
    · simp only [hm, false_and, if_false]

/-- Settles O35: at COMMAND_END by the words handled one after the other; on the clock the word is of an OPEN slot, or of the tile store, where the Clear Unit
writes nothing. -/
theorem sumBandAndLoadTileAtTheirEnd : Obligations.SumBandAndLoadTileAtTheirEnd := by
  refine ⟨fun s x i k hx hop hslot hi hclip hrows hwords _ hwidth hrow hword hmore hstop hsilent hsum hadr => ?_,
    fun s x n hx hop hslot hrows hwords hrow hword hmore hstop hn hloaded hadr => ?_, fun s x i k hends hop hslot hi hclip hstop => ?_,
    fun s x n hends hop => ?_⟩
  · obtain ⟨hframe, y, hy, hsame, htotal⟩ :=
      State.finishWork_sumBand hx hop hslot hi hclip hwords ⟨hrow, hword, hmore, hstop, by rwa [hwords]⟩ hsum
    obtain ⟨-, -, hband, htile, -⟩ := s.finishWork.commandEndClaim_rest y
    obtain ⟨-, hevents, -⟩ := s.finishWork.commandEndClaim_port y
    obtain ⟨hport, htag, hsilent', hstop'⟩ : y.port = x.port ∧ y.commandTag = x.commandTag ∧ y.silent = false ∧ y.stopRequested = false := by
      rw [hsame]
      exact ⟨rfl, rfl, hsilent, hstop⟩
    have hbefore : s.finishWork.port x.port = s.port x.port := by rw [hframe]; rfl
    rw [y.outcomeEvent_posted, hsilent', hstop', htotal, hport, htag, hbefore, hrows] at hevents
    exact ⟨_, exec_commandEnd hadr hy, hband.trans (by rw [hframe]), htile.trans (by rw [hframe]), hevents⟩
  · obtain ⟨hframe, htile, y, hy, hsame⟩ := State.finishWork_loadTile hx hop hrows hwords ⟨hrow, hword, hmore, hstop, by omega⟩
    obtain ⟨hop', hslot', -⟩ := hsame.fields
    have hclaim : s.finishWork.commandEndClaim y = { s.finishWork with
        inFlight := none, execution := none, tileLoaded := s.finishWork.tileLoaded.set n true, ports := (s.finishWork.commandEndClaim y).ports } := by
      rw [State.commandEndClaim_ports]
      simp only [State.slotTaken, hslot', hslot, State.unmarked, State.markLoaded, hop', hop]
    have htile' : ∀ m r, (s.finishWork.commandEndClaim y).tileRow m r = s.finishWork.tileRow m r := fun m r => by rw [hclaim]; rfl
    refine ⟨_, exec_commandEnd hadr hy, fun r hr => ?_, fun m r hm hr => ?_, ?_⟩
    · rw [htile', htile n r hr, if_pos rfl]
    · rw [htile', htile m r hr, if_neg hm]
    · rw [hclaim, hframe]
      exact ⟨rfl, rfl, rfl, rfl, rfl⟩
  · obtain ⟨_, _, _, _, _, _, hstep⟩ := step_of_wordEnds hends
    have hi' : s.clearTick.slot i = .held .opened k := (s.clearTick_slot i).trans hi
    have hno : ∀ n, x.op ≠ .loadTile n := fun n hn => by rw [hop] at hn; cases hn
    have hread : s.clearTick.readBand (slotAddress i (x.row * k.width + x.rowWord)) = s.readBand (slotAddress i (x.row * k.width + x.rowWord)) := by
      refine hends.readBand_clearTick_opened hi (line_word_lt ?_ ?_)
      all_goals
        obtain ⟨-, -, -, hadr, hx, -, hrow, hword⟩ := hends
        have hcovers := State.work_covered hadr hx hno hslot hi
        rw [hclip] at hcovers
        obtain ⟨hrows, hwords⟩ := hcovers
        omega
    rw [State.touchWord_summed hno hstop hslot hi' hclip, hread] at hstep
    refine ⟨_, _, hstep, rfl, ?_, hends.readBand_clearTick, s.clearTick_tileRam⟩
    rw [ExecRecord.advance_eq]
  · obtain ⟨_, _, _, _, _, _, hstep⟩ := step_of_wordEnds hends
    rw [State.touchWord_loadTile hop, State.clearTick_stagingWord] at hstep
    have hrow : x.row < 16 := by
      obtain ⟨-, -, -, hadr, hx, -, hrow, -⟩ := hends
      obtain ⟨-, -, hwork⟩ := s.addressesExist_iff.1 hadr
      exact Nat.lt_of_lt_of_le hrow ((hwork x hx).1 n hop).2
    have htile : ∀ m r, r < 16 → (if m = n ∧ r = x.row then s.stagingWord x.port (x.stagingPosition + x.row) else s.tileRow m r) =
        ({ s.clearTick with tileRam := ramWrite s.clearTick.tileRam (n * 16 + x.row) (s.stagingWord x.port (x.stagingPosition + x.row)) } :
          State).tileRow m r := fun m r hr => by rw [State.tileRow_write s.clearTick _ hrow hr, State.clearTick_tileRow]
    refine ⟨_, hstep, ?_, fun m r hr hother => ?_, ?_, hends.readBand_clearTick⟩
    · exact (htile n x.row hrow).symm.trans (if_pos ⟨rfl, rfl⟩)
    · exact (htile m r hr).symm.trans (if_neg (by omega))
    · show s.clearTick.tileLoaded = _
      rw [State.clearTick_eq]

end Sys2Proof.Machine
end

