-- ==== Sys2Proof/Proofs/Drawings.lean ====
section
/-! Drawings: FILL, PUT BITS and COPY at COMMAND_END and word by word (R71 to R85, R88, R93, R96, R97). -/

namespace Sys2Proof.Machine

/-! ## Logic functions -/

/-- Settles O32: bit 2 × S + D of each code, for the four pairs of source and destination bit. -/
theorem sixteenFunctions : Obligations.SixteenFunctions := by
  intro source dest
  cases source <;> cases dest <;> decide

/-! ## A word of a row -/

/-- A row drawn into a word: the pixels inside the rectangle take the function of source and destination, the others keep their value (R75, R76). -/
theorem pixel_mergeWord (fn : BitVec 4) (r : Rect) (n : Nat) (source : Nat → Bool) (old : Word) {j : Nat} (hj : j < 16) :
    pixel (mergeWord fn r n source old) j =
      if r.x ≤ 16 * n + j ∧ 16 * n + j < r.x + r.w then logicBit fn (source (16 * n + j)) (pixel old j) else pixel old j := by
  have hbit : ∀ f : Fin 16 → Bool, (BitVec.ofFnBE f).getMsbD j = f ⟨j, hj⟩ := fun f => by
    rw [BitVec.getMsbD_eq_getLsbD, BitVec.getLsbD_eq_getElem (by omega), BitVec.getElem_ofFnBE]
    have hrev : (⟨16 - 1 - j, by omega⟩ : Fin 16).rev = ⟨j, hj⟩ := Fin.ext (by simp only [Fin.val_rev]; omega)
    simp only [hj, decide_true, Bool.true_and, hrev]
  exact hbit _

/-- Of lines of `width` words, the same word counted from the first line's start on is the same word of the same line. -/
theorem line_word_inj {width y col y' col' : Nat} (h : y * width + col = y' * width + col') (hcol : col < width) (hcol' : col' < width) :
    y = y' ∧ col = col' := by
  have line : ∀ a b : Nat, b < width → (a * width + b) / width = a := fun a b hb => by
    rw [Nat.add_comm, Nat.add_mul_div_right _ _ (by omega), Nat.div_eq_of_lt hb, Nat.zero_add]
  have hy : y = y' := by rw [← line y col hcol, h, line y' col' hcol']
  subst hy
  exact ⟨rfl, Nat.add_left_cancel h⟩

theorem slotAddress_inj {i w w' : Nat} (h : slotAddress i w = slotAddress i w') : w = w' := Nat.add_left_cancel h

/-! ## Sources -/

/-- The source bits of a FILL and a PUT BITS are of tiles, staging words and operands; those of a COPY of its row buffer (R78, R80, R81, R83). -/
theorem State.sourceBit_congr {s t : State} {x y : ExecRecord} (htile : t.tileRam = s.tileRam) (hports : t.ports = s.ports)
    (hepoch : t.ramEpoch = s.ramEpoch) (hop : y.op = x.op) (hport : y.port = x.port) (hstaging : y.stagingPosition = x.stagingPosition)
    (hline : y.firstPageLine = x.firstPageLine) (hbuffer : y.rowBuffer = x.rowBuffer) : t.sourceBit y = s.sourceBit x := by
  funext line px
  simp only [State.sourceBit, State.tileRow, State.stagingWord, State.port, htile, hports, hepoch, hop, hport, hstaging, hline, hbuffer]

/-- The source row of a COPY is as before if its words are (R84). -/
theorem State.readRow_congr {s t : State} {i width : Nat} {op : Operation} {r : Rect} {row : Nat}
    (h : ∀ sx sy dx dy w h fn, op = .copy sx sy dx dy w h fn → ∀ n, n < (sx + r.w - 1) / 16 - sx / 16 + 1 →
      t.readBand (slotAddress i ((sy + row) * width + sx / 16 + n)) = s.readBand (slotAddress i ((sy + row) * width + sx / 16 + n))) :
    t.readRow i width op r row = s.readRow i width op r row := by
  unfold State.readRow
  split
  · exact List.map_congr_left fun n hn => h _ _ _ _ _ _ _ rfl n (List.mem_range.1 hn)
  · rfl

/-- The source bits of row `row` of rectangle `r` as the band now stands (R78, R80, R81, R83). -/
def State.rowSource (s : State) (x : ExecRecord) (i width : Nat) (r : Rect) (row : Nat) : Nat → Bool :=
  s.sourceBit { x with rowBuffer := s.readRow i width x.op r row } (r.y + row)

/-- The row of the rectangle that is the `j`-th processed (R84, R85). -/
def ExecRecord.rowAt (x : ExecRecord) (j : Nat) : Nat := if x.op.lastRowFirst then x.rows - 1 - j else j

theorem ExecRecord.rowIndex_eq (x : ExecRecord) : x.rowIndex = x.rowAt x.row := rfl

theorem ExecRecord.rowAt_lt {x : ExecRecord} {j : Nat} (h : j < x.rows) : x.rowAt j < x.rows := by
  unfold ExecRecord.rowAt
  split <;> omega

/-- The rows are taken from the first to the last, or from the last to the first. -/
theorem ExecRecord.rowAt_rowAt {x : ExecRecord} {j : Nat} (h : j < x.rows) : x.rowAt (x.rowAt j) = j := by
  unfold ExecRecord.rowAt
  split <;> omega

/-! ## All the words of a drawing -/

/-- The address of word `w` of the `j`-th row that the command processes in slot `i`. -/
def ExecRecord.wordAddress (x : ExecRecord) (i width : Nat) (r : Rect) (j w : Nat) : Nat :=
  slotAddress i ((r.y + x.rowAt j) * width + (r.x / 16 + w))

/-- What the command makes of that word in the band as it stands before the command. -/
def State.drawnWord (s : State) (x : ExecRecord) (i width : Nat) (r : Rect) (j w : Nat) : Word :=
  mergeWord x.op.fn r (r.x / 16 + w) (s.rowSource x i width r (x.rowAt j)) (s.readBand (x.wordAddress i width r j w))

/-- From `s` to `t` the first `n` words of a drawing have been drawn, and within a row the row buffer is of the row as it stood in `s` (R84, R85). -/
structure State.DrawnTo (s : State) (x : ExecRecord) (i width : Nat) (r : Rect) (n : Nat) (t : State) : Prop where
  frame : t = { s with bandRam := t.bandRam, execution := t.execution }
  word : ∀ j w, j < x.rows → w < x.rowWords → t.readBand (x.wordAddress i width r j w) =
    if j * x.rowWords + w < n then s.drawnWord x i width r j w else s.readBand (x.wordAddress i width r j w)
  other : ∀ a, (∀ j w, j < x.rows → w < x.rowWords → a ≠ x.wordAddress i width r j w) → t.readBand a = s.readBand a
  buffer : ∀ y, t.execution = some y → 0 < y.rowWord → y.rowBuffer = s.readRow i width x.op r y.rowIndex

section drawing

variable {s : State} {x : ExecRecord} {i : Nat} {k : BandRecord} {c : Clip}

/-- What a drawing needs to know of its rectangle: the words of its rows are the band's, and a COPY's source rows lie in the band's lines (R74, R83). -/
structure ExecRecord.DrawsIn (x : ExecRecord) (r : Rect) (width : Nat) : Prop where
  wide : 0 < r.w
  words : r.x / 16 + x.rowWords ≤ width
  source : ∀ sx sy dx dy w h fn, x.op = .copy sx sy dx dy w h fn → r.y = dy ∧ sx + r.w ≤ width * 16

theorem ExecRecord.DrawsIn.wordAddress_inj {r : Rect} {width j w j' w' : Nat} (h : x.DrawsIn r width) (hj : j < x.rows) (hw : w < x.rowWords)
    (hj' : j' < x.rows) (hw' : w' < x.rowWords) (ha : x.wordAddress i width r j w = x.wordAddress i width r j' w') : j = j' ∧ w = w' := by
  have hwords := h.words
  obtain ⟨hline, hcol⟩ := line_word_inj (slotAddress_inj ha) (by omega) (by omega)
  have hrow : x.rowAt j = x.rowAt j' := Nat.add_left_cancel hline
  exact ⟨by rw [← ExecRecord.rowAt_rowAt hj, hrow, ExecRecord.rowAt_rowAt hj'], Nat.add_left_cancel hcol⟩

/-- A COPY's source row still stands when the row it is for begins: rows above it are drawn from the last, rows below it from the first (R84). -/
theorem State.DrawnTo.readRow {r : Rect} {width j : Nat} {t : State} (h : s.DrawnTo x i width r (j * x.rowWords) t) (hin : x.DrawsIn r width)
    (hj : j < x.rows) : t.readRow i width x.op r (x.rowAt j) = s.readRow i width x.op r (x.rowAt j) := by
  refine State.readRow_congr fun sx sy dx dy w hh fn hop n hn => ?_
  obtain ⟨hdy, hsx⟩ := hin.source _ _ _ _ _ _ _ hop
  have hwide := hin.wide
  have hwords := hin.words
  by_cases hdrawn : ∃ j' w', j' < x.rows ∧ w' < x.rowWords ∧ slotAddress i ((sy + x.rowAt j) * width + sx / 16 + n) = x.wordAddress i width r j' w'
  · obtain ⟨j', w', hj', hw', ha⟩ := hdrawn
    have hline : sy + x.rowAt j = r.y + x.rowAt j' :=
      (line_word_inj ((Nat.add_assoc _ _ _).symm.trans (slotAddress_inj ha)) (by omega) (by omega)).1
    have hlater : j ≤ j' := by
      simp only [ExecRecord.rowAt, hop, Operation.lastRowFirst, decide_eq_true_eq] at hline
      split at hline <;> omega
    have hnot : ¬ j' * x.rowWords + w' < j * x.rowWords := Nat.not_lt.2 ((Nat.mul_le_mul_right _ hlater).trans (Nat.le_add_right _ _))
    rw [ha, h.word j' w' hj' hw', if_neg hnot]
  · exact h.other _ fun j' w' hj' hw' ha => hdrawn ⟨j', w', hj', hw', ha⟩

variable (hop : ∀ n, x.op ≠ .loadTile n) (hslot : x.slot = some i) (hi : s.slot i = .held .opened k) (hclip : x.clip = some c)
include hop hslot hi hclip

/-- One more word is drawn (R75, R76, R84). -/
theorem State.DrawnTo.touched {n : Nat} {t : State} {y : ExecRecord} (h : s.DrawnTo x i k.width c.rect n t) (hin : x.DrawsIn c.rect k.width)
    (hstop : x.stopRequested = false) (hn : n < x.rows * x.rowWords) (hy : t.execution = some y) (hat : x.AtWord y n) :
    s.DrawnTo x i k.width c.rect (n + 1) { (t.touchWord y).1 with execution := some (t.touchWord y).2.advance } := by
  obtain ⟨hop', hslot', hclip', hrows', -, hstop', hport', hstaging', hline'⟩ := hat.same.fields
  have hrow := hat.row_lt hn
  have hplace := hat.place
  have hinRow := hat.inRow
  have hindex : y.rowIndex = x.rowAt y.row := by rw [ExecRecord.rowIndex_eq, ExecRecord.rowAt, ExecRecord.rowAt, hop', hrows']
  obtain ⟨buffer, hbuffer, hrecord⟩ : ∃ buffer, buffer = s.readRow i k.width x.op c.rect (x.rowAt y.row) ∧
      t.withRowBuffer i k.width y c.rect = { y with rowBuffer := buffer } := by
    unfold State.withRowBuffer
    split
    · rename_i hfirst
      have hread := State.DrawnTo.readRow (j := y.row) (by rwa [← hplace, hfirst, Nat.add_zero] at h) hin hrow
      exact ⟨_, hread, by rw [hop', hindex]⟩
    · rename_i hlater
      exact ⟨_, (h.buffer y hy (Nat.pos_of_ne_zero hlater)).trans (by rw [hindex]), rfl⟩
  have htouch := State.touchWord_drawn (s := t) (x := y) (fun m => by rw [hop']; exact hop m) (hstop'.trans hstop) (hslot'.trans hslot)
    (by rw [h.frame]; exact hi) (hclip'.trans hclip)
  have hsource : t.sourceBit (t.withRowBuffer i k.width y c.rect) (c.rect.y + x.rowAt y.row) = s.rowSource x i k.width c.rect (x.rowAt y.row) :=
    congrFun (State.sourceBit_congr (by rw [h.frame]) (by rw [h.frame]) (by rw [h.frame]) (by rw [hrecord]; exact hop') (by rw [hrecord]; exact hport')
      (by rw [hrecord]; exact hstaging') (by rw [hrecord]; exact hline') (by rw [hrecord]; exact hbuffer)) _
  have hold : t.readBand (x.wordAddress i k.width c.rect y.row y.rowWord) = s.readBand (x.wordAddress i k.width c.rect y.row y.rowWord) := by
    rw [h.word _ _ hrow hinRow, if_neg (by omega)]
  rw [hindex, hsource, hop'] at htouch
  have hwrite : t.touchWord y = (t.writeBand (x.wordAddress i k.width c.rect y.row y.rowWord) (s.drawnWord x i k.width c.rect y.row y.rowWord),
      { y with rowBuffer := buffer }) := by
    rw [htouch, hrecord, State.drawnWord, ← hold]
    rfl
  rw [hwrite]
  have hread : ∀ a, ({ t.writeBand (x.wordAddress i k.width c.rect y.row y.rowWord) (s.drawnWord x i k.width c.rect y.row y.rowWord) with
      execution := some ({ y with rowBuffer := buffer } : ExecRecord).advance } : State).readBand a =
        if a = x.wordAddress i k.width c.rect y.row y.rowWord then s.drawnWord x i k.width c.rect y.row y.rowWord else t.readBand a := fun a => by
    split
    · rename_i ha
      rw [ha]
      exact State.readBand_writeBand_same ..
    · exact State.readBand_writeBand_ne _ _ ‹_›
  refine ⟨by rw [h.frame]; rfl, fun j w hj hw => ?_, fun a ha => ?_, fun z hz hlater => ?_⟩
  · rw [hread]
    by_cases hsame : j = y.row ∧ w = y.rowWord
    · obtain ⟨rfl, rfl⟩ := hsame
      rw [if_pos rfl, if_pos (by omega)]
    · have hne : j * x.rowWords + w ≠ n := fun heq => by
        rw [← hplace] at heq
        exact hsame (line_word_inj heq hw hinRow)
      have hnext : j * x.rowWords + w < n + 1 ↔ j * x.rowWords + w < n := by omega
      rw [if_neg fun ha => hsame (hin.wordAddress_inj hj hw hrow hinRow ha), h.word j w hj hw]
      simp only [hnext]
  · rw [hread, if_neg (ha _ _ hrow hinRow)]
    exact h.other a ha
  · cases hz
    obtain ⟨hword, hrowIndex⟩ : ({ y with rowBuffer := buffer } : ExecRecord).advance.rowBuffer = buffer ∧
        ({ y with rowBuffer := buffer } : ExecRecord).advance.rowIndex = x.rowAt y.row := by
      revert hlater
      unfold ExecRecord.advance
      split
      · exact fun _ => ⟨rfl, hindex⟩
      · split
        · exact fun hlater => absurd hlater (Nat.lt_irrefl 0)
        · exact fun _ => ⟨rfl, hindex⟩
    rw [hword, hrowIndex, hbuffer]

/-- All the words of a drawing have been drawn when its work is done (R85, R89). -/
theorem State.finishWork_drawing (hx : s.execution = some x) (hfresh : x.Fresh) (hin : x.DrawsIn c.rect k.width) :
    s.DrawnTo x i k.width c.rect (x.rows * x.rowWords) s.finishWork ∧ ∃ y, s.finishWork.execution = some y ∧ x.SameCommand y := by
  refine State.finishWork_induct hx hfresh ⟨rfl, fun _ _ _ _ => (if_neg (Nat.not_lt_zero _)).symm, fun _ _ => rfl, fun y hy hlater => ?_⟩
    fun n t y hn hy hat h => h.touched hop hslot hi hclip hin hfresh.unstopped hn hy hat
  cases hx.symm.trans hy
  rw [hfresh.rowWord] at hlater
  exact absurd hlater (Nat.lt_irrefl 0)

end drawing

/-! ## Pixels of the band -/

/-- The words of a rectangle's row hold its pixels. -/
theorem Rect.word_of_pixel {r : Rect} {px : Nat} (hx : r.x ≤ px) (hw : px < r.x + r.w) : r.x / 16 ≤ px / 16 ∧ px / 16 - r.x / 16 < r.rowWords := by
  unfold Rect.rowWords
  rw [if_neg (by omega)]
  omega

section pixels

variable {s t : State} {x : ExecRecord} {i : Nat} {k : BandRecord} {r : Rect} (hrows : x.rows = r.h) (hwords : x.rowWords = r.rowWords)
  (hin : x.DrawsIn r k.width)
include hrows hwords hin

/-- In the end exactly the pixels of the rectangle have taken the function of source bit and old value (R75, R76, R80, R81, R83). -/
theorem State.DrawnTo.bandPixel (h : s.DrawnTo x i k.width r (x.rows * x.rowWords) t) {y px : Nat} (hpx : px < k.width * 16) :
    t.bandPixel i k.width y px =
      if r.holds px y then logicBit x.op.fn (s.rowSource x i k.width r (y - r.y) px) (s.bandPixel i k.width y px) else s.bandPixel i k.width y px := by
  have hinside := hin.words
  have hsame : 16 * (px / 16) + px % 16 = px := Nat.div_add_mod px 16
  unfold State.bandPixel
  by_cases hdrawn : ∃ j w, j < x.rows ∧ w < x.rowWords ∧ slotAddress i (y * k.width + px / 16) = x.wordAddress i k.width r j w
  · obtain ⟨j, w, hj, hw, ha⟩ := hdrawn
    obtain ⟨hline, hcol⟩ := line_word_inj (slotAddress_inj ha) (by omega) (by omega)
    have hrow := ExecRecord.rowAt_lt hj
    have hholds : (r.x ≤ px ∧ px < r.x + r.w) ↔ r.holds px y = true := by
      simp only [Rect.holds, Bool.and_eq_true, decide_eq_true_eq]
      omega
    rw [ha, h.word j w hj hw, if_pos (line_word_lt hj hw), State.drawnWord, pixel_mergeWord _ _ _ _ _ (Nat.mod_lt _ (by decide)), ← hcol, hsame,
      show y - r.y = x.rowAt j by omega]
    simp only [hholds]
  · have hnot : ¬ r.holds px y = true := fun hholds => hdrawn <| by
      simp only [Rect.holds, Bool.and_eq_true, decide_eq_true_eq] at hholds
      obtain ⟨⟨⟨hx, hw⟩, hy⟩, hh⟩ := hholds
      obtain ⟨hleft, hright⟩ := Rect.word_of_pixel hx hw
      have hrow : y - r.y < x.rows := by omega
      refine ⟨x.rowAt (y - r.y), px / 16 - r.x / 16, ExecRecord.rowAt_lt hrow, by rwa [hwords], ?_⟩
      rw [ExecRecord.wordAddress, ExecRecord.rowAt_rowAt hrow, Nat.add_sub_cancel' hy, Nat.add_sub_cancel' hleft]
    rw [if_neg hnot, h.other _ fun j w hj hw ha => hdrawn ⟨j, w, hj, hw, ha⟩]

omit hrows hwords in
/-- A word that is none of the band's is not drawn (R1, R74). -/
theorem State.DrawnTo.outside (h : s.DrawnTo x i k.width r (x.rows * x.rowWords) t) (hlines : r.y + x.rows ≤ k.lines) {a : Nat}
    (ha : ¬ bandHasWord i k a) : t.readBand a = s.readBand a := by
  have hinside := hin.words
  refine h.other a fun j w hj hw heq => ha ?_
  have hrow := ExecRecord.rowAt_lt hj
  have hlt : (r.y + x.rowAt j) * k.width + (r.x / 16 + w) < k.lines * k.width := line_word_lt (by omega) (by omega)
  simp only [bandHasWord, heq, ExecRecord.wordAddress, slotAddress]
  omega

end pixels

/-- COMMAND_END of a drawing that has not handled a word yet: exactly the pixels of its effective rectangle are drawn, and no word outside its band (R88, R89;
log 8). -/
theorem exec_commandEnd_drawing {s : State} {x : ExecRecord} {i : Nat} {k : BandRecord} {c : Clip} (h : s.startsDrawing x i k c)
    (hop : ∀ n, x.op ≠ .loadTile n)
    (hcopy : ∀ sx sy dx dy w h fn, x.op = .copy sx sy dx dy w h fn → c.rect.y = dy ∧ sx + c.rect.w ≤ k.width * 16) :
    ∃ t, exec .commandEnd s = .next t ∧
      (∀ y px, y < k.lines → px < k.width * 16 → t.bandPixel i k.width y px =
        if c.rect.holds px y then logicBit x.op.fn (s.rowSource x i k.width c.rect (y - c.rect.y) px) (s.bandPixel i k.width y px)
        else s.bandPixel i k.width y px) ∧
      ∀ a, ¬ bandHasWord i k a → t.readBand a = s.readBand a := by
  obtain ⟨hx, hslot, hi, hclip, hrows, hwords, hw, -, hrow, hword, hmore, hstop, hright, hlines, hadr⟩ := h
  have hpos : 0 < x.rowWords := by
    rw [hwords, Rect.rowWords, if_neg (Nat.ne_of_gt hw)]
    exact Nat.succ_pos _
  have hin : x.DrawsIn c.rect k.width := ⟨hw, hwords ▸ Rect.rowWords_le hw hright, hcopy⟩
  obtain ⟨hdrawn, y, hy, -⟩ := State.finishWork_drawing hop hslot hi hclip hx ⟨hrow, hword, hmore, hstop, hpos⟩ hin
  obtain ⟨_, _, _, _, _, _, _, _, htaken⟩ := s.finishWork.slotTaken_frame y
  have hread : ∀ a, (s.finishWork.commandEndClaim y).readBand a = s.finishWork.readBand a := fun a => by
    rw [State.commandEndClaim_ports, htaken]
    rfl
  refine ⟨_, exec_commandEnd hadr hy, fun y px _ hpx => ?_, fun a ha => ?_⟩
  · rw [← hdrawn.bandPixel hrows hwords hin hpx]
    exact congrArg (fun v => pixel v (px % 16)) (hread _)
  · rw [hread, hdrawn.outside hin (by rwa [hrows]) ha]

/-! ## One word, on the clock -/

/-- The step that ends the time of a drawing's word draws that word, in the row whose turn it is, with the row buffer that holds by then (R75, R76, R84, R88;
log 10). -/
theorem step_drawsWord {s : State} {x : ExecRecord} {i : Nat} {k : BandRecord} {c : Clip} (h : s.wordEnds x) (hop : ∀ n, x.op ≠ .loadTile n)
    (hslot : x.slot = some i) (hi : s.slot i = .held .opened k) (hclip : x.clip = some c) (hstop : x.stopRequested = false) {source : Nat → Nat → Bool}
    (hsource : ∀ px, s.clearTick.sourceBit (s.clearTick.withRowBuffer i k.width x c.rect) (c.rect.y + x.rowIndex) px =
      source (c.rect.y + x.rowIndex) px) :
    ∃ t y, step s = .next t ∧ t.execution = some y ∧ y.rowBuffer = (s.clearTick.withRowBuffer i k.width x c.rect).rowBuffer ∧
      s.drawsWord t x i k c x.rowIndex source := by
  have hlt : (c.rect.y + x.rowIndex) * k.width + (c.rect.x / 16 + x.rowWord) < k.lines * k.width := by
    obtain ⟨-, -, -, hadr, hx, -, hrow, hword⟩ := h
    have hcovers := State.work_covered hadr hx hop hslot hi
    rw [hclip] at hcovers
    obtain ⟨hlines, hwords⟩ := hcovers
    have hindex : x.rowIndex < x.rows := ExecRecord.rowAt_lt hrow
    exact line_word_lt (by omega) (by omega)
  have hold := h.readBand_clearTick_opened hi hlt
  obtain ⟨_, _, _, _, _, _, hstep⟩ := step_of_wordEnds h
  rw [State.touchWord_drawn hop hstop hslot ((s.clearTick_slot i).trans hi) hclip, hold, funext hsource] at hstep
  refine ⟨_, _, hstep, rfl, by rw [ExecRecord.advance_eq], fun j hj => ?_, fun b hb => ?_, s.clearTick_tileRam⟩
  · rw [← pixel_mergeWord _ _ _ _ _ hj]
    exact congrArg (fun v => pixel v j) (State.readBand_writeBand_same ..)
  · exact (State.readBand_writeBand_ne _ _ hb).trans (h.readBand_clearTick b)

/-! ## FILL and PUT BITS -/

/-- `source` gives the source bits of the FILL or PUT BITS `x`: its value, a tile's, or its payload's (R78, R80, R81, R93, R96). -/
def State.FixedSource (s : State) (x : ExecRecord) (source : Nat → Nat → Bool) : Prop :=
  (∃ rx ry w h fn v, x.op = .fill rx ry w h fn (.solid v) ∧ ∀ y px, source y px = v) ∨
    (∃ rx ry w h fn n, x.op = .fill rx ry w h fn (.tile n) ∧
      ∀ y px, source y px = pixel (s.tileRow n ((x.firstPageLine + y) % 16)) (px % 16)) ∨
    (∃ rx ry w rows fn, x.op = .putBits rx ry w rows fn ∧
      ∀ y px, source y px = pixel (s.stagingWord x.port (x.stagingPosition + (y - ry) * ((w + 15) / 16) + (px - rx) / 16)) ((px - rx) % 16))

section fixedSource

variable {s : State} {x : ExecRecord} {source : Nat → Nat → Bool} (h : s.FixedSource x source)
include h

/-- A FILL or a PUT BITS takes its rows from the first to the last (R84, R85). -/
theorem State.FixedSource.op : (∀ n, x.op ≠ .loadTile n) ∧ (∀ sx sy dx dy w h fn, x.op ≠ .copy sx sy dx dy w h fn) ∧ x.rowIndex = x.row := by
  unfold ExecRecord.rowIndex
  rcases h with ⟨_, _, _, _, _, _, hop, -⟩ | ⟨_, _, _, _, _, _, hop, -⟩ | ⟨_, _, _, _, _, hop, -⟩ <;> rw [hop]
  all_goals exact ⟨fun _ => Operation.noConfusion, fun _ _ _ _ _ _ _ => Operation.noConfusion, rfl⟩

/-- Its source bits are the same while the tile store and the staging words are, whatever is drawn. -/
theorem State.FixedSource.sourceBit {t : State} {y : ExecRecord} (htile : ∀ n r, t.tileRow n r = s.tileRow n r)
    (hstaging : ∀ p n, t.stagingWord p n = s.stagingWord p n) (hop : y.op = x.op) (hport : y.port = x.port)
    (hposition : y.stagingPosition = x.stagingPosition) (hline : y.firstPageLine = x.firstPageLine) : t.sourceBit y = source := by
  funext line px
  rcases h with ⟨_, _, _, _, _, _, hkind, hsource⟩ | ⟨_, _, _, _, _, _, hkind, hsource⟩ | ⟨_, _, _, _, _, hkind, hsource⟩
  · simp only [State.sourceBit, hop, hkind, hsource]
  · simp only [State.sourceBit, hop, hkind, hsource, htile, hline, Config.tileRows]
  · simp only [State.sourceBit, hop, hkind, hsource, hstaging, hport, hposition, rowWordsOf]

end fixedSource

/-- Settles O33: the source bits are of operands, tile and staging words, which no word drawn changes. -/
theorem fillAndPutBitsDrawTheirRectangle : Obligations.FillAndPutBitsDrawTheirRectangle := by
  intro s x i k c source hkind
  have hfixed : s.FixedSource x source := hkind
  obtain ⟨htile, hcopy, hindex⟩ := hfixed.op
  refine ⟨fun hstarts => ?_, fun hends hslot hi hclip hstop => ?_⟩
  · obtain ⟨t, ht, hpixels, hrest⟩ := exec_commandEnd_drawing hstarts htile fun _ _ _ _ _ _ _ hop => absurd hop (hcopy _ _ _ _ _ _ _)
    refine ⟨t, ht, fun y px hy hpx => ?_, hrest⟩
    rw [hpixels y px hy hpx]
    by_cases hholds : c.rect.holds px y = true
    · have hline : c.rect.y + (y - c.rect.y) = y := by
        simp only [Rect.holds, Bool.and_eq_true, decide_eq_true_eq] at hholds
        omega
      have hbit : s.rowSource x i k.width c.rect (y - c.rect.y) px = source y px := by
        rw [State.rowSource, hline]
        exact congrFun (congrFun (hfixed.sourceBit
          (y := { x with rowBuffer := s.readRow i k.width x.op c.rect (y - c.rect.y) }) (fun _ _ => rfl) (fun _ _ => rfl) rfl rfl rfl rfl) y) px
      rw [if_pos hholds, if_pos hholds, hbit]
    · rw [if_neg hholds, if_neg hholds]
  · have hsource : s.clearTick.sourceBit (s.clearTick.withRowBuffer i k.width x c.rect) = source := by
      refine hfixed.sourceBit s.clearTick_tileRow s.clearTick_stagingWord ?_ ?_ ?_ ?_
      all_goals unfold State.withRowBuffer; split <;> rfl
    obtain ⟨t, -, ht, -, -, hdraws⟩ := step_drawsWord (source := source) hends htile hslot hi hclip hstop fun px => by rw [hsource]
    exact ⟨t, ht, hindex ▸ hdraws⟩

/-! ## COPY -/

/-- The source bit that a row buffer gives is the source row's pixel (R83, R84). -/
theorem pixel_of_readRow {s : State} {i width : Nat} {r : Rect} {sx sy dx dy w h row px : Nat} {fn : BitVec 4} (hx : dx ≤ px) (hw : px < dx + r.w) :
    pixel ((s.readRow i width (.copy sx sy dx dy w h fn) r row).getD ((px - dx + sx % 16) / 16) 0) ((px - dx + sx % 16) % 16) =
      s.bandPixel i width (sy + row) (sx + (px - dx)) := by
  have hlt : (px - dx + sx % 16) / 16 < (sx + r.w - 1) / 16 - sx / 16 + 1 := by omega
  have hcol : (sy + row) * width + sx / 16 + (px - dx + sx % 16) / 16 = (sy + row) * width + (sx + (px - dx)) / 16 := by omega
  have hbit : (px - dx + sx % 16) % 16 = (sx + (px - dx)) % 16 := by omega
  rw [State.readRow, List.getD_eq_getElem _ _ (by rwa [List.length_map, List.length_range]), List.getElem_map, List.getElem_range, hcol, hbit]
  rfl

/-- Settles O34: a source row still stands when its own row begins, and the row buffer keeps it to the row's end. -/
theorem copyReadsBeforeItWrites : Obligations.CopyReadsBeforeItWrites := by
  refine ⟨fun s x i k c sx sy dx dy w h fn hstarts hop hdx hdy hsx _ => ?_, fun s x i k c sx sy dx dy w h fn hends hop hslot hi hclip hstop hrows hwords hw
    hsx hsy => ?_⟩
  · obtain ⟨t, ht, hpixels, hrest⟩ := exec_commandEnd_drawing hstarts (fun n => by rw [hop]; exact Operation.noConfusion)
      fun _ _ _ _ _ _ _ hop' => by
        rw [hop] at hop'
        cases hop'
        exact ⟨hdy, hsx⟩
    refine ⟨t, ht, fun y px hy hpx => ?_, hrest⟩
    rw [hpixels y px hy hpx]
    by_cases hholds : c.rect.holds px y = true
    · have hpx : dx ≤ px ∧ px < dx + c.rect.w := by
        simp only [Rect.holds, Bool.and_eq_true, decide_eq_true_eq] at hholds
        omega
      rw [if_pos hholds, if_pos hholds, ← pixel_of_readRow (r := c.rect) (h := h) (dy := dy) (w := w) (fn := fn) hpx.1 hpx.2, ← hdy, hop]
      simp only [State.rowSource, State.sourceBit, hop, Operation.fn, hdy]
    · rw [if_neg hholds, if_neg hholds]
  · intro row buffer
    have hindex : x.rowIndex = row := by
      simp only [ExecRecord.rowIndex, hop, Operation.lastRowFirst, decide_eq_true_eq, hrows, row]
    have hrow : row < c.rect.h := by
      obtain ⟨-, -, -, -, -, -, hrow, -⟩ := hends
      rw [← hindex, ← hrows]
      exact ExecRecord.rowAt_lt hrow
    have hread : s.clearTick.readRow i k.width x.op c.rect row = s.readRow i k.width x.op c.rect row := by
      refine State.readRow_congr fun _ _ _ _ _ _ _ hop' n hn => ?_
      rw [hop] at hop'
      cases hop'
      rw [Nat.add_assoc]
      exact hends.readBand_clearTick_opened hi (line_word_lt (by omega) (by omega))
    have hbuffer : (s.clearTick.withRowBuffer i k.width x c.rect).rowBuffer = buffer := by
      unfold State.withRowBuffer
      by_cases hfirst : x.rowWord = 0
      · rw [if_pos hfirst, hindex, hread, hop]
        exact (if_pos hfirst).symm
      · rw [if_neg hfirst]
        exact (if_neg hfirst).symm
    have hop' : (s.clearTick.withRowBuffer i k.width x c.rect).op = .copy sx sy dx dy w h fn := by
      rw [← hop]
      unfold State.withRowBuffer
      split <;> rfl
    obtain ⟨t, y, ht, hy, hybuffer, hdraws⟩ := step_drawsWord
      (source := fun _ px => pixel (buffer.getD ((px - dx + sx % 16) / 16) 0) ((px - dx + sx % 16) % 16)) hends
      (fun n => by rw [hop]; exact Operation.noConfusion) hslot hi hclip hstop fun px => by simp only [State.sourceBit, hop', hbuffer]
    exact ⟨t, y, ht, hy, hybuffer.trans hbuffer, hindex ▸ hdraws⟩

end Sys2Proof.Machine
end

