-- ==== Sys2Proof/Proofs/QueuedFrameBytes.lean ====
section
/-! Queued frames and their bytes: what R200 can spell is read back whole, and what is read at all is so spelt (R73, R76, R78, R81, R92, R95, R97, R98, R199,
R200; log 30). -/

namespace Sys2Proof.Machine

/-! ## Fields of one and two bytes -/

theorem oneByte_toNat {n : Nat} (h : n < 256) : (oneByte n).toNat = n := by
  rw [oneByte, BitVec.toNat_ofNat]
  exact Nat.mod_eq_of_lt h

theorem oneByte_of_toNat (b : Byte) : oneByte b.toNat = b := BitVec.ofNat_toNat 8 b |>.trans (BitVec.setWidth_eq b)

/-- A two-byte field holds the number that was laid out in it (R185, R199). -/
theorem twoBytes_toNat {n : Nat} (h : n < 65536) : (BitVec.ofNat 8 (n / 256)).toNat * 256 + (BitVec.ofNat 8 n).toNat = n := by
  simp only [BitVec.toNat_ofNat]
  omega

theorem twoBytes_of_toNat (hi lo : Byte) : twoBytes (hi.toNat * 256 + lo.toNat) = [hi, lo] := by
  have hlo := lo.isLt
  have hdiv : (hi.toNat * 256 + lo.toNat) / 256 = hi.toNat := by omega
  have hmod : BitVec.ofNat 8 (hi.toNat * 256 + lo.toNat) = lo := BitVec.eq_of_toNat_eq (by rw [BitVec.toNat_ofNat]; omega)
  rw [twoBytes, hdiv, hmod]
  exact congrArg (· :: [lo]) (oneByte_of_toNat hi)

theorem append_toNat (hi lo : Byte) : (hi ++ lo : Word).toNat = hi.toNat * 256 + lo.toNat := by
  rw [BitVec.toNat_append, ← Nat.shiftLeft_add_eq_or_of_lt lo.isLt, Nat.shiftLeft_eq]

theorem twoBytes_append (hi lo : Byte) : twoBytes (hi ++ lo : Word).toNat = [hi, lo] := by rw [append_toNat, twoBytes_of_toNat]

theorem append_twoBytes (v : Word) : (BitVec.ofNat 8 (v.toNat / 256) ++ BitVec.ofNat 8 v.toNat : Word) = v :=
  BitVec.eq_of_toNat_eq ((append_toNat _ _).trans (twoBytes_toNat v.isLt))

/-! ## The bytes of a body -/

/-- The bytes of a payload (R200). -/
def payloadBytes (payload : List Word) : List Byte := payload.flatMap fun w => twoBytes w.toNat

theorem payloadBytes_length (payload : List Word) : (payloadBytes payload).length = 2 * payload.length := by
  induction payload with
  | nil => rfl
  | cons w ws ih =>
    rw [payloadBytes, List.flatMap_cons, List.length_append, List.length_cons, show (ws.flatMap _).length = _ from ih]
    show 2 + _ = _
    omega

/-- A payload is read back from its bytes (R200). -/
theorem wordsOf_payloadBytes (payload : List Word) : wordsOf (payloadBytes payload) = payload := by
  induction payload with
  | nil => rfl
  | cons w ws ih =>
    show (BitVec.ofNat 8 (w.toNat / 256) ++ BitVec.ofNat 8 w.toNat) :: wordsOf (payloadBytes ws) = _
    rw [append_twoBytes, ih]

/-- An even number of bytes is the bytes of half as many words. -/
theorem payloadBytes_wordsOf {n : Nat} {bytes : List Byte} (h : bytes.length = 2 * n) :
    payloadBytes (wordsOf bytes) = bytes ∧ (wordsOf bytes).length = n := by
  induction n generalizing bytes with
  | zero => exact List.length_eq_zero_iff.1 h ▸ ⟨rfl, rfl⟩
  | succ n ih =>
    match bytes, h with
    | hi :: lo :: rest, h =>
      obtain ⟨hbytes, hlength⟩ := ih (bytes := rest) (by simp only [List.length_cons] at h; omega)
      refine ⟨?_, congrArg (· + 1) hlength⟩
      show twoBytes (hi ++ lo : Word).toNat ++ payloadBytes (wordsOf rest) = _
      rw [twoBytes_append, hbytes]
      rfl

section drop

variable {body : List Byte} {i : Nat}

theorem drop_byteAt (h : i < body.length) : body.drop i = byteAt body i :: body.drop (i + 1) := by
  rw [List.drop_eq_getElem_cons h, byteAt, List.getD_eq_getElem _ _ h]

theorem drop_oneByte (h : i < body.length) : body.drop i = oneByte (byteAt body i).toNat :: body.drop (i + 1) := by
  rw [oneByte_of_toNat, drop_byteAt h]

theorem drop_twoBytes (h : i + 1 < body.length) : body.drop i = twoBytes (wordAt body i) ++ body.drop (i + 2) := by
  rw [wordAt, twoBytes_of_toNat, drop_byteAt (Nat.lt_of_succ_lt h), drop_byteAt h]
  rfl

/-- What stands first behind the first `i` bytes is byte `i`. -/
theorem byteAt_of_drop {b : Byte} {rest : List Byte} (h : body.drop i = b :: rest) : byteAt body i = b ∧ body.drop (i + 1) = rest := by
  have hlt : i < body.length := Nat.lt_of_not_le fun hle => by
    rw [List.drop_eq_nil_of_le hle] at h
    cases h
  rw [drop_byteAt hlt] at h
  exact List.cons.inj h

theorem oneByteAt_of_drop {n : Nat} {rest : List Byte} (h : body.drop i = oneByte n :: rest) (hn : n < 256) :
    (byteAt body i).toNat = n ∧ body.drop (i + 1) = rest := by
  obtain ⟨hb, hrest⟩ := byteAt_of_drop h
  exact ⟨by rw [hb, oneByte_toNat hn], hrest⟩

theorem wordAt_of_drop {n : Nat} {rest : List Byte} (h : body.drop i = twoBytes n ++ rest) (hn : n < 65536) :
    wordAt body i = n ∧ body.drop (i + 2) = rest := by
  obtain ⟨hhi, hnext⟩ := byteAt_of_drop h
  obtain ⟨hlo, hrest⟩ := byteAt_of_drop hnext
  exact ⟨by rw [wordAt, hhi, hlo, twoBytes_toNat hn], hrest⟩

end drop

/-! ## Control bytes, functions and sources -/

/-- The control byte of a queued command (R199). -/
def controlByte (notify : Bool) : Byte := if notify then 1 else 0

theorem controlOk_controlByte (tag : Byte) (notify : Bool) (rest : List Byte) : controlOk (tag :: controlByte notify :: rest) = true := by
  cases notify <;> rfl

theorem notifyOf_controlByte (tag : Byte) (notify : Bool) (rest : List Byte) : notifyOf (tag :: controlByte notify :: rest) = notify := by
  show (controlByte notify).getLsbD 0 = notify
  cases notify <;> rfl

/-- A control byte with no bit but NOTIFY is the one of its NOTIFY (R199). -/
theorem controlByte_notifyOf {body : List Byte} (h : controlOk body = true) : controlByte (notifyOf body) = byteAt body 1 := by
  have hflag : notifyOf body = decide (byteAt body 1 = 1) := getLsbD_zero_of_flag (of_decide_eq_true h)
  have hle : (byteAt body 1).toNat ≤ 1 := of_decide_eq_true h
  rw [hflag, controlByte]
  split
  · rename_i hone
    exact (of_decide_eq_true hone).symm
  · rename_i hone
    refine BitVec.eq_of_toNat_eq ?_
    have hne : (byteAt body 1).toNat ≠ 1 := fun heq => hone (decide_eq_true (BitVec.eq_of_toNat_eq heq))
    show 0 = _
    omega

theorem functionOf_oneByte (fn : BitVec 4) : functionOk (oneByte fn.toNat) = true ∧ functionOf (oneByte fn.toNat) = fn := by
  have hlt := fn.isLt
  rw [functionOk, functionOf, oneByte_toNat (by omega)]
  exact ⟨decide_eq_true (by omega), (BitVec.ofNat_toNat 4 fn).trans (BitVec.setWidth_eq fn)⟩

theorem oneByte_functionOf {b : Byte} (h : functionOk b = true) : oneByte (functionOf b).toNat = b := by
  have hle : b.toNat ≤ 15 := of_decide_eq_true h
  rw [functionOf, BitVec.toNat_ofNat, Nat.mod_eq_of_lt (by omega), oneByte_of_toNat]

theorem drop_function {body : List Byte} {i : Nat} (hi : i < body.length) (h : functionOk (byteAt body i) = true) :
    body.drop i = oneByte (functionOf (byteAt body i)).toNat :: body.drop (i + 1) := by
  rw [oneByte_functionOf h, drop_byteAt hi]

/-- A FILL's source names a tile of the tile store, or none (R78, R79). -/
def FillSource.inRange : FillSource → Prop
  | .solid _ => True
  | .tile n => n < 8

theorem fillSourceOf_byte {source : FillSource} (h : source.inRange) : fillSourceOf source.byte = some source := by
  cases source with
  | solid v => cases v <;> rfl
  | tile n =>
    have hn : n < 8 := h
    rw [fillSourceOf, FillSource.byte, oneByte_toNat (by omega), if_neg (by omega), if_neg (by omega), if_pos (by omega), Nat.add_sub_cancel_left]

theorem byte_fillSourceOf {b : Byte} {source : FillSource} (h : fillSourceOf b = some source) : source.inRange ∧ source.byte = b := by
  unfold fillSourceOf at h
  split at h
  · cases h
    exact ⟨trivial, BitVec.eq_of_toNat_eq (Eq.symm ‹_›)⟩
  · split at h
    · cases h
      exact ⟨trivial, BitVec.eq_of_toNat_eq (Eq.symm ‹_›)⟩
    · split at h
      · rename_i hrange
        cases h
        refine ⟨show b.toNat - 8 < 8 by omega, ?_⟩
        rw [FillSource.byte, Nat.add_sub_cancel' hrange.1, oneByte_of_toNat]
      · cases h

/-! ## Ranges -/

theorem Operation.inRange_fill {x y w h : Nat} {fn : BitVec 4} {source : FillSource} : (Operation.fill x y w h fn source).inRange = true ↔
    (positionOk x y && sizeOk w h) = true ∧ source.inRange := by
  cases source <;> simp [Operation.inRange, positionOk, sizeOk, FillSource.inRange, and_assoc]

theorem Operation.inRange_putBits {x y w rows : Nat} {fn : BitVec 4} : (Operation.putBits x y w rows fn).inRange = true ↔
    (positionOk x y && putSizeOk w rows) = true := by
  simp only [Operation.inRange, positionOk, putSizeOk, Bool.and_eq_true, decide_eq_true_eq, and_assoc]
  rfl

theorem Operation.inRange_copy {sx sy dx dy w h : Nat} {fn : BitVec 4} : (Operation.copy sx sy dx dy w h fn).inRange = true ↔
    (positionOk sx sy && positionOk dx dy && sizeOk w h) = true := by
  simp [Operation.inRange, positionOk, sizeOk, and_assoc]

/-! ## Frames that name a page and a band -/

theorem Operation.namesPage_of_namesBand {op : Operation} (h : op.namesBand = true) : op.namesPage = true := by
  cases op with
  | fill | putBits | copy | closeBand | sumBand => rfl
  | loadTile | leavePage | mark => cases h

/-- The frame of an operation on band `band` of the page with tag `page` (R200). -/
def Operation.onBand (op : Operation) (tag : Byte) (notify : Bool) (page band : Byte) (payload : List Word) : QueuedFrame :=
  { op := op, commandTag := tag, notify := notify, pageTag := some page, band := some band.toNat, payload := payload }

section onBand

variable {op : Operation} {tag page band : Byte} {notify : Bool} {payload : List Word}

theorem Operation.onBand_body : (op.onBand tag notify page band payload).body =
    tag :: controlByte notify :: page :: band :: (op.operandBytes ++ payloadBytes payload) := by
  show tag :: controlByte notify :: page :: oneByte band.toNat :: _ = _
  rw [oneByte_of_toNat]
  rfl

theorem Operation.onBand_wellFormed (hop : op.namesBand = true) : (op.onBand tag notify page band payload).wellFormed = true ↔
    op.inRange = true ∧ payload.length = op.payloadLength := by
  have hpage := Operation.namesPage_of_namesBand hop
  have hband : band.toNat < 256 := band.isLt
  show (op.inRange && decide (payload.length = op.payloadLength) && decide (true = op.namesPage) && decide (true = op.namesBand) &&
    decide (band.toNat < 256)) = true ↔ _
  simp only [hop, hpage, hband, Bool.and_eq_true, decide_eq_true_eq, and_true]

/-- A well formed frame of an operation that names a band is such a frame (R114). -/
theorem QueuedFrame.eq_onBand {q : QueuedFrame} (hq : q.wellFormed = true) (hop : q.op.namesBand = true) :
    ∃ page band, q = q.op.onBand q.commandTag q.notify page band q.payload := by
  have hpage := Operation.namesPage_of_namesBand hop
  obtain ⟨op, tag, notify, pageTag, band, payload⟩ := q
  dsimp only at hop hpage ⊢
  simp only [QueuedFrame.wellFormed, hop, hpage, Bool.and_eq_true, decide_eq_true_eq] at hq
  obtain ⟨⟨⟨-, hsomePage⟩, hsomeBand⟩, hlt⟩ := hq
  obtain ⟨page, rfl⟩ := Option.isSome_iff_exists.1 hsomePage
  obtain ⟨b, rfl⟩ := Option.isSome_iff_exists.1 hsomeBand
  have hb : b < 256 := of_decide_eq_true hlt
  exact ⟨page, oneByte b, by rw [Operation.onBand, oneByte_toNat hb]⟩

theorem Operation.onBand_drop : (op.onBand tag notify page band payload).body.drop 4 = op.operandBytes ++ payloadBytes payload := by
  rw [Operation.onBand_body]
  rfl

theorem Operation.onBand_controlOk : controlOk (op.onBand tag notify page band payload).body = true := by
  rw [Operation.onBand_body, controlOk_controlByte]

/-- What a parser makes of a frame laid out so. -/
theorem bandFrame_onBand : bandFrame op (op.onBand tag notify page band payload).body payload = op.onBand tag notify page band payload := by
  rw [bandFrame, Operation.onBand_body, notifyOf_controlByte]
  rfl

end onBand

/-! ## What each parser takes -/

theorem parseFill_iff {body : List Byte} {q : QueuedFrame} : parseFill body = some q ↔ ∃ source, fillSourceOf (byteAt body 11) = some source ∧
    controlOk body = true ∧ (positionOk (wordAt body 4) (byteAt body 6).toNat && sizeOk (wordAt body 7) (byteAt body 9).toNat) = true ∧
    functionOk (byteAt body 10) = true ∧ bandFrame (.fill (wordAt body 4) (byteAt body 6).toNat (wordAt body 7) (byteAt body 9).toNat
      (functionOf (byteAt body 10)) source) body [] = q := by
  unfold parseFill
  cases fillSourceOf (byteAt body 11) with
  | none => simp
  | some source => simp [and_assoc]

theorem parsePutBits_iff {body : List Byte} {q : QueuedFrame} : parsePutBits body = some q ↔
    controlOk body = true ∧ (positionOk (wordAt body 4) (byteAt body 6).toNat && putSizeOk (wordAt body 7) (byteAt body 9).toNat) = true ∧
    functionOk (byteAt body 10) = true ∧ bandFrame (.putBits (wordAt body 4) (byteAt body 6).toNat (wordAt body 7) (byteAt body 9).toNat
      (functionOf (byteAt body 10))) body (wordsOf (body.drop 11)) = q := by
  simp [parsePutBits, and_assoc]

theorem parseCopy_iff {body : List Byte} {q : QueuedFrame} : parseCopy body = some q ↔
    controlOk body = true ∧ (positionOk (wordAt body 4) (byteAt body 6).toNat && positionOk (wordAt body 7) (byteAt body 9).toNat &&
      sizeOk (wordAt body 10) (byteAt body 12).toNat) = true ∧
    functionOk (byteAt body 13) = true ∧ bandFrame (.copy (wordAt body 4) (byteAt body 6).toNat (wordAt body 7) (byteAt body 9).toNat
      (wordAt body 10) (byteAt body 12).toNat (functionOf (byteAt body 13))) body [] = q := by
  simp [parseCopy, and_assoc]

/-- A PUT BITS frame's length, by its w and rows as received (R188, R200). -/
theorem frameLength_putBits (body : List Byte) : frameLength 0x82 body =
    if body.length < 11 then some 12 else some (12 + 2 * ((byteAt body 9).toNat * rowWordsOf (wordAt body 7))) := rfl

/-! ## A frame spelt is read -/

/-- The frame is read from its bytes whole, at the length R200 gives. -/
def QueuedFrame.ReadBack (q : QueuedFrame) : Prop :=
  parseQueued q.op.code q.body = some q ∧ frameLength q.op.code q.body = some (q.body.length + 1)

section readBack

variable (tag page band : Byte) (notify : Bool)

theorem readBack_fill {x y w h : Nat} {fn : BitVec 4} {source : FillSource} (hr : (Operation.fill x y w h fn source).inRange = true) :
    ((Operation.fill x y w h fn source).onBand tag notify page band []).ReadBack := by
  obtain ⟨hok, hsource⟩ := Operation.inRange_fill.1 hr
  obtain ⟨hfnOk, hfn⟩ := functionOf_oneByte fn
  have hrange := hok
  simp only [positionOk, sizeOk, Bool.and_eq_true, decide_eq_true_eq] at hrange
  have h4 : ((Operation.fill x y w h fn source).onBand tag notify page band []).body.drop 4 =
      twoBytes x ++ oneByte y :: (twoBytes w ++ [oneByte h, oneByte fn.toNat, source.byte]) := Operation.onBand_drop
  obtain ⟨hx, h6⟩ := wordAt_of_drop h4 (by omega)
  obtain ⟨hy, h7⟩ := oneByteAt_of_drop h6 (by omega)
  obtain ⟨hw, h9⟩ := wordAt_of_drop h7 (by omega)
  obtain ⟨hh, h10⟩ := oneByteAt_of_drop h9 (by omega)
  obtain ⟨hf, h11⟩ := byteAt_of_drop h10
  obtain ⟨hs, -⟩ := byteAt_of_drop h11
  refine ⟨parseFill_iff.2 ⟨source, by rw [hs, fillSourceOf_byte hsource], Operation.onBand_controlOk, ?_, by rw [hf, hfnOk], ?_⟩, rfl⟩
  · rw [hx, hy, hw, hh, hok]
  · rw [hx, hy, hw, hh, hf, hfn, bandFrame_onBand]

theorem readBack_putBits {x y w rows : Nat} {fn : BitVec 4} {payload : List Word} (hr : (Operation.putBits x y w rows fn).inRange = true)
    (hlen : payload.length = rows * ((w + 15) / 16)) : ((Operation.putBits x y w rows fn).onBand tag notify page band payload).ReadBack := by
  have hok := Operation.inRange_putBits.1 hr
  obtain ⟨hfnOk, hfn⟩ := functionOf_oneByte fn
  have hrange := hok
  simp only [positionOk, putSizeOk, Bool.and_eq_true, decide_eq_true_eq] at hrange
  have h4 : ((Operation.putBits x y w rows fn).onBand tag notify page band payload).body.drop 4 =
      twoBytes x ++ oneByte y :: (twoBytes w ++ oneByte rows :: oneByte fn.toNat :: payloadBytes payload) := Operation.onBand_drop
  have hbody : ((Operation.putBits x y w rows fn).onBand tag notify page band payload).body.length = 11 + 2 * (rows * ((w + 15) / 16)) := by
    rw [← hlen, ← payloadBytes_length, Operation.onBand_body, Nat.add_comm]
    rfl
  obtain ⟨hx, h6⟩ := wordAt_of_drop h4 (by omega)
  obtain ⟨hy, h7⟩ := oneByteAt_of_drop h6 (by omega)
  obtain ⟨hw, h9⟩ := wordAt_of_drop h7 (by omega)
  obtain ⟨hrows, h10⟩ := oneByteAt_of_drop h9 (by omega)
  obtain ⟨hf, h11⟩ := byteAt_of_drop h10
  refine ⟨parsePutBits_iff.2 ⟨Operation.onBand_controlOk, ?_, by rw [hf, hfnOk], ?_⟩, ?_⟩
  · rw [hx, hy, hw, hrows, hok]
  · rw [hx, hy, hw, hrows, hf, hfn, h11, wordsOf_payloadBytes, bandFrame_onBand]
  · show frameLength 0x82 _ = _
    rw [frameLength_putBits, hbody, hw, hrows, if_neg (by omega), rowWordsOf]
    congr 1
    omega

theorem readBack_copy {sx sy dx dy w h : Nat} {fn : BitVec 4} (hr : (Operation.copy sx sy dx dy w h fn).inRange = true) :
    ((Operation.copy sx sy dx dy w h fn).onBand tag notify page band []).ReadBack := by
  have hok := Operation.inRange_copy.1 hr
  obtain ⟨hfnOk, hfn⟩ := functionOf_oneByte fn
  have hrange := hok
  simp only [positionOk, sizeOk, Bool.and_eq_true, decide_eq_true_eq] at hrange
  have h4 : ((Operation.copy sx sy dx dy w h fn).onBand tag notify page band []).body.drop 4 =
      twoBytes sx ++ oneByte sy :: (twoBytes dx ++ oneByte dy :: (twoBytes w ++ [oneByte h, oneByte fn.toNat])) := Operation.onBand_drop
  obtain ⟨hsx, h6⟩ := wordAt_of_drop h4 (by omega)
  obtain ⟨hsy, h7⟩ := oneByteAt_of_drop h6 (by omega)
  obtain ⟨hdx, h9⟩ := wordAt_of_drop h7 (by omega)
  obtain ⟨hdy, h10⟩ := oneByteAt_of_drop h9 (by omega)
  obtain ⟨hw, h12⟩ := wordAt_of_drop h10 (by omega)
  obtain ⟨hh, h13⟩ := oneByteAt_of_drop h12 (by omega)
  obtain ⟨hf, -⟩ := byteAt_of_drop h13
  refine ⟨parseCopy_iff.2 ⟨Operation.onBand_controlOk, ?_, by rw [hf, hfnOk], ?_⟩, rfl⟩
  · rw [hsx, hsy, hdx, hdy, hw, hh, hok]
  · rw [hsx, hsy, hdx, hdy, hw, hh, hf, hfn, bandFrame_onBand]

theorem readBack_loadTile {n : Nat} {payload : List Word} (hn : n < 8) (hlen : payload.length = 16) :
    ({ op := .loadTile n, commandTag := tag, notify := notify, pageTag := none, band := none, payload := payload } : QueuedFrame).ReadBack := by
  have hbody : ({ op := .loadTile n, commandTag := tag, notify := notify, pageTag := none, band := none, payload := payload } : QueuedFrame).body =
      tag :: controlByte notify :: oneByte n :: payloadBytes payload := rfl
  have hbyte : (oneByte n).toNat = n := oneByte_toNat (by omega)
  unfold QueuedFrame.ReadBack
  rw [hbody]
  refine ⟨?_, ?_⟩
  · have hok : (controlOk (tag :: controlByte notify :: oneByte n :: payloadBytes payload) && decide ((oneByte n).toNat < 8)) = true := by
      rw [controlOk_controlByte, hbyte]
      exact decide_eq_true hn
    show parseLoadTile _ = _
    refine (if_pos hok).trans ?_
    rw [notifyOf_controlByte]
    show some (QueuedFrame.mk (.loadTile (oneByte n).toNat) tag notify none none (wordsOf (payloadBytes payload))) = _
    rw [hbyte, wordsOf_payloadBytes]
  · show some 36 = some ((payloadBytes payload).length + 3 + 1)
    rw [payloadBytes_length, hlen]

theorem readBack_leavePage :
    ({ op := .leavePage, commandTag := tag, notify := notify, pageTag := some page, band := none, payload := [] } : QueuedFrame).ReadBack := by
  refine ⟨(if_pos (controlOk_controlByte tag notify [page])).trans ?_, rfl⟩
  show some (QueuedFrame.mk .leavePage tag (notifyOf (tag :: controlByte notify :: [page])) (some page) none []) = _
  rw [notifyOf_controlByte]

theorem readBack_mark {v : Word} :
    ({ op := .mark v, commandTag := tag, notify := notify, pageTag := none, band := none, payload := [] } : QueuedFrame).ReadBack := by
  refine ⟨(if_pos (controlOk_controlByte tag notify (twoBytes v.toNat))).trans ?_, rfl⟩
  show some (QueuedFrame.mk (.mark (BitVec.ofNat 8 (v.toNat / 256) ++ BitVec.ofNat 8 v.toNat)) tag
    (notifyOf (tag :: controlByte notify :: twoBytes v.toNat)) none none []) = _
  rw [append_twoBytes, notifyOf_controlByte]

end readBack

/-- A well formed frame of an operation that names no band has none, and names a page or not as its operation does (R114). -/
theorem QueuedFrame.fields_of_no_band {q : QueuedFrame} (hq : q.wellFormed = true) (hop : q.op.namesBand = false) :
    q.op.inRange = true ∧ q.payload.length = q.op.payloadLength ∧ q.pageTag.isSome = q.op.namesPage ∧ q.band = none := by
  simp only [QueuedFrame.wellFormed, hop, Bool.and_eq_true, decide_eq_true_eq] at hq
  obtain ⟨⟨⟨⟨hrange, hlen⟩, hpage⟩, hband⟩, -⟩ := hq
  exact ⟨hrange, hlen, hpage, Option.not_isSome_iff_eq_none.1 (by rw [hband]; exact Bool.false_ne_true)⟩

/-- Every frame that R200 can spell with operands in range is read back (R92, R95, R97, R98, R200). -/
theorem QueuedFrame.readBack_of_wellFormed {q : QueuedFrame} (hq : q.wellFormed = true) : q.ReadBack := by
  by_cases hband : q.op.namesBand = true
  · obtain ⟨page, band, hform⟩ := QueuedFrame.eq_onBand hq hband
    rw [hform, Operation.onBand_wellFormed hband] at hq
    obtain ⟨hrange, hlen⟩ := hq
    rw [hform]
    revert hband hrange hlen
    generalize q.payload = payload
    cases q.op with
    | fill => exact fun _ hrange hlen => List.length_eq_zero_iff.1 hlen ▸ readBack_fill _ _ _ _ hrange
    | putBits => exact fun _ hrange hlen => readBack_putBits _ _ _ _ hrange hlen
    | copy => exact fun _ hrange hlen => List.length_eq_zero_iff.1 hlen ▸ readBack_copy _ _ _ _ hrange
    | closeBand | sumBand =>
      intro _ _ hlen
      cases List.length_eq_zero_iff.1 hlen
      exact ⟨(if_pos Operation.onBand_controlOk).trans (congrArg some bandFrame_onBand), rfl⟩
    | loadTile | leavePage | mark => exact fun h => absurd h Bool.false_ne_true
  · obtain ⟨hrange, hlen, hpage, hnone⟩ := QueuedFrame.fields_of_no_band hq (Bool.eq_false_iff.2 hband)
    obtain ⟨op, tag, notify, pageTag, band, payload⟩ := q
    cases hnone
    cases op with
    | loadTile n =>
      cases pageTag with
      | none => exact readBack_loadTile _ _ (of_decide_eq_true hrange) hlen
      | some => cases hpage
    | leavePage =>
      cases List.length_eq_zero_iff.1 hlen
      cases pageTag with
      | none => cases hpage
      | some page => exact readBack_leavePage _ _ _
    | mark v =>
      cases List.length_eq_zero_iff.1 hlen
      cases pageTag with
      | none => exact readBack_mark _ _
      | some => cases hpage
    | fill | putBits | copy | closeBand | sumBand => exact absurd rfl hband

/-! ## A frame that is read is so spelt -/

/-- The body is what R200 lays out for the frame, whose operands are in range. -/
def QueuedFrame.SpeltBy (q : QueuedFrame) (code : Byte) (body : List Byte) : Prop := q.wellFormed = true ∧ q.op.code = code ∧ q.body = body

section speltBy

variable {body : List Byte} {q : QueuedFrame}

/-- A frame on a band is spelt by its body if its operands and its payload are what stands behind the band byte. -/
theorem bandFrame_speltBy {op : Operation} {payload : List Word} (hop : op.namesBand = true) (hlen : 4 ≤ body.length) (hcontrol : controlOk body = true)
    (hrange : op.inRange = true) (hpayload : payload.length = op.payloadLength) (hrest : body.drop 4 = op.operandBytes ++ payloadBytes payload) :
    (bandFrame op body payload).SpeltBy op.code body := by
  refine ⟨(Operation.onBand_wellFormed hop).2 ⟨hrange, hpayload⟩, rfl, ?_⟩
  calc (op.onBand (byteAt body 0) (notifyOf body) (byteAt body 2) (byteAt body 3) payload).body
    _ = byteAt body 0 :: byteAt body 1 :: byteAt body 2 :: byteAt body 3 :: body.drop 4 := by
      rw [Operation.onBand_body, controlByte_notifyOf hcontrol, hrest]
    _ = body.drop 0 := by
      rw [drop_byteAt (i := 0) (by omega), drop_byteAt (i := 1) (by omega), drop_byteAt (i := 2) (by omega), drop_byteAt (i := 3) (by omega)]
    _ = body := rfl

theorem parseFill_speltBy (hlen : body.length = 12) (h : parseFill body = some q) : q.SpeltBy 0x81 body := by
  obtain ⟨source, hsource, hcontrol, hok, hfn, rfl⟩ := parseFill_iff.1 h
  obtain ⟨hrange, hbyte⟩ := byte_fillSourceOf hsource
  refine bandFrame_speltBy rfl (by omega) hcontrol (Operation.inRange_fill.2 ⟨hok, hrange⟩) rfl ?_
  rw [drop_twoBytes (i := 4) (by omega), drop_oneByte (i := 6) (by omega), drop_twoBytes (i := 7) (by omega), drop_oneByte (i := 9) (by omega),
    drop_function (i := 10) (by omega) hfn, drop_byteAt (i := 11) (by omega), List.drop_of_length_le (i := 12) (by omega), ← hbyte]
  rfl

theorem parsePutBits_speltBy (hlen : 11 ≤ body.length) (hpayload : body.length = 11 + 2 * ((byteAt body 9).toNat * rowWordsOf (wordAt body 7)))
    (h : parsePutBits body = some q) : q.SpeltBy 0x82 body := by
  obtain ⟨hcontrol, hok, hfn, rfl⟩ := parsePutBits_iff.1 h
  obtain ⟨hbytes, hwords⟩ := payloadBytes_wordsOf (bytes := body.drop 11) (n := (byteAt body 9).toNat * rowWordsOf (wordAt body 7))
    (by rw [List.length_drop]; omega)
  refine bandFrame_speltBy rfl (by omega) hcontrol (Operation.inRange_putBits.2 hok) hwords ?_
  rw [hbytes, drop_twoBytes (i := 4) (by omega), drop_oneByte (i := 6) (by omega), drop_twoBytes (i := 7) (by omega), drop_oneByte (i := 9) (by omega),
    drop_function (i := 10) (by omega) hfn]
  rfl

theorem parseCopy_speltBy (hlen : body.length = 14) (h : parseCopy body = some q) : q.SpeltBy 0x83 body := by
  obtain ⟨hcontrol, hok, hfn, rfl⟩ := parseCopy_iff.1 h
  refine bandFrame_speltBy rfl (by omega) hcontrol (Operation.inRange_copy.2 hok) rfl ?_
  rw [drop_twoBytes (i := 4) (by omega), drop_oneByte (i := 6) (by omega), drop_twoBytes (i := 7) (by omega), drop_oneByte (i := 9) (by omega),
    drop_twoBytes (i := 10) (by omega), drop_oneByte (i := 12) (by omega), drop_function (i := 13) (by omega) hfn,
    List.drop_of_length_le (i := 14) (by omega)]
  rfl

/-- CLOSE BAND and SUM BAND have no operand behind their band. -/
theorem bandFrame_speltBy_of_no_operands {op : Operation} (hop : op = .closeBand ∨ op = .sumBand) (hlen : body.length = 4)
    (h : (if controlOk body then some (bandFrame op body []) else none) = some q) : q.SpeltBy op.code body := by
  obtain ⟨hcontrol, hq⟩ := Option.ite_none_right_eq_some.1 h
  cases hq
  have hrest : body.drop 4 = [] := List.drop_of_length_le (by omega)
  rcases hop with rfl | rfl <;> exact bandFrame_speltBy rfl hlen.ge hcontrol rfl rfl hrest

/-- The body of a frame without a band: its tag, its control byte, and what stands behind them. -/
theorem eq_byteAt_cons (hlen : 2 ≤ body.length) (hcontrol : controlOk body = true) :
    body = byteAt body 0 :: controlByte (notifyOf body) :: body.drop 2 := by
  rw [controlByte_notifyOf hcontrol, ← drop_byteAt (i := 1) (by omega), ← drop_byteAt (i := 0) (by omega)]
  rfl

theorem parseLoadTile_speltBy (hlen : body.length = 35) (h : parseLoadTile body = some q) : q.SpeltBy 0x84 body := by
  obtain ⟨hok, hq⟩ := Option.ite_none_right_eq_some.1 h
  cases hq
  obtain ⟨hcontrol, htile⟩ := Bool.and_eq_true_iff.1 hok
  obtain ⟨hbytes, hwords⟩ := payloadBytes_wordsOf (bytes := body.drop 3) (n := 16) (by rw [List.length_drop]; omega)
  refine ⟨?_, rfl, ?_⟩
  · show (decide ((byteAt body 2).toNat < 8) && decide ((wordsOf (body.drop 3)).length = 16) && true && true && true) = true
    rw [show decide ((byteAt body 2).toNat < 8) = true from htile, hwords]
    rfl
  · show byteAt body 0 :: controlByte (notifyOf body) :: oneByte (byteAt body 2).toNat :: payloadBytes (wordsOf (body.drop 3)) = body
    rw [hbytes, ← drop_oneByte (by omega)]
    exact (eq_byteAt_cons (by omega) hcontrol).symm

theorem parseLeavePage_speltBy (hlen : body.length = 3) (h : parseLeavePage body = some q) : q.SpeltBy 0x89 body := by
  obtain ⟨hcontrol, hq⟩ := Option.ite_none_right_eq_some.1 h
  cases hq
  refine ⟨rfl, rfl, ?_⟩
  have hbody := eq_byteAt_cons (by omega) hcontrol
  rw [drop_byteAt (i := 2) (by omega), List.drop_of_length_le (i := 3) (by omega)] at hbody
  exact hbody.symm

theorem parseMark_speltBy (hlen : body.length = 4) (h : parseMark body = some q) : q.SpeltBy 0x8A body := by
  obtain ⟨hcontrol, hq⟩ := Option.ite_none_right_eq_some.1 h
  cases hq
  refine ⟨rfl, rfl, ?_⟩
  have hbody := eq_byteAt_cons (by omega) hcontrol
  rw [drop_byteAt (i := 2) (by omega), drop_byteAt (i := 3) (by omega), List.drop_of_length_le (i := 4) (by omega),
    ← twoBytes_append] at hbody
  exact hbody.symm

end speltBy

/-- A frame of its command's length that is read is spelt by its bytes (R188, R199, R200). -/
theorem parseQueued_speltBy {code : Byte} {body : List Byte} {q : QueuedFrame} (hcode : code ∈ queuedCodes)
    (hlen : frameLength code body = some (body.length + 1)) (h : parseQueued code body = some q) : q.SpeltBy code body := by
  have fixed : ∀ n, some (n + 1) = some (body.length + 1) → body.length = n := fun n hn => (Nat.succ.inj (Option.some.inj hn)).symm
  simp only [queuedCodes, List.mem_cons, List.not_mem_nil, or_false] at hcode
  rcases hcode with rfl | rfl | rfl | rfl | rfl | rfl | rfl | rfl
  · exact parseFill_speltBy (fixed 12 hlen) h
  · rw [frameLength_putBits] at hlen
    split at hlen
    · have hshort := fixed 11 hlen
      omega
    · have hlength := Option.some.inj hlen
      exact parsePutBits_speltBy (by omega) (by omega) h
  · exact parseCopy_speltBy (fixed 14 hlen) h
  · exact parseLoadTile_speltBy (fixed 35 hlen) h
  · exact bandFrame_speltBy_of_no_operands (op := .closeBand) (.inl rfl) (fixed 4 hlen) h
  · exact parseLeavePage_speltBy (fixed 3 hlen) h
  · exact parseMark_speltBy (fixed 4 hlen) h
  · exact bandFrame_speltBy_of_no_operands (op := .sumBand) (.inr rfl) (fixed 4 hlen) h

/-- Settles O25, by what each parser takes and where R200 lays each field. -/
theorem queuedFramesReadBack : Obligations.QueuedFramesReadBack :=
  ⟨fun _ hq => QueuedFrame.readBack_of_wellFormed hq, fun _ _ _ hcode hlen h => parseQueued_speltBy hcode hlen h⟩

end Sys2Proof.Machine
end

