-- ==== Sys2Proof/Proofs/AcceptedFrames.lean ====
section
/-! Queued commands accepted: what a whole frame holds of its body, the entry it becomes, and the staging ring with its payload placed (R112, R114, R116 to R119,
R186, R188). -/

namespace Sys2Proof.Machine

/-! ## The bytes of a queued command's frame -/

/-- All command codes but PUT BITS's have one length, whatever is stored (R188, R200). -/
theorem frameLength_eq_of_ne_putBits {code : Byte} (h : code ≠ 0x82) (l m : List Byte) : frameLength code l = frameLength code m := by
  simp only [frameLength, h, if_false]

/-- A byte that both have is the same in a body and in its beginning. -/
theorem byteAt_of_prefix {l body : List Byte} (h : l <+: body) {i : Nat} (hi : i < l.length) : byteAt l i = byteAt body i := by
  obtain ⟨r, rfl⟩ := h
  exact (List.getD_append l r 0 i hi).symm

/-- The length of a PUT BITS is fixed by its w and rows, once they are received (R188). -/
theorem frameLength_putBits_of_prefix {l body : List Byte} (h : l <+: body) (hlen : 11 ≤ l.length) :
    frameLength 0x82 l = frameLength 0x82 body := by
  have hle := h.length_le
  rw [frameLength_putBits, frameLength_putBits, if_neg (by omega), if_neg (by omega), wordAt, wordAt,
    byteAt_of_prefix h (by omega), byteAt_of_prefix h (by omega), byteAt_of_prefix h (by omega)]

/-- Each byte of a body of its command's length is stored, where the payload has room (R186). -/
theorem storesByte_of_prefix {code : Byte} {l body : List Byte} (hlen : frameLength code body = some (body.length + 1)) (hroom : body.length ≤ 1035)
    (h : l <+: body) (hlt : l.length < body.length) : storesByte code l = true := by
  have hroom' : decide (l.length < 11 + 2 * Config.payloadWords) = true := decide_eq_true (hlt.trans_le hroom)
  have stores : ∀ n, frameLength code l = some n → l.length + 1 < n → storesByte code l = true := fun n hn hshort => by
    rw [storesByte, hn]
    exact Bool.and_eq_true_iff.2 ⟨decide_eq_true hshort, hroom'⟩
  by_cases hcode : code = 0x82
  · subst hcode
    by_cases hl : l.length < 11
    · exact stores 12 (by rw [frameLength_putBits, if_pos hl]) (Nat.succ_lt_succ hl)
    · exact stores _ ((frameLength_putBits_of_prefix h (Nat.not_lt.1 hl)).trans hlen) (Nat.succ_lt_succ hlt)
  · exact stores _ ((frameLength_eq_of_ne_putBits hcode l body).trans hlen) (Nat.succ_lt_succ hlt)

/-- A command that stores each byte of a body holds the body whole (R186). -/
theorem State.shiftBytes_stored_of_storesByte {code : Byte} (p : Port) {body : List Byte} {s : State} (hbyte : (s.port p).assembler.commandByte = some code)
    (hstores : ∀ l, l <+: body → l.length < body.length → storesByte code ((s.port p).assembler.stored ++ l) = true) :
    ((s.shiftBytes p body).port p).assembler.stored = (s.port p).assembler.stored ++ body ∧
      ((s.shiftBytes p body).port p).assembler.count = (s.port p).assembler.count + body.length := by
  induction body generalizing s with
  | nil => exact ⟨(List.append_nil _).symm, rfl⟩
  | cons b body ih =>
    have hnow : storesByte code (s.port p).assembler.stored = true := by
      simpa using hstores [] List.nil_prefix (Nat.succ_pos _)
    have hfirst : (State.shiftByte p s b).port p = _ := State.updPort_port_same _ _ _
    simp only [hbyte, hnow, if_true] at hfirst
    obtain ⟨hstored, hcount⟩ := ih (s := State.shiftByte p s b) (by rw [hfirst]) fun l hl hlt => by
      rw [hfirst]
      simpa using hstores (b :: l) (List.cons_prefix_cons.2 ⟨rfl, hl⟩) (Nat.succ_lt_succ hlt)
    rw [hfirst] at hstored hcount
    dsimp only at hcount
    refine ⟨hstored.trans (List.append_assoc _ _ _), hcount.trans ?_⟩
    rw [List.length_cons]
    omega

/-- The assembler at the end of a frame of its command's length (R186, R188). -/
theorem State.shifted_of_frameLength (s : State) (p : Port) {code : Byte} {body : List Byte} (hlen : frameLength code body = some (body.length + 1))
    (hroom : body.length ≤ 1035) :
    ((s.shifted p code body).port p).assembler.stored = body ∧ (s.shifted p code body).formOk p code 0 = true := by
  have hbegun : (((s.openFrame p).takeCommandByte p code .body []).port p).assembler =
      { FrameAssembler.empty with state := .body, commandByte := some code, outData := [] } := by cases p <;> rfl
  obtain ⟨hstored, hcount⟩ := State.shiftBytes_stored_of_storesByte (s := (s.openFrame p).takeCommandByte p code .body []) (code := code) p (body := body)
    (by rw [hbegun]) fun l hl hlt => by
      rw [hbegun]
      exact storesByte_of_prefix hlen hroom hl hlt
  rw [hbegun] at hstored hcount
  have hstored' : ((s.shifted p code body).port p).assembler.stored = body := hstored
  have hcount' : ((s.shifted p code body).port p).assembler.count = body.length := hcount.trans (Nat.zero_add _)
  exact ⟨hstored', by simp [State.formOk, hstored', hcount', hlen]⟩

/-- A body that is read has no more bytes than a frame can hold (R81, R186). -/
theorem length_le_of_parseQueued {code : Byte} {body : List Byte} {q : QueuedFrame} (hcode : code ∈ queuedCodes)
    (hlen : frameLength code body = some (body.length + 1)) (h : parseQueued code body = some q) : body.length ≤ 1035 := by
  have fixed : ∀ n ≤ 36, some n = some (body.length + 1) → body.length ≤ 1035 := fun n hn hb => by
    have := Option.some.inj hb
    omega
  simp only [queuedCodes, List.mem_cons, List.not_mem_nil, or_false] at hcode
  rcases hcode with rfl | rfl | rfl | rfl | rfl | rfl | rfl | rfl
  case inr.inl =>
    obtain ⟨-, hranges, -⟩ := parsePutBits_iff.1 h
    have hwords : (byteAt body 9).toNat * rowWordsOf (wordAt body 7) ≤ 512 := by
      simp only [putSizeOk, Bool.and_eq_true, decide_eq_true_eq] at hranges
      exact hranges.2.2
    rw [frameLength_putBits] at hlen
    split at hlen <;> have := Option.some.inj hlen <;> omega
  all_goals exact fixed _ (by decide) hlen

/-! ## The frame -/

/-- The eight queued commands are one: their operands are read, and the acceptance of R119 answers. -/
theorem exec_queued {code : Byte} (hcode : code ∈ queuedCodes) (p : Port) (st : FrameStage) (s : State) :
    exec (commandOfCode p code st) s = .next (s.runCommand p code (fun t body => t.acceptFrame p (parseQueued code body)) st) := by
  simp only [queuedCodes, List.mem_cons, List.not_mem_nil, or_false] at hcode
  rcases hcode with rfl | rfl | rfl | rfl | rfl | rfl | rfl | rfl <;> rfl

/-- The last arm of acceptance: every check is passed (R118, R119). -/
theorem State.acceptFrame_accepted {s : State} {p : Port} {q : QueuedFrame} {page : Option PageRef} (hpage : s.pageCheck p q = .ok page)
    (hqueue : (s.port p).queue.length < 8) (hstaging : q.payload.length ≤ s.stagingFree p) :
    s.acceptFrame p (some q) = (s.appendEntry p q page, .ok) := by
  have hqueue' : ¬ Config.queueEntries ≤ (s.port p).queue.length := Nat.not_le.2 hqueue
  simp only [State.acceptFrame, hpage, hqueue', Nat.not_lt.2 hstaging, if_false]

/-- Acceptance does not look at the wires and the frame assembler of the port (R119). -/
theorem State.SameButFrame.acceptance {s t : State} {p : Port} (h : s.SameButFrame t p) (q : QueuedFrame) :
    t.pageCheck p q = s.pageCheck p q ∧ t.stagingFree p = s.stagingFree p ∧ t.stagingNext p = s.stagingNext p := by
  obtain ⟨_, _, _, _, rfl⟩ := h
  cases p <;> exact ⟨rfl, rfl, rfl⟩

/-- The entry joins the queue in the frame as it does without it, and the end of the frame leaves its marks (R118, R187). -/
theorem State.closeFrame_appendEntry_shifted (s : State) (p : Port) (code : Byte) (body : List Byte) (q : QueuedFrame) (page : Option PageRef) :
    ((s.shifted p code body).appendEntry p q page).closeFrame p .ok 0 = s.framed (s.appendEntry p q page) p .ok (List.replicate body.length 0) := by
  have hasdo := s.shifted_asdo p code body
  obtain ⟨-, -, hnext⟩ := (s.shifted_sameButFrame p code body).acceptance q
  obtain ⟨_, _, _, _, hframe⟩ := s.shifted_sameButFrame p code body
  rw [State.appendEntry, hnext, hframe]
  rw [hframe, State.updPort_port_same] at hasdo
  dsimp only at hasdo
  subst hasdo
  unfold State.closeFrame State.framed State.appendEntry
  simp only [State.updPort_updPort]
  rfl

/-- A frame that passes every check of R119 appends its entry, and leaves the frame's marks alone besides (R118). -/
theorem exec_queued_accepted {p : Port} {code : Byte} {body : List Byte} {q : QueuedFrame} {page : Option PageRef} {s : State} (hopen : s.canOpen p = true)
    (hcode : code ∈ queuedCodes) (hlen : frameLength code body = some (body.length + 1)) (hparse : parseQueued code body = some q)
    (hpage : s.pageCheck p q = .ok page) (hqueue : (s.port p).queue.length < 8) (hstaging : q.payload.length ≤ s.stagingFree p) :
    exec (commandOfCode p code (.selectHigh body 0)) s = .next (s.framed (s.appendEntry p q page) p .ok (List.replicate body.length 0)) := by
  have hframe := s.shifted_sameButFrame p code body
  obtain ⟨hpage', hfree, -⟩ := hframe.acceptance q
  obtain ⟨hstored, hform⟩ := s.shifted_of_frameLength p hlen (length_le_of_parseQueued hcode hlen hparse)
  have haccept : (s.shifted p code body).acceptFrame p (parseQueued code body) = ((s.shifted p code body).appendEntry p q page, .ok) := by
    rw [hparse]
    exact State.acceptFrame_accepted (hpage'.trans hpage) (by rwa [hframe.queue]) (by rwa [hfree])
  rw [exec_queued hcode, State.runCommand_whole _ hopen hform hstored]
  rw [haccept, s.closeFrame_appendEntry_shifted]

/-! ## The next staging word -/

/-- The newest payload of the queue is the one that has none behind it (R116). -/
theorem State.stagingNext_of_newest {s : State} {p : Port} {older newer : List Entry} {e : Entry} {n : Nat} (hqueue : (s.port p).queue = older ++ e :: newer)
    (he : 0 < e.payloadLength) (hn : e.stagingPosition = some n) (hnewer : ∀ x ∈ newer, x.payloadLength = 0) :
    s.stagingNext p = (n + e.payloadLength) % 1024 := by
  have hnone : newer.reverse.find? (fun x => decide (0 < x.payloadLength)) = none :=
    List.find?_eq_none.2 fun x hx => by simp [hnewer x (List.mem_reverse.1 hx)]
  have hfind : (s.port p).queue.reverse.find? (fun x => decide (0 < x.payloadLength)) = some e := by
    simp [hqueue, List.find?_append, hnone, he]
  rw [State.stagingNext, hfind]
  simp only [hn, Option.getD_some, Config.stagingWords]

/-- With no payload in the queue it is the execution record's after a PORT RESET, or none at all (R112, R117). -/
theorem State.stagingNext_of_no_payload {s : State} {p : Port} (hqueue : ∀ e ∈ (s.port p).queue, e.payloadLength = 0) :
    (∀ x, s.execution = some x → x.port = p → x.silent = true → 0 < x.payloadLength →
      s.stagingNext p = (x.stagingPosition + x.payloadLength) % 1024) ∧
    ((∀ x, s.execution = some x → x.port ≠ p ∨ x.silent = false ∨ x.payloadLength = 0) → s.stagingNext p = 0) := by
  have hfind : (s.port p).queue.reverse.find? (fun x => decide (0 < x.payloadLength)) = none :=
    List.find?_eq_none.2 fun x hx => by simp [hqueue x (List.mem_reverse.1 hx)]
  rw [State.stagingNext, hfind]
  cases s.execution with
  | none => exact ⟨fun x hx => (nomatch hx), fun _ => rfl⟩
  | some y =>
    refine ⟨fun x hx hport hsilent hpayload => ?_, fun hno => if_neg fun ⟨hport, hsilent, hpayload⟩ => ?_⟩
    · cases hx
      exact if_pos ⟨hport, hsilent, hpayload⟩
    · rcases hno y rfl with h | h | h
      · exact h hport
      · exact Bool.false_ne_true (h.symm.trans hsilent)
      · omega

/-! ## The ring with a payload placed -/

/-- A word of the ring on which no word of the payload falls reads as before (R116). -/
theorem ramRead_stagingPlace_ne {g : Config.RamRegion} {n : Nat} {a : Nat} {words : List Word} {m : WordRam} {at_ : Nat}
    (h : ∀ i, i < words.length → a ≠ (at_ + i) % 1024) : ramRead g n (stagingPlace m at_ words) a = ramRead g n m a := by
  induction words generalizing m at_ with
  | nil => rfl
  | cons w words ih =>
    rw [stagingPlace, ih fun i hi => by
      rw [Nat.add_assoc, Nat.add_comm 1 i]
      exact h (i + 1) (Nat.succ_lt_succ hi)]
    exact ramRead_ramWrite_ne (h 0 (Nat.succ_pos _))

/-- The payload's words follow each other in the ring; one that fits it does not overtake itself (R116). -/
theorem ramRead_stagingPlace_placed {g : Config.RamRegion} {n : Nat} {words : List Word} {m : WordRam} {at_ j : Nat} (hfits : words.length ≤ 1024)
    (hj : j < words.length) : ramRead g n (stagingPlace m at_ words) ((at_ + j) % 1024) = words.getD j 0 := by
  induction words generalizing m at_ j with
  | nil => exact absurd hj (Nat.not_lt_zero j)
  | cons w words ih =>
    rw [List.length_cons] at hfits hj
    rw [stagingPlace]
    cases j with
    | zero =>
      rw [ramRead_stagingPlace_ne fun i hi => by omega]
      exact ramRead_ramWrite_same ..
    | succ j =>
      rw [show at_ + (j + 1) = at_ + 1 + j by omega, ih (by omega) (by omega)]
      exact List.getD_cons_succ.symm

/-- A staging word of the port whose ring was changed. -/
theorem State.stagingWord_updPort_staging (s : State) (p : Port) (f : WordRam → WordRam) (k : Nat) :
    (s.updPort p fun ps => { ps with staging := f ps.staging }).stagingWord p k =
      ramRead (stagingRegion p) s.ramEpoch (f (s.port p).staging) (k % 1024) := by
  rw [State.stagingWord, State.updPort_port_same]
  rfl

/-- Settles O22: the acceptance of R119 on the body that the frame holds; the newest payload held; the ring with the payload placed. -/
theorem acceptedFrameAppendsItsEntry : Obligations.AcceptedFrameAppendsItsEntry := by
  refine ⟨fun p code body q page s hopen hcode hlen hparse hpage hqueue hstaging => ?_, fun p s => ⟨fun older e newer n => ?_, ?_⟩,
    fun s p at_ words hfits => ⟨fun j hj => ?_, fun j hj hring => ?_⟩⟩
  · exact exec_queued_accepted hopen hcode hlen hparse hpage hqueue hstaging
  · exact State.stagingNext_of_newest
  · exact State.stagingNext_of_no_payload
  · rw [State.stagingWord_updPort_staging s p (stagingPlace · at_ words)]
    exact ramRead_stagingPlace_placed hfits hj
  · rw [State.stagingWord_updPort_staging s p (stagingPlace · at_ words)]
    exact ramRead_stagingPlace_ne fun i hi => by omega

end Sys2Proof.Machine
end

