-- ==== Sys2Proof/Proofs/QueueLaw.lean ====
section
/-! SUPPORT. The law of one command queue, with what the execution record holds of its port (R113, R115, R116): what keeps it, and what begins and ends a
command under it. -/

namespace Sys2Proof.Machine

/-! ## What the law reads -/

/-- What the execution record holds for port `p`: whether a PORT RESET has taken the entry, and the length of the payload (R86, R112). -/
def ExecRecord.heldFor (x : ExecRecord) (p : Port) : Option (Bool × Nat) := if x.port = p then some (x.silent, x.payloadLength) else none

/-- What the Raster Unit runs for port `p`. -/
def State.running (s : State) (p : Port) : Option (Bool × Nat) := s.execution.bind fun x => x.heldFor p

/-- The payload words that such a command holds besides its queue's (R112). -/
def detachedWords : Option (Bool × Nat) → Nat
  | some (true, n) => n
  | _ => 0

/-- The law of one command queue (R113, R115), where the Raster Unit runs `c` for its port. -/
structure QueueLaw (l : List Entry) (c : Option (Bool × Nat)) : Prop where
  entries : l.length ≤ 8
  behind : ∀ e ∈ l.tail, e.life = .queued
  executing : ∀ n, c = some (false, n) → ∃ e ∈ l.head?, e.life = .executing ∧ n = e.payloadLength
  free : (∀ n, c ≠ some (false, n)) → ∀ e ∈ l.head?, e.life ≠ .executing
  room : (l.map Entry.payloadLength).sum + detachedWords c ≤ 1024

theorem State.running_of_no_execution {s : State} (h : s.execution = none) (p : Port) : s.running p = none := by rw [State.running, h]; rfl

theorem State.running_of_execution {s : State} {x : ExecRecord} (h : s.execution = some x) (p : Port) : s.running p = x.heldFor p := by
  rw [State.running, h]
  rfl

@[simp] theorem ExecRecord.heldFor_port (x : ExecRecord) : x.heldFor x.port = some (x.silent, x.payloadLength) := if_pos rfl

theorem ExecRecord.heldFor_of_ne {x : ExecRecord} {p : Port} (h : x.port ≠ p) : x.heldFor p = none := if_neg h

theorem State.detachedPayload_eq (s : State) (p : Port) : s.detachedPayload p = detachedWords (s.running p) := by
  unfold State.detachedPayload
  cases hx : s.execution with
  | none => rw [State.running_of_no_execution hx]; rfl
  | some x =>
    rw [State.running_of_execution hx]
    by_cases hp : x.port = p
    · subst hp
      cases hs : x.silent <;> simp [detachedWords, hs]
    · simp [ExecRecord.heldFor_of_ne hp, hp, detachedWords]

theorem State.executesFor_iff (s : State) (p : Port) : s.executesFor p = true ↔ ∃ n, s.running p = some (false, n) := by
  unfold State.executesFor
  cases hx : s.execution with
  | none => simp [State.running_of_no_execution hx]
  | some x =>
    rw [State.running_of_execution hx]
    by_cases hp : x.port = p
    · subst hp
      simp
    · simp [ExecRecord.heldFor_of_ne hp, hp]

theorem State.headExecuting_iff (s : State) (p : Port) : s.headExecuting p = true ↔ ∃ e ∈ s.headEntry p, e.life = .executing := by
  unfold State.headExecuting
  cases s.headEntry p <;> simp

theorem State.payloadAgrees_iff (s : State) (p : Port) :
    s.payloadAgrees p = true ↔ ∀ n, s.running p = some (false, n) → ∀ e ∈ s.headEntry p, n = e.payloadLength := by
  unfold State.payloadAgrees
  cases hx : s.execution with
  | none => simp [State.running_of_no_execution hx]
  | some x =>
    rw [State.running_of_execution hx]
    cases s.headEntry p with
    | none => simp
    | some e =>
      by_cases hp : x.port = p
      · subst hp
        cases hs : x.silent <;> simp [hs]
      · simp [ExecRecord.heldFor_of_ne hp, hp]

theorem State.commandLaw_iff (s : State) (p : Port) : s.commandLaw p ↔ QueueLaw (s.port p).queue (s.running p) := by
  unfold State.commandLaw State.payloadHeld
  rw [State.detachedPayload_eq, State.payloadAgrees_iff, Bool.eq_iff_iff, State.headExecuting_iff, State.executesFor_iff]
  constructor
  · rintro ⟨hlen, hbehind, hexec, hpayload, hroom⟩
    refine ⟨hlen, hbehind, fun n hn => ?_, fun hno e he hlife => ?_, hroom⟩
    · obtain ⟨e, he, hlife⟩ := hexec.2 ⟨n, hn⟩
      exact ⟨e, he, hlife, hpayload n hn e he⟩
    · obtain ⟨n, hn⟩ := hexec.1 ⟨e, he, hlife⟩
      exact hno n hn
  · rintro ⟨hlen, hbehind, hexec, hfree, hroom⟩
    refine ⟨hlen, hbehind, ⟨fun ⟨e, he, hlife⟩ => ?_, fun ⟨n, hn⟩ => ?_⟩, fun n hn e he => ?_, hroom⟩
    · by_contra hno
      exact hfree (fun n hn => hno ⟨n, hn⟩) e he hlife
    · obtain ⟨e, he, hlife, -⟩ := hexec n hn
      exact ⟨e, he, hlife⟩
    · obtain ⟨e', he', -, hn'⟩ := hexec n hn
      cases he.symm.trans he'
      exact hn'

/-! ## WAITING heads -/

/-- From one queue to another a WAITING head has left or is QUEUED again, or nothing has changed (R68, R125). -/
inductive HeadEased : List Entry → List Entry → Prop
  | same (l : List Entry) : HeadEased l l
  | leaves (e : Entry) (es : List Entry) : e.life = .waiting → HeadEased (e :: es) es
  | requeued (e : Entry) (es : List Entry) : e.life = .waiting → HeadEased (e :: es) ({ e with life := .queued } :: es)

theorem State.queueAfterAbort_eased (s : State) (r : PageRef) (z : Port) : HeadEased (s.port z).queue (s.queueAfterAbort r z) := by
  unfold State.queueAfterAbort State.waitsOn State.headEntry
  cases (s.port z).queue with
  | nil => exact .same _
  | cons e es =>
    simp only [List.head?_cons, List.tail_cons, Bool.and_eq_true, decide_eq_true_eq]
    split
    · rename_i hw
      exact .leaves e es hw.1
    · exact .same _

theorem State.queueAfterRecheck_eased (s t : State) (r : PageRef) (z : Port) : HeadEased (s.port z).queue (s.queueAfterRecheck t r z) := by
  unfold State.queueAfterRecheck
  cases (s.port z).queue with
  | nil => exact .same _
  | cons e es =>
    dsimp only
    split
    · rename_i hw
      exact .requeued e es hw.1
    · exact .same _

/-! ## What keeps the law -/

namespace QueueLaw

variable {l m : List Entry} {c : Option (Bool × Nat)} {e : Entry} {es : List Entry} {n : Nat}

theorem nil : QueueLaw [] none := ⟨by simp, by simp, by simp, by simp, by simp [detachedWords]⟩

/-- A head that does not execute leaves: the entry behind it is QUEUED (R111, R115). -/
theorem leave (h : QueueLaw (e :: es) c) (hc : ∀ n, c ≠ some (false, n)) : QueueLaw es c where
  entries := Nat.le_of_succ_le h.entries
  behind x hx := h.behind x (List.mem_of_mem_tail hx)
  executing n hn := absurd hn (hc n)
  free _ x hx := by rw [h.behind x (List.mem_of_mem_head? hx)]; decide
  room := by
    have hroom := h.room
    rw [List.map_cons, List.sum_cons] at hroom
    omega

/-- A head that does not execute changes its life state, and does not execute then (R115). -/
theorem relive (h : QueueLaw (e :: es) c) (hc : ∀ n, c ≠ some (false, n)) {life : LifeState} (hlife : life ≠ .executing) :
    QueueLaw ({ e with life := life } :: es) c where
  entries := h.entries
  behind := h.behind
  executing n hn := absurd hn (hc n)
  free _ x hx := by cases hx; exact hlife
  room := h.room

/-- A head that does not execute is the head of no running command. -/
theorem not_running (h : QueueLaw (e :: es) c) (hlife : e.life ≠ .executing) : ∀ n, c ≠ some (false, n) := fun n hn => by
  obtain ⟨x, hx, hexec, -⟩ := h.executing n hn
  cases hx
  exact hlife hexec

theorem eased (h : QueueLaw l c) (hm : HeadEased l m) : QueueLaw m c := by
  cases hm with
  | same => exact h
  | leaves e es hw => exact h.leave (h.not_running (by rw [hw]; decide))
  | requeued e es hw => exact h.relive (h.not_running (by rw [hw]; decide)) (by decide)

/-- A QUEUED entry joins the tail, where there is room (R113, R116). -/
theorem append (h : QueueLaw l c) (hlife : e.life = .queued) (hlen : l.length < 8)
    (hroom : (l.map Entry.payloadLength).sum + detachedWords c + e.payloadLength ≤ 1024) : QueueLaw (l ++ [e]) c where
  entries := by rw [List.length_append]; exact hlen
  behind x hx := by
    cases l with
    | nil => cases hx
    | cons e0 l =>
      rcases List.mem_append.1 hx with hx | hx
      · exact h.behind x hx
      · rw [List.mem_singleton.1 hx, hlife]
  executing n hn := by
    obtain ⟨x, hx, hrest⟩ := h.executing n hn
    exact ⟨x, by rw [List.head?_append, hx]; rfl, hrest⟩
  free hc x hx := by
    cases l with
    | nil => cases hx; rw [hlife]; decide
    | cons e0 l => exact h.free hc x hx
  room := by
    rw [List.map_append, List.sum_append]
    simp only [List.map_cons, List.map_nil, List.sum_cons, List.sum_nil]
    omega

/-- The queue is emptied by a PORT RESET; the payload of the running command stays with it (R107, R112). -/
theorem silenced (h : QueueLaw l c) : QueueLaw [] (c.map fun x => (true, x.2)) where
  entries := by simp
  behind := by simp
  executing n hn := by cases c <;> cases hn
  free _ := by simp
  room := by
    have hroom := h.room
    match c with
    | none => simp [detachedWords]
    | some (true, n) => simpa [detachedWords] using Nat.le_trans (Nat.le_add_left _ _) hroom
    | some (false, n) =>
      obtain ⟨e, he, -, hn⟩ := h.executing n rfl
      have hle : e.payloadLength ≤ (l.map Entry.payloadLength).sum := List.le_sum_of_mem (List.mem_map_of_mem (List.mem_of_mem_head? he))
      simp only [detachedWords, Option.map_some, List.map_nil, List.sum_nil] at hroom ⊢
      omega

/-- The head begins to execute (R86, R115). -/
theorem begins (h : QueueLaw (e :: es) none) : QueueLaw ({ e with life := .executing } :: es) (some (false, e.payloadLength)) where
  entries := h.entries
  behind := h.behind
  executing n hn := ⟨_, rfl, rfl, by cases hn; rfl⟩
  free hc := absurd rfl (hc _)
  room := h.room

/-- The running command ends, and its entry leaves, unless a PORT RESET has taken it (R111, R112). -/
theorem ended {silent : Bool} (h : QueueLaw l (some (silent, n))) : QueueLaw (if silent then l else l.tail) none := by
  cases silent with
  | true => exact ⟨h.entries, h.behind, fun n hn => (nomatch hn), fun _ => h.free (by simp), Nat.le_trans (Nat.le_add_right _ _) h.room⟩
  | false =>
    have hroom := h.room
    obtain ⟨e, he, -⟩ := h.executing n rfl
    cases l with
    | nil => cases he
    | cons e0 es =>
      refine ⟨Nat.le_of_succ_le h.entries, fun x hx => h.behind x (List.mem_of_mem_tail hx), fun n hn => (nomatch hn), fun _ x hx => ?_, ?_⟩
      · rw [h.behind x (List.mem_of_mem_head? hx)]
        decide
      · rw [List.map_cons, List.sum_cons] at hroom
        simp only [Bool.false_eq_true, if_false, List.tail_cons, detachedWords] at hroom ⊢
        omega

end QueueLaw

end Sys2Proof.Machine
end

