-- ==== Sys2Proof/Proofs/CommandQueues.lean ====
section
/-! The law of the command queues: every step keeps at most 8 entries and 1024 payload words in each, and only the head WAITING or EXECUTING
(R111, R113, R115, R116). -/

namespace Sys2Proof.Machine

theorem Port.eq_other_of_ne {z p : Port} (h : z ≠ p) : z = p.other := by
  revert h
  cases z <;> cases p <;> decide

/-! ## What leaves the queues and the execution -/

/-- From `s` to `t` neither the ports nor the execution record have changed. -/
structure State.SameCommands (s t : State) : Prop where
  ports : t.ports = s.ports
  execution : t.execution = s.execution

namespace State.SameCommands

variable {s t u : State}

theorem refl (s : State) : s.SameCommands s := ⟨rfl, rfl⟩

theorem trans (h : s.SameCommands t) (g : t.SameCommands u) : s.SameCommands u := ⟨g.ports.trans h.ports, g.execution.trans h.execution⟩

end State.SameCommands

section sameCommands

variable (s : State)

theorem State.evaluateAllocation_sameCommands : s.SameCommands s.evaluateAllocation :=
  ⟨s.evaluateAllocation_ports, s.evaluateAllocation_execution⟩

theorem State.offerIfHead_sameCommands (r : PageRef) : s.SameCommands (s.offerIfHead r) := by
  obtain ⟨_, _, _, h⟩ := s.offerIfHead_frame r
  rw [h]
  exact ⟨rfl, rfl⟩

theorem State.startBand_sameCommands {t : State} {r : PageRef} {b : Nat} (h : s.startBand r b = some t) : s.SameCommands t := by
  obtain ⟨_, _, -, -, rfl⟩ := State.startBand_some h
  exact ⟨rfl, rfl⟩

theorem State.openToReady_sameCommands (i : Nat) (force : Bool) : s.SameCommands (s.openToReady i force) := by
  rcases s.openToReady_cases i force with h | ⟨k, -, h⟩ <;> rw [h]
  · exact .refl s
  · obtain ⟨_, _, _, h⟩ := (s.setSlot i (.held .ready { k with forced := k.forced || force, forcePending := false })).readyNotice_frame k.page k.band
    rw [h]
    exact ⟨rfl, rfl⟩

theorem State.closeClaim_sameCommands (p : Port) (i : Nat) : s.SameCommands (s.closeClaim p i) := by
  unfold State.closeClaim
  split
  · rename_i st k _
    have closed : s.SameCommands (s.setSlot i (.held st { k with closedBy := k.closedBy.add p })) := ⟨rfl, rfl⟩
    dsimp only
    split
    · exact (closed.trans (State.openToReady_sameCommands _ i _)).trans (State.offerIfHead_sameCommands _ _)
    · exact closed
  · exact .refl s

theorem State.bandEnd_sameCommands (q : PageRecord) (i : Nat) : s.SameCommands (s.bandEnd q i) := by
  have allocated : ∀ t : State, s.SameCommands t → s.SameCommands t.evaluateAllocation := fun t h => h.trans t.evaluateAllocation_sameCommands
  unfold State.bandEnd
  repeat' split
  · exact allocated _ ⟨rfl, rfl⟩
  · exact ⟨rfl, rfl⟩
  · exact allocated _ ⟨rfl, rfl⟩
  · exact .refl s
  · exact .refl s

theorem State.lineCounted_sameCommands (q : PageRecord) (source : LineSource) : s.SameCommands (s.lineCounted q source) := by
  have counted : s.SameCommands (s.mapPage q.ref PageRecord.lineOn) := ⟨rfl, rfl⟩
  unfold State.lineCounted
  split
  · exact counted
  · split
    · exact counted.trans (State.bandEnd_sameCommands _ _ _)
    · exact counted

end sameCommands

/-! ## What the Raster Unit runs -/

section running

variable {s t : State} (z : Port)

theorem State.running_congr (h : t.execution = s.execution) : t.running z = s.running z := by rw [State.running, h]; rfl

/-- A record of the same command holds for a port what the other does. -/
theorem ExecRecord.SameCommand.heldFor {x y : ExecRecord} (h : x.SameCommand y) : y.heldFor z = x.heldFor z := by
  rw [h]
  rfl

/-- A stop takes nothing from the running command (R104). -/
theorem State.running_of_stoppedFor {r : PageRef} (h : t.execution = s.stoppedFor r) : t.running z = s.running z := by
  rw [State.running, h, State.stoppedFor, State.running]
  cases s.execution <;> rfl

theorem State.rasterWord_running (s : State) : s.rasterWord.running z = s.running z := by
  unfold State.rasterWord
  split
  · rfl
  · rename_i x hx
    split
    · rfl
    · have same : x.SameCommand x := rfl
      exact ((same.touched s).heldFor z).trans (State.running_of_execution hx z).symm

theorem State.rasterTick_running (s : State) : s.rasterTick.running z = s.running z := by
  rcases s.rasterTick_cases with h | ⟨x, hx, h⟩ | h <;> rw [h]
  · exact (State.running_of_execution hx z).symm
  · exact s.rasterWord_running z

/-- The words of a command change neither the ports nor what runs for them. -/
theorem State.finishWork_commands (s : State) : s.finishWork.ports = s.ports ∧ s.finishWork.running z = s.running z := by
  have words : ∀ (n : Nat) (t : State), (State.rasterWords n t).ports = t.ports ∧ (State.rasterWords n t).running z = t.running z := by
    intro n
    induction n with
    | zero => exact fun _ => ⟨rfl, rfl⟩
    | succ n ih =>
      intro t
      obtain ⟨hports, hrunning⟩ := ih t.rasterWord
      exact ⟨hports.trans (by rw [State.rasterWord_eq]), hrunning.trans (t.rasterWord_running z)⟩
  unfold State.finishWork
  split
  · exact ⟨rfl, rfl⟩
  · exact words _ s

/-- PORT RESET leaves its port's command running, silent (R107). -/
theorem State.silenced_running_same (s : State) (p : Port) : (s.silenced p).running p = (s.running p).map fun x => (true, x.2) := by
  unfold State.running State.silenced
  rw [State.updPort_execution]
  cases s.execution with
  | none => rfl
  | some x => by_cases hp : x.port = p <;> simp [ExecRecord.heldFor, hp]

theorem State.silenced_running_ne (s : State) {p z : Port} (hz : z ≠ p) : (s.silenced p).running z = s.running z := by
  unfold State.running State.silenced
  rw [State.updPort_execution]
  cases s.execution with
  | none => rfl
  | some x =>
    by_cases hp : x.port = p
    · simp [ExecRecord.heldFor, hp, Ne.symm hz]
    · simp [hp]

end running

/-! ## The law of both queues -/

/-- The law of R113 and R115 at both ports. -/
def State.QueuesLawful (s : State) : Prop := ∀ z, QueueLaw (s.port z).queue (s.running z)

theorem State.commandQueuesLawful_iff (s : State) : s.commandQueuesLawful ↔ s.QueuesLawful := by
  unfold State.commandQueuesLawful
  rw [State.commandLaw_iff, State.commandLaw_iff]
  exact ⟨fun ⟨ha, hb⟩ z => by cases z <;> assumption, fun h => ⟨h .a, h .b⟩⟩

/-- From `s` to `t` WAITING heads may have left or be QUEUED again; the Raster Unit runs what it ran (R68, R125). -/
structure State.EasesHeads (s t : State) : Prop where
  queue : ∀ z, HeadEased (s.port z).queue (t.port z).queue
  running : ∀ z, t.running z = s.running z

section eases

variable (s : State)

theorem State.blankPage_easesHeads (q : PageRecord) (cause : SpoilCause) (e : Event) : s.EasesHeads (s.blankPage q cause e) :=
  ⟨fun z => by rw [State.blankPage_port]; exact s.queueAfterAbort_eased _ z,
    fun z => State.running_of_stoppedFor z (State.blankPage_execution _ _ _ _)⟩

theorem State.abortRecord_easesHeads (q : PageRecord) : s.EasesHeads (s.abortRecord q) := by
  by_cases hprint : q.state = .printing
  · simp only [State.abortRecord, hprint]
    exact s.blankPage_easesHeads _ _ _
  · obtain ⟨u, hu, h⟩ := s.abortRecord_removes hprint
    rw [h]
    refine ⟨fun z => ?_, fun z => State.running_of_stoppedFor z ((s.afterRemoval_frame u q).2.1.trans hu.execution)⟩
    rw [State.afterRemoval_port, State.queueAfterAbort_congr (hu.queue z)]
    exact s.queueAfterAbort_eased _ z

theorem State.leaveRecord_easesHeads (q : PageRecord) (p : Port) : s.EasesHeads (s.leaveRecord q p) :=
  ⟨fun z => by rw [State.leaveRecord_port]; exact s.queueAfterRecheck_eased _ _ z, fun z => State.running_congr z (s.leaveRecord_rest q p).1⟩

theorem State.resetRecord_easesHeads (p : Port) (r : PageRef) : s.EasesHeads (State.resetRecord p s r) := by
  rcases State.resetRecord_cases p s r with ⟨h, -⟩ | ⟨q, -, -, -, -, h⟩ | ⟨q, -, -, -, h⟩
  · rw [h]
    exact ⟨fun _ => .same _, fun _ => rfl⟩
  · rw [h]
    exact s.leaveRecord_easesHeads q p
  · exact ⟨fun z => by rw [h.port]; exact s.queueAfterAbort_eased _ z, fun z => State.running_of_stoppedFor z h.execution⟩

theorem State.recheck_easesHeads (r : PageRef) : s.EasesHeads (s.recheck r) :=
  ⟨fun z => by rw [State.recheck_port]; exact s.queueAfterRecheck_eased _ _ z, fun z => State.running_congr z (by rw [State.recheck_eq])⟩

theorem State.finishPage_easesHeads (r : PageRef) : s.EasesHeads (s.finishPage r) := by
  refine ⟨fun z => by rw [State.finishPage_port]; exact s.queueAfterRecheck_eased _ _ z, fun z => State.running_congr z ?_⟩
  rw [State.finishPage_eq, State.recheck_eq]
  exact State.evaluateOffer_execution _ _

end eases

namespace State.QueuesLawful

variable {s t : State} (h : s.QueuesLawful)
include h

theorem congr (hq : ∀ z, (t.port z).queue = (s.port z).queue) (hx : t.execution = s.execution) : t.QueuesLawful := fun z => by
  rw [hq, State.running_congr z hx]
  exact h z

theorem same (ht : s.SameCommands t) : t.QueuesLawful := h.congr (fun z => by rw [State.port, ht.ports]; rfl) ht.execution

theorem eases (ht : s.EasesHeads t) : t.QueuesLawful := fun z => by
  rw [ht.running]
  exact (h z).eased (ht.queue z)

/-- The command queue of port `p` alone changes. -/
theorem updQueue {p : Port} {f : PortState → PortState} (hp : QueueLaw (f (s.port p)).queue (s.running p)) : (s.updPort p f).QueuesLawful := fun z => by
  rw [State.running_congr z (State.updPort_execution s p f)]
  by_cases hz : z = p
  · subst hz
    rwa [State.updPort_port_same]
  · rw [State.updPort_port_ne _ _ _ _ hz]
    exact h z

theorem updPort (p : Port) {f : PortState → PortState} (hf : LeavesCommands f) : (s.updPort p f).QueuesLawful :=
  h.updQueue (by rw [(hf _).1]; exact h p)

theorem postAll (ps : PortSet) (e : Event) : (s.postAll ps e).QueuesLawful := h.congr (s.postAll_queue ps e) (s.postAll_execution ps e)

/-! ## Frames and pages -/

/-- A frame that passes the checks of R119 finds room for its entry and its payload (R113, R116). -/
theorem acceptFrame (p : Port) (parsed : Option QueuedFrame) : (s.acceptFrame p parsed).1.QueuesLawful := by
  unfold State.acceptFrame
  split
  · exact h
  · rename_i q
    split
    · exact h
    · split
      · exact h
      · split
        · exact h
        · rename_i page _ hlen hfree
          refine h.updQueue ((h p).append rfl (Nat.lt_of_not_le hlen) ?_)
          have hroom := (h p).room
          have hfree' : q.payload.length ≤ 1024 - (((s.port p).queue.map Entry.payloadLength).sum + s.detachedPayload p) := Nat.le_of_not_lt hfree
          rw [State.detachedPayload_eq] at hfree'
          show _ + _ + q.payload.length ≤ 1024
          omega

theorem appendPage (p : Port) (o : PageOperands) : (s.appendPage p o).QueuesLawful := by
  have joined : s.SameCommands { s with pages := s.pages ++ [o.record p s.nextInstance], nextInstance := s.nextInstance + 1 } := ⟨rfl, rfl⟩
  exact h.same ((joined.trans (State.evaluateAllocation_sameCommands _)).trans (State.offerIfHead_sameCommands _ _))

/-- PORT RESET empties its port's queue; the running command goes on silent (R107, R112). -/
theorem silenced (p : Port) : (s.silenced p).QueuesLawful := fun z => by
  by_cases hz : z = p
  · subst hz
    rw [s.silenced_running_same, State.silenced, State.updPort_port_same]
    exact (h z).silenced
  · rw [s.silenced_running_ne hz, State.silenced, State.updPort_port_ne _ _ _ _ hz]
    exact h z

theorem resetPort (p : Port) : (s.resetPort p).QueuesLawful :=
  State.resetPort_induct s (h.silenced p) (fun t r ht => ht.eases (t.resetRecord_easesHeads p r)) fun _ ht => ht.same ⟨rfl, rfl⟩

/-! ## The Raster Unit's choice -/

section grant

variable {p : Port} {e : Entry} (hfree : s.execution = none) (he : s.headEntry p = some e)
include hfree he

theorem cons_of_headEntry : ∃ es, (s.port p).queue = e :: es ∧ QueueLaw (e :: es) none := by
  obtain ⟨es, hes⟩ := List.head?_eq_some_iff.1 he
  have hp := h p
  rw [hes, State.running_of_no_execution hfree] at hp
  exact ⟨es, hes, hp⟩

omit he in
/-- An entry whose grant completes leaves its queue (R111). -/
theorem finishEntry (v : Option Event) : (s.finishEntry p v).QueuesLawful := fun z => by
  have hexec : (s.finishEntry p v).execution = none := by rw [State.finishEntry_eq]; exact hfree
  have hz := h z
  rw [State.running_of_no_execution hfree] at hz
  rw [State.running_of_no_execution hexec]
  by_cases hzp : z = p
  · subst hzp
    rw [State.finishEntry_port]
    dsimp only
    cases hq : (s.port z).queue with
    | nil => exact .nil
    | cons x xs => exact (hq ▸ hz).leave (by simp)
  · obtain rfl := Port.eq_other_of_ne hzp
    rw [State.finishEntry_port_other]
    exact hz

theorem waits : (s.setHeadLife p .waiting).QueuesLawful := by
  obtain ⟨es, hq, hlaw⟩ := h.cons_of_headEntry hfree he
  refine h.updQueue ?_
  rw [State.running_of_no_execution hfree, hq]
  exact hlaw.relive (by simp) (by decide)

theorem startExecution (slot : Option Nat) (clip : Option Clip) (rows rowWords line : Nat) :
    (s.startExecution p e slot clip rows rowWords line).QueuesLawful := fun z => by
  obtain ⟨es, hq, hlaw⟩ := h.cons_of_headEntry hfree he
  show QueueLaw ((s.setHeadLife p .executing).port z).queue (if p = z then some (false, e.payloadLength) else none)
  by_cases hz : z = p
  · subst hz
    rw [if_pos rfl, State.setHeadLife, State.updPort_port_same, hq]
    exact hlaw.begins
  · have hlawz := h z
    rw [State.running_of_no_execution hfree] at hlawz
    rwa [if_neg (Ne.symm hz), State.setHeadLife, State.updPort_port_ne _ _ _ _ hz]

theorem beginBandCommand (i : Nat) (k : BandRecord) : (s.beginBandCommand p e i k).QueuesLawful := by
  unfold State.beginBandCommand
  split
  · exact h.finishEntry hfree _
  · split
    · exact h.startExecution hfree he _ _ _ _ _
    · split
      · exact h.finishEntry hfree _
      · exact h.startExecution hfree he _ _ _ _ _

theorem grantBand (r : PageRef) (b : Nat) : (s.grantBand p e r b).QueuesLawful := by
  unfold State.grantBand
  split
  · exact h.finishEntry hfree _
  · exact h.waits hfree he
  · rename_i i _
    split
    · have closed := s.closeClaim_sameCommands p i
      exact (h.same closed).finishEntry (closed.execution.trans hfree) _
    · split
      · exact h.beginBandCommand hfree he i _
      · exact h

omit he in
theorem grantLeave (r : PageRef) : (s.grantLeave p e r).QueuesLawful := by
  unfold State.grantLeave
  split
  · exact h.finishEntry hfree _
  · rename_i q _
    split
    · exact h.finishEntry hfree _
    · split
      · exact h.finishEntry hfree _
      · split
        · exact h.finishEntry hfree _
        · exact (h.eases (s.leaveRecord_easesHeads q p)).finishEntry ((s.leaveRecord_rest q p).1.trans hfree) _

theorem grant : (s.grant p e).QueuesLawful := by
  unfold State.grant
  cases e.op with
  | mark v => exact h.finishEntry hfree _
  | loadTile t => exact h.startExecution hfree he _ _ _ _ _
  | leavePage =>
    cases e.page with
    | none => exact h
    | some r => exact h.grantLeave hfree r
  | fill | putBits | copy | closeBand | sumBand =>
    cases e.page with
    | none => exact h
    | some r =>
      cases e.band with
      | none => exact h
      | some b => exact h.grantBand hfree he r b

end grant

theorem consider : s.consider.QueuesLawful := by
  unfold State.consider
  split
  · exact h
  · rename_i p hg
    split
    · exact h
    · rename_i e he
      exact h.grant (State.execution_of_grantedPort hg) he

/-! ## The ends of commands and clears -/

/-- The command-end claim takes the executing entry from its queue, unless a PORT RESET has (R89, R111, R112). -/
theorem commandEndClaim {x : ExecRecord} (hx : s.execution = some x) : (s.commandEndClaim x).QueuesLawful := fun z => by
  obtain ⟨hqueue, -, hother⟩ := s.commandEndClaim_port x
  rw [State.running_of_no_execution (s.commandEndClaim_rest x).1]
  have hz := h z
  rw [State.running_of_execution hx] at hz
  by_cases hzp : z = x.port
  · subst hzp
    rw [hqueue]
    rw [ExecRecord.heldFor_port] at hz
    exact hz.ended
  · rw [ExecRecord.heldFor_of_ne (Ne.symm hzp)] at hz
    obtain rfl := Port.eq_other_of_ne hzp
    rwa [hother]

theorem endCommand : s.endCommand.QueuesLawful := by
  have worked : s.finishWork.QueuesLawful := fun z => by
    obtain ⟨hports, hrunning⟩ := s.finishWork_commands z
    rw [hrunning, State.port, hports]
    exact h z
  unfold State.endCommand
  split
  · exact h
  · exact worked.commandEndClaim ‹_›

theorem clearDone (i : Nat) (k : BandRecord) : (s.clearDone i k).QueuesLawful :=
  ((h.same (t := { s.setSlot i (.held .opened k) with clearOrder := s.clearOrder.tail, clearPos := 0 }) ⟨rfl, rfl⟩).postAll _ _).eases
    (State.recheck_easesHeads _ _)

theorem endClear : s.endClear.QueuesLawful := by
  have taken : s.SameCommands { s with clearClaims := s.clearClaims.tail } := ⟨rfl, rfl⟩
  unfold State.endClear
  dsimp only
  split
  · exact h.same taken
  · rename_i c _
    rcases State.takeClearClaim_cases { s with clearClaims := s.clearClaims.tail } c with hc | ⟨k, -, -, hc⟩ <;> rw [hc]
    · exact h.same taken
    · refine clearDone (h.same (taken.trans ?_)) _ k
      rw [State.clearWords_eq]
      exact ⟨rfl, rfl⟩

/-! ## The Streamer -/

theorem takeTop : s.takeTop.QueuesLawful := by
  unfold State.takeTop
  split
  · rename_i r _
    split
    · exact h
    · have started : (s.started r).QueuesLawful := h.same ⟨rfl, rfl⟩
      dsimp only
      split
      · exact started.postAll _ _
      · exact started
  · exact h.postAll _ _

theorem spoil (r : PageRef) (cause : SpoilCause) : (s.spoil r cause).QueuesLawful := by
  unfold State.spoil
  split
  · exact h
  · split
    · exact h.eases (s.blankPage_easesHeads _ _ _)
    · exact h.postAll _ _
    · exact h

theorem notReady (q : PageRecord) : (s.notReady q).QueuesLawful := by
  unfold State.notReady
  split
  · exact (h.eases (s.blankPage_easesHeads q _ _)).same ⟨rfl, rfl⟩
  · exact h.same ⟨rfl, rfl⟩

theorem nextLine (q : PageRecord) : (s.nextLine q).QueuesLawful := by
  unfold State.nextLine
  split
  · cases hb : s.startBand q.ref q.nextToStream with
    | none => exact h.notReady q
    | some t => exact h.same (s.startBand_sameCommands hb)
  · split
    · exact h.same ⟨rfl, rfl⟩
    · exact h.notReady q

theorem requestLine (r : PageRef) : (s.requestLine r).QueuesLawful := by
  unfold State.requestLine
  split
  · exact h
  · split
    · exact h.same ⟨rfl, rfl⟩
    · exact h.nextLine _

theorem takeLreq : s.takeLreq.QueuesLawful := by
  unfold State.takeLreq
  split
  case h_1 | h_2 => exact h.postAll _ _
  case h_3 => exact h.requestLine _
  case h_4 | h_5 | h_6 => exact h.spoil _ _
  case h_7 => exact h

theorem copyEnd (q : PageRecord) : (s.copyEnd q).QueuesLawful := by
  unfold State.copyEnd
  split
  · exact h.same ⟨rfl, rfl⟩
  · exact (h.postAll _ _).eases (State.finishPage_easesHeads _ _)

theorem endLine (r : PageRef) (source : LineSource) : (s.endLine r source).QueuesLawful := by
  cases hq : s.findPage r with
  | none => simpa only [State.endLine, hq] using h
  | some q =>
    obtain ⟨-, rfl⟩ := State.findPage_some hq
    have counted := h.same (s.lineCounted_sameCommands q source)
    rw [State.endLine_eq hq]
    split
    · split
      · exact counted.eases (State.finishPage_easesHeads _ _)
      · exact counted.copyEnd q
    · exact counted.same ⟨rfl, rfl⟩

theorem markEarly : s.markEarly.QueuesLawful := by
  unfold State.markEarly
  split
  · exact h.same ⟨rfl, rfl⟩
  · exact h

theorem takeLack : s.takeLack.QueuesLawful := by
  unfold State.takeLack
  split
  · exact (h.spoil _ _).markEarly
  · exact (h.spoil _ _).endLine _ _
  · exact h.endLine _ _
  · exact h.postAll _ _

theorem takeHeld (k : Nat) : (s.takeHeld k).QueuesLawful := by
  unfold State.takeHeld
  split
  · split
    · exact h.same ⟨rfl, rfl⟩
    · exact h
  · exact h

theorem takeHoldLow : s.takeHoldLow.QueuesLawful := by
  unfold State.takeHoldLow
  split
  · exact h.same ⟨rfl, rfl⟩
  · exact h

theorem takeLastBit : s.takeLastBit.QueuesLawful := by
  unfold State.takeLastBit
  split
  · split
    · exact h
    · exact h.same ⟨rfl, rfl⟩
  · exact h

theorem takeEarlyEnd : s.takeEarlyEnd.QueuesLawful := by
  unfold State.takeEarlyEnd
  split
  · rename_i r line _
    split
    · exact (h.same (t := s.sendWords r line.source line.word line.word) ⟨rfl, rfl⟩).endLine _ _
    · exact h
  · exact h

theorem takeWindowExpiry : s.takeWindowExpiry.QueuesLawful := by
  unfold State.takeWindowExpiry
  split
  · exact (h.spoil _ _).endLine _ _
  · exact h

theorem forceClose (q : PageRecord) (i : Nat) (k : BandRecord) : (s.forceClose q i k).QueuesLawful := by
  unfold State.forceClose
  split
  · exact h
  · split
    · exact (h.same (t := s.setSlot i (.held .opened { k with forcePending := true })) ⟨rfl, rfl⟩).postAll _ _
    · exact (h.postAll _ _).same (State.openToReady_sameCommands _ i true)

theorem expiryClaim (q : PageRecord) (b : Nat) : (s.expiryClaim q b).QueuesLawful := by
  unfold State.expiryClaim
  split
  · exact h.spoil _ _
  · split
    · exact h.forceClose q _ _
    · exact h.spoil _ _
    · exact h

theorem takeStarvationExpiry : s.takeStarvationExpiry.QueuesLawful := by
  unfold State.takeStarvationExpiry
  split
  · rename_i r b _ _
    split
    · exact h
    · exact (h.same (t := { s with streamer := .starved r b s.starvationPeriods true }) ⟨rfl, rfl⟩).expiryClaim _ b
  · exact h

/-! ## The clock -/

/-- A period of the clock leaves the queues, and of the running command what it holds (R88). -/
theorem tick : s.tick.QueuesLawful := by
  have worked : s.worked.QueuesLawful := fun z => by
    have hrunning : s.worked.running z = s.running z :=
      (s.clearTick.rasterTick_running z).trans (State.running_congr z s.clearTick_execution)
    rw [hrunning, State.worked_eq]
    exact h z
  obtain ⟨_, _, _, _, _, htick⟩ := s.tick_frame
  rw [htick]
  exact worked.same ⟨rfl, rfl⟩

end State.QueuesLawful

theorem State.deviceReset_queuesLawful (s : State) : s.deviceReset.QueuesLawful := fun z => by
  rw [State.deviceReset_port, State.running_of_no_execution rfl]
  exact .nil

/-! ## Every command and every step -/

theorem keptByActions_queuesLawful : KeptByActions State.QueuesLawful where
  port _ p _ hf hs := hs.updPort p hf
  signals _ _ _ _ _ _ _ _ hs := hs.same ⟨rfl, rfl⟩
  deviceReset s _ := s.deviceReset_queuesLawful
  accept _ p parsed _ hs := hs.acceptFrame p parsed
  openPage _ p o _ _ hs := hs.appendPage p o
  abortPage s q _ _ hs := hs.eases (s.abortRecord_easesHeads q)
  portReset _ p hs := hs.resetPort p
  consider _ hs := hs.consider
  endCommand _ _ hs := hs.endCommand
  endClear _ hs := hs.endClear
  takeTop _ hs := hs.takeTop
  takeLreq _ hs := hs.takeLreq
  takeLack _ hs := hs.takeLack
  takeHeld _ k hs := hs.takeHeld k
  takeHoldLow _ hs := hs.takeHoldLow
  takeLastBit _ hs := hs.takeLastBit
  takeEarlyEnd _ hs := hs.takeEarlyEnd
  takeWindowExpiry _ hs := hs.takeWindowExpiry
  takeStarvationExpiry _ hs := hs.takeStarvationExpiry

/-- Settles O55. -/
theorem stepsKeepCommandQueuesLawful : Obligations.StepsKeepCommandQueuesLawful := by
  intro s t hs ht
  have kept := keptByActions_queuesLawful.step (fun _ _ _ _ hs => hs.same ⟨rfl, rfl⟩) (fun _ hs => hs.tick) s (s.commandQueuesLawful_iff.1 hs)
  exact t.commandQueuesLawful_iff.2 (kept.of_next ht)

end Sys2Proof.Machine
end

