-- ==== Sys2Proof/Proofs/RoundRobin.lean ====
section
/-! The round-robin pointer: which queue a consideration grants, and which grants move the pointer (R66, R127, R128, R196, R198). -/

namespace Sys2Proof.Machine

/-! ## The queue that is granted -/

theorem State.runnable_of_queued {s : State} {p : Port} {e : Entry} (he : s.headEntry p = some e) (hlife : e.life = .queued) : s.runnable p = true := by
  simp only [State.runnable, he, hlife, decide_true]

/-- A runnable queue is granted if it is the only one, or if the other was served last (R128). -/
theorem State.grantedPort_of_runnable {s : State} {p : Port} (hfree : s.execution = none) (hrun : s.runnable p = true)
    (hturn : s.runnable p.other = false ∨ s.pointer = p.other) : s.grantedPort = some p := by
  simp only [State.grantedPort, hfree, Option.isSome_none, Bool.false_eq_true, if_false]
  by_cases hpointer : s.pointer = p.other
  · rw [hpointer, Port.other_other, if_pos hrun]
  · have hother := hturn.resolve_right hpointer
    have hlast : s.pointer = p := by
      rw [Port.eq_other_of_ne hpointer, Port.other_other]
    rw [hlast, if_neg (by rw [hother]; decide), if_pos hrun]

/-- While a command executes, and where no queue is runnable, nothing is granted (R127). -/
theorem State.grantedPort_of_busy {s : State} (h : s.execution ≠ none) : s.grantedPort = none := by
  simp only [State.grantedPort, Option.isSome_iff_ne_none.2 h, if_true]

theorem State.grantedPort_of_none_runnable {s : State} (ha : s.runnable .a = false) (hb : s.runnable .b = false) : s.grantedPort = none := by
  have hno : ∀ p, s.runnable p = false := fun p => by cases p <;> assumption
  simp only [State.grantedPort, hno, Bool.false_eq_true, if_false, ite_self]

/-- A consideration that grants nothing changes nothing. -/
theorem exec_consideration_of_none {s : State} (h : s.grantedPort = none) : exec .consideration s = .next s := by
  have hconsider : s.consider = s := by simp only [State.consider, h]
  exact congrArg _ hconsider

/-! ## The pointer after a grant -/

section pointer

variable (s : State) (p : Port) (e : Entry)

theorem State.beginBandCommand_pointer (i : Nat) (k : BandRecord) : (s.beginBandCommand p e i k).pointer = p := by
  unfold State.beginBandCommand
  split
  · rfl
  · split
    · rfl
    · split <;> rfl

theorem State.grantLeave_pointer (r : PageRef) : (s.grantLeave p e r).pointer = p := by
  unfold State.grantLeave
  split
  · rfl
  · split
    · rfl
    · split
      · rfl
      · split <;> rfl

variable {s p e}

theorem State.grantBand_of_wait {r : PageRef} {b : Nat} (h : s.executionCheck p r b = .wait) : s.grantBand p e r b = s.setHeadLife p .waiting := by
  simp only [State.grantBand, h]

/-- A grant on a band moves the pointer, unless the entry is to wait (R66, R128). -/
theorem State.grantBand_pointer {r : PageRef} {b : Nat} (h : s.executionCheck p r b ≠ .wait) : (s.grantBand p e r b).pointer = p := by
  cases hcheck : s.executionCheck p r b with
  | error c => rw [State.grantBand_of_error hcheck]; rfl
  | wait => exact absurd hcheck h
  | run i =>
    obtain ⟨k, hi⟩ := State.executionCheck_run hcheck
    by_cases hop : e.op = .closeBand
    · simp only [State.grantBand, hcheck, hop, if_true]
      rfl
    · rw [State.grantBand_of_run hcheck hi hop]
      exact s.beginBandCommand_pointer p e i k

/-- Every grant moves the pointer but that of an entry that is to wait (R128). -/
theorem State.grant_pointer (hpage : e.op.namesPage = e.page.isSome) (hband : e.op.namesBand = e.band.isSome)
    (h : ∀ r b, e.page = some r → e.band = some b → s.executionCheck p r b ≠ .wait) : (s.grant p e).pointer = p := by
  cases hop : e.op with
  | mark v => rw [State.grant_of_mark hop]; rfl
  | loadTile n => rw [State.grant_of_loadTile hop]; rfl
  | leavePage =>
    obtain ⟨r, hr⟩ := Option.isSome_iff_exists.1 (hpage.symm.trans (by rw [hop]; rfl))
    simp only [State.grant, hop, hr]
    exact s.grantLeave_pointer p e r
  | fill | putBits | copy | closeBand | sumBand =>
    have hnames : e.op.namesBand = true := by rw [hop]; rfl
    obtain ⟨r, hr⟩ := Option.isSome_iff_exists.1 (hpage.symm.trans (by rw [hop]; rfl))
    obtain ⟨b, hb⟩ := Option.isSome_iff_exists.1 (hband.symm.trans hnames)
    rw [State.grant_of_band hr hb hnames]
    exact State.grantBand_pointer (h r b hr hb)

end pointer

/-! ## The resets -/

theorem State.pointer_of_kept {s t : State} (h : t.kept = s.kept) : t.pointer = s.pointer := by
  simp only [State.kept, Prod.mk.injEq] at h
  obtain ⟨-, -, -, hpointer, -⟩ := h
  exact hpointer

/-- PORT RESET leaves the pointer (R128). -/
theorem State.resetPort_pointer (s : State) (p : Port) : (s.resetPort p).pointer = s.pointer :=
  State.resetPort_induct (P := fun t => t.pointer = s.pointer) s rfl (fun t r ht => (State.pointer_of_kept (t.resetRecord_kept p r)).trans ht)
    fun _ ht => ht

theorem exec_portReset_pointer {s t : State} {p : Port} {st : FrameStage} (h : exec (.portReset p st) s = .next t) : t.pointer = s.pointer := by
  have port : PortRule fun u => u.pointer = s.pointer := fun _ _ _ _ hu => hu
  cases h
  exact port.runCommand s p _ _ st (fun u _ hu => (u.resetPort_pointer p).trans hu) rfl

/-- Settles O26: whose turn it is, and the grants that move the pointer. -/
theorem roundRobinPointer : Obligations.RoundRobinPointer := by
  refine ⟨rfl, fun s t h => ?_, fun s t p h => exec_portReset_pointer h, fun s => ⟨fun hbusy => ?_, fun _ ha hb => ?_,
    fun p e hfree he hlife hturn hpage hband => ?_⟩⟩
  · cases h
    rfl
  · exact exec_consideration_of_none (State.grantedPort_of_busy hbusy)
  · exact exec_consideration_of_none (State.grantedPort_of_none_runnable ha hb)
  · have hg := State.grantedPort_of_runnable hfree (State.runnable_of_queued he hlife) hturn
    refine ⟨hg, _, exec_consideration hg he, State.grant_pointer hpage hband, ?_⟩
    rintro ⟨r, b, hr, hb, hwait⟩
    rw [State.grant_of_band hr hb (by rw [hband, hb]; rfl), State.grantBand_of_wait hwait]
    exact ⟨rfl, rfl⟩

end Sys2Proof.Machine
end

