-- ==== Sys2Proof/Proofs/RefusedFrames.lean ====
section
/-! Queued commands refused: what a frame holds of a body of its command's length, however long, and the refusals of R119 in their order (R81, R118, R119, R186,
R188). -/

namespace Sys2Proof.Machine

/-! ## A body longer than the payload store -/

@[simp] theorem State.shiftBytes_commandByte (s : State) (p : Port) (body : List Byte) :
    ((s.shiftBytes p body).port p).assembler.commandByte = (s.port p).assembler.commandByte := by
  induction body generalizing s with
  | nil => rfl
  | cons b body ih =>
    refine (ih (State.shiftByte p s b)).trans ?_
    rw [State.shiftByte, State.updPort_port_same]

/-- Bytes that find no room are counted, and not held (R186). -/
theorem State.shiftBytes_of_full {code : Byte} (p : Port) (body : List Byte) {s : State} (hbyte : (s.port p).assembler.commandByte = some code)
    (hfull : storesByte code (s.port p).assembler.stored = false) :
    ((s.shiftBytes p body).port p).assembler.stored = (s.port p).assembler.stored ∧
      ((s.shiftBytes p body).port p).assembler.count = (s.port p).assembler.count + body.length := by
  induction body generalizing s with
  | nil => exact ⟨rfl, rfl⟩
  | cons b body ih =>
    have hfirst : (State.shiftByte p s b).port p = _ := State.updPort_port_same _ _ _
    simp only [hbyte, hfull, Bool.false_eq_true, if_false] at hfirst
    obtain ⟨hstored, hcount⟩ := ih (s := State.shiftByte p s b) (by rw [hfirst]) (by rw [hfirst]; exact hfull)
    rw [hfirst] at hstored hcount
    dsimp only at hstored hcount
    refine ⟨hstored, hcount.trans ?_⟩
    rw [List.length_cons]
    omega

/-- A PUT BITS that is read has at most 512 payload words (R81). -/
theorem frameLength_le_of_parsePutBits {l : List Byte} {q : QueuedFrame} {n : Nat} (h : parsePutBits l = some q) (hn : frameLength 0x82 l = some n) :
    n ≤ 1036 := by
  obtain ⟨-, hranges, -⟩ := parsePutBits_iff.1 h
  have hwords : (byteAt l 9).toNat * rowWordsOf (wordAt l 7) ≤ 512 := by
    simp only [putSizeOk, Bool.and_eq_true, decide_eq_true_eq] at hranges
    exact hranges.2.2
  rw [frameLength_putBits] at hn
  split at hn <;> have := Option.some.inj hn <;> omega

section long

variable {body : List Byte} (hlen : frameLength 0x82 body = some (body.length + 1)) (hlong : 1035 < body.length)
include hlen hlong

/-- What the store has room for has the length of the whole PUT BITS: its w and rows are among its first bytes (R188). -/
theorem frameLength_of_long : frameLength 0x82 (body.take 1035) = some (body.length + 1) := by
  rw [frameLength_putBits_of_prefix (List.take_prefix _ _) (by rw [List.length_take]; omega), hlen]

theorem parsePutBits_of_long : parsePutBits (body.take 1035) = none := by
  cases hparse : parsePutBits (body.take 1035) with
  | none => rfl
  | some q =>
    have := frameLength_le_of_parsePutBits hparse (frameLength_of_long hlen hlong)
    omega

/-- Of a PUT BITS longer than the store the beginning is held (R186). -/
theorem storesByte_of_long {l : List Byte} (h : l <+: body) : storesByte 0x82 l = decide (l.length < 1035) := by
  have hle := h.length_le
  have stores : ∀ n, frameLength 0x82 l = some n → (l.length < 1035 → l.length + 1 < n) → storesByte 0x82 l = decide (l.length < 1035) := by
    intro n hn hlt
    rw [storesByte, hn]
    by_cases hroom : l.length < 1035
    · simp [hroom, hlt hroom, Config.payloadWords]
    · simp [hroom, Config.payloadWords]
  by_cases hl : l.length < 11
  · exact stores 12 (by rw [frameLength_putBits, if_pos hl]) fun _ => by omega
  · exact stores _ ((frameLength_putBits_of_prefix h (Nat.not_lt.1 hl)).trans hlen) fun _ => by omega

/-- The assembler at the end of such a frame: its form is right, as the bytes are counted (R186, R188). -/
theorem State.shifted_of_long (s : State) (p : Port) :
    ((s.shifted p 0x82 body).port p).assembler.stored = body.take 1035 ∧ (s.shifted p 0x82 body).formOk p 0x82 0 = true := by
  have hbegun : (((s.openFrame p).takeCommandByte p 0x82 .body []).port p).assembler =
      { FrameAssembler.empty with state := .body, commandByte := some 0x82, outData := [] } := by cases p <;> rfl
  have hsplit : s.shifted p 0x82 body =
      (((s.openFrame p).takeCommandByte p 0x82 .body []).shiftBytes p (body.take 1035)).shiftBytes p (body.drop 1035) := by
    rw [← State.shiftBytes_append, List.take_append_drop]
    rfl
  generalize (s.openFrame p).takeCommandByte p 0x82 .body [] = u at hbegun hsplit
  have hbyte : (u.port p).assembler.commandByte = some 0x82 := by rw [hbegun]
  have htake : (body.take 1035).length = 1035 := by rw [List.length_take]; omega
  obtain ⟨hstored, hcount⟩ := State.shiftBytes_stored_of_storesByte p (body := body.take 1035) hbyte fun l hl hlt => by
    rw [hbegun]
    exact (storesByte_of_long hlen hlong (hl.trans (List.take_prefix _ _))).trans (decide_eq_true (htake ▸ hlt))
  rw [hbegun] at hstored hcount
  have hheld : ((u.shiftBytes p (body.take 1035)).port p).assembler.stored = body.take 1035 := hstored
  obtain ⟨hstored', hcount'⟩ := State.shiftBytes_of_full p (body.drop 1035) ((u.shiftBytes_commandByte p _).trans hbyte) (by
    rw [hheld, storesByte_of_long hlen hlong (List.take_prefix _ _), htake]
    rfl)
  rw [← hsplit] at hstored' hcount'
  have hall : ((s.shifted p 0x82 body).port p).assembler.count = body.length := by
    rw [hcount', hcount, List.length_drop, htake]
    show 0 + 1035 + _ = _
    omega
  refine ⟨hstored'.trans hheld, ?_⟩
  rw [State.formOk, hstored'.trans hheld, hall, frameLength_of_long hlen hlong]
  simp

end long

/-! ## The frame -/

/-- A body of its command's length makes a frame in the right form, and what the frame holds of it is read as the body is (R186, R188). -/
theorem State.shifted_reads (s : State) (p : Port) {code : Byte} {body : List Byte} (hcode : code ∈ queuedCodes)
    (hlen : frameLength code body = some (body.length + 1)) :
    (s.shifted p code body).formOk p code 0 = true ∧
      parseQueued code ((s.shifted p code body).port p).assembler.stored = parseQueued code body := by
  by_cases hroom : body.length ≤ 1035
  · obtain ⟨hstored, hform⟩ := s.shifted_of_frameLength p hlen hroom
    exact ⟨hform, by rw [hstored]⟩
  · have hnone : parseQueued code body = none := by
      cases hparse : parseQueued code body with
      | none => rfl
      | some q => exact absurd (length_le_of_parseQueued hcode hlen hparse) hroom
    have hputBits : code = 0x82 := by
      simp only [queuedCodes, List.mem_cons, List.not_mem_nil, or_false] at hcode
      rcases hcode with rfl | rfl | rfl | rfl | rfl | rfl | rfl | rfl
      case inr.inl => rfl
      all_goals
        have := Option.some.inj hlen
        omega
    subst hputBits
    obtain ⟨hstored, hform⟩ := s.shifted_of_long hlen (Nat.lt_of_not_le hroom) p
    exact ⟨hform, by rw [hstored, hnone]; exact parsePutBits_of_long hlen (Nat.lt_of_not_le hroom)⟩

/-- A whole frame in the right form is the command's action on the bytes it holds (R186, R188). -/
theorem State.runCommand_of_formOk {s : State} {p : Port} {code : Byte} {body : List Byte} (act : State → List Byte → State × FrameOutcome)
    (h : s.canOpen p = true) (hform : (s.shifted p code body).formOk p code 0 = true) {t : State} {o : FrameOutcome}
    (hact : act (s.shifted p code body) ((s.shifted p code body).port p).assembler.stored = (t, o)) :
    s.runCommand p code act (.selectHigh body 0) = t.closeFrame p o 0 := by
  have hin : (s.openFrame p).inFrame p code .body [] = some ((s.openFrame p).takeCommandByte p code .body []) := by
    have hstate : ((s.openFrame p).port p).assembler.state = .command := by simp [State.openFrame]
    simp only [State.inFrame, hstate]
  unfold State.runCommand State.runFrame
  simp only [State.openIfWhole_of_canOpen h, hin]
  rw [show ((s.openFrame p).takeCommandByte p code .body []).shiftBytes p body = s.shifted p code body from rfl, if_pos hform, hact]

/-- A queued command whose acceptance refuses it leaves the frame's marks alone (R118, R187). -/
theorem exec_queued_refused {p : Port} {code : Byte} {body : List Byte} {s : State} {o : FrameOutcome} (hopen : s.canOpen p = true)
    (hcode : code ∈ queuedCodes) (hlen : frameLength code body = some (body.length + 1))
    (hrefused : (s.shifted p code body).acceptFrame p (parseQueued code body) = (s.shifted p code body, o)) :
    exec (commandOfCode p code (.selectHigh body 0)) s = .next (s.framed s p o (List.replicate body.length 0)) := by
  obtain ⟨hform, hreads⟩ := s.shifted_reads p hcode hlen
  have hrun := State.runCommand_of_formOk (fun t body => t.acceptFrame p (parseQueued code body)) hopen hform
    ((congrArg _ hreads).trans hrefused)
  rw [exec_queued hcode, hrun, (s.shifted_sameButFrame p code body).eq]
  exact congrArg _ (s.closeFrame_shifted p code body o s rfl)

/-! ## The refusals -/

section refusals

variable {s : State} {p : Port} {q : QueuedFrame}

theorem State.acceptFrame_of_pageCheck {o : FrameOutcome} (hpage : s.pageCheck p q = .error o) : s.acceptFrame p (some q) = (s, o) := by
  simp only [State.acceptFrame, hpage]

variable {page : Option PageRef} (hpage : s.pageCheck p q = .ok page)
include hpage

theorem State.acceptFrame_of_full (hqueue : 8 ≤ (s.port p).queue.length) : s.acceptFrame p (some q) = (s, .queueFull) := by
  have hqueue' : Config.queueEntries ≤ (s.port p).queue.length := hqueue
  simp only [State.acceptFrame, hpage, hqueue', if_true]

theorem State.acceptFrame_of_stagingFull (hqueue : (s.port p).queue.length < 8) (hstaging : s.stagingFree p < q.payload.length) :
    s.acceptFrame p (some q) = (s, .stagingFull) := by
  have hqueue' : ¬ Config.queueEntries ≤ (s.port p).queue.length := Nat.not_le.2 hqueue
  simp only [State.acceptFrame, hpage, hqueue', hstaging, if_true, if_false]

end refusals

/-- Settles O23: the refusals of R119 in their order, none of which the frame itself has a part in. -/
theorem refusedFrameChangesNothing : Obligations.RefusedFrameChangesNothing := by
  intro p code body s hopen hcode hlen answers
  have hframe := s.shifted_sameButFrame p code body
  have refused : ∀ {parsed o}, parseQueued code body = parsed →
      (s.shifted p code body).acceptFrame p parsed = (s.shifted p code body, o) → answers o := fun hparse hrefused =>
    exec_queued_refused hopen hcode hlen (hparse ▸ hrefused)
  refine ⟨fun hnone => refused hnone rfl, fun q hq => ?_⟩
  obtain ⟨hpage, hfree, -⟩ := hframe.acceptance q
  refine ⟨fun o ho => refused hq (State.acceptFrame_of_pageCheck (hpage.trans ho)), fun page hok => ⟨fun hfull => ?_, fun hroom hstaging => ?_⟩⟩
  · exact refused hq (State.acceptFrame_of_full (hpage.trans hok) (by rwa [hframe.queue]))
  · exact refused hq (State.acceptFrame_of_stagingFull (hpage.trans hok) (by rwa [hframe.queue]) (by rwa [hfree]))

end Sys2Proof.Machine
end

