-- ==== Sys2Proof/Proofs/EngineInputs.lean ====
section
/-! The levels of TOP, LREQ and LACK: which changes are assertions, the assertions that nothing waits for, and the line that an LACK or the acknowledge window
ends (R134, R142, R148 to R150, R152, R156, R167, R198). -/

namespace Sys2Proof.Machine

/-! ## Assertions -/

/-- An input that is low, that was high already, or that moves while reset is held asserts nothing (R134, R198). -/
theorem State.not_asserted {s : State} {before level : Bool} (h : level = false ∨ before = true ∨ s.resetHeld = true) :
    s.asserted before level = false := by
  rcases h with h | h | h <;> simp [State.asserted, h]

section unasserted

variable {s : State} {level : Bool}

theorem exec_top_unasserted (h : s.asserted s.pins.top level = false) : exec (.top level) s = .next (s.withTop level) := by
  show Host.Outcome.next (if s.asserted s.pins.top level then (s.withTop level).takeTop else s.withTop level) = _
  rw [h]
  rfl

theorem exec_lreq_unasserted (h : s.asserted s.pins.lreq level = false) : exec (.lreq level) s = .next (s.withLreq level) := by
  show Host.Outcome.next (if s.asserted s.pins.lreq level then (s.withLreq level).takeLreq else s.withLreq level) = _
  rw [h]
  rfl

theorem exec_lack_unasserted (h : s.asserted s.pins.lack level = false) : exec (.lack level) s = .next (s.withLack level) := by
  show Host.Outcome.next (if s.asserted s.pins.lack level then (s.withLack level).takeLack else s.withLack level) = _
  rw [h]
  rfl

end unasserted

/-- An LACK's rise with reset high is taken (R134). -/
theorem exec_lack_rises {s : State} (hlow : s.pins.lack = false) (hreset : s.resetHeld = false) :
    exec (.lack true) s = .next (s.withLack true).takeLack := by
  have taken : s.asserted s.pins.lack true = true := by simp [State.asserted, hlow, hreset]
  show Host.Outcome.next (if s.asserted s.pins.lack true then (s.withLack true).takeLack else s.withLack true) = _
  rw [if_pos taken]

/-- Settles O38. -/
theorem onlyRisingInputsAreEvents : Obligations.OnlyRisingInputsAreEvents := by
  intro s l
  have unasserted : ∀ {before : Bool}, l = false ∨ before = true → s.asserted before l = false := fun h =>
    State.not_asserted (h.imp_right .inl)
  exact ⟨fun h => exec_top_unasserted (unasserted h), fun h => exec_lreq_unasserted (unasserted h), fun h => exec_lack_unasserted (unasserted h)⟩

/-! ## Assertions that nothing waits for -/

/-- A TOP that finds no page offered (R142). -/
theorem State.takeTop_unexpected {s : State} (h : ∀ r, s.streamer ≠ .offered r) : s.takeTop = s.postFault 1 := by
  cases hst : s.streamer with
  | offered r => exact absurd hst (h r)
  | _ => simp only [State.takeTop, hst]

/-- An LACK that finds no line outstanding (R152). -/
theorem State.takeLack_unexpected {s : State} (h : s.streamer = .idle ∨ (∃ r, s.streamer = .offered r) ∨ (∃ r, s.streamer = .betweenLines r) ∨
    ∃ r b n x, s.streamer = .starved r b n x) : s.takeLack = s.postFault 3 := by
  rcases h with h | ⟨_, h⟩ | ⟨_, h⟩ | ⟨_, _, _, _, h⟩ <;> simp only [State.takeLack, h]

/-- Settles O40: the last arms of `takeTop` and `takeLack`, and what an ENGINE FAULT changes. -/
theorem unexpectedTopOrLack : Obligations.UnexpectedTopOrLack := by
  refine ⟨fun s hlow hreset hst => ?_, fun s hlow hreset hst => ?_⟩
  · exact ⟨_, (exec_top_rises hlow hreset).trans (congrArg _ (State.takeTop_unexpected hst)), State.postFault_eq _ _, State.postFault_port _ _⟩
  · exact ⟨_, (exec_lack_rises hlow hreset).trans (congrArg _ (State.takeLack_unexpected hst)), State.postFault_eq _ _, State.postFault_port _ _⟩

/-! ## The line an LACK or the window ends -/

section outstanding

variable {s : State} {r : PageRef} {source : LineSource} {line : LineInFlight}

/-- An LACK in time (R149). -/
theorem State.takeLack_ackWait {n : Nat} (h : s.streamer = .ackWait r source n) : s.takeLack = s.endLine r source := by
  simp only [State.takeLack, h]

/-- An LACK while HELD (R148). -/
theorem State.takeLack_held {k : Nat} (h : s.streamer = .held r source k) : s.takeLack = (s.spoil r .slip).endLine r source := by
  simp only [State.takeLack, h]

/-- The mark of an early LACK changes the line being sent alone. -/
theorem State.markEarly_sending (h : s.streamer = .sending r line) : s.markEarly = { s with streamer := .sending r { line with early := true } } := by
  simp only [State.markEarly, h]

/-- An LACK while SENDING: the spoil leaves the line being sent, and the mark is put on it (R148). -/
theorem State.takeLack_sending (h : s.streamer = .sending r line) :
    s.takeLack = { s.spoil r .slip with streamer := .sending r { line with early := true } } := by
  have hline : (s.spoil r .slip).streamer = .sending r line := by rw [State.spoil_streamer _ _ _ (by rw [h]; rfl), h]
  rw [← State.markEarly_sending hline]
  simp only [State.takeLack, h]

/-- The window's expiry (R150). -/
theorem State.takeWindowExpiry_ackWait {n : Nat} (h : s.streamer = .ackWait r source n) :
    s.takeWindowExpiry = (s.spoil r .slip).endLine r source := by
  simp only [State.takeWindowExpiry, h]

/-- The end of the word with which an early LACK ends the line (R148). -/
theorem State.takeEarlyEnd_sending (h : s.streamer = .sending r line) (hearly : line.early = true) :
    s.takeEarlyEnd = (s.sendWords r line.source line.word line.word).endLine r line.source := by
  simp only [State.takeEarlyEnd, h, hearly, if_true]

/-- One word sent is that word. -/
theorem State.sendWords_one (s : State) (r : PageRef) (source : LineSource) (k : Nat) :
    s.sendWords r source k k =
      { s with lineOut := s.lineOut ++ [s.lineWord r source k], tail := none, vdat := (s.lineWord r source k).getLsbD 0 } := by
  simp [State.sendWords]

end outstanding

/-- Settles O45, by the Streamer's state. -/
theorem linesEndByLackOrWindow : Obligations.LinesEndByLackOrWindow := by
  intro s r source hreset
  refine ⟨fun n hst hlow => ?_, fun n hst => ?_, fun k hst hlow => ?_, fun line hst hlow => ⟨?_, fun hearly => ?_⟩⟩
  · rw [exec_lack_rises hlow hreset, State.takeLack_ackWait (s := s.withLack true) hst]
  · exact congrArg _ (State.takeWindowExpiry_ackWait hst)
  · rw [exec_lack_rises hlow hreset, State.takeLack_held (s := s.withLack true) hst]
  · exact ⟨_, (exec_lack_rises hlow hreset).trans (congrArg _ (State.takeLack_sending (s := s.withLack true) hst)), rfl, rfl⟩
  · rw [← State.sendWords_one]
    exact congrArg _ (State.takeEarlyEnd_sending hst hearly)

end Sys2Proof.Machine
end

