-- ==== Sys2Proof/Proofs/LineWords.lean ====
section
/-! The words of a line, and the events that let them leave: HELD, HOLD_LOW and LAST_BIT_SENT (R143, R146, R147, R166). -/

namespace Sys2Proof.Machine

/-! ## One word -/

section word

variable {s : State} {r : PageRef} {q : PageRecord} (hq : s.findPage r = some q)
include hq

theorem State.lineWidth_of_page : s.lineWidth r = q.width := by simp only [State.lineWidth, hq]

theorem State.lineWord_background (k : Nat) : s.lineWord r .background k = backgroundWord q.background := by simp only [State.lineWord, hq]

theorem State.lineWord_slot (i k : Nat) : s.lineWord r (.slot i) k = s.readBand (slotAddress i (q.bandLine * q.width + k)) := by
  simp only [State.lineWord, hq]

end word

/-! ## Words that leave -/

section sending

variable {s : State} {r : PageRef} {line : LineInFlight}

/-- The end of a word with HOLD high, not the line's last (R147). -/
theorem State.takeHeld_sending {k : Nat} (hst : s.streamer = .sending r line) (hhold : s.pins.hold = true) (hearly : line.early = false)
    (hfirst : line.word ≤ k) (hlast : k + 1 < s.lineWidth r) :
    s.takeHeld k = { s.sendWords r line.source line.word k with streamer := .held r line.source (k + 1) } := by
  simp only [State.takeHeld, hst]
  exact if_pos ⟨hhold, hearly, hfirst, hlast⟩

/-- The end of the line's last word (R146). -/
theorem State.takeLastBit_sending (hst : s.streamer = .sending r line) (hearly : line.early = false) :
    s.takeLastBit = { s.sendWords r line.source line.word (s.lineWidth r - 1) with streamer := .ackWait r line.source 0 } := by
  simp [State.takeLastBit, hst, hearly]

end sending

/-- HOLD's fall in a paused line (R147). -/
theorem State.takeHoldLow_held {s : State} {r : PageRef} {source : LineSource} {k : Nat} (hst : s.streamer = .held r source k) :
    s.takeHoldLow = { s with streamer := .sending r { source := source, word := k, bits := 0, wordDone := false, early := false } } := by
  simp only [State.takeHoldLow, hst]

/-- Elsewhere it starts no word. -/
theorem State.takeHoldLow_not_held {s : State} (hst : ∀ r source k, s.streamer ≠ .held r source k) : s.takeHoldLow = s := by
  cases h : s.streamer with
  | held r source k => exact absurd h (hst r source k)
  | _ => simp only [State.takeHoldLow, h]

/-- Settles O44. -/
theorem wordsLeaveUntilHoldOrTheLastBit : Obligations.WordsLeaveUntilHoldOrTheLastBit := by
  refine ⟨fun s r q k hq => ?_, fun s => ⟨rfl, fun r line k hst hhold hearly hfirst hlast => ?_, fun r source k hst => ?_, fun hst => ?_⟩,
    fun s r line hst hearly hword => ?_⟩
  · exact ⟨State.lineWidth_of_page hq, State.lineWord_background hq k, fun i => State.lineWord_slot hq i k⟩
  · exact congrArg _ (State.takeHeld_sending hst hhold hearly hfirst hlast)
  · exact congrArg _ (State.takeHoldLow_held (s := { s with pins := { s.pins with hold := false } }) hst)
  · exact congrArg _ (State.takeHoldLow_not_held (s := { s with pins := { s.pins with hold := false } }) hst)
  · have hlast : s.lineWidth r - 1 + 1 = s.lineWidth r := Nat.sub_add_cancel (Nat.one_le_of_lt hword)
    refine (congrArg Host.Outcome.next (State.takeLastBit_sending hst hearly)).trans ?_
    rw [State.sendWords, hlast]

end Sys2Proof.Machine
end

