-- ==== Sys2Proof/Proofs/OutputLevels.lean ====
section
/-! The levels the part shows: PRDY, LSTB and VCLK, ASDO, and the bits of the frame result byte (R135, R139, R155, R169, R185, R186, R190, R191, R198, R201). -/

namespace Sys2Proof.Machine

/-! ## The engine's outputs -/

theorem State.prdy_iff (s : State) : s.prdy = true ↔ (∃ r, s.streamer = .offered r) ∧ s.prdyLow = none := by
  cases hst : s.streamer with
  | offered r => simp [State.prdy, hst]
  | _ => simp [State.prdy, hst]

theorem State.lstb_iff (s : State) :
    s.lstb = true ↔ (∃ w, s.tail = some w ∧ w.first = true ∧ w.bits = 1 ∧ w.done = false) ∨
      s.tail = none ∧ ∃ r line, s.streamer = .sending r line ∧ line.word = 0 ∧ line.bits = 1 ∧ line.wordDone = false := by
  cases htail : s.tail with
  | some w => simp [State.lstb, htail, and_assoc]
  | none => cases hst : s.streamer <;> simp [State.lstb, htail, hst, and_assoc]

theorem State.vclkRunning_iff (s : State) :
    s.vclkRunning = true ↔ (∃ w, s.tail = some w ∧ 1 ≤ w.bits ∧ w.done = false) ∨
      s.tail = none ∧ ∃ r line, s.streamer = .sending r line ∧ 1 ≤ line.bits ∧ line.wordDone = false := by
  cases htail : s.tail with
  | some w => simp [State.vclkRunning, htail]
  | none => cases hst : s.streamer <;> simp [State.vclkRunning, htail, hst]

/-- Settles O48. -/
theorem prdyFollowsTheOffer : Obligations.PrdyFollowsTheOffer := fun s =>
  ⟨s.prdy_iff, ⟨_, rfl, rfl, (State.prdy_iff { s with prdyLow := none }).trans (and_iff_left rfl)⟩, s.lstb_iff, s.vclkRunning_iff⟩

/-! ## ASDO -/

section asdo

variable {s : State} {p : Port}

/-- In a frame ASDO carries the first bit of the next byte (R185). -/
theorem State.asdoPin_in_frame (hselect : (s.port p).selectHigh = false) (hreset : s.resetHeld = false)
    (hframe : (s.port p).assembler.state ≠ .betweenFrames) : s.asdoPin p = some (((s.port p).assembler.outData.headD 0).getMsbD 0) := by
  simp [State.asdoPin, hselect, hreset, hframe]

/-- ASDO is driven, in a frame or not, exactly while select is low and reset is not held (R185, R198). -/
theorem State.asdoPin_driven_iff : (s.asdoPin p).isSome = true ↔ (s.port p).selectHigh = false ∧ s.resetHeld = false := by
  by_cases hselect : (s.port p).selectHigh = true
  · simp [State.asdoPin_of_selectHigh hselect, hselect]
  by_cases hreset : s.resetHeld = true
  · simp [State.asdoPin_of_resetHeld hreset, hreset]
  rw [Bool.not_eq_true] at hselect hreset
  refine iff_of_true ?_ ⟨hselect, hreset⟩
  by_cases hframe : (s.port p).assembler.state = .betweenFrames
  · simp [State.asdoPin, hselect, hreset, hframe]
  · rw [State.asdoPin_in_frame hselect hreset hframe]
    rfl

end asdo

/-! ## The frame result byte -/

/-- The five states in which the Streamer serves a PRINTING or BLANKING page (R155). -/
theorem State.streamerPrinting_iff (s : State) :
    s.streamerPrinting = true ↔
      (∃ r, s.streamer = .betweenLines r) ∨ (∃ r line, s.streamer = .sending r line) ∨ (∃ r source k, s.streamer = .held r source k) ∨
        (∃ r source n, s.streamer = .ackWait r source n) ∨ ∃ r b n x, s.streamer = .starved r b n x := by
  cases hst : s.streamer <;> simp [State.streamerPrinting, hst]

theorem FrameOutcome.code_le (o : FrameOutcome) : o.code ≤ 11 := by cases o <;> decide

/-- A bit of a byte, from the byte's number. -/
theorem getLsbD_of_div_mod {b : Byte} {i : Nat} {x : Bool} (h : b.toNat / 2 ^ i % 2 = x.toNat) : b.getLsbD i = x := by
  rw [BitVec.getLsbD, Nat.testBit_eq_decide_div_mod_eq, h]
  cases x <;> rfl

/-- A code in the upper half of a byte and four flags in the lower half, read back. -/
theorem oneByte_code_flags {code : Nat} (hcode : code ≤ 11) (x3 x2 x1 x0 : Bool) :
    let b := oneByte (code * 16 + x3.toNat * 8 + x2.toNat * 4 + x1.toNat * 2 + x0.toNat)
    b.toNat / 16 = code ∧ b.getLsbD 3 = x3 ∧ b.getLsbD 2 = x2 ∧ b.getLsbD 1 = x1 ∧ b.getLsbD 0 = x0 := by
  intro b
  have h3 := x3.toNat_le
  have h2 := x2.toNat_le
  have h1 := x1.toNat_le
  have h0 := x0.toNat_le
  have hb : b.toNat = code * 16 + x3.toNat * 8 + x2.toNat * 4 + x1.toNat * 2 + x0.toNat := oneByte_toNat (by omega)
  refine ⟨by omega, ?_, ?_, ?_, ?_⟩ <;> exact getLsbD_of_div_mod (by omega)

/-- The fields of the frame result byte (R201). -/
theorem State.frameResultByte_fields (s : State) (p : Port) :
    (s.frameResultByte p).toNat / 16 = (s.port p).outcome.code ∧
    (s.frameResultByte p).getLsbD 3 = !(s.port p).events.isEmpty ∧
    (s.frameResultByte p).getLsbD 2 = decide (8 ≤ (s.port p).queue.length) ∧
    (s.frameResultByte p).getLsbD 1 = decide (4 ≤ s.pages.length) ∧
    (s.frameResultByte p).getLsbD 0 = s.streamerPrinting :=
  oneByte_code_flags (FrameOutcome.code_le _) _ _ _ _

theorem exec_frameResultByte_opens {s : State} {p : Port} (h : s.canOpen p = true) : exec (.frameResultByte p) s = .next (s.openFrame p) :=
  congrArg Host.Outcome.next (if_pos h)

/-- Settles O5. -/
theorem selectFallOpensFrame : Obligations.SelectFallOpensFrame := by
  refine ⟨fun s p => ⟨State.asdoPin_driven_iff, State.asdoPin_in_frame, ?_⟩, fun p s hopen => ?_⟩
  · obtain ⟨-, -, -, -, hprinting⟩ := s.frameResultByte_fields p
    rw [hprinting]
    exact s.streamerPrinting_iff
  · obtain ⟨houtcome, hevents, hqueue, hpages, hprinting⟩ := s.frameResultByte_fields p
    exact ⟨exec_frameResultByte_opens hopen, houtcome, hevents, hqueue, hpages, hprinting, rfl⟩

end Sys2Proof.Machine
end

