-- ==== Sys2Proof/Proofs/HeldReset.lean ====
section
/-! While reset is held: no frame is opened and no engine input is taken (R156, R186, R198). -/

namespace Sys2Proof.Machine

/-- A command byte that R200's table does not hold names no command (R188). -/
theorem commandOfCode_unknown (p : Port) {code : Byte} (h : code ∉ knownCodes) (st : FrameStage) :
    commandOfCode p code st = .unknownCommand p code st := by
  simp only [knownCodes, List.mem_cons, List.not_mem_nil, or_false, not_or] at h
  simp only [commandOfCode, h, if_false]

/-- Every command byte's frame runs through the same stages (R186): what differs is its view, what its bytes do and what its end does. -/
theorem exec_commandOfCode_runs (p : Port) (code : Byte) (st : FrameStage) :
    ∃ c target view shift finish, ∀ s, exec (commandOfCode p code st) s = .next (s.runFrame p c target view shift finish st) := by
  by_cases h : code ∈ knownCodes
  · simp only [knownCodes, List.mem_cons, List.not_mem_nil, or_false] at h
    rcases h with rfl | rfl | rfl | rfl | rfl | rfl | rfl | rfl | rfl | rfl | rfl | rfl | rfl | rfl | rfl | rfl | rfl | rfl <;>
      exact ⟨_, _, _, _, _, fun _ => rfl⟩
  · rw [commandOfCode_unknown p h st]
    exact ⟨_, _, _, _, _, fun _ => rfl⟩

section held

variable {s : State} (hreset : s.resetHeld = true) (p : Port)
include hreset

theorem State.canOpen_of_resetHeld : s.canOpen p = false := by simp [State.canOpen, hreset]

theorem exec_frameResultByte_held : exec (.frameResultByte p) s = .next (s.updPort p fun ps => { ps with selectHigh := false }) := by
  show Host.Outcome.next (s.selectFalls p) = _
  rw [State.selectFalls, State.canOpen_of_resetHeld hreset]
  rfl

/-- With no frame in progress a frame that ends takes nothing: select rises (R186). -/
theorem State.runFrame_held {code : Byte} {target : FrameState} {view : State → List Byte} {shift : State → List Byte → State}
    {finish : State → Nat → State × FrameOutcome} {body : List Byte} {bits : Nat} (hnone : (s.port p).assembler.state = .betweenFrames) :
    s.runFrame p code target view shift finish (.selectHigh body bits) = s.updPort p fun ps => { ps with selectHigh := true } := by
  have hin : s.inFrame p code target (view s) = none := by simp only [State.inFrame, hnone]
  simp only [State.runFrame, State.openIfWhole_of_open (State.canOpen_of_resetHeld hreset p), hin]
  exact if_pos hnone

end held

/-- Settles O4. -/
theorem heldResetTakesNothing : Obligations.HeldResetTakesNothing := by
  intro s hreset
  have unasserted : ∀ {before l : Bool}, s.asserted before l = false := State.not_asserted (.inr (.inr hreset))
  refine ⟨rfl, exec_frameResultByte_held hreset, fun _ => exec_top_unasserted unasserted, fun _ => exec_lreq_unasserted unasserted,
    fun _ => exec_lack_unasserted unasserted, fun p code body bits hnone => ?_⟩
  obtain ⟨_, _, _, _, _, hruns⟩ := exec_commandOfCode_runs p code (.selectHigh body bits)
  rw [hruns, State.runFrame_held hreset p hnone]

end Sys2Proof.Machine
end

