-- ==== Sys2Proof/Proofs/EngineSettings.lean ====
section
/-! SET ENGINE: its ranges, its refusals in their order, and the configuration it writes (R137, R200). -/

namespace Sys2Proof.Machine

/-- The four operands of a SET ENGINE are in range (R137). -/
def engineInRange (kind limit window divisor : Byte) : Prop :=
  kind.toNat ≤ 1 ∧ 1 ≤ limit.toNat ∧ limit.toNat ≤ 250 ∧ 1 ≤ window.toNat ∧ window.toNat ≤ 15 ∧ 2 ≤ divisor.toNat ∧ divisor.toNat ≤ 64

section parse

variable {kind limit window divisor : Byte}

theorem parseEngine_of_inRange (h : engineInRange kind limit window divisor) :
    parseEngine [kind, limit, window, divisor] = some
      { kind := if kind = 1 then .stall else .nostall, starvationLimit := limit.toNat, acknowledgeWindow := window.toNat,
        videoDivisor := divisor.toNat } := by
  have hkind : (kind = 1) = (kind.toNat = 1) := propext (BitVec.toNat_inj (y := 1)).symm
  obtain ⟨h1, h2, h3, h4, h5, h6, h7⟩ := h
  simp only [parseEngine, byteAt, List.getD_cons_zero, List.getD_cons_succ, h1, h2, h3, h4, h5, h6, h7, hkind, decide_true, Bool.and_self, if_true]

theorem parseEngine_of_not_inRange (h : ¬ engineInRange kind limit window divisor) : parseEngine [kind, limit, window, divisor] = none := by
  refine if_neg fun hrange => h ?_
  simpa [engineInRange, byteAt, and_assoc] using hrange

end parse

section act

variable {s : State} {body : List Byte}

theorem State.setEngineAct_badParam (h : parseEngine body = none) : s.setEngineAct body = (s, .badParam) := by
  simp only [State.setEngineAct, h]

variable {c : EngineConfig} (h : parseEngine body = some c)
include h

theorem State.setEngineAct_busy (hbusy : ¬ (s.streamer = .idle ∧ s.pages = [])) : s.setEngineAct body = (s, .engineBusy) := by
  simp only [State.setEngineAct, h, hbusy, if_false]

theorem State.setEngineAct_taken (hidle : s.streamer = .idle) (hpages : s.pages = []) : s.setEngineAct body = ({ s with engine := c }, .ok) := by
  simp only [State.setEngineAct, h]
  exact if_pos ⟨hidle, hpages⟩

end act

/-- SET ENGINE's whole frame, whose claim leaves the ports alone. -/
theorem exec_setEngine {s w : State} {p : Port} {body : List Byte} {o : FrameOutcome} (h : s.canOpen p = true) (hlen : body.length = 4)
    (hw : w.ports = s.ports) (hact : (s.shifted p 0x32 body).setEngineAct body = ({ w with ports := (s.shifted p 0x32 body).ports }, o)) :
    exec (.setEngine p (.selectHigh body 0)) s = .next (s.framed w p o (List.replicate 4 0)) := by
  have hlength : frameLength 0x32 body = some (body.length + 1) := by rw [hlen]; rfl
  obtain ⟨hstored, hform⟩ := s.shifted_of_frameLength p hlength (by omega)
  rw [← hlen]
  exact congrArg _ (State.runCommand_framed h hform hstored hw hact)

/-- Settles O19: R137's two checks in their order, on a frame that changes neither Streamer nor page queue. -/
theorem setEngineChecksAndEffect : Obligations.SetEngineChecksAndEffect := by
  intro p kind limit window divisor s hopen ok c
  have hframe := (s.shifted_sameButFrame p 0x32 [kind, limit, window, divisor]).eq
  have hstreamer : (s.shifted p 0x32 [kind, limit, window, divisor]).streamer = s.streamer := by rw [hframe]
  have hpages : (s.shifted p 0x32 [kind, limit, window, divisor]).pages = s.pages := by rw [hframe]
  refine ⟨fun hbad => ?_, fun hok hbusy => ?_, fun hok hidle hnone => ?_⟩
  · refine exec_setEngine hopen rfl rfl ?_
    rw [← hframe]
    exact State.setEngineAct_badParam (parseEngine_of_not_inRange hbad)
  · refine exec_setEngine hopen rfl rfl ?_
    rw [← hframe]
    exact State.setEngineAct_busy (parseEngine_of_inRange hok) (by rwa [hstreamer, hpages])
  · refine exec_setEngine hopen rfl rfl ?_
    rw [State.setEngineAct_taken (parseEngine_of_inRange hok) (hstreamer.trans hidle) (hpages.trans hnone)]
    exact congrArg (fun t : State => (({ t with engine := _ } : State), FrameOutcome.ok)) hframe

end Sys2Proof.Machine
end

