-- ==== Sys2Proof/Proofs/RecordLayouts.lean ====
section
/-! The records that the read commands show, byte by byte, and their order in READ PAGES and READ BANDS (R165, R173, R191, R194, R195, R201, R203,
R204). -/

namespace Sys2Proof.Machine

/-! ## The flag bytes -/

/-- Which of page tag, band and command tag an event record carries (R201). -/
theorem oneByte_presence_flags : ∀ page band command : Bool,
    let b := oneByte (page.toNat * 4 + band.toNat * 2 + command.toNat)
    b.getLsbD 2 = page ∧ b.getLsbD 1 = band ∧ b.getLsbD 0 = command ∧ b.toNat < 8 := by decide

/-- The opener of a page in bit 7, its participants in bits 1 and 0 (R203). -/
theorem oneByte_port_flags (opener : Port) : ∀ b a : Bool,
    let x := oneByte (portBit opener * 128 + b.toNat * 2 + a.toNat)
    x.getLsbD 7 = decide (opener = .b) ∧ x.getLsbD 1 = b ∧ x.getLsbD 0 = a := by
  cases opener <;> decide

/-- A page's flags (R203). -/
theorem oneByte_page_flags : ∀ resident background : Bool,
    let b := oneByte (resident.toNat * 2 + background.toNat)
    b.getLsbD 1 = resident ∧ b.getLsbD 0 = background := by decide

/-- A slot's flags (R204). -/
theorem oneByte_slot_flags (background forcePending : Bool) : ∀ forced b a : Bool,
    let x := oneByte (background.toNat * 16 + forcePending.toNat * 8 + forced.toNat * 4 + b.toNat * 2 + a.toNat)
    x.getLsbD 4 = background ∧ x.getLsbD 3 = forcePending ∧ x.getLsbD 2 = forced ∧ x.getLsbD 1 = b ∧ x.getLsbD 0 = a ∧ x.toNat < 32 := by
  cases background <;> cases forcePending <;> decide

/-! ## The numbers of a page record -/

theorem PageState.code_le (st : PageState) : st.code ≤ 3 := by cases st <;> decide

theorem SpoilCause.code_getD_le (cause : Option SpoilCause) : (cause.map SpoilCause.code).getD 0 ≤ 4 := by
  rcases cause with _ | _ | _ | _ | _ <;> decide

/-- A copy has at most 254 full bands and a last band, of 64 lines each (R25). -/
theorem PageRecord.pageLines_le {q : PageRecord} (hcount : q.bandCount ≤ 255) (hheight : q.bandHeight ≤ 64) (hlast : q.lastBandHeight ≤ 64) :
    q.pageLines ≤ 16320 := by
  have hfull : (q.bandCount - 1) * q.bandHeight ≤ 254 * 64 := Nat.mul_le_mul (Nat.sub_le_sub_right hcount 1) hheight
  exact Nat.add_le_add hfull hlast

/-! ## Records of one length, one behind the other -/

section records

variable {α : Type} {f : α → List Byte} {n : Nat}

theorem length_flatMap_records {l : List α} (h : ∀ x ∈ l, (f x).length = n) : (l.flatMap f).length = n * l.length := by
  rw [List.length_flatMap, List.map_congr_left h, List.map_const', List.sum_replicate, smul_eq_mul, Nat.mul_comm]

/-- Record `j` stands behind `j` records. -/
theorem record_of_flatMap {l : List α} (h : ∀ x ∈ l, (f x).length = n) {j : Nat} {x : α} (hx : l[j]? = some x) :
    ((l.flatMap f).drop (n * j)).take n = f x := by
  induction l generalizing j with
  | nil => cases hx
  | cons y l ih =>
    have hy : (f y).length = n := h y List.mem_cons_self
    rw [List.flatMap_cons]
    cases j with
    | zero =>
      cases hx
      exact List.take_left' hy
    | succ j =>
      rw [Nat.mul_succ, Nat.add_comm, ← List.drop_drop, List.drop_left' hy]
      exact ih (fun z hz => h z (List.mem_cons_of_mem y hz)) hx

end records

theorem PageRecord.bytes_length (q : PageRecord) : q.bytes.length = 19 := rfl

theorem Slot.bytes_length (x : Slot) (i : Nat) : (x.bytes i).length = 10 := by cases x <;> rfl

/-- READ PAGES: the count, then the records, head page first (R194). -/
theorem State.pagesView_layout {s : State} (hpages : s.pages.length ≤ 4) :
    s.pagesView.length = 1 + 19 * s.pages.length ∧ (s.pagesView.getD 0 0).toNat = s.pages.length ∧
      ∀ j q, s.pages[j]? = some q → (s.pagesView.drop (1 + 19 * j)).take 19 = q.bytes := by
  have hlength : ∀ q ∈ s.pages, q.bytes.length = 19 := fun q _ => q.bytes_length
  refine ⟨?_, oneByte_toNat (by omega), fun j q hq => ?_⟩
  · rw [State.pagesView, List.length_cons, length_flatMap_records hlength, Nat.add_comm]
  · rw [State.pagesView, Nat.add_comm, List.drop_succ_cons]
    exact record_of_flatMap hlength hq

/-- READ BANDS: the eight slots, slot 0 first (R195). -/
theorem State.bandsView_layout {s : State} (hslots : s.slots.length = 8) :
    s.bandsView.length = 80 ∧ ∀ i, i < 8 → (s.bandsView.drop (10 * i)).take 10 = (s.slot i).bytes i := by
  have hlength : ∀ i ∈ s.slotNumbers, ((s.slot i).bytes i).length = 10 := fun i _ => (s.slot i).bytes_length i
  have hnumbers : s.slotNumbers = List.range 8 := congrArg List.range hslots
  refine ⟨?_, fun i hi => record_of_flatMap hlength ?_⟩
  · rw [State.bandsView, length_flatMap_records hlength, hnumbers, List.length_range]
  · rw [hnumbers]
    exact List.getElem?_range hi

/-- Settles O11: each record is laid out by its definition, and its fields read back. -/
theorem pageAndSlotRecordLayouts : Obligations.PageAndSlotRecordLayouts := by
  refine ⟨fun q hrange hstream => ?_, fun _ _ => rfl, fun i st k _ _ _ hwidth => ?_, fun e => ?_, rfl, rfl, rfl, rfl, rfl,
    fun s => ⟨State.pagesView_layout, State.bandsView_layout⟩⟩
  · obtain ⟨-, hcount, -, hheight, -, hlast, -, hwidth, -, -, -, hlead, -, -, hcopies, -, -, -, hremaining, halloc, hserved⟩ := hrange
    have hlines : q.pageLines ≤ 16320 := PageRecord.pageLines_le hcount hheight hlast
    have hstate : q.state.code ≤ 3 := q.state.code_le
    have hcause := SpoilCause.code_getD_le q.spoilCause
    obtain ⟨hopener, hb, ha⟩ := oneByte_port_flags q.opener q.participants.b q.participants.a
    obtain ⟨hresident, hback⟩ := oneByte_page_flags q.resident q.background
    exact ⟨q.bytes_length, rfl, twoBytes_toNat q.ref.inst.isLt, oneByte_toNat (by omega), hopener, hb, ha, oneByte_toNat (by omega),
      oneByte_toNat (by omega), oneByte_toNat (by omega), twoBytes_toNat (by omega), hresident, hback, oneByte_toNat (by omega),
      oneByte_toNat (by omega), oneByte_toNat (by omega), oneByte_toNat (by omega), oneByte_toNat (by omega), twoBytes_toNat (by omega),
      oneByte_toNat (by omega)⟩
  · obtain ⟨hback, hpending, hforced, hb, ha, hflags⟩ := oneByte_slot_flags k.background k.forcePending k.forced k.closedBy.b k.closedBy.a
    exact ⟨_, _, _, _, _, rfl, hback, hpending, hforced, hb, ha, hflags, append_twoBytes _, twoBytes_toNat hwidth⟩
  · obtain ⟨hpage, hband, hcommand, hflags⟩ := oneByte_presence_flags e.pageTag.isSome e.band.isSome e.commandTag.isSome
    exact ⟨_, _, _, rfl, hpage, hband, hcommand, hflags, append_twoBytes _⟩

end Sys2Proof.Machine
end

