-- ==== Sys2Proof/Proofs/EventPostings.lean ====
section
/-! The law of an event queue, and what can become of one: postings, the removal of its oldest record, its emptying (R175, R178, R183, R196). -/

namespace Sys2Proof.Machine

/-! ## One posting -/

theorem hasOverflow_iff {q : List Event} : hasOverflow q = true ↔ ∃ o ∈ q, o.kind = .overflow := by simp [hasOverflow]

theorem hasOverflow_eq_false_iff {q : List Event} : hasOverflow q = false ↔ ∀ o ∈ q, o.kind ≠ .overflow := by simp [hasOverflow]

/-- A record that joins a queue without OVERFLOW keeps the law if there is room for it, or if it is the OVERFLOW itself (R175). -/
theorem eventLaw_append {q : List Event} (h : hasOverflow q = false) {e : Event} (hlen : q.length < 15 ∨ q.length = 15 ∧ e.kind = .overflow) :
    eventLaw (q ++ [e]) := by
  refine ⟨?_, ?_, fun hfull => ?_⟩
  · rw [List.length_append, List.length_singleton]
    omega
  · rw [List.dropLast_concat]
    exact hasOverflow_eq_false_iff.1 h
  · rw [List.length_append, List.length_singleton] at hfull
    obtain ⟨-, hkind⟩ := hlen.resolve_left (by omega)
    rw [List.getLast?_concat, Option.map_some, hkind]

/-- A queue without OVERFLOW has room: with 16 records the newest would be one (R175). -/
theorem length_le_of_eventLaw {q : List Event} (hq : eventLaw q) (h : hasOverflow q = false) : q.length ≤ 15 := by
  obtain ⟨hlen, -, hlast⟩ := hq
  by_contra hfull
  obtain ⟨o, ho, hkind⟩ := Option.map_eq_some_iff.1 (hlast (by omega))
  exact hasOverflow_eq_false_iff.1 h o (List.mem_of_getLast? ho) hkind

theorem eventLaw_enqueueEvent {q : List Event} (hq : eventLaw q) (e : Event) : eventLaw (enqueueEvent q e) := by
  by_cases hover : hasOverflow q = true
  · rwa [enqueueEvent_of_overflow hover]
  · rw [Bool.not_eq_true] at hover
    have hlen := length_le_of_eventLaw hq hover
    by_cases hroom : q.length < 15
    · rw [enqueueEvent_of_room hover hroom]
      exact eventLaw_append hover (.inl hroom)
    · rw [enqueueEvent_of_full hover (Nat.not_lt.1 hroom)]
      exact eventLaw_append hover (.inr ⟨by omega, rfl⟩)

/-- Settles O50. -/
theorem postingRule : Obligations.PostingRule := by
  refine fun q e => ⟨fun hover => enqueueEvent_of_overflow (hasOverflow_iff.2 hover) e, fun hnone hlen => ?_, fun hnone hlen => ?_, fun hq =>
    eventLaw_enqueueEvent hq e⟩
  · exact enqueueEvent_of_room (hasOverflow_eq_false_iff.2 hnone) (by omega) e
  · exact enqueueEvent_of_full (hasOverflow_eq_false_iff.2 hnone) (by omega) e

/-! ## The moves of a queue -/

/-- One move of an event queue: a posting (R175), the removal of its oldest record (R178), or its emptying by a reset (R183, R196). -/
inductive QueueMove (q : List Event) : List Event → Prop
  | posts (e : Event) : QueueMove q (enqueueEvent q e)
  | removes : QueueMove q q.tail
  | empties : QueueMove q []

/-- The queue that has lost its oldest record has room. -/
theorem eventLaw_tail {q : List Event} (hq : eventLaw q) : eventLaw q.tail := by
  obtain ⟨hlen, hnewest, -⟩ := hq
  have htail : q.tail.length = q.length - 1 := List.length_tail
  refine ⟨by omega, fun o ho => hnewest o ?_, fun hfull => by omega⟩
  rw [← List.tail_dropLast] at ho
  exact List.mem_of_mem_tail ho

theorem QueueMove.keeps_law {q r : List Event} (h : QueueMove q r) (hq : eventLaw q) : eventLaw r := by
  cases h with
  | posts e => exact eventLaw_enqueueEvent hq e
  | removes => exact eventLaw_tail hq
  | empties => exact ⟨Nat.zero_le _, by simp, by simp⟩

/-- From `q` to `r` by moves of an event queue. -/
abbrev QueueMoves : List Event → List Event → Prop := Relation.ReflTransGen QueueMove

namespace QueueMoves

variable {q r : List Event} (h : QueueMoves q r)
include h

theorem keeps_law (hq : eventLaw q) : eventLaw r := by
  induction h with
  | refl => exact hq
  | tail _ move ih => exact move.keeps_law ih

theorem post (e : Event) : QueueMoves q (enqueueEvent r e) := h.tail (.posts e)

theorem postIf (c : Prop) [Decidable c] (e : Event) : QueueMoves q (if c then enqueueEvent r e else r) := by
  split
  · exact h.post e
  · exact h

theorem postMaybe (e : Option Event) : QueueMoves q (e.elim r (enqueueEvent r)) := by
  cases e with
  | none => exact h
  | some e => exact h.post e

/-- The WAITING head of a released page leaves with its event (R125). -/
theorem abortWaiting (s : State) (ref : PageRef) (z : Port) : QueueMoves q (s.eventsAfterAbort ref z r) := by
  unfold State.eventsAfterAbort
  split
  · exact h
  · exact h.postIf _ _

end QueueMoves

end Sys2Proof.Machine
end

