-- ==== Sys2Proof/Proofs/EventMoves.lean ====
section
/-! What a step can do to the event queues: each takes postings, loses its oldest record or is emptied (R172 to R178, R183, R196), so every step keeps their law. -/

namespace Sys2Proof.Machine

/-- From `s` to `t` each port's event queue has moved by postings, removals and emptyings. -/
def State.EventsMove (s t : State) : Prop := ∀ z, QueueMoves (s.port z).events (t.port z).events

theorem State.EventsMove.refl (s : State) : s.EventsMove s := fun _ => .refl

theorem State.EventsMove.keeps_law {s t : State} (h : s.EventsMove t) (hs : s.eventQueuesLawful) : t.eventQueuesLawful :=
  ⟨(h .a).keeps_law hs.1, (h .b).keeps_law hs.2⟩

namespace State.EventsMove

variable {s t u : State} (h : s.EventsMove t)
include h

theorem congr (hevents : ∀ z, (u.port z).events = (t.port z).events) : s.EventsMove u := fun z => by
  rw [hevents]
  exact h z

theorem same (hports : u.ports = t.ports) : s.EventsMove u := h.congr fun z => by rw [State.port, hports]; rfl

theorem sameCommands (hsame : t.SameCommands u) : s.EventsMove u := h.same hsame.ports

/-- The queue of port `p` alone moves. -/
theorem updPort (p : Port) {f : PortState → PortState} (hf : QueueMoves (t.port p).events (f (t.port p)).events) : s.EventsMove (t.updPort p f) := fun z => by
  by_cases hz : z = p
  · subst hz
    rw [State.updPort_port_same]
    exact (h z).trans hf
  · rw [State.updPort_port_ne _ _ _ _ hz]
    exact h z

theorem updPort_same (p : Port) {f : PortState → PortState} (hf : ∀ ps, (f ps).events = ps.events) : s.EventsMove (t.updPort p f) :=
  h.updPort p (by rw [hf])

theorem postAll (ps : PortSet) (e : Event) : s.EventsMove (t.postAll ps e) := fun z => by
  rw [State.postAll_events]
  exact (h z).postIf _ e

/-! ## Frames -/

theorem sameButFrame {p : Port} (hframe : t.SameButFrame u p) : s.EventsMove u := h.congr hframe.events

theorem selectRises (p : Port) : s.EventsMove (t.selectRises p) := by
  unfold State.selectRises
  split
  · exact h.updPort_same p fun _ => rfl
  · exact h

theorem selectFalls (p : Port) : s.EventsMove (t.selectFalls p) := by
  unfold State.selectFalls
  split <;> exact h.updPort_same p fun _ => rfl

theorem openIfWhole (p : Port) : s.EventsMove (t.openIfWhole p) := by
  unfold State.openIfWhole
  split
  · exact h.updPort_same p fun _ => rfl
  · exact h

theorem closeFrame (p : Port) (o : FrameOutcome) (bits : Nat) : s.EventsMove (t.closeFrame p o bits) := h.updPort_same p fun _ => rfl

theorem endShortFrame (p : Port) (bits : Nat) : s.EventsMove (t.endShortFrame p bits) := by
  unfold State.endShortFrame
  split
  · exact h.closeFrame p _ bits
  · exact h.selectRises p

theorem inFrame {p : Port} {code : Byte} {target : FrameState} {view : List Byte} (hu : t.inFrame p code target view = some u) : s.EventsMove u := by
  unfold State.inFrame at hu
  split at hu
  · cases hu
    exact h.updPort_same p fun _ => rfl
  · cases hu
  · split at hu <;> cases hu
    exact h
  · split at hu <;> cases hu
    exact h

theorem shiftBytes (p : Port) (body : List Byte) : s.EventsMove (t.shiftBytes p body) := h.sameButFrame (t.shiftBytes_sameButFrame p body)

/-- To take a record's bytes is not to remove it (R177). -/
theorem takeRecord (p : Port) : s.EventsMove (t.takeRecord p) := by
  refine h.updPort_same p fun ps => ?_
  dsimp only
  split
  · rfl
  · split <;> rfl

/-- The record leaves with its eighth byte (R178). -/
theorem sendRecordByte (p : Port) : s.EventsMove (t.sendRecordByte p) := by
  refine h.updPort p ?_
  dsimp only
  split
  · exact .refl
  · split
    · dsimp only
      split
      · exact .single .removes
      · exact .refl
    · exact .refl

theorem shiftEventByte (p : Port) (b : Byte) : s.EventsMove (State.shiftEventByte p t b) := (h.takeRecord p).sendRecordByte p

theorem shiftRecord (p : Port) (n : Nat) : s.EventsMove (State.shiftRecord p n t) := by
  induction n generalizing t with
  | zero => exact h
  | succ n ih => exact ih (h.shiftEventByte p 0)

/-- A frame moves the queues as its body's bytes and its end do. -/
theorem runFrame (p : Port) (code : Byte) (target : FrameState) (view : State → List Byte) {shift : State → List Byte → State}
    {finish : State → Nat → State × FrameOutcome} (st : FrameStage) (hshift : ∀ v body, s.EventsMove v → s.EventsMove (shift v body))
    (hfinish : ∀ v bits, s.EventsMove v → s.EventsMove (finish v bits).1) : s.EventsMove (t.runFrame p code target view shift finish st) := by
  unfold State.runFrame
  cases st with
  | commandByte =>
    cases hu : t.inFrame p code target (view t) with
    | none => exact h
    | some u => exact h.inFrame hu
  | bytes body =>
    dsimp only
    split
    · exact h
    · exact hshift _ _ (h.inFrame ‹_›)
  | selectHigh body bits =>
    dsimp only
    split
    · exact h.selectRises p
    · exact (hfinish _ _ (hshift _ _ ((h.openIfWhole p).inFrame ‹_›))).closeFrame p _ bits

theorem runCommand (p : Port) (code : Byte) {act : State → List Byte → State × FrameOutcome} (st : FrameStage)
    (hact : ∀ v body, s.EventsMove v → s.EventsMove (act v body).1) : s.EventsMove (t.runCommand p code act st) := by
  refine h.runFrame p code _ _ st (fun v body hv => hv.shiftBytes p body) fun v bits hv => ?_
  split
  · exact hact _ _ hv
  · exact hv

theorem runRead (p : Port) (code : Byte) (view : State → List Byte) (st : FrameStage) : s.EventsMove (t.runRead p code view st) :=
  h.runFrame p code _ view st (fun _ body hv => hv.shiftBytes p body) fun _ _ hv => hv

theorem runReadEvents (p : Port) (st : FrameStage) : s.EventsMove (t.runReadEvents p st) := by
  refine h.runFrame p _ _ _ st (fun v body hv => ?_) fun v bits hv => ?_
  · induction body generalizing v with
    | nil => exact hv
    | cons b body ih => exact ih _ (hv.shiftEventByte p b)
  · dsimp only
    split
    · exact hv
    · exact hv.takeRecord p

/-! ## Frames that a port carries out -/

theorem acceptFrame (p : Port) (parsed : Option QueuedFrame) : s.EventsMove (t.acceptFrame p parsed).1 := by
  unfold State.acceptFrame
  repeat' split
  case h_2.isFalse.isFalse => exact h.updPort_same p fun _ => rfl
  all_goals exact h

theorem setPortAct (p : Port) (body : List Byte) : s.EventsMove (State.setPortAct p t body).1 := by
  unfold State.setPortAct
  split
  · exact h.updPort_same p fun _ => rfl
  · exact h

theorem setEngineAct (body : List Byte) : s.EventsMove (t.setEngineAct body).1 := by
  unfold State.setEngineAct
  repeat' split
  case h_2.isTrue => exact h.same rfl
  all_goals exact h

theorem openPageAct (p : Port) (body : List Byte) : s.EventsMove (State.openPageAct p t body).1 := by
  have joined (o : PageOperands) : s.EventsMove (t.appendPage p o) :=
    ((h.same (u := { t with pages := t.pages ++ [o.record p t.nextInstance], nextInstance := t.nextInstance + 1 }) rfl).sameCommands
      (State.evaluateAllocation_sameCommands _)).sameCommands (State.offerIfHead_sameCommands _ _)
  unfold State.openPageAct
  repeat' split
  case isFalse.isFalse.isFalse => exact joined _
  all_goals exact h

/-! ## Pages -/

theorem recheck (r : PageRef) : s.EventsMove (t.recheck r) := h.congr fun z => by rw [State.recheck_port]

theorem finishPage (r : PageRef) : s.EventsMove (t.finishPage r) := h.congr fun z => by rw [State.finishPage_port]

theorem blankPage (q : PageRecord) (cause : SpoilCause) (e : Event) : s.EventsMove (t.blankPage q cause e) := fun z => by
  rw [State.blankPage_port]
  exact ((h z).postIf _ e).abortWaiting _ _ z

theorem abortRecord (q : PageRecord) : s.EventsMove (t.abortRecord q) := by
  by_cases hprint : q.state = .printing
  · simp only [State.abortRecord, hprint]
    exact h.blankPage _ _ _
  · obtain ⟨u, hu, habort⟩ := t.abortRecord_removes hprint
    rw [habort]
    refine fun z => ?_
    rw [State.afterRemoval_port, hu.events]
    exact ((h z).postIf _ _).abortWaiting _ _ z

theorem abortPageAct (p : Port) (body : List Byte) : s.EventsMove (State.abortPageAct p t body).1 := by
  unfold State.abortPageAct
  repeat' split
  case h_2.isFalse => exact h.abortRecord _
  all_goals exact h

theorem spoil (r : PageRef) (cause : SpoilCause) : s.EventsMove (t.spoil r cause) := by
  unfold State.spoil
  split
  · exact h
  · split
    · exact h.blankPage _ _ _
    · exact h.postAll _ _
    · exact h

theorem leaveRecord (q : PageRecord) (p : Port) : s.EventsMove (t.leaveRecord q p) := fun z => by
  rw [State.leaveRecord_port]
  exact (h z).postIf _ _

theorem resetRecord (p : Port) (r : PageRef) : s.EventsMove (State.resetRecord p t r) := by
  rcases State.resetRecord_cases p t r with ⟨hr, -⟩ | ⟨q, -, -, -, -, hr⟩ | ⟨q, -, -, -, hr⟩
  · rwa [hr]
  · rw [hr]
    exact h.leaveRecord q p
  · refine fun z => ?_
    rw [hr.port]
    exact (h z).abortWaiting _ _ z

/-- PORT RESET empties its port's queue (R196). -/
theorem silenced (p : Port) : s.EventsMove (t.silenced p) := by
  unfold State.silenced
  refine updPort ?_ p ?_
  · exact h.same rfl
  · exact .single .empties

theorem resetPort (p : Port) : s.EventsMove (t.resetPort p) :=
  State.resetPort_induct t (h.silenced p) (fun _ r hv => hv.resetRecord p r) fun _ hv => hv.same rfl

/-! ## The Raster Unit and the Clear Unit -/

theorem finishEntry (p : Port) (e : Option Event) : s.EventsMove (t.finishEntry p e) := fun z => by
  by_cases hz : z = p
  · subst hz
    rw [State.finishEntry_port]
    exact (h z).postMaybe e
  · obtain rfl := Port.eq_other_of_ne hz
    rw [State.finishEntry_port_other]
    exact h p.other

theorem setHeadLife (p : Port) (life : LifeState) : s.EventsMove (t.setHeadLife p life) := h.updPort_same p fun _ => rfl

theorem startExecution (p : Port) (e : Entry) (slot : Option Nat) (clip : Option Clip) (rows rowWords line : Nat) :
    s.EventsMove (t.startExecution p e slot clip rows rowWords line) := (h.setHeadLife p .executing).same rfl

theorem beginBandCommand (p : Port) (e : Entry) (i : Nat) (k : BandRecord) : s.EventsMove (t.beginBandCommand p e i k) := by
  unfold State.beginBandCommand
  split
  · exact h.finishEntry p _
  · split
    · exact h.startExecution p e _ _ _ _ _
    · split
      · exact h.finishEntry p _
      · exact h.startExecution p e _ _ _ _ _

theorem grantBand (p : Port) (e : Entry) (r : PageRef) (b : Nat) : s.EventsMove (t.grantBand p e r b) := by
  unfold State.grantBand
  split
  · exact h.finishEntry p _
  · exact h.setHeadLife p _
  · rename_i i _
    split
    · exact (h.sameCommands (t.closeClaim_sameCommands p i)).finishEntry p _
    · split
      · exact h.beginBandCommand p e i _
      · exact h

theorem grantLeave (p : Port) (e : Entry) (r : PageRef) : s.EventsMove (t.grantLeave p e r) := by
  unfold State.grantLeave
  repeat' split
  case h_2.isFalse.isFalse.isFalse => exact (h.leaveRecord _ p).finishEntry p _
  all_goals exact h.finishEntry p _

theorem grant (p : Port) (e : Entry) : s.EventsMove (t.grant p e) := by
  unfold State.grant
  cases e.op with
  | mark v => exact h.finishEntry p _
  | loadTile n => exact h.startExecution p e _ _ _ _ _
  | leavePage =>
    cases e.page with
    | none => exact h
    | some r => exact h.grantLeave p e r
  | fill | putBits | copy | closeBand | sumBand =>
    cases e.page with
    | none => exact h
    | some r =>
      cases e.band with
      | none => exact h
      | some b => exact h.grantBand p e r b

theorem consider : s.EventsMove t.consider := by
  unfold State.consider
  split
  · exact h
  · split
    · exact h
    · exact h.grant _ _

theorem commandEndClaim (x : ExecRecord) : s.EventsMove (t.commandEndClaim x) := fun z => by
  obtain ⟨-, hevents, hother⟩ := t.commandEndClaim_port x
  by_cases hz : z = x.port
  · subst hz
    rw [hevents]
    exact (h x.port).postMaybe _
  · obtain rfl := Port.eq_other_of_ne hz
    rw [hother]
    exact h x.port.other

theorem endCommand : s.EventsMove t.endCommand := by
  unfold State.endCommand
  split
  · exact h
  · exact (h.same (t.finishWork_commands .a).1).commandEndClaim _

theorem endClear : s.EventsMove t.endClear := by
  have taken : s.EventsMove { t with clearClaims := t.clearClaims.tail } := h.same rfl
  unfold State.endClear
  dsimp only
  split
  · exact taken
  · rename_i c _
    rcases State.takeClearClaim_cases { t with clearClaims := t.clearClaims.tail } c with hc | ⟨k, -, -, hc⟩ <;> rw [hc]
    · exact taken
    · refine ((same taken ?_).postAll _ _).recheck _
      rw [State.clearWords_eq]
      rfl

/-! ## The Streamer -/

theorem takeTop : s.EventsMove t.takeTop := by
  unfold State.takeTop
  split
  · rename_i r _
    split
    · exact h
    · have started : s.EventsMove (t.started r) := h.same rfl
      dsimp only
      split
      · exact started.postAll _ _
      · exact started
  · exact h.postAll _ _

theorem notReady (q : PageRecord) : s.EventsMove (t.notReady q) := by
  unfold State.notReady
  split
  · exact (h.blankPage q _ _).same rfl
  · exact h.same rfl

theorem nextLine (q : PageRecord) : s.EventsMove (t.nextLine q) := by
  unfold State.nextLine
  split
  · cases hb : t.startBand q.ref q.nextToStream with
    | none => exact h.notReady q
    | some v => exact h.sameCommands (t.startBand_sameCommands hb)
  · split
    · exact h.same rfl
    · exact h.notReady q

theorem requestLine (r : PageRef) : s.EventsMove (t.requestLine r) := by
  unfold State.requestLine
  split
  · exact h
  · split
    · exact h.same rfl
    · exact h.nextLine _

theorem takeLreq : s.EventsMove t.takeLreq := by
  unfold State.takeLreq
  split
  case h_1 | h_2 => exact h.postAll _ _
  case h_3 => exact h.requestLine _
  case h_4 | h_5 | h_6 => exact h.spoil _ _
  case h_7 => exact h

theorem copyEnd (q : PageRecord) : s.EventsMove (t.copyEnd q) := by
  unfold State.copyEnd
  split
  · exact h.same rfl
  · exact (h.postAll _ _).finishPage _

theorem endLine (r : PageRef) (source : LineSource) : s.EventsMove (t.endLine r source) := by
  cases hq : t.findPage r with
  | none => simpa only [State.endLine, hq] using h
  | some q =>
    obtain ⟨-, rfl⟩ := State.findPage_some hq
    have counted := h.sameCommands (t.lineCounted_sameCommands q source)
    rw [State.endLine_eq hq]
    split
    · split
      · exact counted.finishPage _
      · exact counted.copyEnd q
    · exact counted.same rfl

theorem takeLack : s.EventsMove t.takeLack := by
  have noted (v : State) (hv : s.EventsMove v) : s.EventsMove v.markEarly := by
    unfold State.markEarly
    split
    · exact hv.same rfl
    · exact hv
  unfold State.takeLack
  split
  · exact noted _ (h.spoil _ _)
  · exact (h.spoil _ _).endLine _ _
  · exact h.endLine _ _
  · exact h.postAll _ _

theorem takeEarlyEnd : s.EventsMove t.takeEarlyEnd := by
  unfold State.takeEarlyEnd
  split
  · rename_i r line _
    split
    · exact (h.same (u := t.sendWords r line.source line.word line.word) rfl).endLine _ _
    · exact h
  · exact h

theorem takeWindowExpiry : s.EventsMove t.takeWindowExpiry := by
  unfold State.takeWindowExpiry
  split
  · exact (h.spoil _ _).endLine _ _
  · exact h

theorem forceClose (q : PageRecord) (i : Nat) (k : BandRecord) : s.EventsMove (t.forceClose q i k) := by
  unfold State.forceClose
  split
  · exact h
  · split
    · exact (h.same (u := t.setSlot i (.held .opened { k with forcePending := true })) rfl).postAll _ _
    · exact (h.postAll _ _).sameCommands (State.openToReady_sameCommands _ i true)

theorem expiryClaim (q : PageRecord) (b : Nat) : s.EventsMove (t.expiryClaim q b) := by
  unfold State.expiryClaim
  split
  · exact h.spoil _ _
  · split
    · exact h.forceClose q _ _
    · exact h.spoil _ _
    · exact h

theorem takeStarvationExpiry : s.EventsMove t.takeStarvationExpiry := by
  unfold State.takeStarvationExpiry
  split
  · rename_i r b _ _
    split
    · exact h
    · exact (h.same (u := { t with streamer := .starved r b t.starvationPeriods true }) rfl).expiryClaim _ b
  · exact h

/-- An engine input that `take` answers when it is an assertion (R134). -/
theorem asserted (pins : Pins) (b : Bool) {take : State → State} (htake : ∀ v, s.EventsMove v → s.EventsMove (take v)) :
    s.EventsMove (if b then take { t with pins := pins } else { t with pins := pins }) := by
  have set : s.EventsMove { t with pins := pins } := h.same rfl
  split
  · exact htake _ set
  · exact set

end State.EventsMove

/-! ## What posts nothing -/

section ports

variable (s : State)

theorem State.takeHeld_ports (k : Nat) : (s.takeHeld k).ports = s.ports := by
  unfold State.takeHeld
  split
  · split <;> rfl
  · rfl

theorem State.takeHoldLow_ports : s.takeHoldLow.ports = s.ports := by
  unfold State.takeHoldLow
  split <;> rfl

theorem State.takeLastBit_ports : s.takeLastBit.ports = s.ports := by
  unfold State.takeLastBit
  split
  · split <;> rfl
  · rfl

theorem State.takeTailSent_ports : s.takeTailSent.ports = s.ports := by
  unfold State.takeTailSent
  split <;> rfl

theorem State.tick_ports : s.tick.ports = s.ports := by
  obtain ⟨_, _, _, _, _, htick⟩ := s.tick_frame
  rw [htick, State.worked_eq]

theorem State.postDue_ports (c : Instr) (rest : List Instr) : (s.postDue c rest).ports = s.ports := by
  unfold State.postDue
  rw [State.settleClaim_ports]
  split <;> rfl

end ports

/-! ## Every command and every step -/

/-- What a command can do to the event queues. -/
theorem exec_eventsMove (c : Instr) {s t : State} (h : s.EventsMove t) : Answer.Keeps s.EventsMove (exec c t) := by
  cases c with
  | deviceReset => exact fun z => by rw [State.deviceReset_port]; exact (h z).tail .empties
  | frameResultByte p => exact h.selectFalls p
  | badFrame p bits => exact (h.openIfWhole p).endShortFrame p bits
  | unknownCommand p code st => exact h.runFrame p code _ _ st (fun _ body hv => hv.shiftBytes p body) fun _ _ hv => hv
  | readStatus p st | readPages p st | readBands p st => exact h.runRead p _ _ st
  | readEvents p st => exact h.runReadEvents p st
  | eventRecordRemoval p =>
    show s.EventsMove (if t.readingEvents p then State.shiftRecord p (t.recordBytesLeft p) t else t)
    split
    · exact h.shiftRecord p _
    · exact h
  | nop p st => exact h.runCommand p _ st fun _ _ hv => hv
  | openPage p st => exact h.runCommand p _ st fun _ body hv => hv.openPageAct p body
  | abortPage p st => exact h.runCommand p _ st fun _ body hv => hv.abortPageAct p body
  | setEngine p st => exact h.runCommand p _ st fun _ body hv => hv.setEngineAct body
  | setPort p st => exact h.runCommand p _ st fun _ body hv => hv.setPortAct p body
  | portReset p st => exact h.runCommand p _ st fun _ _ hv => hv.resetPort p
  | fill p st | putBits p st | copy p st | loadTile p st | closeBand p st | leavePage p st | mark p st | sumBand p st =>
    exact h.runCommand p _ st fun _ _ hv => hv.acceptFrame p _
  | consideration => exact h.consider
  | commandEnd =>
    show Answer.Keeps s.EventsMove (if t.addressesExist then .next t.endCommand else .fault .bandRamAddress)
    split
    · exact h.endCommand
    · trivial
  | clearCompletion =>
    show Answer.Keeps s.EventsMove (if t.addressesExist then .next t.endClear else .fault .bandRamAddress)
    split
    · exact h.endClear
    · trivial
  | top level => exact h.asserted _ _ fun _ hv => hv.takeTop
  | lreq level => exact h.asserted _ _ fun _ hv => hv.takeLreq
  | lack level => exact h.asserted _ _ fun _ hv => hv.takeLack
  | held moment =>
    cases moment with
    | rises => exact h.same rfl
    | wordEnd k => exact h.same (t.takeHeld_ports k)
  | holdLow => exact h.same (State.takeHoldLow_ports { t with pins := { t.pins with hold := false } })
  | lastBitSent => exact h.same t.takeLastBit_ports
  | earlyLackWordEnd => exact h.takeEarlyEnd
  | acknowledgeWindowExpiry => exact h.takeWindowExpiry
  | starvationTimerExpiry => exact h.takeStarvationExpiry
  | prdyReassert | resetnRises => exact h.same rfl
  | wordInFlightSent => exact h.same t.takeTailSent_ports

/-- What a step can do to the event queues. -/
theorem step_eventsMove (s : State) : Answer.Keeps s.EventsMove (step s) := by
  unfold Machine.step
  split
  · exact exec_eventsMove _ ((State.EventsMove.refl s).same rfl)
  · unfold State.idle
    split
    · exact .refl s
    · split
      · exact (State.EventsMove.refl s).same (s.postDue_ports _ _)
      · split
        · exact (State.EventsMove.refl s).same s.tick_ports
        · trivial

/-- Settles O54: a step moves the queues, and every move keeps R175's law. -/
theorem stepsKeepEventQueuesLawful : Obligations.StepsKeepEventQueuesLawful := fun s _ hs ht =>
  ((step_eventsMove s).of_next ht).keeps_law hs

end Sys2Proof.Machine
end

