-- ==== Sys2Proof/Proofs/ReadEvents.lean ====
section
/-! READ EVENTS and EVENT RECORD REMOVAL: the records leave in queue order, each removed with its eighth byte (R177, R178, R179, R185). -/

namespace Sys2Proof.Machine

/-! ## One byte of a record, seen from its port -/

/-- What READ EVENTS shows next, at the boundary of two records: the record at the head of the queue, or NONE (R177, R179). -/
def nextRecord (events : List Event) : List Byte := (events.head?.map Event.bytes).getD (List.replicate 8 0)

/-- The port with a record taken, if it has none under way (R177). -/
def PortState.recordTaken (ps : PortState) : PortState :=
  match ps.assembler.record with
  | some _ => ps
  | none =>
    { ps with assembler := { ps.assembler with outData := nextRecord ps.events, record := some { sent := 0, real := !ps.events.isEmpty } } }

/-- The port when a byte of the record `r` has left, that is not its eighth. -/
def PortState.byteSent (ps : PortState) (r : RecordOut) : PortState :=
  { ps with
    asdo := ps.asdo ++ [ps.assembler.outData.headD 0],
    assembler := { ps.assembler with outData := ps.assembler.outData.tail, count := ps.assembler.count + 1, record := some { r with sent := r.sent + 1 } } }

/-- And when its eighth byte has: a record of the queue is removed (R178). -/
def PortState.recordSent (ps : PortState) (r : RecordOut) : PortState :=
  { ps with
    asdo := ps.asdo ++ [ps.assembler.outData.headD 0],
    events := if r.real then ps.events.tail else ps.events,
    assembler := { ps.assembler with outData := [], count := ps.assembler.count + 1, record := none } }

theorem State.takeRecord_eq (s : State) (p : Port) : s.takeRecord p = s.updPort p PortState.recordTaken := by
  unfold State.takeRecord
  congr 1
  funext ps
  unfold PortState.recordTaken
  cases ps.assembler.record with
  | some r => rfl
  | none => cases ps.events <;> rfl

/-- One byte of a READ EVENTS body. -/
def PortState.eventByte (ps : PortState) : PortState :=
  match ps.recordTaken.assembler.record with
  | none => ps.recordTaken
  | some r => if 8 ≤ r.sent + 1 then ps.recordTaken.recordSent r else ps.recordTaken.byteSent r

theorem State.shiftEventByte_eq (s : State) (p : Port) (b : Byte) : State.shiftEventByte p s b = s.updPort p PortState.eventByte := by
  unfold State.shiftEventByte
  rw [State.takeRecord_eq]
  unfold State.sendRecordByte
  exact State.updPort_updPort s p _ _

/-- The bytes of a READ EVENTS body, whatever stands on ASDI (R197). -/
theorem State.foldl_shiftEventByte (p : Port) (body : List Byte) (s : State) :
    body.foldl (State.shiftEventByte p) s = s.updPort p PortState.eventByte^[body.length] := by
  induction body generalizing s with
  | nil => exact (s.updPort_id p).symm
  | cons b body ih =>
    rw [List.foldl_cons, ih, State.shiftEventByte_eq, State.updPort_updPort]
    rfl

theorem State.shiftRecord_eq (p : Port) (n : Nat) (s : State) : State.shiftRecord p n s = s.updPort p PortState.eventByte^[n] := by
  induction n generalizing s with
  | zero => exact (s.updPort_id p).symm
  | succ n ih =>
    rw [State.shiftRecord, ih, State.shiftEventByte_eq, State.updPort_updPort]
    rfl

/-! ## The record under way -/

section record

variable {ps : PortState}

theorem PortState.recordTaken_of_some {r : RecordOut} (h : ps.assembler.record = some r) : ps.recordTaken = ps := by
  simp only [PortState.recordTaken, h]

theorem PortState.recordTaken_of_none (h : ps.assembler.record = none) : ps.recordTaken =
    { ps with assembler := { ps.assembler with outData := nextRecord ps.events, record := some { sent := 0, real := !ps.events.isEmpty } } } := by
  simp only [PortState.recordTaken, h]

/-- The first byte of a record takes it. -/
theorem PortState.eventByte_recordTaken (ps : PortState) : ps.recordTaken.eventByte = ps.eventByte := by
  have htaken : ps.recordTaken.recordTaken = ps.recordTaken := by
    cases h : ps.assembler.record with
    | some r => rw [PortState.recordTaken_of_some h, PortState.recordTaken_of_some h]
    | none =>
      refine PortState.recordTaken_of_some (r := { sent := 0, real := !ps.events.isEmpty }) ?_
      rw [PortState.recordTaken_of_none h]
  rw [PortState.eventByte, htaken]
  rfl

theorem PortState.eventByte_of_lt {r : RecordOut} (h : ps.assembler.record = some r) (hr : r.sent + 1 < 8) : ps.eventByte = ps.byteSent r := by
  simp only [PortState.eventByte, PortState.recordTaken_of_some h, h, Nat.not_le.2 hr, if_false]

theorem PortState.eventByte_of_last {r : RecordOut} (h : ps.assembler.record = some r) (hr : 8 ≤ r.sent + 1) : ps.eventByte = ps.recordSent r := by
  simp only [PortState.eventByte, PortState.recordTaken_of_some h, h, hr, if_true]

/-- The rest of a record leaves, and with it the record (R178). -/
theorem PortState.eventByte_rest {k : Nat} {real : Bool} (h : ps.assembler.record = some { sent := k, real := real }) (hk : k < 8)
    (hout : ps.assembler.outData.length = 8 - k) :
    PortState.eventByte^[8 - k] ps =
      { ps with
        events := if real then ps.events.tail else ps.events,
        asdo := ps.asdo ++ ps.assembler.outData,
        assembler := { ps.assembler with outData := [], count := ps.assembler.count + (8 - k), record := none } } := by
  obtain ⟨n, hn⟩ : ∃ n, 8 - k = n + 1 := ⟨7 - k, by omega⟩
  rw [hn] at hout ⊢
  induction n generalizing ps k with
  | zero =>
    obtain ⟨b, hb⟩ := List.length_eq_one_iff.1 hout
    rw [Function.iterate_one, PortState.eventByte_of_last h (by dsimp only; omega), PortState.recordSent, hb]
    rfl
  | succ n ih =>
    obtain ⟨b, out, hb⟩ := List.exists_cons_of_length_eq_add_one hout
    rw [Function.iterate_succ_apply, PortState.eventByte_of_lt h (by dsimp only; omega)]
    have hrest : (ps.byteSent { sent := k, real := real }).assembler.outData = out := congrArg List.tail hb
    have hlen : out.length = n + 1 := by simpa [hb] using hout
    rw [ih (k := k + 1) rfl (by omega) (by rwa [hrest]) (by omega), hrest]
    simp only [PortState.byteSent, hb, List.headD_cons, List.tail_cons, List.append_assoc, List.singleton_append, Nat.add_assoc, Nat.add_comm 1]

theorem nextRecord_length (events : List Event) : (nextRecord events).length = 8 := by cases events <;> rfl

/-- A whole record leaves: the one at the head of the queue, or NONE (R178, R179). -/
theorem PortState.eventByte_record (h : ps.assembler.record = none) :
    PortState.eventByte^[8] ps =
      { ps with
        events := ps.events.tail,
        asdo := ps.asdo ++ nextRecord ps.events,
        assembler := { ps.assembler with outData := [], count := ps.assembler.count + 8, record := none } } := by
  have hfirst : PortState.eventByte^[8] ps = PortState.eventByte^[8 - 0] ps.recordTaken := by
    rw [Function.iterate_succ_apply, ← PortState.eventByte_recordTaken]
    rfl
  have htail : (if !ps.events.isEmpty then ps.events.tail else ps.events) = ps.events.tail := by cases ps.events <;> rfl
  rw [hfirst, PortState.recordTaken_of_none h]
  exact (PortState.eventByte_rest (k := 0) rfl (by decide) (nextRecord_length _)).trans (by simp only [htail])

end record

/-! ## The records in their order -/

theorem Event.bytes_length (e : Event) : e.bytes.length = 8 := rfl

/-- The next byte that READ EVENTS shows, `n` bytes into the records, is the records' byte, or 00H behind them (R177, R179). -/
theorem nextRecord_byte (events : List Event) (n : Nat) :
    ((nextRecord (events.drop (n / 8))).drop (n % 8)).headD 0 = (events.flatMap Event.bytes).getD n 0 := by
  induction events generalizing n with
  | nil =>
    rw [List.drop_nil]
    show ((List.replicate 8 0).drop (n % 8)).headD 0 = 0
    rw [List.drop_replicate]
    cases 8 - n % 8 <;> rfl
  | cons e events ih =>
    rw [List.flatMap_cons]
    rcases Nat.lt_or_ge n 8 with hn | hn
    · rw [Nat.div_eq_of_lt hn, Nat.mod_eq_of_lt hn, List.getD_append _ _ _ _ (by rwa [e.bytes_length]), List.headD_eq_head?_getD, List.head?_drop]
      rfl
    · obtain ⟨m, rfl⟩ := Nat.exists_eq_add_of_le' hn
      rw [List.getD_append_right _ _ _ _ (by rw [e.bytes_length]; omega), e.bytes_length, Nat.add_sub_cancel, ← ih, Nat.add_mod_right,
        Nat.add_div_right m (by decide)]
      rfl

theorem shownBytes_eq_map (view : List Byte) (n : Nat) : shownBytes view n = (List.range n).map fun i => view.getD i 0 := by
  refine List.ext_getElem (by simp [shownBytes]) fun i h1 h2 => ?_
  by_cases hi : i < view.length
  · simp [shownBytes, List.getElem_append_left, hi]
  · simp [shownBytes, List.getElem_append_right, Nat.not_lt.1 hi]

theorem shownBytes_succ (view : List Byte) (n : Nat) : shownBytes view (n + 1) = shownBytes view n ++ [view.getD n 0] := by
  rw [shownBytes_eq_map, shownBytes_eq_map, List.range_succ, List.map_append]
  rfl

/-- `n` bytes into a READ EVENTS body, with the record of the next byte taken: `n / 8` records have been removed (R177, R178, R179). -/
theorem PortState.eventByte_iterate {ps : PortState} (hrecord : ps.assembler.record = none) (n : Nat) :
    (PortState.eventByte^[n] ps).recordTaken =
      { ps with
        events := ps.events.drop (n / 8),
        asdo := ps.asdo ++ shownBytes (ps.events.flatMap Event.bytes) n,
        assembler := { ps.assembler with
          outData := (nextRecord (ps.events.drop (n / 8))).drop (n % 8), count := ps.assembler.count + n,
          record := some { sent := n % 8, real := !(ps.events.drop (n / 8)).isEmpty } } } := by
  induction n with
  | zero =>
    rw [Function.iterate_zero_apply, PortState.recordTaken_of_none hrecord]
    simp [shownBytes]
  | succ n ih =>
    rw [Function.iterate_succ_apply', ← PortState.eventByte_recordTaken, ih]
    have hbyte := nextRecord_byte ps.events n
    by_cases hlast : n % 8 + 1 < 8
    · have hdiv : (n + 1) / 8 = n / 8 := by omega
      have hmod : (n + 1) % 8 = n % 8 + 1 := by omega
      rw [PortState.eventByte_of_lt rfl hlast, PortState.recordTaken_of_some rfl]
      simp only [PortState.byteSent, hbyte, hdiv, hmod, shownBytes_succ, List.tail_drop, List.append_assoc, Nat.add_assoc]
    · have hdiv : (n + 1) / 8 = n / 8 + 1 := by omega
      have hmod : (n + 1) % 8 = 0 := by omega
      have htail : (if !(ps.events.drop (n / 8)).isEmpty then (ps.events.drop (n / 8)).tail else ps.events.drop (n / 8)) =
          ps.events.drop (n / 8 + 1) := by
        rw [← List.tail_drop]
        cases ps.events.drop (n / 8) <;> rfl
      rw [PortState.eventByte_of_last rfl (Nat.not_lt.1 hlast), PortState.recordTaken_of_none rfl]
      simp only [PortState.recordSent, hbyte, hdiv, hmod, htail, shownBytes_succ, List.drop_zero, List.append_assoc, Nat.add_assoc]

/-! ## The whole frame -/

theorem State.updPort_congr {s : State} {p : Port} {f g : PortState → PortState} (h : f (s.port p) = g (s.port p)) : s.updPort p f = s.updPort p g := by
  unfold State.port at h
  unfold State.updPort
  rw [h]

/-- A whole frame is its bytes behind the command byte and its end (R186). -/
theorem State.runFrame_whole {s : State} {p : Port} (h : s.canOpen p = true) (code : Byte) (target : FrameState) (view : State → List Byte)
    (shift : State → List Byte → State) (finish : State → Nat → State × FrameOutcome) (body : List Byte) (bits : Nat) :
    s.runFrame p code target view shift finish (.selectHigh body bits) =
      let u := shift ((s.openFrame p).takeCommandByte p code target (view (s.openFrame p))) body
      (finish u bits).1.closeFrame p (finish u bits).2 bits := by
  have hin : (s.openFrame p).inFrame p code target (view (s.openFrame p)) =
      some ((s.openFrame p).takeCommandByte p code target (view (s.openFrame p))) := by
    have hstate : ((s.openFrame p).port p).assembler.state = .command := by simp [State.openFrame]
    simp only [State.inFrame, hstate]
  simp only [State.runFrame, State.openIfWhole_of_canOpen h, hin]

/-- The port when the command byte of READ EVENTS has been taken, with the frame result byte driven (R186, R190). -/
def PortState.readBegun (ps : PortState) (result : Byte) : PortState :=
  { ps with
    selectHigh := false, asdo := [result], asdoBits := [],
    assembler := { FrameAssembler.empty with state := .body, commandByte := some 0x22, outData := [] } }

theorem State.takeCommandByte_readEvents (s : State) (p : Port) :
    (s.openFrame p).takeCommandByte p 0x22 .body [] = s.updPort p fun ps => ps.readBegun (s.frameResultByte p) := by
  cases p <;> rfl

/-- A frame that ends on a byte ends alike with the next record taken and without: the assembler is emptied (R177, R187). -/
theorem State.closeFrame_takeRecord (s : State) (p : Port) (o : FrameOutcome) : (s.takeRecord p).closeFrame p o 0 = s.closeFrame p o 0 := by
  rw [State.takeRecord_eq]
  refine (State.updPort_updPort s p _ _).trans (State.updPort_congr ?_)
  cases h : (s.port p).assembler.record with
  | some r => rw [PortState.recordTaken_of_some h]
  | none => rw [PortState.recordTaken_of_none h]; rfl

theorem State.runReadEvents_whole {s : State} {p : Port} (h : s.canOpen p = true) (body : List Byte) (bits : Nat) :
    s.runReadEvents p (.selectHigh body bits) =
      ((s.updPort p fun ps => PortState.eventByte^[body.length] (ps.readBegun (s.frameResultByte p))).takeRecord p).closeFrame p .ok bits := by
  unfold State.runReadEvents
  rw [State.runFrame_whole h, State.takeCommandByte_readEvents]
  dsimp only
  rw [State.foldl_shiftEventByte, State.updPort_updPort]
  split
  · rename_i hbits
    rw [hbits, State.closeFrame_takeRecord]
  · rfl

/-- The whole frame shows the records in their order, and the records shown whole have been removed (R177, R178, R179, R185). -/
theorem exec_readEvents {s : State} {p : Port} (h : s.canOpen p = true) (body : List Byte) (bits : Nat) :
    exec (.readEvents p (.selectHigh body bits)) s =
      .next (s.framed (s.updPort p fun ps => { ps with events := ps.events.drop (body.length / 8) }) p .ok
        (shownBytes ((s.port p).events.flatMap Event.bytes) body.length) (looseBits ((s.port p).events.flatMap Event.bytes) body.length bits)) := by
  refine congrArg Host.Outcome.next ((State.runReadEvents_whole h body bits).trans ?_)
  rw [State.takeRecord_eq, State.framed, State.closeFrame]
  simp only [State.updPort_updPort]
  refine State.updPort_congr ?_
  have hbegun : ((s.port p).readBegun (s.frameResultByte p)).assembler.record = none := rfl
  rw [PortState.eventByte_iterate hbegun]
  dsimp only
  rw [nextRecord_byte]
  rfl

/-! ## A removal on its own -/

section removal

variable {s : State} {p : Port} (hstate : (s.port p).assembler.state = .body) (hbyte : (s.port p).assembler.commandByte = some 0x22)
include hstate hbyte

/-- In a READ EVENTS frame the bytes left of the record under way, or of the next one, are shifted (R178; log 8). -/
theorem exec_eventRecordRemoval :
    exec (.eventRecordRemoval p) s = .next (s.updPort p PortState.eventByte^[s.recordBytesLeft p]) := by
  have hreading : s.readingEvents p = true := by simp only [State.readingEvents, hstate, hbyte, decide_true, Bool.and_self]
  rw [← State.shiftRecord_eq]
  exact congrArg Host.Outcome.next (if_pos hreading)

theorem exec_eventRecordRemoval_between (hrecord : (s.port p).assembler.record = none) :
    exec (.eventRecordRemoval p) s = .next (s.updPort p fun ps =>
      { ps with
        events := ps.events.tail, asdo := ps.asdo ++ nextRecord ps.events,
        assembler := { ps.assembler with outData := [], count := ps.assembler.count + 8, record := none } }) := by
  have hleft : s.recordBytesLeft p = 8 := by simp only [State.recordBytesLeft, hrecord]
  rw [exec_eventRecordRemoval hstate hbyte, hleft]
  exact congrArg Host.Outcome.next (State.updPort_congr (PortState.eventByte_record hrecord))

theorem exec_eventRecordRemoval_within {k : Nat} {real : Bool} (hrecord : (s.port p).assembler.record = some { sent := k, real := real }) (hk : k < 8)
    (hout : (s.port p).assembler.outData.length = 8 - k) :
    exec (.eventRecordRemoval p) s = .next (s.updPort p fun ps =>
      { ps with
        events := if real then ps.events.tail else ps.events, asdo := ps.asdo ++ ps.assembler.outData,
        assembler := { ps.assembler with outData := [], count := ps.assembler.count + (8 - k), record := none } }) := by
  have hleft : s.recordBytesLeft p = 8 - k := by simp only [State.recordBytesLeft, hrecord]
  rw [exec_eventRecordRemoval hstate hbyte, hleft]
  exact congrArg Host.Outcome.next (State.updPort_congr (PortState.eventByte_rest hrecord hk hout))

end removal

/-- Settles O12. -/
theorem readEventsRemovesWhatItShows : Obligations.ReadEventsRemovesWhatItShows :=
  ⟨fun _ body bits _ hopen => exec_readEvents hopen body bits, fun _ _ hstate hbyte =>
    ⟨exec_eventRecordRemoval_between hstate hbyte, fun _ _ => exec_eventRecordRemoval_within hstate hbyte⟩⟩

end Sys2Proof.Machine
end

