-- ==== Sys2Proof/Proofs/PortEnable.lean ====
section
/-! SET PORT: the interrupt enable it writes, and the interrupt output that follows it (R180, R181, R200). -/

namespace Sys2Proof.Machine

/-- Port `p` with its interrupt enable set to `b` (R181). -/
def State.withEnable (s : State) (p : Port) (b : Bool) : State := s.updPort p fun ps => { ps with interruptEnable := b }

/-! ## The claim -/

section act

variable {s : State} {p : Port} {v : Byte}

/-- Of the values 0 and 1, 1 is the one with bit 0 set. -/
theorem getLsbD_zero_of_le_one (h : v.toNat ≤ 1) : v.getLsbD 0 = decide (v = 1) := by
  have hone : v = 1 ↔ v.toNat = 1 := (BitVec.toNat_inj (y := 1)).symm
  rw [BitVec.getLsbD, Nat.testBit_zero]
  exact decide_eq_decide.2 (by rw [hone]; omega)

theorem State.setPortAct_taken (h : v.toNat ≤ 1) : State.setPortAct p s [v] = (s.withEnable p (decide (v = 1)), .ok) := by
  rw [← getLsbD_zero_of_le_one h]
  exact if_pos h

theorem State.setPortAct_badParam (h : 2 ≤ v.toNat) : State.setPortAct p s [v] = (s, .badParam) := if_neg (Nat.not_le.2 h)

end act

/-! ## The frame -/

/-- The enable is written in the frame as it is without it, and the end of the frame leaves its marks (R181, R187). -/
theorem State.closeFrame_withEnable_shifted (s : State) (p : Port) (code : Byte) (body : List Byte) (b : Bool) :
    ((s.shifted p code body).withEnable p b).closeFrame p .ok 0 = s.framed (s.withEnable p b) p .ok (List.replicate body.length 0) := by
  have hasdo := s.shifted_asdo p code body
  obtain ⟨_, _, _, _, hframe⟩ := s.shifted_sameButFrame p code body
  rw [hframe, State.updPort_port_same] at hasdo
  dsimp only at hasdo
  subst hasdo
  rw [hframe]
  unfold State.closeFrame State.framed State.withEnable
  simp only [State.updPort_updPort]
  rfl

section frame

variable {s : State} {p : Port} {v : Byte} (hopen : s.canOpen p = true)
include hopen

theorem exec_setPort : exec (.setPort p (.selectHigh [v] 0)) s =
    .next ((State.setPortAct p (s.shifted p 0x33 [v]) [v]).1.closeFrame p (State.setPortAct p (s.shifted p 0x33 [v]) [v]).2 0) := by
  obtain ⟨hstored, hform⟩ := s.shifted_of_frameLength p (code := 0x33) (body := [v]) rfl (by simp)
  exact congrArg _ (State.runCommand_whole _ hopen hform hstored)

theorem exec_setPort_taken (h : v.toNat ≤ 1) :
    exec (.setPort p (.selectHigh [v] 0)) s = .next (s.framed (s.withEnable p (decide (v = 1))) p .ok [0]) := by
  rw [exec_setPort hopen, State.setPortAct_taken h]
  exact congrArg _ (s.closeFrame_withEnable_shifted p 0x33 [v] _)

theorem exec_setPort_badParam (h : 2 ≤ v.toNat) : exec (.setPort p (.selectHigh [v] 0)) s = .next (s.framed s p .badParam [0]) := by
  rw [exec_setPort hopen, State.setPortAct_badParam h]
  refine congrArg _ (Eq.trans ?_ (s.closeFrame_shifted p 0x33 [v] .badParam s rfl))
  rw [← (s.shifted_sameButFrame p 0x33 [v]).eq]

end frame

/-! ## The interrupt output -/

/-- A frame's marks are not of the interrupt (R180). -/
theorem State.framed_interruptAsserted (s t : State) (p z : Port) (o : FrameOutcome) (shown : List Byte) (loose : List Bool) :
    (s.framed t p o shown loose).interruptAsserted z = t.interruptAsserted z := by
  cases p <;> cases z <;> rfl

/-- Settles O20. -/
theorem setPortWritesTheEnable : Obligations.SetPortWritesTheEnable := by
  refine fun p v s hopen => ⟨exec_setPort_badParam hopen, fun hv => ⟨_, exec_setPort_taken hopen hv, rfl, ?_, ?_⟩⟩
  · rw [State.framed_interruptAsserted, State.interruptAsserted, State.withEnable, State.updPort_port_same]
  · rw [State.framed_interruptAsserted, State.interruptAsserted, State.withEnable, State.updPort_port_other]
    rfl

end Sys2Proof.Machine
end

