-- ==== Sys2Proof/Proofs/FramesInParts.lean ====
section
/-! The stages of a frame: what each byte and each stage does, and the frame sent in parts (R185 to R187; log 1, 2). -/

namespace Sys2Proof.Machine

/-! ## Runs of bytes -/

/-- The fields of the assembler that say which frame is in progress (R186). -/
def FrameAssembler.inProgress (a : FrameAssembler) : FrameState × Option Byte := (a.state, a.commandByte)

/-- How a frame of port `p` takes the bytes of its body: run by run, whatever the runs, and the same frame stays in progress (R186). -/
structure TakesRuns (p : Port) (shift : State → List Byte → State) : Prop where
  append : ∀ s l m, shift s (l ++ m) = shift (shift s l) m
  inProgress : ∀ s l, ((shift s l).port p).assembler.inProgress = (s.port p).assembler.inProgress

/-- It is enough to look at one byte. -/
theorem TakesRuns.of_byte {p : Port} {byte : State → Byte → State}
    (hbyte : ∀ s b, ((byte s b).port p).assembler.inProgress = (s.port p).assembler.inProgress) :
    TakesRuns p fun s body => body.foldl byte s where
  append _ _ _ := List.foldl_append
  inProgress s l := by
    induction l generalizing s with
    | nil => rfl
    | cons b l ih => exact (ih (byte s b)).trans (hbyte s b)

theorem takesRuns_shiftBytes (p : Port) : TakesRuns p fun s body => s.shiftBytes p body :=
  .of_byte fun s b => by
    rw [State.shiftByte, State.updPort_port_same]
    rfl

theorem PortState.recordTaken_inProgress (ps : PortState) : ps.recordTaken.assembler.inProgress = ps.assembler.inProgress := by
  unfold PortState.recordTaken
  split <;> rfl

theorem PortState.eventByte_inProgress (ps : PortState) : ps.eventByte.assembler.inProgress = ps.assembler.inProgress := by
  unfold PortState.eventByte
  split
  · exact ps.recordTaken_inProgress
  · split <;> exact ps.recordTaken_inProgress

theorem takesRuns_shiftEventByte (p : Port) : TakesRuns p fun s body => body.foldl (State.shiftEventByte p) s :=
  .of_byte fun s b => by rw [State.shiftEventByte_eq, State.updPort_port_same, PortState.eventByte_inProgress]

/-! ## The stages -/

/-- A frame just opened takes any command byte (R186). -/
theorem State.inFrame_openFrame (s : State) (p : Port) (code : Byte) (target : FrameState) (view : List Byte) :
    (s.openFrame p).inFrame p code target view = some ((s.openFrame p).takeCommandByte p code target view) := by
  have hstate : ((s.openFrame p).port p).assembler.state = .command := by rw [State.openFrame, State.updPort_port_same]
  simp only [State.inFrame, hstate]

theorem State.takeCommandByte_inProgress (s : State) (p : Port) (code : Byte) (target : FrameState) (view : List Byte) :
    ((s.takeCommandByte p code target view).port p).assembler.inProgress = (target, some code) := by
  rw [State.takeCommandByte, State.updPort_port_same]
  rfl

section stages

variable {s : State} {p : Port} {code : Byte} {target : FrameState} (htarget : target = .body ∨ target = .ignoring)
include htarget

/-- A frame in progress goes on as it stands, at its own command's stages (R186). -/
theorem State.inFrame_of_inProgress (hframe : (s.port p).assembler.inProgress = (target, some code)) (view : List Byte) :
    s.inFrame p code target view = some s := by
  obtain ⟨hstate, hbyte⟩ := Prod.mk.inj hframe
  rcases htarget with rfl | rfl <;> simp [State.inFrame, hstate, hbyte]

theorem State.openIfWhole_of_inProgress (hframe : (s.port p).assembler.inProgress = (target, some code)) : s.openIfWhole p = s := by
  obtain ⟨hstate, -⟩ := Prod.mk.inj hframe
  refine State.openIfWhole_of_open ?_
  rcases htarget with rfl | rfl <;> simp [State.canOpen, hstate]

/-- A frame sent stage by stage ends as the whole frame: its view is taken with the command byte alone (R186, R197; log 1, 2). -/
theorem State.runFrame_in_parts (hopen : s.canOpen p = true) (view : State → List Byte) {shift : State → List Byte → State} (hshift : TakesRuns p shift)
    (finish : State → Nat → State × FrameOutcome) (b1 b2 : List Byte) (bits : Nat) :
    let run : FrameStage → State → State := fun st t => t.runFrame p code target view shift finish st
    run (.selectHigh b2 bits) (run (.bytes b1) (run .commandByte (s.openFrame p))) = run (.selectHigh (b1 ++ b2) bits) s := by
  intro run
  have hwhole : run (.selectHigh (b1 ++ b2) bits) s = _ := State.runFrame_whole hopen code target view shift finish (b1 ++ b2) bits
  have hcommand : run .commandByte (s.openFrame p) = (s.openFrame p).takeCommandByte p code target (view (s.openFrame p)) := by
    simp only [run, State.runFrame, State.inFrame_openFrame, Option.getD_some]
  have hframe := (s.openFrame p).takeCommandByte_inProgress p code target (view (s.openFrame p))
  rw [hwhole, hcommand]
  generalize (s.openFrame p).takeCommandByte p code target (view (s.openFrame p)) = t at hframe ⊢
  have hbytes : run (.bytes b1) t = shift t b1 := by simp only [run, State.runFrame, State.inFrame_of_inProgress htarget hframe]
  have hframe' := (hshift.inProgress t b1).trans hframe
  rw [hbytes]
  simp only [run, State.runFrame, State.openIfWhole_of_inProgress htarget hframe', State.inFrame_of_inProgress htarget hframe', hshift.append]

end stages

/-! ## The command bytes -/

/-- The read commands with a view (R193, R194, R195). -/
def viewCodes : List Byte := [0x21, 0x23, 0x24]

theorem knownCode_cases : ∀ code ∈ knownCodes, code ∈ lengthCodes ∨ code ∈ viewCodes ∨ code = 0x22 := by decide

/-- The commands of a fixed length hold the bytes of their frame, and differ in what they make of them (R188). -/
theorem exec_lengthCode {code : Byte} (h : code ∈ lengthCodes) (p : Port) :
    ∃ act, ∀ st s, exec (commandOfCode p code st) s = .next (s.runCommand p code act st) := by
  simp only [lengthCodes, List.mem_cons, List.not_mem_nil, or_false] at h
  rcases h with rfl | rfl | rfl | rfl | rfl | rfl | rfl | rfl | rfl | rfl | rfl | rfl | rfl | rfl <;> exact ⟨_, fun _ _ => rfl⟩

/-- The read commands with a view differ in their view (R197). -/
theorem exec_viewCode {code : Byte} (h : code ∈ viewCodes) (p : Port) :
    ∃ view, ∀ st s, exec (commandOfCode p code st) s = .next (s.runRead p code view st) := by
  simp only [viewCodes, List.mem_cons, List.not_mem_nil, or_false] at h
  rcases h with rfl | rfl | rfl <;> exact ⟨_, fun _ _ => rfl⟩

/-- Every command byte's frame goes through the same stages, one way at each of them (R186). -/
theorem exec_commandOfCode_stages (p : Port) (code : Byte) :
    ∃ target view shift finish, (target = .body ∨ target = .ignoring) ∧ TakesRuns p shift ∧
      ∀ st s, exec (commandOfCode p code st) s = .next (s.runFrame p code target view shift finish st) := by
  by_cases h : code ∈ knownCodes
  · rcases knownCode_cases code h with h | h | rfl
    · obtain ⟨_, hexec⟩ := exec_lengthCode h p
      exact ⟨_, _, _, _, .inl rfl, takesRuns_shiftBytes p, hexec⟩
    · obtain ⟨_, hexec⟩ := exec_viewCode h p
      exact ⟨_, _, _, _, .inl rfl, takesRuns_shiftBytes p, hexec⟩
    · exact ⟨_, _, _, _, .inl rfl, takesRuns_shiftEventByte p, fun _ _ => rfl⟩
  · simp only [commandOfCode_unknown p h]
    exact ⟨.ignoring, _, _, _, .inr rfl, takesRuns_shiftBytes p, fun _ _ => rfl⟩

/-- Settles O6. -/
theorem frameInPartsIsTheWholeFrame : Obligations.FrameInPartsIsTheWholeFrame := by
  intro p code b1 b2 bits s hopen
  obtain ⟨target, view, shift, finish, htarget, hshift, hexec⟩ := exec_commandOfCode_stages p code
  refine ⟨_, _, _, exec_frameResultByte_opens hopen, hexec _ _, hexec _ _, ?_⟩
  rw [hexec, hexec]
  exact congrArg _ (State.runFrame_in_parts htarget hopen view hshift finish b1 b2 bits)

end Sys2Proof.Machine
end

