-- ==== Sys2Proof/Proofs/FrameForms.lean ====
section
/-! What a whole frame shows on ASDO and what it holds of its body: the frames in a wrong form, NOP, and the reads of one view (R185 to R188, R192 to R195,
R197). -/

namespace Sys2Proof.Machine

/-! ## What a frame shows -/

@[simp] theorem shownBytes_nil (n : Nat) : shownBytes [] n = List.replicate n 0 := by simp [shownBytes]

@[simp] theorem looseBits_nil (n bits : Nat) : looseBits [] n bits = List.replicate bits false := firstBits_zero bits

/-- A view is shown from its first byte on; past its end that is 00H (R185). -/
theorem shownBytes_succ_left (view : List Byte) (n : Nat) : shownBytes view (n + 1) = view.headD 0 :: shownBytes view.tail n := by
  rw [shownBytes_eq_map, shownBytes_eq_map, List.range_succ_eq_map, List.map_cons, List.map_map]
  cases view <;> rfl

/-- The bytes of a body show the view, 00H behind it, and leave the rest of it to show (R185). -/
theorem State.shiftBytes_shown (p : Port) (body : List Byte) (s : State) :
    ((s.shiftBytes p body).port p).asdo = (s.port p).asdo ++ shownBytes (s.port p).assembler.outData body.length ∧
      ((s.shiftBytes p body).port p).assembler.outData = (s.port p).assembler.outData.drop body.length := by
  induction body generalizing s with
  | nil => exact ⟨(List.append_nil _).symm, rfl⟩
  | cons b body ih =>
    have hfirst : (State.shiftByte p s b).port p = _ := State.updPort_port_same _ _ _
    obtain ⟨hasdo, hout⟩ := ih (State.shiftByte p s b)
    rw [hfirst] at hasdo hout
    dsimp only at hasdo hout
    rw [List.length_cons, shownBytes_succ_left]
    exact ⟨hasdo.trans (List.append_assoc _ _ _), hout.trans List.drop_tail⟩

/-- The end of a frame replaces all that the frame has changed, but for the bytes shown (R187). -/
theorem State.SameButFrame.closeFrame {s t : State} {p : Port} (h : s.SameButFrame t p) (o : FrameOutcome) (bits : Nat) :
    t.closeFrame p o bits = s.updPort p fun ps =>
      { ps with selectHigh := true, assembler := .empty, outcome := o, asdo := (t.port p).asdo,
                asdoBits := firstBits ((t.port p).assembler.outData.headD 0) bits } := by
  obtain ⟨_, _, _, _, rfl⟩ := h
  rw [State.closeFrame, State.updPort_updPort]
  cases p <;> rfl

/-- A frame that does nothing but show its view, with the loose bits at its end, leaves its marks on its port alone (R185, R187, R190). -/
theorem State.closeFrame_shown (s : State) (p : Port) (code : Byte) (target : FrameState) (view body : List Byte) (o : FrameOutcome) (bits : Nat) :
    (((s.openFrame p).takeCommandByte p code target view).shiftBytes p body).closeFrame p o bits =
      s.framed s p o (shownBytes view body.length) (looseBits view body.length bits) := by
  have hframe : s.SameButFrame (((s.openFrame p).takeCommandByte p code target view).shiftBytes p body) p :=
    ((State.sameButFrame_of_port rfl).trans (State.sameButFrame_of_port rfl)).trans (State.shiftBytes_sameButFrame _ p body)
  have hresult : (((s.openFrame p).takeCommandByte p code target view).port p).asdo = [s.frameResultByte p] := by cases p <;> rfl
  have hview : (((s.openFrame p).takeCommandByte p code target view).port p).assembler.outData = view := by cases p <;> rfl
  obtain ⟨hasdo, hout⟩ := State.shiftBytes_shown p body ((s.openFrame p).takeCommandByte p code target view)
  rw [hresult, hview] at hasdo
  rw [hview] at hout
  rw [hframe.closeFrame, hasdo, hout, List.headD_eq_head?_getD, List.head?_drop, ← List.getD_eq_getElem?_getD]
  rfl

/-! ## The form of a frame -/

/-- A frame holds its body from the first byte on: all of it, or up to where its command takes no more; and it counts every byte (R186). -/
theorem State.shiftBytes_held {code : Byte} (p : Port) (body : List Byte) {s : State} (hbyte : (s.port p).assembler.commandByte = some code) :
    ((s.shiftBytes p body).port p).assembler.count = (s.port p).assembler.count + body.length ∧
      ∃ l, l <+: body ∧ ((s.shiftBytes p body).port p).assembler.stored = (s.port p).assembler.stored ++ l ∧
        (l = body ∨ storesByte code ((s.port p).assembler.stored ++ l) = false) := by
  induction body generalizing s with
  | nil => exact ⟨rfl, [], List.nil_prefix, (List.append_nil _).symm, .inl rfl⟩
  | cons b body ih =>
    cases hstores : storesByte code (s.port p).assembler.stored with
    | false =>
      obtain ⟨hstored, hcount⟩ := State.shiftBytes_of_full p (b :: body) hbyte hstores
      exact ⟨hcount, [], List.nil_prefix, hstored.trans (List.append_nil _).symm, .inr (by rwa [List.append_nil])⟩
    | true =>
      have hfirst : (State.shiftByte p s b).port p = _ := State.updPort_port_same _ _ _
      simp only [hbyte, hstores, if_true] at hfirst
      obtain ⟨hcount, l, hl, hstored, hend⟩ := ih (s := State.shiftByte p s b) (by rw [hfirst])
      rw [hfirst] at hcount hstored hend
      dsimp only at hcount hstored hend
      rw [List.append_assoc] at hstored hend
      refine ⟨hcount.trans (by rw [List.length_cons]; omega), b :: l, List.cons_prefix_cons.2 ⟨rfl, hl⟩, hstored, ?_⟩
      exact hend.imp_left (congrArg (b :: ·))

/-- The bytes that decide a frame's length are held where the frame takes no more (R188). -/
theorem frameLength_of_held {code : Byte} {l body : List Byte} (h : l <+: body) (hend : l = body ∨ storesByte code l = false) :
    frameLength code l = frameLength code body := by
  rcases hend with rfl | hfull
  · rfl
  by_cases hcode : code = 0x82
  · subst hcode
    refine frameLength_putBits_of_prefix h (Nat.not_lt.1 fun hshort => ?_)
    have hstores : storesByte 0x82 l = true := by
      rw [storesByte, frameLength_putBits, if_pos hshort]
      exact Bool.and_eq_true_iff.2 ⟨decide_eq_true (Nat.succ_lt_succ hshort), decide_eq_true (Nat.lt_add_right _ hshort)⟩
    exact absurd (hfull.symm.trans hstores) Bool.false_ne_true
  · exact frameLength_eq_of_ne_putBits hcode l body

theorem frameLength_of_no_body : ∀ code ∈ lengthCodes, (frameLength code []).isSome = true := by decide

theorem frameLength_of_lengthCode {code : Byte} (h : code ∈ lengthCodes) (body : List Byte) : ∃ n, frameLength code body = some n := by
  by_cases hputBits : code = 0x82
  · rw [hputBits, frameLength_putBits]
    split <;> exact ⟨_, rfl⟩
  · rw [frameLength_eq_of_ne_putBits hputBits body []]
    exact Option.isSome_iff_exists.1 (frameLength_of_no_body code h)

/-- At its end a frame has the form its command allows exactly if its body has the command's length and no bit follows (R188). -/
theorem State.shifted_formOk_iff (s : State) (p : Port) {code : Byte} (hcode : code ∈ lengthCodes) (body : List Byte) (bits : Nat) :
    (s.shifted p code body).formOk p code bits = true ↔ wholeForm code body bits := by
  have hbegun : (((s.openFrame p).takeCommandByte p code .body []).port p).assembler =
      { FrameAssembler.empty with state := .body, commandByte := some code, outData := [] } := by cases p <;> rfl
  obtain ⟨hcount, l, hl, hstored, hend⟩ := State.shiftBytes_held (code := code) p body (s := (s.openFrame p).takeCommandByte p code .body [])
    (by rw [hbegun])
  rw [hbegun] at hcount hstored hend
  have hstored' : ((s.shifted p code body).port p).assembler.stored = l := hstored
  have hcount' : ((s.shifted p code body).port p).assembler.count = body.length := hcount.trans (Nat.zero_add _)
  have hlength := frameLength_of_held hl hend
  obtain ⟨n, hn⟩ := frameLength_of_lengthCode hcode body
  rw [hn] at hlength
  simp only [State.formOk, wholeForm, hstored', hcount', hlength, hn, Bool.and_eq_true, decide_eq_true_eq, Option.some.injEq]
  exact and_congr_right fun _ => eq_comm

/-! ## Malformed frames -/

section frames

variable {s : State} {p : Port} (hopen : s.canOpen p = true)
include hopen

/-- A frame whose end does nothing shows its view and leaves its marks (R185, R187). -/
theorem State.runFrame_shown {code : Byte} {target : FrameState} {view : State → List Byte} {finish : State → Nat → State × FrameOutcome}
    {o : FrameOutcome} {body : List Byte} {bits : Nat}
    (hfinish : let t := ((s.openFrame p).takeCommandByte p code target (view (s.openFrame p))).shiftBytes p body; finish t bits = (t, o)) :
    s.runFrame p code target view (fun t body => t.shiftBytes p body) finish (.selectHigh body bits) =
      s.framed s p o (shownBytes (view (s.openFrame p)) body.length) (looseBits (view (s.openFrame p)) body.length bits) := by
  dsimp only at hfinish
  rw [State.runFrame_whole hopen]
  dsimp only
  rw [hfinish]
  exact s.closeFrame_shown p code target _ body o bits

/-- A frame in a wrong form is BAD FRAME, whatever its command would do (R188). -/
theorem State.runCommand_of_not_wholeForm {code : Byte} (hcode : code ∈ lengthCodes) {body : List Byte} {bits : Nat} (hform : ¬ wholeForm code body bits)
    (act : State → List Byte → State × FrameOutcome) :
    s.runCommand p code act (.selectHigh body bits) = s.framed s p .badFrame (List.replicate body.length 0) (List.replicate bits false) := by
  refine (State.runFrame_shown hopen (if_neg fun hok => hform ?_)).trans (by rw [shownBytes_nil, looseBits_nil])
  exact (s.shifted_formOk_iff p hcode body bits).1 hok

theorem exec_of_not_wholeForm {code : Byte} (hcode : code ∈ lengthCodes) {body : List Byte} {bits : Nat} (hform : ¬ wholeForm code body bits) :
    exec (commandOfCode p code (.selectHigh body bits)) s =
      .next (s.framed s p .badFrame (List.replicate body.length 0) (List.replicate bits false)) := by
  obtain ⟨act, hexec⟩ := exec_lengthCode hcode p
  rw [hexec, State.runCommand_of_not_wholeForm hopen hcode hform]

theorem exec_unknownCommand (code : Byte) (body : List Byte) (bits : Nat) :
    exec (.unknownCommand p code (.selectHigh body bits)) s =
      .next (s.framed s p .unknownCommand (List.replicate body.length 0) (List.replicate bits false)) := by
  refine congrArg Host.Outcome.next ((State.runFrame_shown hopen rfl).trans ?_)
  rw [shownBytes_nil, looseBits_nil]

/-- A frame that ends within its command byte has shown as many bits of the frame result byte (R185, R188, R190). -/
theorem exec_badFrame (bits : Nat) :
    exec (.badFrame p bits) s = .next (s.updPort p fun ps =>
      { ps with selectHigh := true, assembler := .empty, outcome := .badFrame, asdo := [], asdoBits := firstBits (s.frameResultByte p) bits }) := by
  have hcommand : ((s.openFrame p).port p).assembler.state = .command := by rw [State.openFrame, State.updPort_port_same]
  show Host.Outcome.next ((s.openIfWhole p).endShortFrame p bits) = _
  rw [State.openIfWhole_of_canOpen hopen, State.endShortFrame, if_pos hcommand, State.closeFrame, State.openFrame, State.updPort_updPort]
  rfl

end frames

/-- Settles O7. -/
theorem malformedFramesCarryOutNothing : Obligations.MalformedFramesCarryOutNothing := fun _ _ hopen =>
  ⟨exec_badFrame hopen, fun _ _ _ hcode hform => exec_of_not_wholeForm hopen hcode hform, fun code body bits _ => exec_unknownCommand hopen code body bits⟩

/-! ## NOP -/

theorem wholeForm_nop_iff (body : List Byte) (bits : Nat) : wholeForm 0x00 body bits ↔ body = [] ∧ bits = 0 := by
  have hlength : frameLength 0x00 body = some 1 := rfl
  simp only [wholeForm, hlength, Option.some.injEq, ← List.length_eq_zero_iff]
  omega

/-- Settles O8: NOP has a fixed length, and nothing to do at its end. -/
theorem nopReadsTheOutcome : Obligations.NopReadsTheOutcome := by
  refine fun p s hopen => ⟨congrArg Host.Outcome.next (State.runFrame_shown hopen (if_pos ?_)), fun body bits hlong => ?_⟩
  · exact (s.shifted_formOk_iff p (code := 0x00) (by decide) [] 0).2 ((wholeForm_nop_iff [] 0).2 ⟨rfl, rfl⟩)
  · refine exec_of_not_wholeForm (code := 0x00) hopen (by decide) fun hform => ?_
    obtain ⟨rfl, rfl⟩ := (wholeForm_nop_iff body bits).1 hform
    simp at hlong

/-! ## The reads of one view -/

/-- A read shows its view at any length (R188, R197). -/
theorem State.runRead_whole {s : State} {p : Port} (hopen : s.canOpen p = true) (code : Byte) (view : State → List Byte) (body : List Byte) (bits : Nat) :
    s.runRead p code view (.selectHigh body bits) =
      s.framed s p .ok (shownBytes (view (s.openFrame p)) body.length) (looseBits (view (s.openFrame p)) body.length bits) :=
  State.runFrame_shown hopen rfl

/-- The opening of the frame itself is not in the status record (R193, R197). -/
theorem State.openFrame_statusRecord (s : State) (p : Port) : (s.openFrame p).statusRecord p = s.statusRecord p := by cases p <;> rfl

/-- Settles O9. -/
theorem readsShowOneView : Obligations.ReadsShowOneView := by
  refine fun p body bits s hopen => ⟨?_, congrArg _ (State.runRead_whole hopen 0x23 State.pagesView body bits),
    congrArg _ (State.runRead_whole hopen 0x24 State.bandsView body bits)⟩
  have hread := State.runRead_whole hopen 0x21 (fun t => t.statusRecord p) body bits
  rw [s.openFrame_statusRecord p] at hread
  exact congrArg _ hread

end Sys2Proof.Machine
end

