-- ==== Sys2Proof/Proofs/StatusRecord.lean ====
section
/-! The status record of READ STATUS, byte by byte (R112, R117, R131, R193, R202). -/

namespace Sys2Proof.Machine

/-! ## The payload words held -/

section payload

variable {s : State} {p : Port}

/-- The payload of a command that runs on after a PORT RESET is held with the queue's (R112, R117). -/
theorem State.payloadHeld_of_silent {x : ExecRecord} (hx : s.execution = some x) (hport : x.port = p) (hsilent : x.silent = true) :
    s.payloadHeld p = ((s.port p).queue.map Entry.payloadLength).sum + x.payloadLength := by
  simp only [State.payloadHeld, State.detachedPayload, hx, hport, hsilent, and_self, if_true]

/-- Any other command's payload is held by its entry alone (R112). -/
theorem State.payloadHeld_of_not_silent (h : ∀ x, s.execution = some x → x.port ≠ p ∨ x.silent = false) :
    s.payloadHeld p = ((s.port p).queue.map Entry.payloadLength).sum := by
  have hnone : s.detachedPayload p = 0 := by
    unfold State.detachedPayload
    cases hx : s.execution with
    | none => rfl
    | some x => exact if_neg fun ⟨hport, hsilent⟩ => (h x hx).elim (· hport) fun hno => Bool.false_ne_true (hno.symm.trans hsilent)
  rw [State.payloadHeld, hnone, Nat.add_zero]

end payload

/-! ## The record -/

theorem StreamerState.code_le (st : StreamerState) : st.code ≤ 6 := by cases st <;> simp [StreamerState.code]

/-- The tags of a port's pages, and 00H in the places behind them (R202). -/
theorem tags_padded {tags : List Byte} (h : tags.length ≤ 4) :
    ((List.range 4).map fun i => tags.getD i 0) = tags ++ List.replicate (4 - tags.length) 0 := by
  rw [← shownBytes_eq_map, shownBytes, List.take_append, List.take_of_length_le h, List.take_replicate, Nat.min_eq_left (Nat.sub_le _ _)]

/-- Settles O10: the record is laid out by its definition, and its fields read back. -/
theorem statusRecordLayout : Obligations.StatusRecordLayout := by
  refine ⟨⟨rfl, fun _ _ _ _ _ _ => ⟨rfl, rfl, rfl, rfl, rfl, rfl⟩⟩,
    fun s p => ⟨fun x => State.payloadHeld_of_silent, State.payloadHeld_of_not_silent⟩, ?_⟩
  intro s p hqueue hheld hpages tags
  have hcode := s.streamer.code_le
  have htags : tags.length ≤ 4 := (List.length_map _).trans_le ((List.length_filter_le _ _).trans hpages)
  obtain ⟨henable, hoverflow⟩ := oneByte_page_flags (s.port p).interruptEnable (hasOverflow (s.port p).events)
  rw [Nat.add_comm] at henable hoverflow
  exact ⟨rfl, oneByte_toNat (by show 8 - _ < 256; omega), twoBytes_toNat (by show 1024 - _ < 65536; omega), rfl, hoverflow, henable,
    oneByte_toNat (by omega), oneByte_toNat (n := tags.length) (by omega), tags_padded htags⟩

end Sys2Proof.Machine
end

