-- ==== Sys2Proof/Proofs/LawsAtReset.lean ====
section
/-! The part right after reset: nothing is held, so that every law holds (R198). -/

namespace Sys2Proof.Machine

/-! ## What stands after reset -/

@[simp] theorem State.reset_port (p : Port) : State.reset.port p = PortState.reset := by cases p <;> rfl

@[simp] theorem State.reset_pages : State.reset.pages = [] := rfl

@[simp] theorem State.reset_execution : State.reset.execution = none := rfl

@[simp] theorem State.reset_headEntry (p : Port) : State.reset.headEntry p = none := by rw [State.headEntry, State.reset_port]; rfl

@[simp] theorem State.reset_clearOrder : State.reset.clearOrder = [] := rfl

theorem State.reset_slots {x : Slot} (hx : x ∈ State.reset.slots) : x = .free := List.eq_of_mem_replicate hx

@[simp] theorem State.reset_slot (i : Nat) : State.reset.slot i = .free :=
  (State.forall_slots (Q := fun x => x = .free) rfl).1 (fun _ => State.reset_slots) i

/-! ## The laws -/

theorem eventLaw_nil : eventLaw [] := ⟨by decide, by simp, by simp⟩

theorem State.reset_commandLaw (p : Port) : State.reset.commandLaw p := by
  simp [State.commandLaw, State.headExecuting, State.executesFor, State.payloadAgrees, State.payloadHeld, State.detachedPayload, PortState.reset]

theorem State.reset_headLawful : State.reset.headLawful := ⟨by simp, by simp, rfl⟩

/-- No slot is CLEARING, and none waits for the Clear Unit (R10). -/
theorem State.reset_clearOrderLawful : State.reset.clearOrderLawful :=
  ⟨rfl, List.nodup_nil, by simp, fun i _ => by simp [State.isClearing]⟩

/-- No page, no entry and no command under way reaches a word (R1, R15). -/
theorem State.reset_accessLawful : State.reset.accessLawful :=
  ⟨by simp, by simp [PortState.reset], rfl, by decide⟩

theorem State.reset_bandTableLawful : State.reset.bandTableLawful := by
  refine ⟨fun x hx => ?_, by decide, fun x hx => ?_⟩ <;> rw [State.reset_slots hx] <;> rfl

theorem State.reset_ringLawful : State.reset.ringLawful := by
  refine ⟨State.reset_headLawful, State.reset_bandTableLawful, by simp, fun x hx => ?_, rfl, ?_, rfl⟩
  · rw [State.reset_slots hx]
    rfl
  · simp [State.blankingStreams]

/-- Settles O52. -/
theorem resetIsLawful : Obligations.ResetIsLawful :=
  ⟨⟨State.reset_bandRam_wf, State.reset_tileRam_wf, State.reset_staging_wf .a, State.reset_staging_wf .b⟩, ⟨eventLaw_nil, eventLaw_nil⟩,
    ⟨State.reset_commandLaw .a, State.reset_commandLaw .b⟩, ⟨by simp, by simp, by simp⟩, State.reset_headLawful, State.reset_clearOrderLawful,
    State.reset_accessLawful, State.reset_bandTableLawful, State.reset_ringLawful⟩

end Sys2Proof.Machine
end

section
/-! A step with a command waiting (log 6, 21); `step_of_no_pending` is the step with none. -/

namespace Sys2Proof.Machine

theorem step_of_pending {s : State} {c : Instr} {rest : List Instr} (h : s.pending = c :: rest) :
    step s = exec c { s with pending := rest } := by
  unfold step
  rw [h]

/-- Settles O1: the front of the queue is `c`, and putting the rest in its place forgets the queue that stood there. -/
theorem stepRunsTheFrontCommand : Obligations.StepRunsTheFrontCommand := fun c rest s =>
  step_of_pending (s := { s with pending := c :: rest }) rfl

end Sys2Proof.Machine
end
